-- ==== Sys2Proof/Word.lean ====
section
/-! DEFINITION. The word types of the HZ244: bytes, 16-bit and 32-bit fields, 64-bit addresses. -/

set_option Elab.async false

namespace Sys2Proof

/-- A byte of a record, a character value, a code (chapter 10). -/
abbrev Byte := BitVec 8

/-- A 16-bit field: a tag, a consecutive failures count, a check word. -/
abbrev Half := BitVec 16

/-- A 32-bit field: a register, a count, a Time Base value (R181). -/
abbrev Word := BitVec 32

/-- A 64-bit address in host memory (section 10.2). -/
abbrev Addr := BitVec 64

end Sys2Proof
end

