-- ==== Sys2Proof/Syntax.lean ====
section
/-! DEFINITION. The commands of the HZ244: one constructor of `Instr` for each row of spec/opcode_table.json. -/

set_option Elab.async false

namespace Sys2Proof

/-- The host-written fields of a job record other than its state word and kind (section 10.3). -/
structure JobFields where
  flags : Byte
  tag : Half
  link : Addr
  target : Byte
  /-- the 15 bytes of the parameters field -/
  params : List Byte
  payloadLength : Byte
  /-- the 32 bytes of the payload field -/
  payload : List Byte
  deriving DecidableEq, Repr

/-- What an OVERDUE_REFRESH refreshes: an entry's due time or a line's window due time (R33). -/
inductive RefreshTarget where
  | entry (n : Fin 64)
  | window (l : Fin 4)
  deriving DecidableEq, Repr

/-- The commands. START to NUDGE carry the whole word written to HZCMD, whose own command bit counts as set
(R167). The eleven job rows carry the record that the record read in service returned, POSTED and of the row's
kind (log 3). -/
inductive Instr where
  | start (value : Word)
  | stop (value : Word)
  | reset (value : Word)
  | nudge (value : Word)
  | pinReset
  | rstnRelease
  | hzintWrite (value : Word)
  | hzmaskWrite (value : Word)
  | registerWrite (offset : BitVec 6) (value : Word) (enables : BitVec 4)
  | anchorReadDone (data : List Byte)
  | statusBlockWriteDone
  | cellInitialisationWriteDone
  | linkReadDone (value : Addr)
  | recordReadDone (data : List Byte)
  | setupLine (f : JobFields)
  | lineStatus (f : JobFields)
  | enlist (f : JobFields)
  | delist (f : JobFields)
  | hold (f : JobFields)
  | release (f : JobFields)
  | retune (f : JobFields)
  | order (f : JobFields)
  | broadcast (f : JobFields)
  | cancel (f : JobFields)
  | mark (f : JobFields)
  | takenWriteDone
  | resultWriteDone
  | stateWriteDone
  | tallyWriteDone
  | parkingWriteDone
  | cellOpeningWriteDone
  | cellBodyWriteDone
  | cellClosingWriteDone
  | noticeRecordWriteDone
  | noticeCountWriteDone
  | lostTotalWriteDone
  | droppedAtStopWriteDone
  | noticesTakenReadDone (value : Word)
  | memoryErrorResponse
  | reReadTimerEnd
  | quietTimerExpiry (n : Fin 64)
  | dueTimeReached (n : Fin 64)
  | windowDueTimeReached (l : Fin 4)
  | overdueRefresh (t : RefreshTarget)
  | callSent (l : Fin 4)
  | characterDelivered (l : Fin 4) (value : Byte) (markBit : Bool)
  | turnaroundLimit (l : Fin 4)
  | answerGapLimit (l : Fin 4)
  | restEnd (l : Fin 4)
  | windowEnd (l : Fin 4)
  | settlingEnd (l : Fin 4)
  | lineFoundStuck (l : Fin 4)
  | lineRecovered (l : Fin 4)
  | rxdLevelChange (l : Fin 4)
  | startBitConfirmation (l : Fin 4)
  deriving DecidableEq, Repr

end Sys2Proof
end

