-- ==== Sys2Proof/Decode.lean ====
section
/-! DEFINITION. The command that a word spells by the table's bits. No row of spec/opcode_table.json gives bits
(98_reader.md: "n_rows_with_fixed": 0), so no word spells a command (log 27). -/

set_option Elab.async false

namespace Sys2Proof

/-- The command spelled by `nbits` bits of value `w`: none, since no row of the table gives bits. -/
def decodeTableWord (_nbits _w : Nat) : Option Instr := none

end Sys2Proof
end

