-- ==== Sys2Proof/Config.lean ====
section
/-! DEFINITION. What an implementation fixes, and the two values the spec leaves free. -/

set_option Elab.async false

namespace Sys2Proof

/-- REFCLK periods in a millisecond (R181). -/
def Config.refclkPerMs : Nat := 25000

/-- Units of line time in one REFCLK period. The unit is 1/28.8 GHz, the coarsest in which a REFCLK period of
25 MHz (R181) and half a bit time of every rate of R51 are whole numbers (log 13, DESIGN CHOICE, safe). -/
def Config.unitsPerRefclk : Nat := 1152

/-- Units of line time in half a bit time at 921600 bit/s (R51). -/
def Config.unitsPerHalfBit : Nat := 15625

/-- FREE VALUE (log 5). Which Line Scheduler's request the Notice Writer takes first when several ask for a
hold-buffer place within one step and not all can be granted: "either of two may be taken first" (R44, R156).
The argument is the number of such choices made before. No body: nothing constrains it. -/
opaque Config.firstLine : Nat → Fin 4

/-- FREE VALUE (log 32). For how long, beyond the least unit of line time, a line that a halt has cut off shows mark
before DE is deasserted: R94 gives the order of the two and no interval. No body: nothing constrains it. -/
opaque Config.markBeforeRelease : Nat

end Sys2Proof
end

