-- ==== Sys2Proof/Machine/State.lean ====
section
/-! DEFINITION. The state of the HZ244: every register, queue, buffer, counter, timer and pin of the spec as plain
data, and the queue of waiting commands. INVENTORY.md, heading State, lists each with its rule. -/

set_option Elab.async false

namespace Sys2Proof.Machine

/-! ### Pins and Time Base -/

/-- Input pins. TXD, DE and IRQ are outputs computed in Flags.lean. -/
structure Pins where
  /-- RSTN is asserted (R175) -/
  rstn : Bool
  /-- RXD0 to RXD3 show mark (logic high); false is space (R50) -/
  rxd : Vector Bool 4
  deriving DecidableEq, Repr

/-- The Time Base (R181). -/
structure TimeBase where
  /-- the millisecond value, "now" -/
  now : Word
  /-- REFCLK periods counted in the present millisecond, 0 to 24999 -/
  divider : Nat
  /-- REFCLK periods that have passed, the model's own measure of line time (log 13); no reset touches it -/
  elapsed : Nat
  deriving DecidableEq, Repr

/-! ### Control Block (chapter 9) -/

/-- Part states (section 9.1). -/
inductive PartState where
  | idle | starting | running | stopping | halted
  deriving DecidableEq, Repr

/-- Phases of STARTING (section 9.1). -/
inductive Phase where
  | anchorRead | statusWrite | cellInit
  deriving DecidableEq, Repr

/-- Refusal reasons (section 10.7). -/
inductive RefusalReason where
  | none | notIdle | notRunning | conflict | badFormat | badLayout
  deriving DecidableEq, Repr

/-- Halt reasons (R176). -/
inductive HaltReason where
  | none | bus | align | count
  deriving DecidableEq, Repr

/-- The structure a memory request belongs to (section 9.10). -/
inductive Structure where
  | none | anchor | chain | job | cell | notice | status
  deriving DecidableEq, Repr

/-- Direction of a memory request. -/
inductive Direction where
  | none | read | write
  deriving DecidableEq, Repr

/-- The Control Block's items (R166) and the implied ones of log 24. -/
structure Control where
  part : PartState
  phase : Phase
  /-- a STOP was taken in this STARTING (R172) -/
  startStop : Bool
  anchor : Addr
  ancl : Word
  anch : Word
  refusal : RefusalReason
  haltReason : HaltReason
  faultStruct : Structure
  faultDir : Direction
  faultAddr : Addr
  hzint : BitVec 5
  hzmask : BitVec 5
  sessionCount : Word
  deriving DecidableEq, Repr

/-! ### Memory Port (R182) -/

/-- The five requesters, in the port's cyclic order. -/
inductive Requester where
  | follower | jobUnit | report | notice | control
  deriving DecidableEq, Repr

/-- The requests of R183's table. -/
inductive RequestKind where
  | anchorRead | statusWrite | linkRead | recordRead | takenWrite | resultWrite | stateWrite | tallyWrite
  | parkingWrite | countWrite | lostTotalWrite | droppedWrite | noticesTakenRead
  | cellOpening | cellBody | cellClosing | cellInit | noticeRecord
  deriving DecidableEq, Repr

/-- One transfer on the manager face: a read of so many bytes, or a write of these bytes, lowest address first. -/
inductive Transfer where
  | read (addr : Addr) (length : Nat)
  | write (addr : Addr) (data : List Byte)
  deriving DecidableEq, Repr

/-- A request, with its transfers in the order they are issued (R183). Memory itself is outside the part (log 19). -/
structure Request where
  who : Requester
  kind : RequestKind
  struct : Structure
  dir : Direction
  /-- the first byte the request covers: the fault address of an error response (R182) -/
  addr : Addr
  transfers : List Transfer
  deriving DecidableEq, Repr

/-- The request each requester has waiting at the port, at most one each (section 9.10). -/
structure Waiting where
  follower : Option Request
  jobUnit : Option Request
  report : Option Request
  notice : Option Request
  control : Option Request
  deriving DecidableEq, Repr

/-- The Memory Port (R182). -/
structure Port where
  inService : Option Request
  waiting : Waiting
  pointer : Requester
  deriving DecidableEq, Repr

/-! ### Station Table (chapter 1) -/

/-- States of a station entry (section 1.1). -/
inductive EntryState where
  | vacant | joining | live | mute | held | leaving
  deriving DecidableEq, Repr

/-- The five options of an entry (section 1.1). -/
structure Options where
  slot : Bool
  notify : Bool
  refresh : Bool
  reloadOrder : Bool
  reloadMark : Bool
  deriving DecidableEq, Repr

/-- A station entry (section 1.1). Periods, limits and times are in ms. -/
structure Entry where
  state : EntryState
  line : Fin 4
  address : Byte
  pollPeriod : Word
  quietLimit : Word
  options : Options
  dueTime : Word
  lastPollStart : Word
  quietDeadline : Option Word
  failures : Half
  lastPayload : List Byte
  lastStatus : Byte
  answers : Word
  lastHeard : Word
  seqBit : Bool
  latch : Bool
  holdPending : Bool
  busy : Bool
  deriving DecidableEq, Repr

/-! ### Line Engines (chapter 4) -/

/-- Line states (section 4.1). -/
inductive LineState where
  | off | settling | idle | sending | awaiting | receiving | resting | window | stuck
  deriving DecidableEq, Repr

/-- Kinds of a call to one station (section 1.4). -/
inductive CallKind where
  | poll | fetch | order
  deriving DecidableEq, Repr

/-- Outcomes of an attempt (R78). -/
inductive CallOutcome where
  | good | busy | refused | silent | truncated | badLength | checkError | wrongStation | badStatus | seqError
  | lineStuck
  deriving DecidableEq, Repr

/-- An operation with the details the engine copied at the hand-over (R71). The slots of a window stand in
`Engine.slots`. -/
inductive Operation where
  | call (kind : CallKind) (n : Fin 64) (address : Byte) (seq : Bool) (payload : List Byte)
  | broadcast (payload : List Byte)
  | window
  deriving DecidableEq, Repr

/-- A window slot record (R84). -/
structure SlotRec where
  address : Byte
  entry : Fin 64
  void : Bool
  seen : Bool
  deriving DecidableEq, Repr

/-- What the receiver is doing (R52). A start time is a moment in the units of log 13. -/
inductive Receiver where
  | disabled
  | waitMark
  | hunting
  | confirming (start : Nat)
  | receiving (start : Nat)
  deriving DecidableEq, Repr

/-- The seven line counters (R91). -/
structure Counters where
  callsStarted : Word
  failedAttempts : Word
  strayCharacters : Word
  garbledMarks : Word
  checkErrors : Word
  stuckEvents : Word
  windowsOpened : Word
  deriving DecidableEq, Repr

/-- A call cut off by a halt (R94): the moment at which its bit ends, and the level TXD shows until then. -/
structure CallCut where
  stop : Nat
  level : Bool
  deriving DecidableEq, Repr

/-- A Line Engine (section 4.1). Moments are in the units of log 13. -/
structure Engine where
  lineState : LineState
  op : Option Operation
  slots : List SlotRec
  attempt : Nat
  lastOutcome : Option CallOutcome
  answerBuf : List Byte
  /-- characters taken in the present attempt, drained ones included (R76) -/
  taken : Nat
  draining : Bool
  kept : Option (Byte × List Byte)
  restLength : Nat
  /-- moment the interval of the line state is counted from: first bit time of the call in SENDING, end of the
  call in AWAITING, end of the last character in RECEIVING, the moment of R63 in RESTING, slot 0 in WINDOW -/
  since : Nat
  /-- start of slot 0 of the last window (R66) -/
  windowFrom : Nat
  markRun : Option Nat
  spaceRun : Option Nat
  receiver : Receiver
  /-- the moments at which RXD changed after the start of the character that is being confirmed or taken, or since the
  call in SENDING began (R52) -/
  edges : List Nat
  /-- the call that entering HALTED cut off (R94) -/
  cut : Option CallCut
  /-- the turnaround or gap limit ran out while a start was being confirmed (R75, R76) -/
  limitPassed : Bool
  rateCode : Fin 8
  turnaround : Nat
  retryLimit : Nat
  counters : Counters
  deriving DecidableEq, Repr

/-! ### Line Schedulers (chapter 2) -/

/-- The operation a Scheduler has handed over (section 2.1). `dueSet`: the Station Table set the entry's due time
while the poll was on the wire (R32). A window keeps the addresses of its slot list (R49). -/
inductive InFlight where
  | poll (n : Fin 64) (dueSet : Bool)
  | fetch (n : Fin 64)
  | order (n : Fin 64) (slot : Fin 16)
  | broadcast (slot : Fin 16)
  | window (addresses : List Byte)
  deriving DecidableEq, Repr

/-- A Line Scheduler with the line settings it uses (section 2.1). -/
structure Sched where
  enabled : Bool
  searchPeriod : Word
  windowInterval : Word
  orderBurst : Nat
  orderQueue : List (Fin 16)
  fetchQueue : List (Fin 64)
  ordersInRow : Nat
  windowDue : Option Word
  rotation : Byte
  inFlight : Option InFlight
  deriving DecidableEq, Repr

/-! ### Job Unit (chapters 5 and 6) -/

/-- Chain Follower states (section 5.3). -/
inductive Follower where
  | off | linkRead | recordRead | parkedLink | parkedRecord | paused
  deriving DecidableEq, Repr

/-- The two parked states, as the state a re-read left (R102). -/
inductive Parked where
  | link | record
  deriving DecidableEq, Repr

/-- The eleven kinds of job (section 10.3). -/
inductive JobKind where
  | setupLine | lineStatus | enlist | delist | hold | release | retune | order | broadcast | cancel | mark
  deriving DecidableEq, Repr

/-- Result codes (section 6.13). -/
inductive JobResult where
  | ok | badJob | entryInUse | duplicateAddress | notEnlisted | wrongState | noAnswer | badAnswer | stationBusy
  | refused | stationGone | lineOff | lineStuck | cancelled | aborted | tooLate | notFound
  deriving DecidableEq, Repr

/-- States of a slot in use (R108). -/
inductive SlotState where
  | validating | queued | onWire | waiting | completing
  deriving DecidableEq, Repr

/-- The result of a job (R108, R110): code, attempts used and answer fields. The answer length is the payload's. -/
structure JobEnd where
  result : JobResult
  attempts : Nat
  status : Byte
  payload : List Byte
  deriving DecidableEq, Repr

/-- A job in a slot (R108). -/
structure Job where
  address : Addr
  takingNumber : Word
  kind : Byte
  flags : Byte
  tag : Half
  target : Byte
  params : List Byte
  payloadLength : Byte
  payload : List Byte
  state : SlotState
  /-- the waiting set of a MARK (R138) -/
  waitSet : List (Fin 16)
  /-- the result and the finish time, once decided -/
  result : Option (JobEnd × Word)
  deriving DecidableEq, Repr

/-- A write of the Job Unit's write list (R114). -/
inductive JobWrite where
  | taken (address : Addr)
  | result (slot : Fin 16)
  | state (slot : Fin 16)
  | tally (slot : Fin 16) (value : Word)
  | parking (place : Addr)
  deriving DecidableEq, Repr

/-- The Job Unit (section 5.2). -/
structure JobUnit where
  follower : Follower
  parking : Option Addr
  nextRecord : Option Addr
  interval : Word
  timer : Option Word
  nudgePending : Bool
  rereadOf : Option Parked
  slots : Vector (Option Job) 16
  takingCount : Word
  doneTally : Word
  writes : List JobWrite
  deriving DecidableEq, Repr

/-! ### Report Writer (chapter 7) -/

/-- The next write of a cell update (R145). -/
inductive CellStage where
  | opening | body | closing
  deriving DecidableEq, Repr

/-- The update in progress: its cell, the snapshot of its body and its next write (R145). -/
structure CellUpdate where
  cell : Fin 64
  body : List Byte
  stage : CellStage
  deriving DecidableEq, Repr

/-- The Report Writer (section 7.2). -/
structure ReportWriter where
  tableAddr : Option Addr
  pendingCells : List (Fin 64)
  update : Option CellUpdate
  editions : Vector Word 64
  initCell : Option (Fin 64)
  deriving DecidableEq, Repr

/-! ### Notice Writer (chapter 8) -/

/-- Notice kinds (section 8.2). -/
inductive NoticeKind where
  | joined | muted | restored | changed | attention | left | lineStuck | lineRecovered | lost
  deriving DecidableEq, Repr

/-- A notice without its sequence number (R153). An entry or line of none is written FFh. -/
structure Notice where
  kind : NoticeKind
  entry : Option (Fin 64)
  line : Option (Fin 4)
  address : Byte
  time : Word
  count : Word
  payload : List Byte
  deriving DecidableEq, Repr

/-- The write in progress (R159). -/
structure NoticeWrite where
  notice : Notice
  number : Word
  isLost : Bool
  deriving DecidableEq, Repr

/-- The Notice Writer (section 8.3). -/
structure NoticeWriter where
  area : Option Addr
  sizeExp : Nat
  held : List Notice
  reserved : Vector Bool 4
  lostCount : Word
  /-- the LOST position: how many held notices stand ahead of the owed LOST notice (R160, log 23) -/
  lostAfter : Option Nat
  lostTotal : Word
  lostDue : Bool
  written : Word
  taken : Word
  writing : Option NoticeWrite
  waitingRoom : Bool
  readWanted : Bool
  readInFlight : Bool
  readAgain : Bool
  closing : Bool
  discarded : Bool
  dropped : Word
  droppedDue : Bool
  deriving DecidableEq, Repr

/-! ### The whole state -/

/-- The state of the block, and the commands that wait, first in first out. -/
structure State where
  pending : List Instr
  pins : Pins
  tb : TimeBase
  ctl : Control
  port : Port
  job : JobUnit
  entries : Vector Entry 64
  sched : Vector Sched 4
  eng : Vector Engine 4
  rep : ReportWriter
  ntc : NoticeWriter
  /-- free values used so far (log 5) -/
  freeCount : Nat
  deriving DecidableEq, Repr

/-- No rule of the spec stops the block: what stops the part is its HALTED state (R176), a next state. So there is
no fault: the type has no constructor. -/
inductive Fault where
  deriving DecidableEq, Repr

/-- Reasons to give no meaning. -/
inductive Refusal where
  /-- Raised by `exec` for a command that has no meaning yet. Safe: the model stops. -/
  | notModelled (mnemonic : String)
  deriving DecidableEq, Repr

/-! ### Reset values -/

/-- The vacant values of an entry (R1). -/
def Entry.vacant : Entry :=
  { state := .vacant, line := 0, address := 0, pollPeriod := 0, quietLimit := 0,
    options := ⟨false, false, false, false, false⟩, dueTime := 0, lastPollStart := 0, quietDeadline := none,
    failures := 0, lastPayload := [], lastStatus := 0, answers := 0, lastHeard := 0, seqBit := false,
    latch := false, holdPending := false, busy := false }

/-- All counters at 0 (R91). -/
def Counters.zero : Counters := ⟨0, 0, 0, 0, 0, 0, 0⟩

/-- A Line Engine after a pin, command or session reset (R68). Slot records, the taken count, the draining and
limit flags, the rest length, the two moments and the level changes have no value in the spec (log 4, DESIGN CHOICE,
unsafe). -/
def Engine.reset : Engine :=
  { lineState := .off, op := none, slots := [], attempt := 0, lastOutcome := none, answerBuf := [], taken := 0,
    draining := false, kept := none, restLength := 2, since := 0, windowFrom := 0, markRun := none,
    spaceRun := none, receiver := .disabled, edges := [], cut := none, limitPassed := false, rateCode := 0,
    turnaround := 20, retryLimit := 2, counters := Counters.zero }

/-- A Line Scheduler after a pin, command or session reset (R30). -/
def Sched.reset : Sched :=
  { enabled := false, searchPeriod := 1000, windowInterval := 0, orderBurst := 4, orderQueue := [],
    fetchQueue := [], ordersInRow := 0, windowDue := none, rotation := 1, inFlight := none }

/-- The Job Unit after a pin or command reset (R96). -/
def JobUnit.reset : JobUnit :=
  { follower := .off, parking := none, nextRecord := none, interval := 0, timer := none, nudgePending := false,
    rereadOf := none, slots := Vector.replicate 16 none, takingCount := 0, doneTally := 0, writes := [] }

/-- The Report Writer after a pin or command reset (R143). -/
def ReportWriter.reset : ReportWriter :=
  { tableAddr := none, pendingCells := [], update := none, editions := Vector.replicate 64 0, initCell := none }

/-- The Notice Writer after a pin or command reset (R154). -/
def NoticeWriter.reset : NoticeWriter :=
  { area := none, sizeExp := 0, held := [], reserved := Vector.replicate 4 false, lostCount := 0,
    lostAfter := none, lostTotal := 0, lostDue := false, written := 0, taken := 0, writing := none,
    waitingRoom := false, readWanted := false, readInFlight := false, readAgain := false, closing := false,
    discarded := false, dropped := 0, droppedDue := false }

/-- No request waiting. -/
def Waiting.empty : Waiting := ⟨none, none, none, none, none⟩

/-- The Memory Port after a pin or command reset: the pointer starts at the Control Block (R182). -/
def Port.reset : Port := { inService := none, waiting := Waiting.empty, pointer := .control }

/-- The Control Block after a pin reset (R166). The phase, the STOP flag and the session count have no value in the
spec (log 4, DESIGN CHOICE, unsafe). -/
def Control.reset : Control :=
  { part := .idle, phase := .anchorRead, startStop := false, anchor := 0, ancl := 0, anch := 0, refusal := .none,
    haltReason := .none, faultStruct := .none, faultDir := .none, faultAddr := 0, hzint := 0, hzmask := 0,
    sessionCount := 0 }

/-- The machine right after a pin reset, RSTN released (R175): the part is IDLE and takes register accesses. RXD
shows mark on every line, the level of an idle line (log 4, DESIGN CHOICE, unsafe). -/
def State.reset : State :=
  { pending := [], pins := ⟨false, Vector.replicate 4 true⟩, tb := ⟨0, 0, 0⟩, ctl := Control.reset,
    port := Port.reset, job := JobUnit.reset, entries := Vector.replicate 64 Entry.vacant,
    sched := Vector.replicate 4 Sched.reset, eng := Vector.replicate 4 Engine.reset, rep := ReportWriter.reset,
    ntc := NoticeWriter.reset, freeCount := 0 }

end Sys2Proof.Machine
end

