-- ==== Sys2Proof/Machine/Ops.lean ====
section
/-! DEFINITION. Named operations over the state: byte order, time, the tables of entries, lines and slots, and the
Memory Port. -/

set_option Elab.async false

namespace Sys2Proof.Machine

/-! ### Byte order (R183) -/

/-- The low `n` bytes of `v`, least significant first. -/
def leBytes : Nat → Nat → List Byte
  | 0, _ => []
  | n + 1, v => BitVec.ofNat 8 v :: leBytes n (v / 256)

/-- The number whose bytes, least significant first, are `b`. -/
def leNat : List Byte → Nat
  | [] => 0
  | x :: xs => x.toNat + 256 * leNat xs

/-- The little-endian field of `n` bytes at offset `off`; bytes past the end count as 0. -/
def leField (b : List Byte) (off n : Nat) : Nat := leNat ((b.drop off).take n)

/-- The byte at offset `off`, 0 past the end. -/
def byteAt (b : List Byte) (off : Nat) : Byte := (b.drop off).headD 0

/-- `b` cut or filled with bytes of 0 to `n` bytes (R184). -/
def padTo : Nat → List Byte → List Byte
  | 0, _ => []
  | n + 1, [] => 0 :: padTo n []
  | n + 1, x :: xs => x :: padTo n xs

/-! ### Time (section 5.2, R181) -/

/-- A time is reached when now minus it, modulo 2^32, is below 2^31 (section 5.2). -/
def reached (now t : Word) : Bool := (now - t).toNat < 2 ^ 31

/-- The moment of line time, in the units of log 13. -/
def State.moment (s : State) : Nat := s.tb.elapsed * Config.unitsPerRefclk

/-- How many times 921600 bit/s holds the rate of a rate code (R51). -/
def rateDivisor (code : Fin 8) : Nat :=
  match code.val with
  | 0 => 96
  | 1 => 48
  | 2 => 24
  | 3 => 16
  | 4 => 8
  | 5 => 4
  | 6 => 2
  | _ => 1

/-- Half a bit time at a rate code. -/
def halfBit (code : Fin 8) : Nat := Config.unitsPerHalfBit * rateDivisor code

/-- One bit time: the reciprocal of the line's rate (R51). -/
def bitTime (code : Fin 8) : Nat := 2 * halfBit code

/-- One character time: eleven bit times (R51). -/
def charTime (code : Fin 8) : Nat := 11 * bitTime code

/-- One REFCLK period passes (R181): the Time Base counts, or is held at 0 while RSTN is asserted. This is what a
step does when no command waits (log 2, DESIGN CHOICE). -/
def passRefclk (s : State) : State :=
  if s.pins.rstn then { s with tb := ⟨0, 0, s.tb.elapsed + 1⟩ }
  else if s.tb.divider + 1 < Config.refclkPerMs then
    { s with tb := ⟨s.tb.now, s.tb.divider + 1, s.tb.elapsed + 1⟩ }
  else { s with tb := ⟨s.tb.now + 1, 0, s.tb.elapsed + 1⟩ }

/-! ### The tables of the state -/

/-- Station entry n. -/
def State.entry (s : State) (n : Fin 64) : Entry := s.entries[n.val]

/-- Writes station entry n. -/
def State.setEntry (s : State) (n : Fin 64) (e : Entry) : State :=
  { s with entries := s.entries.set n.val e }

/-- Changes every entry by its index. -/
def State.mapEntries (s : State) (f : Entry → Entry) : State :=
  { s with entries := s.entries.map f }

/-- The Line Engine of line l. -/
def State.engine (s : State) (l : Fin 4) : Engine := s.eng[l.val]

/-- Writes the Line Engine of line l. -/
def State.setEngine (s : State) (l : Fin 4) (e : Engine) : State :=
  { s with eng := s.eng.set l.val e }

/-- The Line Scheduler of line l. -/
def State.scheduler (s : State) (l : Fin 4) : Sched := s.sched[l.val]

/-- Writes the Line Scheduler of line l. -/
def State.setSched (s : State) (l : Fin 4) (q : Sched) : State :=
  { s with sched := s.sched.set l.val q }

/-- The job in slot i, or none when the slot is FREE. -/
def State.slot (s : State) (i : Fin 16) : Option Job := s.job.slots[i.val]

/-- Writes job slot i. -/
def State.setSlot (s : State) (i : Fin 16) (j : Option Job) : State :=
  { s with job := { s.job with slots := s.job.slots.set i.val j } }

/-- RXD of line l shows mark. -/
def State.rxd (s : State) (l : Fin 4) : Bool := s.pins.rxd[l.val]

/-- Whether the Notice Writer holds a reservation for line l. -/
def State.reserved (s : State) (l : Fin 4) : Bool := s.ntc.reserved[l.val]

/-- Sets or ends the reservation of line l. -/
def State.setReserved (s : State) (l : Fin 4) (b : Bool) : State :=
  { s with ntc := { s.ntc with reserved := s.ntc.reserved.set l.val b } }

/-- The four lines, in order. -/
def lines : List (Fin 4) := [0, 1, 2, 3]

/-- The sixteen slots, in order. -/
def slotIndices : List (Fin 16) := List.finRange 16

/-- The 64 entries, in order. -/
def entryIndices : List (Fin 64) := List.finRange 64

/-! ### When the part works -/

/-- The part takes requests, outcomes, marks and expiries: RUNNING or STOPPING (R29), RSTN not asserted. -/
def State.active (s : State) : Bool :=
  !s.pins.rstn && (s.ctl.part == .running || s.ctl.part == .stopping)

/-- The part is RUNNING, RSTN not asserted. -/
def State.running (s : State) : Bool := !s.pins.rstn && s.ctl.part == .running

/-- The part is STARTING in this phase, RSTN not asserted. -/
def State.startingIn (s : State) (p : Phase) : Bool :=
  !s.pins.rstn && s.ctl.part == .starting && s.ctl.phase == p

/-! ### Memory Port (R182) -/

/-- The request that a requester has waiting. -/
def Waiting.get (w : Waiting) : Requester → Option Request
  | .follower => w.follower
  | .jobUnit => w.jobUnit
  | .report => w.report
  | .notice => w.notice
  | .control => w.control

/-- Writes the request that a requester has waiting. -/
def Waiting.put (w : Waiting) (who : Requester) (r : Option Request) : Waiting :=
  match who with
  | .follower => { w with follower := r }
  | .jobUnit => { w with jobUnit := r }
  | .report => { w with report := r }
  | .notice => { w with notice := r }
  | .control => { w with control := r }

/-- A requester has a request at the port, in service or waiting (section 9.10: at most one). -/
def Port.busyFor (p : Port) (who : Requester) : Bool :=
  (p.waiting.get who).isSome || (match p.inService with | some r => r.who == who | none => false)

/-- A requester hands its request to the port: it is issued, and what it writes is fixed now (log 20). -/
def State.issue (s : State) (r : Request) : State :=
  { s with port := { s.port with waiting := s.port.waiting.put r.who (some r) } }

/-- The requesters in cyclic order after one (R182). -/
def Requester.after : Requester → List Requester
  | .follower => [.jobUnit, .report, .notice, .control, .follower]
  | .jobUnit => [.report, .notice, .control, .follower, .jobUnit]
  | .report => [.notice, .control, .follower, .jobUnit, .report]
  | .notice => [.control, .follower, .jobUnit, .report, .notice]
  | .control => [.follower, .jobUnit, .report, .notice, .control]

/-- The first of these requesters that has a request waiting, with the request. -/
def Waiting.first (w : Waiting) : List Requester → Option (Requester × Request)
  | [] => none
  | who :: rest => match w.get who with
    | some r => some (who, r)
    | none => w.first rest

/-- With no request in service the port takes the waiting request of the first requester after its pointer and
moves the pointer to it (R182). -/
def Port.arbitrate (p : Port) : Port :=
  match p.inService with
  | some _ => p
  | none => match p.waiting.first p.pointer.after with
    | some (who, r) => { inService := some r, waiting := p.waiting.put who none, pointer := who }
    | none => p

/-- The port arbitrates. -/
def State.arbitrate (s : State) : State := { s with port := s.port.arbitrate }

/-- The request in service is of this kind. -/
def State.serving (s : State) (k : RequestKind) : Bool :=
  match s.port.inService with
  | some r => r.kind == k
  | none => false

/-- The request in service is carried out: its requester takes the result (R182). -/
def State.served (s : State) : State := { s with port := { s.port with inService := none } }

/-- Drops the request in service and every waiting one: a reset or a halt (R175, R176, log 12). -/
def State.clearPort (s : State) : State :=
  { s with port := { s.port with inService := none, waiting := Waiting.empty } }

end Sys2Proof.Machine
end

