-- ==== Sys2Proof/Machine/Operands.lean ====
section
/-! DEFINITION. Layouts of chapter 10: what the part reads from anchors and job records, what it writes to host
memory, the frames it puts on a line, and the check word. -/

set_option Elab.async false

namespace Sys2Proof.Machine

/-! ### Anchor (section 10.2) -/

/-- The anchor's fields that START uses (section 9.3), and the session count of its status block. -/
structure Anchor where
  format : Half
  k : Byte
  interval : Byte
  report : Addr
  notices : Addr
  firstLink : Addr
  taken : Word
  sessionCount : Word
  deriving DecidableEq, Repr

/-- The anchor's fields in its 256 bytes (section 10.2). -/
def Anchor.ofBytes (b : List Byte) : Anchor :=
  { format := BitVec.ofNat 16 (leField b 0x00 2), k := byteAt b 0x02, interval := byteAt b 0x03,
    report := BitVec.ofNat 64 (leField b 0x08 8), notices := BitVec.ofNat 64 (leField b 0x10 8),
    firstLink := BitVec.ofNat 64 (leField b 0x18 8), taken := BitVec.ofNat 32 (leField b 0x20 4),
    sessionCount := BitVec.ofNat 32 (leField b 0x80 4) }

/-- An address is a whole multiple of n (section 5.1). -/
def aligned (n : Nat) (a : Addr) : Bool := a.toNat % n == 0

/-- The START checks of R170, in their order: the refusal reason of the first that fails. -/
def Anchor.check (a : Anchor) : Option RefusalReason :=
  if a.format ≠ 0x0001 then some .badFormat
  else if ¬ (4 ≤ a.k.toNat ∧ a.k.toNat ≤ 12) then some .badLayout
  else if ¬ aligned 4096 a.report then some .badLayout
  else if ¬ aligned 64 a.notices then some .badLayout
  else none

/-! ### Job record (section 10.3) -/

/-- A job record as a record read returned it. -/
structure JobRecord where
  stateWord : Word
  kind : Byte
  fields : JobFields
  deriving DecidableEq, Repr

/-- State word POSTED. -/
def postedWord : Word := 0x00000001

/-- State word TAKEN. -/
def takenWord : Word := 0x00000002

/-- State word FINISHED. -/
def finishedWord : Word := 0x00000003

/-- A job record's host fields in its 128 bytes (section 10.3). -/
def JobRecord.ofBytes (b : List Byte) : JobRecord :=
  { stateWord := BitVec.ofNat 32 (leField b 0x00 4), kind := byteAt b 0x04,
    fields := { flags := byteAt b 0x05, tag := BitVec.ofNat 16 (leField b 0x06 2),
                link := BitVec.ofNat 64 (leField b 0x08 8), target := byteAt b 0x10,
                params := (b.drop 0x11).take 15, payloadLength := byteAt b 0x20,
                payload := (b.drop 0x28).take 32 } }

/-- The kind a code names, none for a code outside the table (section 10.3). -/
def JobKind.ofCode (c : Byte) : Option JobKind :=
  match c.toNat with
  | 0x01 => some .setupLine
  | 0x02 => some .lineStatus
  | 0x03 => some .enlist
  | 0x04 => some .delist
  | 0x05 => some .hold
  | 0x06 => some .release
  | 0x07 => some .retune
  | 0x08 => some .order
  | 0x09 => some .broadcast
  | 0x0A => some .cancel
  | 0x0B => some .mark
  | _ => none

/-- The code of a kind (section 10.3). -/
def JobKind.code : JobKind → Byte
  | .setupLine => 0x01
  | .lineStatus => 0x02
  | .enlist => 0x03
  | .delist => 0x04
  | .hold => 0x05
  | .release => 0x06
  | .retune => 0x07
  | .order => 0x08
  | .broadcast => 0x09
  | .cancel => 0x0A
  | .mark => 0x0B

/-- The kind of a job in a slot. -/
def Job.kindOf (j : Job) : Option JobKind := JobKind.ofCode j.kind

/-- The flag SIGNAL, bit 0 of the flags (section 10.3). -/
def Job.signal (j : Job) : Bool := j.flags.getLsbD 0

/-- The payload a job carries: as many bytes as its payload length gives (section 5.1). -/
def Job.sent (j : Job) : List Byte := j.payload.take j.payloadLength.toNat

/-- The code of a result (section 10.3). -/
def JobResult.code : JobResult → Byte
  | .ok => 0x00
  | .badJob => 0x01
  | .entryInUse => 0x02
  | .duplicateAddress => 0x03
  | .notEnlisted => 0x04
  | .wrongState => 0x05
  | .noAnswer => 0x06
  | .badAnswer => 0x07
  | .stationBusy => 0x09
  | .refused => 0x0A
  | .stationGone => 0x0B
  | .lineOff => 0x0C
  | .lineStuck => 0x0D
  | .cancelled => 0x0E
  | .aborted => 0x0F
  | .tooLate => 0x10
  | .notFound => 0x11

/-- The address of a record's link field (section 10.3). -/
def linkField (record : Addr) : Addr := record + 0x08

/-! ### Parameters (section 10.4) -/

/-- A SETUP LINE's parameters, each setting as an unsigned number, and its change set. -/
structure SetupParams where
  enable : Bool
  rate : Option Nat
  turnaround : Option Nat
  retry : Option Nat
  burst : Option Nat
  search : Option Nat
  window : Option Nat
  deriving DecidableEq, Repr

/-- A setting of the change set, absent when its bit is clear (R120). -/
def changed (changeSet : Byte) (bit value : Nat) : Option Nat :=
  if changeSet.getLsbD bit then some value else none

/-- SETUP LINE's parameters (section 10.4). -/
def SetupParams.ofBytes (p : List Byte) : SetupParams :=
  let c := byteAt p 1
  { enable := (byteAt p 0).getLsbD 0,
    rate := changed c 0 (byteAt p 2).toNat, turnaround := changed c 1 (byteAt p 3).toNat,
    retry := changed c 2 (byteAt p 4).toNat, burst := changed c 3 (byteAt p 5).toNat,
    search := changed c 4 (leField p 6 2), window := changed c 5 (leField p 8 2) }

/-- A changed setting lies in its range. -/
def inRange (v : Option Nat) (lo hi : Nat) : Bool :=
  match v with
  | some x => lo ≤ x && x ≤ hi
  | none => true

/-- The range checks of a SETUP LINE (section 6.2, R120). -/
def SetupParams.valid (p : SetupParams) : Bool :=
  inRange p.rate 0 7 && inRange p.turnaround 2 255 && inRange p.retry 0 7 && inRange p.burst 1 8 &&
    inRange p.search 100 10000 && (p.window == some 0 || inRange p.window 20 10000)

/-- The parameters of an ENLIST or RETUNE, line and address as bytes (section 10.4). -/
structure StationParams where
  line : Byte
  address : Byte
  pollPeriod : Word
  quietLimit : Word
  options : Byte
  deriving DecidableEq, Repr

/-- ENLIST's and RETUNE's parameters (section 10.4). -/
def StationParams.ofBytes (p : List Byte) : StationParams :=
  { line := byteAt p 0, address := byteAt p 1, pollPeriod := BitVec.ofNat 32 (leField p 2 2),
    quietLimit := BitVec.ofNat 32 (leField p 4 4), options := byteAt p 8 }

/-- Range checks 1 and 2 of R124: line and address. -/
def StationParams.placeValid (p : StationParams) : Bool :=
  p.line.toNat ≤ 3 && (1 ≤ p.address.toNat && p.address.toNat ≤ 254)

/-- Range checks 3 to 5 of R124: poll period, quiet limit and options. -/
def StationParams.tuningValid (p : StationParams) : Bool :=
  (10 ≤ p.pollPeriod.toNat && p.pollPeriod.toNat ≤ 60000) &&
    (p.quietLimit == 0 ||
      (2 * p.pollPeriod.toNat ≤ p.quietLimit.toNat && p.quietLimit.toNat ≤ 600000)) &&
    p.options.toNat < 32

/-- The options a byte names (section 10.4). -/
def Options.ofByte (b : Byte) : Options :=
  ⟨b.getLsbD 0, b.getLsbD 1, b.getLsbD 2, b.getLsbD 3, b.getLsbD 4⟩

/-- A CANCEL's match tag (section 10.4). -/
def matchTag (p : List Byte) : Half := BitVec.ofNat 16 (leField p 0 2)

/-- The entry index of a target byte, none out of range (R118). -/
def targetEntry (t : Byte) : Option (Fin 64) := if h : t.toNat < 64 then some ⟨t.toNat, h⟩ else none

/-- The line number of a target byte, none out of range (R118). -/
def targetLine (t : Byte) : Option (Fin 4) := if h : t.toNat < 4 then some ⟨t.toNat, h⟩ else none

/-! ### Report cell and notice record (section 10.5) -/

/-- The code of an entry state (section 10.5). -/
def EntryState.code : EntryState → Byte
  | .vacant => 0
  | .joining => 1
  | .live => 2
  | .mute => 3
  | .held => 4
  | .leaving => 5

/-- A cell's bytes 04h to 3Fh taken from an entry (R142, section 10.5). -/
def cellBody (e : Entry) : List Byte :=
  [e.state.code, BitVec.ofNat 8 e.line.val, e.address, e.lastStatus] ++ leBytes 2 e.failures.toNat ++
    [BitVec.ofNat 8 e.lastPayload.length, 0] ++ leBytes 4 e.lastHeard.toNat ++ leBytes 4 e.answers.toNat ++
    List.replicate 12 0 ++ padTo 32 e.lastPayload

/-- The code of a notice kind (section 10.5). -/
def NoticeKind.code : NoticeKind → Byte
  | .joined => 1
  | .muted => 2
  | .restored => 3
  | .changed => 4
  | .attention => 5
  | .left => 6
  | .lineStuck => 7
  | .lineRecovered => 8
  | .lost => 9

/-- A byte for an index, FFh for none (section 8.2). -/
def indexByte {n : Nat} : Option (Fin n) → Byte
  | some i => BitVec.ofNat 8 i.val
  | none => 0xFF

/-- The 64 bytes of a notice record (section 10.5). -/
def noticeBytes (number : Word) (t : Notice) : List Byte :=
  leBytes 4 number.toNat ++ [t.kind.code, indexByte t.entry, indexByte t.line, t.address] ++
    leBytes 4 t.time.toNat ++ leBytes 4 t.count.toNat ++ [BitVec.ofNat 8 t.payload.length] ++
    List.replicate 15 0 ++ padTo 32 t.payload

/-! ### Requests (R183) -/

/-- Address of a status block or host area field of the session's anchor. -/
def State.anchorAt (s : State) (off : Nat) : Addr := s.ctl.anchor + BitVec.ofNat 64 off

/-- The address of the anchor's first-link field (section 10.2). -/
def State.firstLinkField (s : State) : Addr := s.anchorAt 0x18

/-- A read request of one transfer. -/
def readRequest (who : Requester) (k : RequestKind) (st : Structure) (a : Addr) (len : Nat) : Request :=
  { who := who, kind := k, struct := st, dir := .read, addr := a, transfers := [.read a len] }

/-- A write request of one transfer. -/
def writeRequest (who : Requester) (k : RequestKind) (st : Structure) (a : Addr) (d : List Byte) : Request :=
  { who := who, kind := k, struct := st, dir := .write, addr := a, transfers := [.write a d] }

/-- A status block write of a field at `off` and then of the clock, which carries now (R181, R183). -/
def State.statusRequest (s : State) (who : Requester) (k : RequestKind) (off : Nat) (d : List Byte) : Request :=
  { who := who, kind := k, struct := .status, dir := .write, addr := s.anchorAt off,
    transfers := [.write (s.anchorAt off) d, .write (s.anchorAt 0x94) (leBytes 4 s.tb.now.toNat)] }

/-- The structure a link word belongs to: ANCHOR for the anchor's first-link field, CHAIN otherwise (R99). -/
def State.linkStructure (s : State) (place : Addr) : Structure :=
  if place = s.firstLinkField then .anchor else .chain

/-- The result fields of a record, bytes 48h to 6Fh (section 10.3, R110). -/
def resultBytes (e : JobEnd) (finish : Word) : List Byte :=
  [e.result.code, BitVec.ofNat 8 e.attempts, e.status, BitVec.ofNat 8 e.payload.length] ++
    leBytes 4 finish.toNat ++ padTo 32 e.payload

/-- The request of a write on the write list (R111, R114, R183); a slot that holds no job gives none. -/
def State.jobRequest (s : State) : JobWrite → Option Request
  | .taken a => some (writeRequest .jobUnit .takenWrite .job a (leBytes 4 takenWord.toNat))
  | .result i => match s.slot i with
    | some j => match j.result with
      | some (e, t) => some (writeRequest .jobUnit .resultWrite .job (j.address + 0x48) (resultBytes e t))
      | none => none
    | none => none
  | .state i => match s.slot i with
    | some j => some (writeRequest .jobUnit .stateWrite .job j.address (leBytes 4 finishedWord.toNat))
    | none => none
  | .tally _ v => some (s.statusRequest .jobUnit .tallyWrite 0x84 (leBytes 4 v.toNat))
  | .parking a => some (s.statusRequest .jobUnit .parkingWrite 0x98 (leBytes 8 a.toNat))

/-- Cell n's first byte (R141). -/
def State.cellAddr (s : State) (n : Fin 64) : Addr :=
  s.rep.tableAddr.getD 0 + BitVec.ofNat 64 (64 * n.val)

/-- The write of a cell update's present stage (R145). -/
def State.cellRequest (s : State) (u : CellUpdate) : Request :=
  let ed := s.rep.editions[u.cell.val]
  match u.stage with
  | .opening => writeRequest .report .cellOpening .cell (s.cellAddr u.cell) (leBytes 4 (ed + 1).toNat)
  | .body => writeRequest .report .cellBody .cell (s.cellAddr u.cell + 0x04) u.body
  | .closing => writeRequest .report .cellClosing .cell (s.cellAddr u.cell) (leBytes 4 (ed + 2).toNat)

/-- The whole-cell initialisation write of cell n: 64 bytes of 0 (R147). -/
def State.initRequest (s : State) (n : Fin 64) : Request :=
  writeRequest .report .cellInit .cell (s.cellAddr n) (List.replicate 64 0)

/-- The size of the notice area, 2^k (R152). -/
def State.noticeSize (s : State) : Nat := 2 ^ s.ntc.sizeExp

/-- The record write of a notice: record (notices written) mod size (R159). -/
def State.noticeRequest (s : State) (w : NoticeWrite) : Request :=
  let i := s.ntc.written.toNat % s.noticeSize
  writeRequest .notice .noticeRecord .notice (s.ntc.area.getD 0 + BitVec.ofNat 64 (64 * i))
    (noticeBytes w.number w.notice)

/-! ### Frames and the check word (chapter 3) -/

/-- One shift of the check word register (R60). -/
def crcShift (r : Half) : Half := if r.getLsbD 15 then (r <<< 1) ^^^ 0x1021 else r <<< 1

/-- One covered byte: exclusive-or into the high eight bits, then eight shifts (R60). -/
def crcByte (r : Half) (b : Byte) : Half :=
  crcShift (crcShift (crcShift (crcShift (crcShift (crcShift (crcShift (crcShift
    (r ^^^ (b.setWidth 16 <<< 8)))))))))

/-- The check word over these bytes (R60). -/
def checkWord (b : List Byte) : Half := b.foldl crcByte 0xFFFF

/-- The two check word characters, high byte first (R60). -/
def checkBytes (b : List Byte) : List Byte :=
  [(checkWord b >>> 8).setWidth 8, (checkWord b).setWidth 8]

/-- A character of a line: its value and its mark bit (R51, R52). -/
structure LineChar where
  value : Byte
  mark : Bool
  deriving DecidableEq, Repr

/-- The kind codes of the control character (section 10.6). -/
def CallKind.code : CallKind → Byte
  | .poll => 1
  | .order => 2
  | .fetch => 3

/-- The control character of a call; the sequence bit, bit 3, is sent for an ORDER only (R185). -/
def controlChar (k : CallKind) (seq : Bool) : Byte :=
  if k = .order ∧ seq then k.code ||| 0x08 else k.code

/-- A call's characters: address with mark bit 1, control, length, payload, check word over control to payload
(R54, R60). -/
def callFrame (address control : Byte) (payload : List Byte) : List LineChar :=
  let covered := control :: BitVec.ofNat 8 payload.length :: payload
  ⟨address, true⟩ :: (covered ++ checkBytes covered).map (fun b => ⟨b, false⟩)

/-- The payload of an operation's call: none for POLL and FETCH, the slot addresses for WINDOW (R55, R65). -/
def Engine.frame (e : Engine) : List LineChar :=
  match e.op with
  | some (.call k _ a seq p) => callFrame a (controlChar k seq) (if k = .order then p else [])
  | some (.broadcast p) => callFrame 0 4 p
  | some .window => callFrame 0 5 (e.slots.map (·.address))
  | none => []

/-- How long the sending of a frame lasts: one bit time of mark, then its characters back to back (R50, R51). -/
def Engine.sendTime (e : Engine) : Nat :=
  bitTime e.rateCode + e.frame.length * charTime e.rateCode

/-! ### The status character of an answer (R58, R185) -/

/-- The attention flag, bit 2. -/
def attentionFlag (status : Byte) : Bool := status.getLsbD 2

/-- The sequence echo, bit 3. -/
def sequenceEcho (status : Byte) : Bool := status.getLsbD 3

/-- The outcome that a well-formed answer's status code gives; none for code 3 (R77). -/
def statusOutcome (status : Byte) : Option CallOutcome :=
  match (status &&& 0x03).toNat with
  | 0 => some .good
  | 1 => some .busy
  | 2 => some .refused
  | _ => none

/-- The outcome of a complete answer by the tests of R77 in their order: check word, echo, status code, and for an
ORDER the sequence echo. `buf` holds echo, status, length, payload and the two check word characters. -/
def judgeAnswer (k : CallKind) (address : Byte) (seq : Bool) (buf : List Byte) : CallOutcome :=
  let covered := buf.take (buf.length - 2)
  if checkBytes covered ≠ buf.drop (buf.length - 2) then .checkError
  else if byteAt buf 0 ≠ address then .wrongStation
  else match statusOutcome (byteAt buf 1) with
    | none => .badStatus
    | some o => if k = .order ∧ sequenceEcho (byteAt buf 1) ≠ seq then .seqError else o

/-- A good answer: GOOD, BUSY or REFUSED (R5). -/
def CallOutcome.isGood : CallOutcome → Bool
  | .good => true
  | .busy => true
  | .refused => true
  | _ => false

/-- The outcomes after which a call goes on while attempts remain (R78). -/
def CallOutcome.retried : CallOutcome → Bool
  | .good => false
  | .refused => false
  | .lineStuck => false
  | _ => true

/-- The outcomes counted in failed attempts (R78). -/
def CallOutcome.counted (o : CallOutcome) : Bool := !o.isGood

/-- The job result of an ORDER's final outcome (R80). -/
def CallOutcome.jobResult : CallOutcome → JobResult
  | .good => .ok
  | .silent => .noAnswer
  | .truncated => .badAnswer
  | .badLength => .badAnswer
  | .checkError => .badAnswer
  | .wrongStation => .badAnswer
  | .badStatus => .badAnswer
  | .seqError => .badAnswer
  | .busy => .stationBusy
  | .refused => .refused
  | .lineStuck => .lineStuck

/-- The code of a line state (section 10.4). -/
def LineState.code : LineState → Byte
  | .off => 0
  | .settling => 1
  | .idle => 2
  | .sending => 3
  | .awaiting => 4
  | .receiving => 5
  | .resting => 6
  | .window => 7
  | .stuck => 8

/-- The 29 bytes of a LINE STATUS answer (R123, section 10.4). -/
def snapshot (e : Engine) : List Byte :=
  leBytes 4 e.counters.callsStarted.toNat ++ leBytes 4 e.counters.failedAttempts.toNat ++
    leBytes 4 e.counters.strayCharacters.toNat ++ leBytes 4 e.counters.garbledMarks.toNat ++
    leBytes 4 e.counters.checkErrors.toNat ++ leBytes 4 e.counters.stuckEvents.toNat ++
    leBytes 4 e.counters.windowsOpened.toNat ++ [e.lineState.code]

end Sys2Proof.Machine
end

