-- ==== Sys2Proof/Machine/Flags.lean ====
section
/-! DEFINITION. Interrupt causes and output, the registers as they read, the output pins, and the line counters. -/

set_option Elab.async false

namespace Sys2Proof.Machine

/-! ### Interrupts (section 9.7) -/

/-- The five causes, with their bits in HZINT and HZMASK (section 10.7). -/
inductive Cause where
  | jobs | notice | stopped | halted | refused
  deriving DecidableEq, Repr

/-- The bit of a cause. -/
def Cause.bit : Cause → BitVec 5
  | .jobs => 0b00001
  | .notice => 0b00010
  | .stopped => 0b00100
  | .halted => 0b01000
  | .refused => 0b10000

/-- Sets a cause in HZINT, whether or not it is set or enabled (R178). -/
def State.setCause (s : State) (c : Cause) : State :=
  { s with ctl := { s.ctl with hzint := s.ctl.hzint ||| c.bit } }

/-- The interrupt output: HZINT and HZMASK have a set bit in common (R179); low while RSTN is asserted (R175). -/
def State.irq (s : State) : Bool := !s.pins.rstn && (s.ctl.hzint &&& s.ctl.hzmask) != 0

/-! ### Registers as they read (section 10.7) -/

/-- Code of the part state in HZSTAT. -/
def PartState.code : PartState → Word
  | .idle => 0
  | .starting => 1
  | .running => 2
  | .stopping => 3
  | .halted => 4

/-- Code of the refusal reason in HZSTAT. -/
def RefusalReason.code : RefusalReason → Word
  | .none => 0
  | .notIdle => 1
  | .notRunning => 2
  | .conflict => 3
  | .badFormat => 4
  | .badLayout => 5

/-- Code of the halt reason in HZSTAT. -/
def HaltReason.code : HaltReason → Word
  | .none => 0
  | .bus => 1
  | .align => 2
  | .count => 3

/-- Code of the fault structure in HZSTAT. -/
def Structure.code : Structure → Word
  | .none => 0
  | .anchor => 1
  | .chain => 2
  | .job => 3
  | .cell => 4
  | .notice => 5
  | .status => 6

/-- Code of the fault direction in HZSTAT. -/
def Direction.code : Direction → Word
  | .none => 0
  | .read => 1
  | .write => 2

/-- HZSTAT (section 10.7). -/
def State.hzstat (s : State) : Word :=
  s.ctl.part.code ||| (s.ctl.refusal.code <<< 4) ||| (s.ctl.haltReason.code <<< 8) |||
    (s.ctl.faultStruct.code <<< 12) ||| (s.ctl.faultDir.code <<< 16)

/-- HZID: vendor code A4D0h, part number 244h, revision 1 (section 10.7). -/
def hzid : Word := 0xA4D02441

/-- What a read of the register at a 4-byte aligned offset returns (R180). A read changes nothing. -/
def State.readRegister (s : State) (offset : BitVec 6) : Word :=
  match offset.toNat with
  | 0x00 => hzid
  | 0x08 => s.hzstat
  | 0x0C => s.ctl.hzint.setWidth 32
  | 0x10 => s.ctl.hzmask.setWidth 32
  | 0x14 => s.ctl.ancl
  | 0x18 => s.ctl.anch
  | 0x1C => s.ctl.faultAddr.setWidth 32
  | 0x20 => (s.ctl.faultAddr >>> 32).setWidth 32
  | _ => 0

/-! ### Output pins of a line (R50, R51, log 26) -/

/-- DE is asserted while a call is being sent (R50, R73), and on a line that a halt has cut off until TXD has shown mark
(R94, log 32). Where CALL_SENT is taken later than the exact end of the last stop bit, DE stays asserted until the row is
taken, with TXD at mark (log 38, DESIGN CHOICE). -/
def Engine.de (moment : Nat) (e : Engine) : Bool :=
  match e.lineState, e.cut with
  | .sending, _ => true
  | .off, some c => moment ≤ c.stop + Config.markBeforeRelease
  | _, _ => false

/-- The level of bit `k` of a character, 0 the start bit: space, eight data bits, mark bit, mark (R51). -/
def LineChar.level (c : LineChar) (k : Nat) : Bool :=
  if k = 0 then false else if k ≤ 8 then c.value.getLsbD (k - 1) else if k = 9 then c.mark else true

/-- The level of TXD (R50): mark at rest; while sending, one bit time of mark and then the characters back to back; on
a line that a halt has cut off, the level of the bit in progress until that bit ends (R94). -/
def Engine.txd (moment : Nat) (e : Engine) : Bool :=
  match e.lineState, e.cut with
  | .sending, _ =>
    match (moment - e.since) / bitTime e.rateCode with
    | 0 => true
    | b + 1 => match (e.frame.drop (b / 11)).head? with
      | some c => c.level (b % 11)
      | none => true
  | .off, some c => c.level || decide (c.stop ≤ moment)
  | _, _ => true

/-- DE of line l. -/
def State.deAsserted (s : State) (l : Fin 4) : Bool := (s.engine l).de s.moment

/-- TXD of line l shows mark. -/
def State.txdLevel (s : State) (l : Fin 4) : Bool := (s.engine l).txd s.moment

/-! ### Line counters (R91): each wraps -/

/-- Adds 1 to calls started. -/
def Engine.countCall (e : Engine) : Engine :=
  { e with counters := { e.counters with callsStarted := e.counters.callsStarted + 1 } }

/-- Adds 1 to failed attempts. -/
def Engine.countFailed (e : Engine) : Engine :=
  { e with counters := { e.counters with failedAttempts := e.counters.failedAttempts + 1 } }

/-- Adds 1 to stray characters. -/
def Engine.countStray (e : Engine) : Engine :=
  { e with counters := { e.counters with strayCharacters := e.counters.strayCharacters + 1 } }

/-- Adds 1 to garbled marks. -/
def Engine.countGarbled (e : Engine) : Engine :=
  { e with counters := { e.counters with garbledMarks := e.counters.garbledMarks + 1 } }

/-- Adds 1 to check errors. -/
def Engine.countCheck (e : Engine) : Engine :=
  { e with counters := { e.counters with checkErrors := e.counters.checkErrors + 1 } }

/-- Adds 1 to stuck events. -/
def Engine.countStuck (e : Engine) : Engine :=
  { e with counters := { e.counters with stuckEvents := e.counters.stuckEvents + 1 } }

/-- Adds 1 to windows opened. -/
def Engine.countWindow (e : Engine) : Engine :=
  { e with counters := { e.counters with windowsOpened := e.counters.windowsOpened + 1 } }

/-- What an ended attempt adds: 1 to failed attempts for a counted outcome, 1 to check errors for CHECK_ERROR
(R77, R78). -/
def Engine.countOutcome (e : Engine) (o : CallOutcome) : Engine :=
  let e := if o.counted then e.countFailed else e
  if o = .checkError then e.countCheck else e

/-- The 16-bit consecutive failures count saturates at 65535 (R5). -/
def saturate16 (x : Half) : Half := if x = 0xFFFF then x else x + 1

/-- The 32-bit lost count saturates at FFFFFFFFh (R155). -/
def saturate32 (x : Word) : Word := if x = 0xFFFFFFFF then x else x + 1

end Sys2Proof.Machine
end

