-- ==== Sys2Proof/Machine/Control.lean ====
section
/-! DEFINITION. The Control Block's shared operations: resets, the session reset, entering HALTED, refusals. -/

set_option Elab.async false

namespace Sys2Proof.Machine

/-- A Line Engine put into OFF by a line disable or the end of a stop, and by a halt (R68): settings and counters are
kept, the operation is gone, the receiver is disabled and both runs stop. -/
def Engine.turnedOff (e : Engine) : Engine :=
  { Engine.reset with
    restLength := e.restLength, since := e.since, windowFrom := e.windowFrom, rateCode := e.rateCode,
    turnaround := e.turnaround, retryLimit := e.retryLimit, counters := e.counters }

/-- The end of the bit that is being sent at a moment; the moment itself between two bits. -/
def Engine.bitEnd (moment : Nat) (e : Engine) : Nat :=
  e.since + (moment - e.since + bitTime e.rateCode - 1) / bitTime e.rateCode * bitTime e.rateCode

/-- A Line Engine at the entering of HALTED (R68, R94): OFF without its operation, whatever its state; a call that is
being sent stops at the end of its bit. -/
def Engine.halted (moment : Nat) (e : Engine) : Engine :=
  { e.turnedOff with
    cut := if e.lineState = .sending then some ⟨e.bitEnd moment, e.txd moment⟩ else none }

/-- A Line Scheduler's line disable (R30): the queues' items are dealt with by the caller. -/
def Sched.disabled (q : Sched) : Sched :=
  { q with enabled := false, fetchQueue := [], ordersInRow := 0, windowDue := none, rotation := 1 }

/-- A Line Scheduler at the end of a stop (R30): settings kept, the line OFF. -/
def Sched.stopped (q : Sched) : Sched :=
  { q.disabled with orderQueue := [], inFlight := none }

/-- The Job Unit at the end of a stop (R96). -/
def JobUnit.stopped (u : JobUnit) : JobUnit :=
  { u with follower := .off, nextRecord := none, timer := none, nudgePending := false, rereadOf := none,
           slots := Vector.replicate 16 none, writes := [] }

/-- The Report Writer at the end of a stop (R143). -/
def ReportWriter.stopped (r : ReportWriter) : ReportWriter :=
  { r with pendingCells := [], update := none, initCell := none }

/-- The Notice Writer at the end of a stop (R154). -/
def NoticeWriter.stopped (w : NoticeWriter) : NoticeWriter :=
  { w with held := [], reserved := Vector.replicate 4 false, lostCount := 0, lostAfter := none, lostDue := false,
           writing := none, waitingRoom := false, readWanted := false, readInFlight := false, readAgain := false,
           closing := false, discarded := false, droppedDue := false }

/-- A pin reset (R175): every block at its pin reset values while RSTN is asserted. The levels on RXD are inputs and
stay; the queue and the model's own counts are no part of the hardware. -/
def pinReset (s : State) : State :=
  { State.reset with pending := s.pending, pins := { s.pins with rstn := true },
                     tb := ⟨0, 0, s.tb.elapsed⟩, freeCount := s.freeCount }

/-- A command reset (R175): as a pin reset, but ANCL and ANCH are kept and RSTN is not asserted. -/
def commandReset (s : State) : State :=
  { State.reset with pending := s.pending, pins := s.pins, tb := ⟨0, 0, s.tb.elapsed⟩,
                     ctl := { Control.reset with ancl := s.ctl.ancl, anch := s.ctl.anch },
                     freeCount := s.freeCount }

/-- The session reset (R171): every block takes its session-reset values (R1, R30, R68, R96, R143, R154), from the
anchor read where they come from there. -/
def sessionReset (a : Anchor) (s : State) : State :=
  { s with
    ctl := { s.ctl with sessionCount := a.sessionCount + 1 },
    entries := Vector.replicate 64 Entry.vacant,
    sched := Vector.replicate 4 Sched.reset,
    eng := Vector.replicate 4 Engine.reset,
    job := { JobUnit.reset with parking := some s.firstLinkField, interval := a.interval.setWidth 32 },
    rep := { ReportWriter.reset with tableAddr := some a.report },
    ntc := { NoticeWriter.reset with area := some a.notices, sizeExp := a.k.toNat, taken := a.taken } }

/-- Entering HALTED (R176): one action of every block. The Control Block records reason and capture and sets HALTED;
the Line Engines abandon their operations and go OFF (R94); the re-read timer stops (R96); no request is at the
port afterwards (R182, log 12); every other item stays as it stood. -/
def enterHalted (why : HaltReason) (a : Addr) (st : Structure) (d : Direction) (s : State) : State :=
  { s.clearPort with
    ctl := { s.ctl with part := .halted, haltReason := why, faultAddr := a, faultStruct := st, faultDir := d,
                        hzint := s.ctl.hzint ||| Cause.halted.bit },
    eng := s.eng.map (Engine.halted s.moment),
    job := { s.job with timer := none } }

/-- The part halts with COUNT: the capture names the anchor's notices-taken field (R162). -/
def haltCount (s : State) : State := enterHalted .count (s.anchorAt 0x20) .anchor .read s

/-- The part halts with ALIGN: the capture names the link word that held the value (R99). -/
def haltAlign (place : Addr) (s : State) : State :=
  enterHalted .align place (s.linkStructure place) .read s

/-- A refused command sets the refusal reason and the REFUSED cause and changes nothing else (R167). -/
def refuse (r : RefusalReason) (s : State) : State :=
  { s with ctl := { s.ctl with refusal := r, hzint := s.ctl.hzint ||| Cause.refused.bit } }

/-- The part goes from STARTING to IDLE after a STOP and sets STOPPED (R172); the blocks stay as they are. -/
def endStarting (s : State) : State :=
  { s with ctl := { s.ctl with part := .idle, startStop := false,
                               hzint := s.ctl.hzint ||| Cause.stopped.bit },
           rep := { s.rep with initCell := none } }

end Sys2Proof.Machine
end

