-- ==== Sys2Proof/Machine/Report.lean ====
section
/-! DEFINITION. The Report Writer (chapter 7): cell write requests and the three writes of an update. -/

set_option Elab.async false

namespace Sys2Proof.Machine

/-- A cell write request (R144): merged when the cell is in the pending-cell set, else added at its tail. -/
def requestCell (n : Fin 64) (s : State) : State :=
  if s.rep.pendingCells.contains n then s
  else { s with rep := { s.rep with pendingCells := s.rep.pendingCells ++ [n] } }

/-- With no update in progress and a cell pending, the head of the set is removed, the entry is copied into the
snapshot and the opening write is issued (R145), in RUNNING and STOPPING only. -/
def beginUpdate (s : State) : State :=
  match s.active, s.rep.update, s.rep.pendingCells with
  | true, none, n :: rest =>
    let u : CellUpdate := { cell := n, body := cellBody (s.entry n), stage := .opening }
    let s' := { s with rep := { s.rep with pendingCells := rest, update := some u } }
    s'.issue (s'.cellRequest u)
  | _, _, _ => s

/-- The update goes on to its next write, which is issued (R145). -/
def advanceUpdate (st : CellStage) (s : State) : State :=
  match s.rep.update with
  | some u =>
    let u' := { u with stage := st }
    let s' := { s with rep := { s.rep with update := some u' } }
    s'.issue (s'.cellRequest u')
  | none => s

/-- The closing write is carried out: 2 is added to the cell's edition, wrapping, and the update is over (R145). -/
def endUpdate (s : State) : State :=
  match s.rep.update with
  | some u =>
    { s with rep := { s.rep with update := none,
                                 editions := s.rep.editions.set u.cell.val (s.rep.editions[u.cell.val] + 2) } }
  | none => s

/-- The Report Writer is drained: nothing pending, nothing in progress (R149). -/
def State.reportDrained (s : State) : Bool := s.rep.pendingCells.isEmpty && s.rep.update.isNone

end Sys2Proof.Machine
end

