-- ==== Sys2Proof/Machine/Notices.lean ====
section
/-! DEFINITION. The Notice Writer (chapter 8): the hold buffer, reservations, losses, writing and closing. -/

set_option Elab.async false

namespace Sys2Proof.Machine

/-! ### The hold buffer (section 8.4) -/

/-- How many lines hold a reservation. -/
def State.reservations (s : State) : Nat := (lines.filter s.reserved).length

/-- How many of the 8 places hold neither a notice nor a reservation (section 8.3). -/
def State.freePlaces (s : State) : Nat := 8 - (s.ntc.held.length + s.reservations)

/-- A notice is lost (R155): counted in the lost count, saturating, and the lost total, wrapping; the tail of the
hold buffer becomes the LOST position at the first loss; the lost total becomes due for publication. -/
def loseNotice (s : State) : State :=
  { s with ntc := { s.ntc with
      lostCount := saturate32 s.ntc.lostCount, lostTotal := s.ntc.lostTotal + 1, lostDue := true,
      lostAfter := if s.ntc.lostCount = 0 then some s.ntc.held.length else s.ntc.lostAfter } }

/-- A notice joins the tail of the hold buffer. -/
def holdNotice (t : Notice) (s : State) : State :=
  { s with ntc := { s.ntc with held := s.ntc.held ++ [t] } }

/-- A notice request taken while closing is discarded and counted in the dropped count; after the discard it makes a
further dropped at stop write due (R164). -/
def dropNotice (s : State) : State :=
  { s with ntc := { s.ntc with dropped := s.ntc.dropped + 1, droppedDue := s.ntc.droppedDue || s.ntc.discarded } }

/-- A notice request of a kind other than ATTENTION (R155, R164). -/
def requestNotice (t : Notice) (s : State) : State :=
  if s.ntc.closing then dropNotice s
  else if 0 < s.freePlaces then holdNotice t s
  else loseNotice s

/-- A reservation request is granted when the part is RUNNING and a place is free (R156). -/
def State.canReserve (s : State) : Bool := s.running && 0 < s.freePlaces

/-- The reservation of a line is filled: it ends and the ATTENTION notice joins the tail in its place (R157). Every
fetch holds a reservation (R44); without one there is nothing to fill (log 17). -/
def fillReservation (l : Fin 4) (t : Notice) (s : State) : State :=
  if s.reserved l then holdNotice t (s.setReserved l false) else s

/-- The reservation of a line is released: its place becomes free (R157). -/
def releaseReservation (l : Fin 4) (s : State) : State := s.setReserved l false

/-! ### Writing notices (section 8.5) -/

/-- An owed LOST notice is due: the notice at the LOST position has been written (R160). -/
def State.lostIsDue (s : State) : Bool := s.ntc.lostAfter == some 0

/-- There is a notice to write: the head of the hold buffer or a LOST notice that is due (R159). -/
def State.hasNotice (s : State) : Bool := s.lostIsDue || !s.ntc.held.isEmpty

/-- Room in the notice area by the Notice Writer's view (R159). -/
def State.hasRoom (s : State) : Bool := (s.ntc.written - s.ntc.taken).toNat < s.noticeSize

/-- The LOST notice, with the lost count and the moment its write begins (R153, R160). -/
def State.lostNotice (s : State) : Notice :=
  { kind := .lost, entry := none, line := none, address := 0, time := s.tb.now, count := s.ntc.lostCount,
    payload := [] }

/-- A notice write begins (R159): the next sequence number is given and the record write issued. For a LOST notice
the lost count is set to 0 and the LOST position becomes none (R160). -/
def beginNotice (s : State) : State :=
  if s.lostIsDue then
    let w : NoticeWrite := { notice := s.lostNotice, number := s.ntc.written + 1, isLost := true }
    let s' := { s with ntc := { s.ntc with writing := some w, lostCount := 0, lostAfter := none } }
    s'.issue (s'.noticeRequest w)
  else match s.ntc.held with
    | t :: _ =>
      let w : NoticeWrite := { notice := t, number := s.ntc.written + 1, isLost := false }
      let s' := { s with ntc := { s.ntc with writing := some w } }
      s'.issue (s'.noticeRequest w)
    | [] => s

/-- The record write is carried out: notices written is incremented and the count write issued (R159). -/
def noticeWritten (s : State) : State :=
  let s' := { s with ntc := { s.ntc with written := s.ntc.written + 1 } }
  s'.issue (s'.statusRequest .notice .countWrite 0x88 (leBytes 4 s'.ntc.written.toNat))

/-- The count write is carried out (R159): NOTICE is set, a held notice leaves the buffer and the write ends. A held
notice that leaves stood ahead of an owed LOST notice (log 23). -/
def noticeCounted (s : State) : State :=
  match s.ntc.writing with
  | some w =>
    let n := s.ntc
    let n' := if w.isLost then { n with writing := none }
      else { n with writing := none, held := n.held.tail, lostAfter := n.lostAfter.map (· - 1) }
    { s with ntc := n' }.setCause .notice
  | none => s

/-! ### The notices-taken reads (section 8.6) -/

/-- A read is wanted for a full condition or an end of the interval: one in flight serves it (R161). -/
def wantRead (s : State) : State :=
  if s.ntc.readInFlight || s.ntc.closing then s else { s with ntc := { s.ntc with readWanted := true } }

/-- A NUDGE wants a read; with a read in flight it sets read again (R161). -/
def nudgeRead (s : State) : State :=
  if s.ntc.closing then s
  else if s.ntc.readInFlight then { s with ntc := { s.ntc with readAgain := true } }
  else { s with ntc := { s.ntc with readWanted := true } }

/-- With a notice to write and no room, the Notice Writer sets waiting for room and wants a read, once (R163). -/
def waitForRoom (s : State) : State :=
  if s.active && !s.ntc.closing && s.ntc.writing.isNone && s.hasNotice && !s.hasRoom && !s.ntc.waitingRoom then
    wantRead { s with ntc := { s.ntc with waitingRoom := true } }
  else s

/-- A value read passes when notices written minus it, modulo 2^32, is not above the size (R162). -/
def State.takenPasses (s : State) (v : Word) : Bool := (s.ntc.written - v).toNat ≤ s.noticeSize

/-- A value that passes becomes notices taken as read; room is judged again (R162, R163); a NUDGE that came
meanwhile brings one further read (R161). -/
def adoptTaken (v : Word) (s : State) : State :=
  let s1 := { s with ntc := { s.ntc with taken := v, readInFlight := false } }
  let s2 := if s1.hasRoom then { s1 with ntc := { s1.ntc with waitingRoom := false } } else s1
  if s2.ntc.readAgain then
    { s2 with ntc := { s2.ntc with readAgain := false, readWanted := !s2.ntc.closing } }
  else s2

/-! ### Issuing requests, one at a time (R159, R161, R164) -/

/-- The read of notices taken is issued. -/
def issueTakenRead (s : State) : State :=
  let s' := { s with ntc := { s.ntc with readWanted := false, readInFlight := true } }
  s'.issue (readRequest .notice .noticesTakenRead .anchor (s'.anchorAt 0x20) 4)

/-- The lost total write is issued with the lost total as it stands (R155). -/
def issueLostTotal (s : State) : State :=
  let s' := { s with ntc := { s.ntc with lostDue := false } }
  s'.issue (s'.statusRequest .notice .lostTotalWrite 0x8C (leBytes 4 s'.ntc.lostTotal.toNat))

/-- The dropped at stop write is issued (R164). -/
def issueDropped (s : State) : State :=
  let s' := { s with ntc := { s.ntc with droppedDue := false } }
  s'.issue (s'.statusRequest .notice .droppedWrite 0x90 (leBytes 4 s'.ntc.dropped.toNat))

/-- The Notice Writer's next request, when it has none at the port. Between two notices a wanted read goes first,
then a due lost total write, then the next notice if there is room (R159); while closing, after the discard, a due
lost total write and then the dropped at stop write (R164). -/
def issueNotice (s : State) : State :=
  if !s.active || s.port.busyFor .notice || s.ntc.writing.isSome then s
  else if s.ntc.closing then
    if !s.ntc.discarded then s
    else if s.ntc.lostDue then issueLostTotal s
    else if s.ntc.droppedDue then issueDropped s
    else s
  else if s.ntc.readWanted then issueTakenRead s
  else if s.ntc.lostDue then issueLostTotal s
  else if s.hasNotice && s.hasRoom then beginNotice s
  else s

/-! ### Closing (R164) -/

/-- The Notice Writer is told to close: no new notice write and no read begins. -/
def beginClose (s : State) : State :=
  { s with ntc := { s.ntc with closing := true, discarded := false, readWanted := false, readAgain := false } }

/-- The held notices and an owed LOST notice are discarded; the held ones are the dropped count (R164, log 23), and
the dropped at stop write becomes due. -/
def discardHeld (s : State) : State :=
  { s with ntc := { s.ntc with held := [], lostAfter := none, lostCount := 0, discarded := true, droppedDue := true,
                               dropped := s.ntc.dropped + BitVec.ofNat 32 s.ntc.held.length } }

/-- While closing, the discard comes once no notice write is in progress and no read in flight (R164). -/
def closeWhenQuiet (s : State) : State :=
  if s.active && s.ntc.closing && !s.ntc.discarded && s.ntc.writing.isNone && !s.ntc.readInFlight then discardHeld s
  else s

/-- The Notice Writer has closed: nothing is due and nothing of its own is at the port (R164). -/
def State.noticeClosed (s : State) : Bool :=
  s.ntc.closing && s.ntc.discarded && !s.ntc.lostDue && !s.ntc.droppedDue && !s.port.busyFor .notice

end Sys2Proof.Machine
end

