-- ==== Sys2Proof/Machine/Jobs.lean ====
section
/-! DEFINITION. The Job Unit (chapter 5): completions and MARKs, the write list, and the Chain Follower. -/

set_option Elab.async false

namespace Sys2Proof.Machine

/-! ### Slots and taking order (R108) -/

/-- A was taken before b, compared modulo 2^32 by the rule of the Conventions (R108). -/
def takenBefore (a b : Word) : Bool := a != b && reached b a

/-- The taking number of a slot. -/
def State.takingNumber (s : State) (i : Fin 16) : Word :=
  match s.slot i with
  | some j => j.takingNumber
  | none => 0

/-- The slot taken first among these. -/
def State.oldest (s : State) : List (Fin 16) → Option (Fin 16)
  | [] => none
  | i :: rest => match s.oldest rest with
    | none => some i
    | some k => if takenBefore (s.takingNumber k) (s.takingNumber i) then some k else some i

/-- The lowest-numbered FREE slot (R101). -/
def State.freeSlot (s : State) : Option (Fin 16) := slotIndices.find? (fun i => (s.slot i).isNone)

/-- A slot in use satisfies p. -/
def State.slotIs (s : State) (i : Fin 16) (p : Job → Bool) : Bool :=
  match s.slot i with
  | some j => p j
  | none => false

/-- Changes the job in a slot in use. -/
def State.modSlot (s : State) (i : Fin 16) (f : Job → Job) : State :=
  match s.slot i with
  | some j => s.setSlot i (some (f j))
  | none => s

/-- A job of this kind waits for this entry in slot i. -/
def State.waitsFor (s : State) (k : JobKind) (n : Fin 64) (i : Fin 16) : Bool :=
  s.slotIs i (fun j => j.state == .waiting && j.kindOf == some k && targetEntry j.target == some n)

/-! ### Completions (R110 to R112, R139) -/

/-- A result without sending: attempts used 0 and empty answer fields (R110). -/
def JobEnd.plain (r : JobResult) : JobEnd := { result := r, attempts := 0, status := 0, payload := [] }

/-- A job's result is decided (R110): it is written into the slot with the finish time, the slot goes COMPLETING, the
done tally counts it (R112) and its three writes join the write list (R111). A COMPLETING slot takes no further
result. -/
def decideJob (i : Fin 16) (r : JobEnd) (s : State) : State :=
  match s.slot i with
  | some j =>
    if j.state = .completing then s
    else
      let t := s.job.doneTally + 1
      let s' := s.setSlot i (some { j with state := .completing, result := some (r, s.tb.now) })
      { s' with job := { s'.job with doneTally := t,
                                     writes := s'.job.writes ++ [.result i, .state i, .tally i t] } }
  | none => s

/-- A decided job leaves the waiting set of every MARK (R139). -/
def leaveSets (i : Fin 16) (s : State) : State :=
  { s with job := { s.job with
      slots := s.job.slots.map (fun o => o.map (fun j => { j with waitSet := j.waitSet.filter (· != i) })) } }

/-- A waiting MARK whose set is empty. -/
def State.markDone (s : State) (i : Fin 16) : Bool :=
  s.slotIs i (fun j => j.state == .waiting && j.kindOf == some .mark && j.waitSet.isEmpty)

/-- MARKs whose set has become empty complete OK in the order of their taking numbers; each leaves the sets of later
MARKs in turn (R139). There are at most 16. -/
def completeMarks : Nat → State → State
  | 0, s => s
  | f + 1, s => match s.oldest (slotIndices.filter s.markDone) with
    | some m => completeMarks f (leaveSets m (decideJob m (.plain .ok) s))
    | none => s

/-- The Job Unit takes the completion of a job, and with it those of the MARKs it lets complete (R110, R139). -/
def completeJob (i : Fin 16) (r : JobEnd) (s : State) : State :=
  completeMarks 16 (leaveSets i (decideJob i r s))

/-- Completes several jobs with one result, in order. -/
def completeAll (r : JobResult) : List (Fin 16) → State → State
  | [], s => s
  | i :: rest, s => completeAll r rest (completeJob i (.plain r) s)

/-- The job of this kind that waits for this entry, if any, completes. -/
def completeWaiting (k : JobKind) (n : Fin 64) (r : JobResult) (s : State) : State :=
  match slotIndices.find? (s.waitsFor k n) with
  | some i => completeJob i (.plain r) s
  | none => s

/-! ### The write list (R114) -/

/-- Appends a write. -/
def State.listWrite (s : State) (w : JobWrite) : State :=
  { s with job := { s.job with writes := s.job.writes ++ [w] } }

/-- A parking write. -/
def JobWrite.isParking : JobWrite → Bool
  | .parking _ => true
  | _ => false

/-- A parking write takes the place, at the tail, of one not yet issued (R102, R114). The head of the list is issued
when the Job Unit has a request at the port. -/
def listParking (a : Addr) (s : State) : State :=
  let w := s.job.writes
  let k := if s.port.busyFor .jobUnit then 1 else 0
  { s with job := { s.job with writes := w.take k ++ (w.drop k).filter (!·.isParking) ++ [.parking a] } }

/-- The Job Unit hands the port the write at the head of its list, the next when the one before has been carried out
(R114). -/
def issueJobWrite (s : State) : State :=
  if !s.active || s.port.busyFor .jobUnit then s
  else match s.job.writes with
    | w :: _ => match s.jobRequest w with
      | some r => s.issue r
      | none => s
    | [] => s

/-- The write at the head of the list has been carried out. -/
def popWrite (s : State) : State := { s with job := { s.job with writes := s.job.writes.tail } }

/-! ### The Chain Follower (section 5.3) -/

/-- Changes the follower state. -/
def State.setFollower (s : State) (f : Follower) : State := { s with job := { s.job with follower := f } }

/-- The follower issues a read of the link word at its parking place; nudge pending is cleared (R97, R104). -/
def readLink (s : State) : State :=
  match s.job.parking with
  | some a =>
    let s' := { s with job := { s.job with follower := .linkRead, nudgePending := false } }
    s'.issue (readRequest .follower .linkRead (s'.linkStructure a) a 8)
  | none => s

/-- The follower issues a read of the whole next record; nudge pending is cleared (R98, R104). -/
def readRecord (s : State) : State :=
  match s.job.nextRecord with
  | some a =>
    let s' := { s with job := { s.job with follower := .recordRead, nudgePending := false } }
    s'.issue (readRequest .follower .recordRead .chain a 128)
  | none => s

/-- A next record is read if a slot is FREE; otherwise the follower goes to PAUSED (R98, R105). -/
def readOrPause (s : State) : State :=
  match s.freeSlot with
  | some _ => readRecord s
  | none => s.setFollower .paused

/-- A re-read from a parked state, which is remembered so that a return to it lists no parking write (R102). -/
def reread (s : State) : State :=
  match s.job.follower with
  | .parkedLink => readLink { s with job := { s.job with rereadOf := some .link } }
  | .parkedRecord => readOrPause { s with job := { s.job with rereadOf := some .record } }
  | _ => s

/-- The follower state of a parked state. -/
def Parked.follower : Parked → Follower
  | .link => .parkedLink
  | .record => .parkedRecord

/-- The parking write of entering a parked state, none when a re-read returns to the state it left (R102). -/
def parkingWrite (p : Parked) (s : State) : State :=
  if s.job.rereadOf = some p then s
  else match s.job.parking with
    | some a => listParking a s
    | none => s

/-- The follower enters a parked state (R102); with nudge pending it clears the flag and re-reads at once (R104). -/
def park (p : Parked) (s : State) : State :=
  let s1 := parkingWrite p s
  let s2 := { s1 with job := { s1.job with follower := p.follower, rereadOf := none } }
  if s2.job.nudgePending then reread { s2 with job := { s2.job with nudgePending := false } } else s2

/-- What a link value makes the follower do (R98): park on 0, halt with ALIGN on a misaligned value, or make the value
the next record and read it or pause. `place` is the link word that held the value. -/
def followLink (place v : Addr) (s : State) : State :=
  if v = 0 then park .link s
  else if !aligned 128 v then haltAlign place s
  else readOrPause { s with job := { s.job with nextRecord := some v } }

/-- A slot in use holds this record's address (R100). -/
def State.holdsRecord (s : State) (a : Addr) : Bool := slotIndices.any (fun i => s.slotIs i (·.address == a))

/-- A NUDGE reaches the follower (R104). -/
def nudgeFollower (s : State) : State :=
  match s.job.follower with
  | .parkedLink => reread s
  | .parkedRecord => reread s
  | .off => s
  | _ => { s with job := { s.job with nudgePending := true } }

/-- A completed job with SIGNAL sets JOBS (R113). -/
def signalJobs (j : Job) (s : State) : State := if j.signal then s.setCause .jobs else s

/-- A paused follower, or one parked on the freed record at a, reads (R113). -/
def resumeFollower (a : Addr) (s : State) : State :=
  if s.job.follower = .paused then readRecord s
  else if s.job.follower = .parkedRecord ∧ s.job.nextRecord = some a then reread s
  else s

/-- A slot is freed after its tally write (R113): JOBS is set for SIGNAL, and a paused follower, or one parked on that
very record, reads. -/
def freeTheSlot (i : Fin 16) (s : State) : State :=
  match s.slot i with
  | some j => resumeFollower j.address ((signalJobs j s).setSlot i none)
  | none => s

/-- The Job Unit's part of a stop is done: every slot FREE and the write list empty (R115). -/
def State.jobsDone (s : State) : Bool := slotIndices.all (fun i => (s.slot i).isNone) && s.job.writes.isEmpty

end Sys2Proof.Machine
end

