-- ==== Sys2Proof/Machine/Stations.lean ====
section
/-! DEFINITION. The Station Table (chapter 1): call outcomes, the quiet timer, the attention latch, holds and
leavings. -/

set_option Elab.async false

namespace Sys2Proof.Machine

/-! ### Notices of an entry (R28) -/

/-- A station notice with the entry's line, address and consecutive failures (R28). -/
def stationNotice (k : NoticeKind) (n : Fin 64) (e : Entry) (now : Word) (payload : List Byte) : Notice :=
  { kind := k, entry := some n, line := some e.line, address := e.address, time := now,
    count := e.failures.setWidth 32, payload := payload }

/-! ### The quiet timer (section 1.5) -/

/-- Loading the quiet timer sets the deadline to now plus the quiet limit; with limit 0 it does nothing (R13). -/
def loadQuiet (now : Word) (e : Entry) : Entry :=
  if e.quietLimit = 0 then e else { e with quietDeadline := some (now + e.quietLimit) }

/-- A LIVE entry whose quiet deadline is reached (R14). -/
def Entry.quietExpired (e : Entry) (now : Word) : Bool :=
  e.state == .live && (match e.quietDeadline with | some d => reached now d | none => false)

/-- A quiet expiry (R14): the entry goes MUTE without a deadline, with a MUTED notice and a cell write. -/
def expireQuiet (n : Fin 64) (s : State) : State :=
  let e := { s.entry n with state := .mute, quietDeadline := none }
  requestCell n (requestNotice (stationNotice .muted n e s.tb.now []) (s.setEntry n e))

/-! ### The attention latch (section 1.6) -/

/-- Setting a clear latch appends the index to its line's fetch queue; a set latch stays as it is (R16). -/
def setLatch (n : Fin 64) (s : State) : State :=
  let e := s.entry n
  if e.latch then s
  else
    let q := s.scheduler e.line
    (s.setEntry n { e with latch := true }).setSched e.line { q with fetchQueue := q.fetchQueue ++ [n] }

/-- JOINING, LIVE or MUTE: the states in which a station is called (R2). -/
def EntryState.called : EntryState → Bool
  | .joining => true
  | .live => true
  | .mute => true
  | _ => false

/-- The attention flag of a good answer sets the latch of a JOINING, LIVE or MUTE entry (R16). -/
def takeFlag (n : Fin 64) (status : Byte) (s : State) : State :=
  if attentionFlag status && (s.entry n).state.called then setLatch n s else s

/-! ### Orders of an entry, holds and leavings (sections 1.8, 1.9) -/

/-- Slot i holds an ORDER for entry n. -/
def State.isOrderFor (s : State) (n : Fin 64) (i : Fin 16) : Bool :=
  s.slotIs i (fun j => j.kindOf == some .order && targetEntry j.target == some n)

/-- An ORDER for entry n waits in its line's order queue. -/
def State.hasOrder (s : State) (n : Fin 64) : Bool :=
  (s.scheduler (s.entry n).line).orderQueue.any (s.isOrderFor n)

/-- Takes items out of an order queue; when it is then empty, orders-in-a-row is 0 (R35). -/
def Sched.keepOrders (q : Sched) (keep : Fin 16 → Bool) : Sched :=
  let oq := q.orderQueue.filter keep
  { q with orderQueue := oq, ordersInRow := if oq.isEmpty then 0 else q.ordersInRow }

/-- Every ORDER for entry n leaves its line's order queue, in queue order, each completing with r (R35). -/
def dropOrders (n : Fin 64) (r : JobResult) (s : State) : State :=
  let l := (s.entry n).line
  let q := s.scheduler l
  completeAll r (q.orderQueue.filter (s.isOrderFor n)) (s.setSched l (q.keepOrders (fun i => !s.isOrderFor n i)))

/-- The entry becomes HELD: hold pending cleared, the deadline removed, a cell write asked for (R22, R23). -/
def becomeHeld (n : Fin 64) (s : State) : State :=
  requestCell n (s.setEntry n { s.entry n with state := .held, holdPending := false, quietDeadline := none })

/-- The hold pending check of R23: with no ORDER queued and no call on the wire the entry goes HELD and its HOLD
completes OK. -/
def checkHold (n : Fin 64) (s : State) : State :=
  let e := s.entry n
  if e.holdPending && !e.busy && !s.hasOrder n then completeWaiting .hold n .ok (becomeHeld n s) else s

/-- The deadlock of R39: hold pending, latch set with the index in the fetch queue, no call on the wire and orders
queued. The orders leave the queue with WRONG_STATE. -/
def orderWrongState (n : Fin 64) (s : State) : State :=
  let e := s.entry n
  if e.holdPending && e.latch && (s.scheduler e.line).fetchQueue.contains n && !e.busy && s.hasOrder n then
    dropOrders n .wrongState s
  else s

/-- R39 and then R23 for an entry: after a call, a queued ORDER's leaving, a HOLD or a mark (log 16). -/
def settleHold (n : Fin 64) (s : State) : State := checkHold n (orderWrongState n s)

/-- The entry goes to VACANT: a LEFT notice from the values it held, its vacant values, a cell write (R20, R21). -/
def becomeVacant (n : Fin 64) (s : State) : State :=
  let t := stationNotice .left n (s.entry n) s.tb.now []
  requestCell n ((requestNotice t s).setEntry n Entry.vacant)

/-- A LEAVING entry's call has ended: it becomes VACANT and its DELIST, if it still waits, completes OK (R21). -/
def leave (n : Fin 64) (s : State) : State := completeWaiting .delist n .ok (becomeVacant n s)

/-! ### Call outcomes (section 1.4) -/

/-- A good answer of this kind reloads the quiet timer of a LIVE entry (R13). -/
def reloads (k : CallKind) (o : Options) : Bool := k != .order || o.reloadOrder

/-- What a good answer changes in the entry: R5, then by state R6, R7, R8 or R10, the latch cleared by a FETCH
(R18) and the sequence bit of an ORDER (R19). -/
def goodEntry (now : Word) (k : CallKind) (o : CallOutcome) (status : Byte) (payload : List Byte) (e : Entry) :
    Entry :=
  let e1 := { e with
    busy := false, answers := e.answers + 1, lastHeard := now, lastStatus := status, failures := 0,
    latch := e.latch && k != .fetch,
    seqBit := if k = .order ∧ (o = .good ∨ o = .refused) then !e.seqBit else e.seqBit,
    lastPayload := if k = .poll ∧ o = .good ∧ e.state.called then payload else e.lastPayload }
  match e.state with
  | .joining => loadQuiet now { e1 with state := .live }
  | .mute => loadQuiet now { e1 with state := .live }
  | .live => if reloads k e.options then loadQuiet now e1 else e1
  | _ => e1

/-- A changed reading: a GOOD POLL answer whose payload is not equal to the entry's last payload (R5). -/
def changedReading (k : CallKind) (o : CallOutcome) (payload : List Byte) (e : Entry) : Bool :=
  k == .poll && o == .good && payload != e.lastPayload

/-- Whether a good answer asks for a cell write (R6 to R8, R10); e is the entry before it. -/
def goodAsksCell (k : CallKind) (o : CallOutcome) (payload : List Byte) (e : Entry) : Bool :=
  match e.state with
  | .joining => true
  | .mute => true
  | .live => changedReading k o payload e || e.options.refresh || e.failures != 0
  | _ => false

/-- The notice a good answer asks for, with its payload (R6, R7, R10); e is the entry before it. -/
def goodNotice (k : CallKind) (o : CallOutcome) (payload : List Byte) (e : Entry) :
    Option (NoticeKind × List Byte) :=
  let p := if k = .poll ∧ o = .good then payload else []
  match e.state with
  | .joining => some (.joined, p)
  | .mute => some (.restored, p)
  | .live => if changedReading k o payload e && e.options.notify then some (.changed, payload) else none
  | _ => none

/-- Asks for a notice of entry n, if any. -/
def requestStation (n : Fin 64) (t : Option (NoticeKind × List Byte)) (s : State) : State :=
  match t with
  | some (k, p) => requestNotice (stationNotice k n (s.entry n) s.tb.now p) s
  | none => s

/-- The reservation at the end of a FETCH: filled with an ATTENTION notice by a GOOD answer, released otherwise
(R18, R157). -/
def endFetch (n : Fin 64) (o : CallOutcome) (payload : List Byte) (s : State) : State :=
  let e := s.entry n
  if o = .good then fillReservation e.line (stationNotice .attention n e s.tb.now payload) s
  else releaseReservation e.line s

/-- A good answer is taken (R5 to R8, R10, R16, R18, R19). A JOINED or RESTORED notice is asked for before the reservation
ends: R18 says so for a fill, and the model keeps the order for a release (log 31, DESIGN CHOICE). -/
def takeGood (n : Fin 64) (k : CallKind) (o : CallOutcome) (status : Byte) (payload : List Byte) (s : State) :
    State :=
  let e := s.entry n
  let s1 := s.setEntry n (goodEntry s.tb.now k o status payload e)
  let s2 := requestStation n (goodNotice k o payload e) s1
  let s3 := if goodAsksCell k o payload e then requestCell n s2 else s2
  let s4 := if k = .fetch then endFetch n o payload s3 else s3
  takeFlag n status s4

/-- What a failed call changes in the entry: a failed POLL counts, a FETCH clears the latch (R5, R18). -/
def failedEntry (k : CallKind) (e : Entry) : Entry :=
  { e with busy := false, latch := e.latch && k != .fetch,
           failures := if k = .poll then saturate16 e.failures else e.failures }

/-- A failed call is taken (R5, R6, R9, R18). -/
def takeFailed (n : Fin 64) (k : CallKind) (s : State) : State :=
  let e := s.entry n
  let s1 := s.setEntry n (failedEntry k e)
  let s2 := if k = .poll ∧ e.state.called then requestCell n s1 else s1
  if k = .fetch then releaseReservation e.line s2 else s2

/-- The outcome of a call to an entry that is not LEAVING (R4, R5). A VACANT entry has no call on the wire (R4); it
keeps its vacant values (log 17). -/
def applyOutcome (n : Fin 64) (k : CallKind) (o : CallOutcome) (answer : Option (Byte × List Byte)) (s : State) :
    State :=
  if (s.entry n).state = .vacant then s
  else if o.isGood then
    let a := answer.getD (0, [])
    takeGood n k o a.1 a.2 s
  else takeFailed n k s

/-! ### Attention marks (R17) -/

/-- The state effects of a mark on an entry that takes it: LIVE with RELOAD_MARK reloads the quiet timer. -/
def markEntry (now : Word) (e : Entry) : Entry :=
  if e.state = .live ∧ e.options.reloadMark then loadQuiet now e else e

/-- A reported mark (R17): it sets the latch of a JOINING, LIVE, MUTE or HELD entry and is ignored for a VACANT or
LEAVING one; R39 is then looked at (log 16). -/
def takeMark (n : Fin 64) (s : State) : State :=
  let e := s.entry n
  if e.state = .vacant ∨ e.state = .leaving then s
  else settleHold n (setLatch n (s.setEntry n (markEntry s.tb.now e)))

/-! ### Line changes (R26) -/

/-- What turning line l off does to an entry (R26): LIVE and MUTE go to JOINING, JOINING and HELD keep their state;
every latch on the line is cleared. A VACANT entry is on no line. -/
def lineOffEntry (now : Word) (l : Fin 4) (e : Entry) : Entry :=
  if e.line ≠ l then e
  else match e.state with
    | .vacant => e
    | .live => { e with state := .joining, quietDeadline := none, dueTime := now, latch := false }
    | .mute => { e with state := .joining, quietDeadline := none, dueTime := now, latch := false }
    | .joining => { e with dueTime := now, latch := false }
    | .held => { e with latch := false }
    | .leaving => { e with latch := false }

/-- An entry whose cell a line disable asks to write: LIVE or MUTE on the line (R26). -/
def lineOffAsksCell (l : Fin 4) (e : Entry) : Bool :=
  e.line == l && (e.state == .live || e.state == .mute)

/-- Asks for cell writes of these entries, in order. -/
def requestCells : List (Fin 64) → State → State
  | [], s => s
  | n :: rest, s => requestCells rest (requestCell n s)

/-- The Station Table's part of a line disable (R26); the cells join the pending set in index order (log 7). -/
def lineOffStations (l : Fin 4) (s : State) : State :=
  requestCells (entryIndices.filter (fun n => lineOffAsksCell l (s.entry n)))
    (s.mapEntries (lineOffEntry s.tb.now l))

end Sys2Proof.Machine
end

