-- ==== Sys2Proof/Machine/Lines.lean ====
section
/-! DEFINITION. The Line Engines (chapter 4) and the ends of operations their Schedulers pass on (R45). -/

set_option Elab.async false

namespace Sys2Proof.Machine

/-! ### Ends of operations (R45, R80) -/

/-- The due time after a poll: the old one plus the period, or now plus the period when that is already reached
(R32, R47). -/
def advanced (now due period : Word) : Word :=
  if reached now (due + period) then now + period else due + period

/-- The period between polls: the entry's own while LIVE, the line's search period while JOINING or MUTE (R2). -/
def State.pollingPeriod (s : State) (e : Entry) : Option Word :=
  match e.state with
  | .live => some e.pollPeriod
  | .joining => some (s.scheduler e.line).searchPeriod
  | .mute => some (s.scheduler e.line).searchPeriod
  | _ => none

/-- The due time is advanced at the end of a poll, unless the Station Table set it during the poll or the entry is
no longer polled (R32). -/
def advanceDue (n : Fin 64) (dueSet : Bool) (s : State) : State :=
  let e := s.entry n
  if dueSet then s
  else match s.pollingPeriod e with
    | some p => s.setEntry n { e with dueTime := advanced s.tb.now e.dueTime p }
    | none => s

/-- The Scheduler of line l has nothing in flight. -/
def State.clearFlight (s : State) (l : Fin 4) : State :=
  s.setSched l { s.scheduler l with inFlight := none }

/-- The job end of an ORDER that ended on the wire (R80, R110, R133). -/
def orderEnd (o : CallOutcome) (attempts : Nat) (answer : Option (Byte × List Byte)) : JobEnd :=
  match answer with
  | some (status, payload) => { result := o.jobResult, attempts := attempts, status := status, payload := payload }
  | none => { result := o.jobResult, attempts := attempts, status := 0, payload := [] }

/-- The end of a call is passed on by kind (R45). For a LEAVING entry R21 applies. An ORDER's completion comes before
that of a HOLD its end lets complete (log 8). The place that a FETCH to a LEAVING entry releases is taken by the LEFT
notice before a line that waits for a place can ask for it, since the Schedulers choose after the whole event (`settle`):
R156 lets either be taken first (log 36, DESIGN CHOICE). -/
def callEnded (l : Fin 4) (o : CallOutcome) (attempts : Nat) (answer : Option (Byte × List Byte)) (s : State) :
    State :=
  match (s.scheduler l).inFlight with
  | some (.poll n dueSet) =>
    let s := s.clearFlight l
    if (s.entry n).state = .leaving then leave n s
    else advanceDue n dueSet (settleHold n (applyOutcome n .poll o answer s))
  | some (.fetch n) =>
    let s := s.clearFlight l
    if (s.entry n).state = .leaving then leave n (releaseReservation l s)
    else settleHold n (applyOutcome n .fetch o answer s)
  | some (.order n i) =>
    let s := s.clearFlight l
    if (s.entry n).state = .leaving then leave n (completeJob i (orderEnd o attempts answer) s)
    else settleHold n (completeJob i (orderEnd o attempts answer) (applyOutcome n .order o answer s))
  | some (.broadcast _) => s
  | some (.window _) => s
  | none => s

/-- The engine reports the end of its call with the deciding outcome, the attempts made and, for GOOD, BUSY or
REFUSED, the kept answer (R80). -/
def endCall (l : Fin 4) (o : CallOutcome) (s : State) : State :=
  let e := s.engine l
  callEnded l o e.attempt (if o.isGood then e.kept else none) (s.setEngine l { e with op := none })

/-- The address after a slot list's last one; after 254 comes 1 (R49). -/
def nextAddress (addresses : List Byte) (pointer : Byte) : Byte :=
  match addresses.getLast? with
  | some a => if a = 254 then 1 else a + 1
  | none => pointer

/-- The window due time advanced (R47). -/
def Sched.windowAdvanced (now : Word) (q : Sched) : Sched :=
  { q with windowDue := q.windowDue.map (fun t => advanced now t q.windowInterval) }

/-- The end of a window updates the rotation pointer (R49) and the window due time (R47). -/
def windowEnded (l : Fin 4) (s : State) : State :=
  match (s.scheduler l).inFlight with
  | some (.window addresses) =>
    let q := s.scheduler l
    s.setSched l { q.windowAdvanced s.tb.now with inFlight := none, rotation := nextAddress addresses q.rotation }
  | _ => s

/-- The end of a BROADCAST's rest completes its job OK with attempts used 1 (R82, R110). -/
def broadcastEnded (l : Fin 4) (s : State) : State :=
  match (s.scheduler l).inFlight with
  | some (.broadcast i) =>
    completeJob i { result := .ok, attempts := 1, status := 0, payload := [] } (s.clearFlight l)
  | _ => s

/-! ### Starting (R71, R73) -/

/-- The operation is a call to one station. -/
def Operation.isCall : Operation → Bool
  | .call _ _ _ _ _ => true
  | _ => false

/-- The engine holds a call. -/
def Engine.hasCall (e : Engine) : Bool :=
  match e.op with
  | some o => o.isCall
  | none => false

/-- The engine begins sending its frame at a moment (R73): the receiver is disabled, the space run stops, and an
attempt of a call adds 1 to the attempt number. -/
def Engine.startSending (moment : Nat) (e : Engine) : Engine :=
  { e with lineState := .sending, since := moment, receiver := .disabled, edges := [], spaceRun := none,
           limitPassed := false, attempt := if e.hasCall then e.attempt + 1 else e.attempt }

/-- The counter that a hand-over adds 1 to (R71). -/
def Engine.countOperation (e : Engine) : Operation → Engine
  | .window => e.countWindow
  | _ => e.countCall

/-- The details of an operation are copied (R71); a call to a station also sets the attempt number to 0 and clears the
last outcome and the kept answer. -/
def Engine.copyOperation (o : Operation) (slots : List SlotRec) (e : Engine) : Engine :=
  let e' := { e with op := some o, slots := slots }
  if o.isCall then { e' with attempt := 0, lastOutcome := none, kept := none } else e'

/-- An operation is handed over (R71): its details are copied, it is counted and sending begins. -/
def Engine.accept (moment : Nat) (o : Operation) (slots : List SlotRec) (e : Engine) : Engine :=
  Engine.startSending moment ((e.copyOperation o slots).countOperation o)

/-- The Scheduler hands its engine an operation and notes it as in flight (R40). -/
def handOver (l : Fin 4) (o : Operation) (slots : List SlotRec) (f : InFlight) (s : State) : State :=
  (s.setEngine l ((s.engine l).accept s.moment o slots)).setSched l { s.scheduler l with inFlight := some f }

/-! ### The line level watch and the receiver (R52, R72) -/

/-- The level of RXD at a moment after the start of a character, which is a change to space: each change up to that
moment turned it (R52; a change at the very moment of a sample counts, log 29). -/
def Engine.rxLevel (e : Engine) (moment : Nat) : Bool := (e.edges.filter (· ≤ moment)).length % 2 == 1

/-- The sample of bit k of a character, 0 the start bit and 10 the stop bit, at the middle of its bit time (R52). -/
def Engine.sample (e : Engine) (start k : Nat) : Bool := e.rxLevel (start + (2 * k + 1) * halfBit e.rateCode)

/-- The character sampled from RXD: eight data bits, least significant first, and the mark bit (R52). -/
def Engine.character (e : Engine) (start : Nat) : LineChar :=
  { value := BitVec.ofNat 8 ((List.range 8).foldr (fun i v => (e.sample start (i + 1)).toNat + 2 * v) 0),
    mark := e.sample start 9 }

/-- The level changes kept after one at a moment: a change to space in a hunting receiver starts a character, later ones
are kept until the character ends; those during a call are kept for the moment the receiver is enabled (R52). -/
def Engine.edgesAfter (moment : Nat) (e : Engine) : List Nat :=
  match e.receiver with
  | .disabled => e.edges ++ [moment]
  | .confirming _ => e.edges ++ [moment]
  | .receiving _ => e.edges ++ [moment]
  | .hunting => []
  | .waitMark => []

/-- An enabled receiver hunts when RXD shows mark; at space it first waits for mark (R52). -/
def receiverFor (mark : Bool) : Receiver := if mark then .hunting else .waitMark

/-- A receiver that looks for a character from a moment on, by the level of RXD at that moment and the changes of RXD
since then (R52): at space it waits for mark, at mark it hunts, and the first change to space starts a character. With
it, the changes after that start. -/
def receiverAfter : Bool → List Nat → Receiver × List Nat
  | mark, [] => (receiverFor mark, [])
  | true, t :: rest => (.confirming t, rest)
  | false, _ :: rest => receiverAfter true rest

/-- The kept changes of RXD after a moment (a change at the very moment counts as before it, log 29). -/
def Engine.edgesSince (e : Engine) (moment : Nat) : List Nat := e.edges.filter (moment < ·)

/-- The receiver looks for a character from a moment on, at which RXD showed this level (R52). -/
def Engine.resume (e : Engine) (moment : Nat) (mark : Bool) : Engine :=
  { e with receiver := (receiverAfter mark (e.edgesSince moment)).1,
           edges := (receiverAfter mark (e.edgesSince moment)).2 }

/-- The level of RXD at a moment since which every change is kept, from the level it shows now. -/
def Engine.levelAt (e : Engine) (moment : Nat) (now : Bool) : Bool :=
  now ^^ ((e.edgesSince moment).length % 2 == 1)

/-- Entering SETTLING (R70): the receiver is enabled, the transmitter rests, and both runs start afresh from the level
RXD shows (log 14). -/
def Engine.enterSettling (moment : Nat) (mark : Bool) (e : Engine) : Engine :=
  { e with lineState := .settling, op := none, receiver := receiverFor mark, edges := [], limitPassed := false,
           since := moment, markRun := if mark then some moment else none, spaceRun := if mark then none else some moment }

/-- A level change of RXD reaches the engine: it starts or ends the runs, and a change to space starts a start-bit
check in a hunting receiver (R52, R72). `mark` is the new level. -/
def Engine.levelChange (moment : Nat) (mark : Bool) (e : Engine) : Engine :=
  if e.lineState = .off then e
  else { e with
    edges := e.edgesAfter moment,
    markRun := if mark then some moment else none,
    spaceRun := if mark ∨ e.lineState = .sending then none else some moment,
    receiver := match e.receiver with
      | .waitMark => if mark then .hunting else .waitMark
      | .hunting => if mark then .hunting else .confirming moment
      | r => r }

/-- A run that started at a moment has lasted this many character times. -/
def Engine.runReaches (e : Engine) (moment : Nat) (run : Option Nat) (chars : Nat) : Bool :=
  match run with
  | some m => m + chars * charTime e.rateCode ≤ moment
  | none => false

/-- The space run has reached 20 character times (R88). -/
def State.stuckDue (s : State) (l : Fin 4) : Bool :=
  (s.engine l).runReaches s.moment (s.engine l).spaceRun 20

/-! ### Ends of attempts (R79) -/

/-- The engine rests for `length` character times from a moment (R63, R81). -/
def Engine.rest (e : Engine) (length : Nat) (start : Nat) : Engine :=
  { e with lineState := .resting, restLength := length, since := start, limitPassed := false, draining := false,
           answerBuf := [], taken := 0 }

/-- The engine goes to IDLE (log 21). -/
def Engine.toIdle (e : Engine) : Engine := { e with lineState := .idle, attempt := 0, lastOutcome := none }

/-- An attempt ends with an outcome; the rest counts from `start` (R79). While a retried outcome leaves attempts, the
call goes on; otherwise its end is reported. -/
def endAttempt (l : Fin 4) (o : CallOutcome) (start : Nat) (s : State) : State :=
  let e := s.engine l
  let s' := s.setEngine l { (e.countOutcome o).rest 2 start with lastOutcome := some o }
  if o.retried && e.attempt < 1 + e.retryLimit then s' else endCall l o s'

/-- Kind, address and sequence bit of the call in hand; nothing reads it without a call. -/
def Engine.callInfo (e : Engine) : CallKind × Byte × Bool :=
  match e.op with
  | some (.call k _ a q _) => (k, a, q)
  | _ => (.poll, 0, false)

/-- The kept answer after a judged one: replaced only by a well-formed answer (R77). -/
def keepAnswer (o : CallOutcome) (buf : List Byte) (kept : Option (Byte × List Byte)) : Option (Byte × List Byte) :=
  if o.isGood then some (byteAt buf 1, (buf.drop 3).take (byteAt buf 2).toNat) else kept

/-! ### Characters (R86) -/

/-- A character in RECEIVING, or the first in AWAITING, whose stop bit ends at `stopEnd` (R74, R76). Its start time is not
held to the turnaround or gap limit here (R63, R75, R76): the row of the limit ends the attempt, and a character delivered
before that row is taken is an answer character, also where it started past the limit (log 38, DESIGN CHOICE). -/
def answerCharacter (l : Fin 4) (stopEnd : Nat) (v : Byte) (s : State) : State :=
  let e := s.engine l
  let k := e.taken + 1
  if e.draining then
    let s' := s.setEngine l { e with taken := k, since := stopEnd, limitPassed := false }
    if 37 ≤ k then endAttempt l .badLength stopEnd s' else s'
  else
    let buf := e.answerBuf ++ [v]
    let e' := { e with lineState := .receiving, answerBuf := buf, taken := k, since := stopEnd, limitPassed := false }
    if k = 3 ∧ 32 < v.toNat then s.setEngine l { e' with draining := true }
    else if 3 ≤ k ∧ k = 5 + (byteAt buf 2).toNat then
      let o := judgeAnswer e.callInfo.1 e.callInfo.2.1 e.callInfo.2.2 buf
      endAttempt l o stopEnd (s.setEngine l { e' with kept := keepAnswer o buf e.kept })
    else s.setEngine l e'

/-- The end of the last slot of the last window. -/
def Engine.windowEnd (e : Engine) : Nat := e.windowFrom + 2 * e.slots.length * charTime e.rateCode

/-- The slot a start time falls in; at a boundary the later one (R66). -/
def Engine.slotAt (e : Engine) (start : Nat) : Nat := (start - e.windowFrom) / (2 * charTime e.rateCode)

/-- A stray character is counted and discarded (R86). -/
def strayCharacter (l : Fin 4) (s : State) : State := s.setEngine l (s.engine l).countStray

/-- A character placed in slot k of the window (R85); past the last slot it is stray (R66). -/
def slotCharacter (l : Fin 4) (k : Nat) (v : Byte) (s : State) : State :=
  let e := s.engine l
  match e.slots[k]? with
  | none => strayCharacter l s
  | some r =>
    if r.seen then s.setEngine l e.countGarbled
    else
      let e' := { e with slots := e.slots.set k { r with seen := true } }
      if v ≠ r.address then s.setEngine l e'.countGarbled
      else if r.void then s.setEngine l e'
      else takeMark r.entry (s.setEngine l e')

/-- A delivered character is taken by the engine's state (R86). One that began in the window's last slot and is
delivered in the rest is placed in that slot; where REST_END has been taken before it, the engine is IDLE and it is stray.
In AWAITING and RECEIVING no test of its start time is made (R75, R76). Both follow the order in which the rows are taken
(log 38, DESIGN CHOICE). -/
def takeCharacter (l : Fin 4) (start : Nat) (v : Byte) (s : State) : State :=
  let e := s.engine l
  match e.lineState with
  | .settling => strayCharacter l s
  | .idle => strayCharacter l s
  | .stuck => strayCharacter l s
  | .awaiting => answerCharacter l (start + charTime e.rateCode) v s
  | .receiving => answerCharacter l (start + charTime e.rateCode) v s
  | .window => slotCharacter l (e.slotAt start) v s
  | .resting => if start < e.windowEnd then slotCharacter l (e.slotAt start) v s else strayCharacter l s
  | .off => s
  | .sending => s

/-! ### Limits (R75, R76) -/

/-- The moment the turnaround limit runs out (R75). -/
def Engine.turnaroundEnd (e : Engine) : Nat := e.since + e.turnaround * charTime e.rateCode

/-- The moment the gap limit of 3 character times runs out (R76). -/
def Engine.gapEnd (e : Engine) : Nat := e.since + 3 * charTime e.rateCode

/-- The outcome of an answer cut by a gap: BAD_LENGTH when draining, else TRUNCATED (R76). -/
def Engine.gapOutcome (e : Engine) : CallOutcome := if e.draining then .badLength else .truncated

/-- The turnaround limit has run out (R75): a start before it that is being confirmed is waited for, a character
already begun in time is awaited, and otherwise the attempt ends SILENT. -/
def turnaroundOut (l : Fin 4) (s : State) : State :=
  let e := s.engine l
  let silent := endAttempt l .silent e.turnaroundEnd s
  match e.receiver with
  | .confirming st => if st < e.turnaroundEnd then s.setEngine l { e with limitPassed := true } else silent
  | .receiving st => if st < e.turnaroundEnd then s else silent
  | _ => silent

/-- The gap limit has run out (R76), with the same rule for a start being confirmed. -/
def gapOut (l : Fin 4) (s : State) : State :=
  let e := s.engine l
  let cut := endAttempt l e.gapOutcome e.gapEnd s
  match e.receiver with
  | .confirming st => if st ≤ e.gapEnd then s.setEngine l { e with limitPassed := true } else cut
  | .receiving st => if st ≤ e.gapEnd then s else cut
  | _ => cut

/-- The start-bit sample, half a bit time after the start (R52): space confirms the start; mark shows a glitch, from
whose sample on the receiver hunts again, and a limit that has run out meanwhile is looked at again (R75, R76). -/
def confirmStart (l : Fin 4) (start : Nat) (s : State) : State :=
  let e := s.engine l
  if e.sample start 0 then
    let s' := s.setEngine l (e.resume (start + halfBit e.rateCode) true)
    if e.limitPassed then
      match e.lineState with
      | .awaiting => turnaroundOut l s'
      | .receiving => gapOut l s'
      | _ => s'
    else s'
  else s.setEngine l { e with receiver := .receiving start, limitPassed := false }

/-! ### Stuck lines (section 4.6) -/

/-- A LINE_STUCK notice; entry and address are those of the call cut off (R88). -/
def stuckNotice (l : Fin 4) (now : Word) (call : Option (Fin 64 × Byte)) : Notice :=
  { kind := .lineStuck, entry := call.map (·.1), line := some l, address := (call.map (·.2)).getD 0, time := now,
    count := 0, payload := [] }

/-- A LINE_RECOVERED notice (R90). -/
def recoveredNotice (l : Fin 4) (now : Word) : Notice :=
  { kind := .lineRecovered, entry := none, line := some l, address := 0, time := now, count := 0, payload := [] }

/-- Entry and address of the call in hand. -/
def Engine.callCut (e : Engine) : Option (Fin 64 × Byte) :=
  match e.op with
  | some (.call _ n a _ _) => some (n, a)
  | _ => none

/-- An attempt is in progress: AWAITING or RECEIVING (R88). -/
def Engine.inAttempt (e : Engine) : Bool := e.lineState == .awaiting || e.lineState == .receiving

/-- The engine goes to STUCK (R88): stuck events counts, and failed attempts when an attempt is cut off; the mark run
starts when RXD shows mark (R72). -/
def Engine.goStuck (moment : Nat) (mark : Bool) (e : Engine) : Engine :=
  let e1 := if e.inAttempt then { e.countFailed with lastOutcome := some .lineStuck } else e
  { e1.countStuck with
    lineState := .stuck, slots := [], limitPassed := false, draining := false, answerBuf := [], taken := 0,
    markRun := if mark then some moment else none }

/-- The line is found stuck (R88): the engine goes to STUCK, the LINE_STUCK notice is asked for, and then the end of
the call or window in hand is reported. -/
def foundStuck (l : Fin 4) (s : State) : State :=
  let e := s.engine l
  let s1 := requestNotice (stuckNotice l s.tb.now e.callCut) (s.setEngine l (e.goStuck s.moment (s.rxd l)))
  match e.op with
  | some (.call _ _ _ _ _) => endCall l .lineStuck s1
  | some .window => windowEnded l (s1.setEngine l { s1.engine l with op := none })
  | some (.broadcast _) => s1
  | none => s1

end Sys2Proof.Machine
end

