-- ==== Sys2Proof/Machine/Schedule.lean ====
section
/-! DEFINITION. The Line Schedulers (chapter 2): candidates, picks, SETUP LINE and the arbiter's choice; and what
every event ends with: the blocks issue their requests, a stop moves on, the Memory Port arbitrates. -/

set_option Elab.async false

namespace Sys2Proof.Machine

/-! ### Due polls (R31) -/

/-- The entry is offered to line l as a due poll (R31). -/
def State.offered (s : State) (l : Fin 4) (n : Fin 64) : Bool :=
  let e := s.entry n
  e.line == l && e.state.called && !e.holdPending && !e.busy && reached s.tb.now e.dueTime

/-- The earliest due among these offered entries; where that is equal the lower index, which comes first (R31). -/
def State.earliestDue (s : State) (l : Fin 4) : List (Fin 64) → Option (Fin 64)
  | [] => none
  | n :: rest =>
    match s.offered l n, s.earliestDue l rest with
    | false, r => r
    | true, none => some n
    | true, some m =>
      if (s.tb.now - (s.entry n).dueTime).toNat < (s.tb.now - (s.entry m).dueTime).toNat then some m else some n

/-- The due poll candidate of line l. -/
def State.duePoll (s : State) (l : Fin 4) : Option (Fin 64) := s.earliestDue l entryIndices

/-! ### Windows (R47, R48) -/

/-- The entry may hold a slot in line l's windows: LIVE with SLOT set and hold pending clear (R41, R47). -/
def State.slotEligible (s : State) (l : Fin 4) (n : Fin 64) : Bool :=
  let e := s.entry n
  e.line == l && e.state == .live && e.options.slot && !e.holdPending

/-- The window due time is present and reached. -/
def State.windowReached (s : State) (l : Fin 4) : Bool :=
  match (s.scheduler l).windowDue with
  | some t => reached s.tb.now t
  | none => false

/-- Some entry of the line is eligible for a slot. -/
def State.anyEligible (s : State) (l : Fin 4) : Bool := entryIndices.any (s.slotEligible l)

/-- The window candidate applies (R41). -/
def State.windowApplies (s : State) (l : Fin 4) : Bool := s.windowReached l && s.anyEligible l

/-- A window due with no eligible station is not opened: its due time is advanced (R47). -/
def passWindow (l : Fin 4) (s : State) : State :=
  if s.windowReached l && !s.anyEligible l then
    s.setSched l ((s.scheduler l).windowAdvanced s.tb.now)
  else s

/-- Inserts a slot record in ascending order of address (R48). -/
def insertSlot (r : SlotRec) : List SlotRec → List SlotRec
  | [] => [r]
  | x :: xs => if r.address.toNat ≤ x.address.toNat then r :: x :: xs else x :: insertSlot r xs

/-- The eligible entries of line l as slot records in ascending order of address. -/
def State.eligibleSlots (s : State) (l : Fin 4) : List SlotRec :=
  (entryIndices.filter (s.slotEligible l)).foldr
    (fun n acc => insertSlot { address := (s.entry n).address, entry := n, void := false, seen := false } acc) []

/-- The slot list of a window (R48): from the lowest eligible address not below the rotation pointer upward, wrapping
to the lowest, each once, at most 32. -/
def State.slotList (s : State) (l : Fin 4) : List SlotRec :=
  let p := (s.scheduler l).rotation.toNat
  let all := s.eligibleSlots l
  (all.filter (fun r => p ≤ r.address.toNat) ++ all.filter (fun r => r.address.toNat < p)).take 32

/-- A window is handed over (R48). -/
def startWindow (l : Fin 4) (s : State) : State :=
  let slots := s.slotList l
  handOver l .window slots (.window (slots.map (·.address))) s

/-! ### Starting calls (R4, R42, R44, R45) -/

/-- The entry is marked busy with call; a POLL sets its last poll start (R4). A VACANT entry has no call (R4, log 17). -/
def markBusy (n : Fin 64) (k : CallKind) (s : State) : State :=
  let e := s.entry n
  if e.state = .vacant then s
  else s.setEntry n { e with busy := true, lastPollStart := if k = .poll then s.tb.now else e.lastPollStart }

/-- A due poll is started (R45): orders-in-a-row is set to 0. -/
def startPoll (l : Fin 4) (n : Fin 64) (s : State) : State :=
  let s1 := s.setSched l { s.scheduler l with ordersInRow := 0 }
  markBusy n .poll (handOver l (.call .poll n (s.entry n).address false []) [] (.poll n false) s1)

/-- An index of the fetch queue is fetch-eligible: JOINING, LIVE or MUTE with hold pending clear (R38). An entry with
a call on the wire is offered no fetch (R2). -/
def State.fetchEligible (s : State) (n : Fin 64) : Bool :=
  let e := s.entry n
  e.state.called && !e.holdPending && !e.busy

/-- The oldest fetch-eligible index of line l's fetch queue (R44). -/
def State.fetchCandidate (s : State) (l : Fin 4) : Option (Fin 64) :=
  (s.scheduler l).fetchQueue.find? s.fetchEligible

/-- A fetch is started with its reservation (R44). -/
def startFetch (l : Fin 4) (n : Fin 64) (s : State) : State :=
  let q := s.scheduler l
  let s1 := (s.setReserved l true).setSched l { q with fetchQueue := q.fetchQueue.erase n }
  markBusy n .fetch (handOver l (.call .fetch n (s.entry n).address false []) [] (.fetch n) s1)

/-! ### Orders (R42, R43) -/

/-- An order-queue item is blocked: an ORDER whose entry's attention latch is set (R42). -/
def State.blocked (s : State) (i : Fin 16) : Bool :=
  s.slotIs i (fun j => j.kindOf == some .order &&
    (match targetEntry j.target with | some n => (s.entry n).latch | none => false))

/-- The oldest item of line l's order queue that is not blocked (R42). -/
def State.orderCandidate (s : State) (l : Fin 4) : Option (Fin 16) :=
  (s.scheduler l).orderQueue.find? (fun i => !s.blocked i)

/-- The order candidate may go before a due poll: orders-in-a-row is below the order burst, or no poll is due (R41). -/
def State.orderMayGo (s : State) (l : Fin 4) : Bool :=
  (s.scheduler l).ordersInRow < (s.scheduler l).orderBurst || (s.duePoll l).isNone

/-- A pick adds 1 to orders-in-a-row, at most 8, takes the item out, and an empty queue sets the count to 0
(R35, R43). -/
def Sched.picked (q : Sched) (i : Fin 16) : Sched :=
  Sched.keepOrders { q with ordersInRow := min 8 (q.ordersInRow + 1) } (· != i)

/-- Slot i holds a SETUP LINE. -/
def State.isSetup (s : State) (i : Fin 16) : Bool := s.slotIs i (fun j => j.kindOf == some .setupLine)

/-! ### SETUP LINE (R46, R121) -/

/-- A setting of the change set, else its present value (R121). -/
def settingOr (v : Option Nat) (present : Nat) : Nat := v.getD present

/-- The settings a SETUP LINE writes into the Scheduler. -/
def Sched.applySettings (p : SetupParams) (q : Sched) : Sched :=
  { q with searchPeriod := BitVec.ofNat 32 (settingOr p.search q.searchPeriod.toNat),
           windowInterval := BitVec.ofNat 32 (settingOr p.window q.windowInterval.toNat),
           orderBurst := settingOr p.burst q.orderBurst }

/-- The settings a SETUP LINE writes into the engine (R69). -/
def Engine.applySettings (p : SetupParams) (e : Engine) : Engine :=
  { e with rateCode := Fin.ofNat 8 (settingOr p.rate e.rateCode.val),
           turnaround := settingOr p.turnaround e.turnaround, retryLimit := settingOr p.retry e.retryLimit }

/-- Each of these items leaves line l's queue and completes LINE_OFF, in queue order; an ORDER's leaving brings the
hold check of its entry (R23, R35, R46). A HOLD that the last queued ORDER of its entry lets complete is completed between
that ORDER and the later items of the queue: the spec does not order these completions (log 35, DESIGN CHOICE). -/
def completeLineOff (l : Fin 4) : List (Fin 16) → State → State
  | [], s => s
  | i :: rest, s =>
    let n := match s.slot i with
      | some j => if j.kindOf = some .order then targetEntry j.target else none
      | none => none
    let s' := completeJob i (.plain .lineOff) (s.setSched l ((s.scheduler l).keepOrders (· != i)))
    completeLineOff l rest (match n with | some n => settleHold n s' | none => s')

/-- The line disable (R46): the engine goes OFF, the Station Table acts by R26, the Scheduler takes its disable values
(R30), and every ORDER and BROADCAST left in the queue completes LINE_OFF; SETUP LINE items stay. -/
def disableLine (l : Fin 4) (s : State) : State :=
  let s1 := lineOffStations l (s.setEngine l (s.engine l).turnedOff)
  let q := s1.scheduler l
  completeLineOff l (q.orderQueue.filter (fun i => !s1.isSetup i)) (s1.setSched l q.disabled)

/-- The line left enabled or newly enabled (R46): the engine goes to SETTLING and the window due time is set. -/
def enableLine (l : Fin 4) (s : State) : State :=
  let q := s.scheduler l
  (s.setEngine l ((s.engine l).enterSettling s.moment (s.rxd l))).setSched l
    { q with enabled := true,
             windowDue := if q.windowInterval = 0 then none else some (s.tb.now + q.windowInterval) }

/-- A picked SETUP LINE writes the settings of its change set, changes the line by its enable parameter and completes
OK (R46, R121). The completions of a disable come before its own (log 7). -/
def applySetup (l : Fin 4) (i : Fin 16) (p : SetupParams) (s : State) : State :=
  let s1 := (s.setEngine l ((s.engine l).applySettings p)).setSched l ((s.scheduler l).applySettings p)
  completeJob i (.plain .ok) (if p.enable then enableLine l s1 else disableLine l s1)

/-- An item is picked from line l's order queue (R35): ORDER and BROADCAST go on the wire with their slot ON_WIRE
(R42), a SETUP LINE is applied. No other kind is ever queued. -/
def pickItem (l : Fin 4) (i : Fin 16) (s : State) : State :=
  let s1 := s.setSched l ((s.scheduler l).picked i)
  match s.slot i with
  | none => s1
  | some j =>
    match j.kindOf, targetEntry j.target with
    | some .order, some n =>
      let e := s.entry n
      let s2 := s1.modSlot i (fun j => { j with state := .onWire })
      markBusy n .order (handOver l (.call .order n e.address e.seqBit j.sent) [] (.order n i) s2)
    | some .broadcast, _ =>
      handOver l (.broadcast j.sent) [] (.broadcast i) (s1.modSlot i (fun j => { j with state := .onWire }))
    | some .setupLine, _ => applySetup l i (SetupParams.ofBytes j.params) s1
    | _, _ => s1

/-! ### The arbiter (R40, R41) -/

/-- The Scheduler of line l may choose among all candidates: RUNNING, nothing in flight, its engine IDLE (R40), and no
stuck line waiting to be taken (R89, log 15). -/
def State.mayChoose (s : State) (l : Fin 4) : Bool :=
  s.running && (s.scheduler l).inFlight.isNone && (s.engine l).lineState == .idle && !s.stuckDue l

/-- The Scheduler of line l considers SETUP LINE items alone: RUNNING, nothing in flight, its engine OFF (R40). -/
def State.maySetup (s : State) (l : Fin 4) : Bool :=
  s.running && (s.scheduler l).inFlight.isNone && (s.engine l).lineState == .off

/-- The choice in IDLE: the first of window, fetch, order and due poll that applies (R41); none leaves no choice. -/
def chooseIdle (l : Fin 4) (s : State) : Option State :=
  if s.windowApplies l then some (startWindow l s)
  else
    match s.canReserve, s.fetchCandidate l with
    | true, some n => some (startFetch l n s)
    | _, _ =>
      match s.orderMayGo l, s.orderCandidate l with
      | true, some i => some (pickItem l i s)
      | _, _ => (s.duePoll l).map (fun n => startPoll l n s)

/-- One choice of line l, or none (R40). -/
def chooseOnce (l : Fin 4) (s : State) : Option State :=
  if s.mayChoose l then chooseIdle l s
  else if s.maySetup l then
    ((s.scheduler l).orderQueue.find? s.isSetup).map (fun i => pickItem l i s)
  else none

/-- Line l chooses until no candidate applies. Only SETUP LINE picks leave a further choice, and a queue holds at most
16 items. -/
def chooseLine : Nat → Fin 4 → State → State
  | 0, _, s => s
  | f + 1, l, s =>
    let s1 := if s.mayChoose l then passWindow l s else s
    match chooseOnce l s1 with
    | some s2 => chooseLine f l s2
    | none => s1

/-- Line l's choice would ask for a reservation. -/
def State.wantsFetch (s : State) (l : Fin 4) : Bool :=
  s.mayChoose l && !s.windowApplies l && (s.fetchCandidate l).isSome

/-- Two or more Schedulers ask for places within this step and not all can be granted (R156). -/
def State.contended (s : State) : Bool :=
  let k := (lines.filter s.wantsFetch).length
  decide (2 ≤ k) && decide (s.freePlaces < k)

/-- The four lines in cyclic order from one. -/
def linesFrom (l : Fin 4) : List (Fin 4) := [l, l + 1, l + 2, l + 3]

/-- These lines choose, in order. -/
def chooseLines : List (Fin 4) → State → State
  | [], s => s
  | l :: rest, s => chooseLines rest (chooseLine 18 l s)

/-- Every Scheduler whose candidate applies chooses. Where several ask for the last places, which is taken first is
the free value `Config.firstLine` (log 5); otherwise the order of the lines changes nothing. -/
def chooseAll (s : State) : State :=
  if s.contended then
    chooseLines (linesFrom (Config.firstLine s.freeCount)) { s with freeCount := s.freeCount + 1 }
  else chooseLines lines s

/-! ### The two steps of a stop's end (R174) -/

/-- The first step's conditions: nothing in flight on any line, no follower read at the port, the Job Unit done, the
Report Writer drained (R174). -/
def State.sessionDrained (s : State) : Bool :=
  lines.all (fun l => (s.scheduler l).inFlight.isNone) && !s.port.busyFor .follower && s.jobsDone && s.reportDrained

/-- The Control Block tells the Notice Writer to close when the first step's conditions hold together (R174); a notice
that the same event brought has not begun then (log 34, DESIGN CHOICE). -/
def tellToClose (s : State) : State :=
  if !s.pins.rstn && s.ctl.part == .stopping && !s.ntc.closing && s.sessionDrained then beginClose s else s

/-- The part goes to IDLE at the end of a stop (R174): every block takes its end-of-stop values and STOPPED is set. -/
def stopEnds (s : State) : State :=
  { s with
    ctl := { s.ctl with part := .idle, hzint := s.ctl.hzint ||| Cause.stopped.bit },
    entries := Vector.replicate 64 Entry.vacant,
    sched := s.sched.map Sched.stopped,
    eng := s.eng.map Engine.turnedOff,
    job := s.job.stopped, rep := s.rep.stopped, ntc := s.ntc.stopped }

/-- The second step: with the Notice Writer closed and the Report Writer drained the stop ends (R174). -/
def endStop (s : State) : State :=
  if !s.pins.rstn && s.ctl.part == .stopping && s.noticeClosed && s.reportDrained then stopEnds s else s

/-! ### What every event ends with -/

/-- The blocks issue what they have ready and a stop moves on. An update of a cell begins here, after the whole event:
where one event makes two transitions of one entry (a call's end from MUTE to LIVE and on to HELD, a line disable from
LIVE to JOINING and on to HELD) they are merged into one update, while R144 lets an update begin between the two (log 39,
DESIGN CHOICE). At the end the Memory Port arbitrates (R182). The close of R174 comes before the Notice Writer's next
request: a notice that could begin by R159 in the very event that makes the first step's conditions hold is discarded
(R164). The spec does not order the two (log 34, DESIGN CHOICE). -/
def drain (s : State) : State :=
  let s1 := beginUpdate (issueJobWrite s)
  let s2 := closeWhenQuiet (tellToClose s1)
  let s3 := issueNotice (waitForRoom s2)
  (endStop s3).arbitrate

/-- The Schedulers choose, and then as `drain` (R40: the choice is made as part of the event; which events, log 22). -/
def settle (s : State) : State := drain (chooseAll s)

end Sys2Proof.Machine
end

