-- ==== Sys2Proof/Machine/JobKinds.lean ====
section
/-! DEFINITION. The eleven job kinds (chapter 6): validation and dispatch within the taking, and the taking itself. -/

set_option Elab.async false

namespace Sys2Proof.Machine

/-- A job in slot i completes without being sent. -/
def finish (i : Fin 16) (r : JobResult) (s : State) : State := completeJob i (.plain r) s

/-- Changes the slot state of slot i. -/
def setSlotState (i : Fin 16) (st : SlotState) (s : State) : State := s.modSlot i (fun j => { j with state := st })

/-- A line-bound job is appended to its line's order queue and its slot goes QUEUED (R34). -/
def enqueue (l : Fin 4) (i : Fin 16) (s : State) : State :=
  let s1 := setSlotState i .queued s
  let q := s1.scheduler l
  s1.setSched l { q with orderQueue := q.orderQueue ++ [i] }

/-- Line l is OFF (R132). -/
def State.lineOff (s : State) (l : Fin 4) : Bool := (s.engine l).lineState == .off

/-- SETUP LINE (R120). -/
def jobSetupLine (i : Fin 16) (j : Job) (s : State) : State :=
  match targetLine j.target with
  | none => finish i .badJob s
  | some l => if (SetupParams.ofBytes j.params).valid then enqueue l i s else finish i .badJob s

/-- LINE STATUS (R92, R123): the snapshot, and the counters cleared in the same action when the clear flag is set. -/
def jobLineStatus (i : Fin 16) (j : Job) (s : State) : State :=
  match targetLine j.target with
  | none => finish i .badJob s
  | some l =>
    let e := s.engine l
    let s1 := if (byteAt j.params 0).getLsbD 0 then s.setEngine l { e with counters := Counters.zero } else s
    completeJob i { result := .ok, attempts := 0, status := 0, payload := snapshot e } s1

/-- An entry set up by ENLIST (R3). -/
def enlisted (now : Word) (l : Fin 4) (p : StationParams) : Entry :=
  { Entry.vacant with
    state := .joining, line := l, address := p.address, pollPeriod := p.pollPeriod, quietLimit := p.quietLimit,
    options := Options.ofByte p.options, dueTime := now, lastPollStart := now }

/-- An entry other than VACANT holds this line and address (R125). -/
def State.addressHeld (s : State) (l : Fin 4) (a : Byte) : Bool :=
  entryIndices.any (fun m => (s.entry m).state != .vacant && (s.entry m).line == l && (s.entry m).address == a)

/-- ENLIST (R124, R125, R3). -/
def jobEnlist (i : Fin 16) (j : Job) (s : State) : State :=
  let p := StationParams.ofBytes j.params
  match targetEntry j.target, targetLine p.line with
  | some n, some l =>
    if !(p.placeValid && p.tuningValid) then finish i .badJob s
    else if (s.entry n).state ≠ .vacant then finish i .entryInUse s
    else if s.addressHeld l p.address then finish i .duplicateAddress s
    else finish i .ok (requestCell n (s.setEntry n (enlisted s.tb.now l p)))
  | _, _ => finish i .badJob s

/-- DELIST clears the ground (R20): the entry's queued ORDERs complete STATION_GONE, its latch is cleared and its index
leaves the fetch queue, its slot becomes void (R84), and a waiting HOLD completes STATION_GONE. The slot becomes void also
between the window's end and the delivery of a character that began in its last slot, while the engine rests: R84
speaks of the time while the window runs (log 30, DESIGN CHOICE). -/
def clearGround (n : Fin 64) (s : State) : State :=
  let s1 := dropOrders n .stationGone s
  let e := s1.entry n
  let q := s1.scheduler e.line
  let g := s1.engine e.line
  let s2 := s1.setSched e.line { q with fetchQueue := q.fetchQueue.filter (· != n) }
  let s3 := s2.setEngine e.line
    { g with slots := g.slots.map (fun r => if r.entry = n then { r with void := true } else r) }
  let s4 := s3.setEntry n { e with latch := false, holdPending := false }
  if e.holdPending then completeWaiting .hold n .stationGone s4 else s4

/-- DELIST (R20, R126). -/
def jobDelist (i : Fin 16) (j : Job) (s : State) : State :=
  match targetEntry j.target with
  | none => finish i .badJob s
  | some n =>
    if (s.entry n).state = .vacant ∨ (s.entry n).state = .leaving then finish i .notEnlisted s
    else
      let s1 := clearGround n s
      if (s1.entry n).busy then
        setSlotState i .waiting (s1.setEntry n { s1.entry n with state := .leaving, quietDeadline := none })
      else finish i .ok (becomeVacant n s1)

/-- HOLD (R22, R128). -/
def jobHold (i : Fin 16) (j : Job) (s : State) : State :=
  match targetEntry j.target with
  | none => finish i .badJob s
  | some n =>
    let e := s.entry n
    if e.state = .vacant ∨ e.state = .leaving then finish i .notEnlisted s
    else if e.state = .held ∨ e.holdPending then finish i .wrongState s
    else if !s.hasOrder n && !e.busy then finish i .ok (becomeHeld n s)
    else settleHold n (setSlotState i .waiting (s.setEntry n { e with holdPending := true }))

/-- RELEASE (R24, R130). -/
def jobRelease (i : Fin 16) (j : Job) (s : State) : State :=
  match targetEntry j.target with
  | none => finish i .badJob s
  | some n =>
    let e := s.entry n
    if e.state ≠ .held then finish i .wrongState s
    else finish i .ok (requestCell n (s.setEntry n { e with state := .joining, dueTime := s.tb.now }))

/-- What a RETUNE makes of an entry (R25): the three settings, and in LIVE the due time and the quiet deadline. A
deadline that counts as reached is left for the expiry (`retuneExpires`); the due time moves in that case too (log 10). -/
def retuned (now : Word) (p : StationParams) (e : Entry) : Entry :=
  let e1 := { e with pollPeriod := p.pollPeriod, quietLimit := p.quietLimit, options := Options.ofByte p.options }
  if e.state = .live then
    { e1 with
      dueTime := if p.pollPeriod.toNat ≤ (now - e.lastPollStart).toNat then now
                 else e.lastPollStart + p.pollPeriod,
      quietDeadline := if p.quietLimit = 0 then none else some (e.lastHeard + p.quietLimit) }
  else e1

/-- The new deadline of a LIVE entry counts as reached: now minus last heard is at least the new limit (R25). -/
def retuneExpires (now : Word) (p : StationParams) (e : Entry) : Bool :=
  e.state == .live && p.quietLimit != 0 && p.quietLimit.toNat ≤ (now - e.lastHeard).toNat

/-- A due time that the Station Table sets while a poll of the entry is on the wire stands at the poll's end (R32). -/
def noteDueSet (n : Fin 64) (s : State) : State :=
  let l := (s.entry n).line
  let q := s.scheduler l
  match q.inFlight with
  | some (.poll m _) => if m = n then s.setSched l { q with inFlight := some (.poll m true) } else s
  | _ => s

/-- RETUNE (R25, R131). -/
def jobRetune (i : Fin 16) (j : Job) (s : State) : State :=
  match targetEntry j.target with
  | none => finish i .badJob s
  | some n =>
    let p := StationParams.ofBytes j.params
    let e := s.entry n
    if !p.tuningValid then finish i .badJob s
    else if e.state = .vacant ∨ e.state = .leaving then finish i .notEnlisted s
    else
      let s1 := s.setEntry n (retuned s.tb.now p e)
      let s2 := if e.state = .live then noteDueSet n s1 else s1
      finish i .ok (if retuneExpires s.tb.now p e then expireQuiet n s2 else s2)

/-- ORDER (R132). -/
def jobOrder (i : Fin 16) (j : Job) (s : State) : State :=
  match targetEntry j.target with
  | none => finish i .badJob s
  | some n =>
    let e := s.entry n
    if e.state = .vacant ∨ e.state = .leaving then finish i .notEnlisted s
    else if e.state = .held ∨ e.holdPending then finish i .wrongState s
    else if s.lineOff e.line then finish i .lineOff s
    else enqueue e.line i s

/-- BROADCAST (R134). -/
def jobBroadcast (i : Fin 16) (j : Job) (s : State) : State :=
  match targetLine j.target with
  | none => finish i .badJob s
  | some l => if s.lineOff l then finish i .lineOff s else enqueue l i s

/-- The slots a CANCEL may match (R135): in use, other than its own, with the match tag, neither DELIST nor HOLD. -/
def State.cancelCandidates (s : State) (own : Fin 16) (tag : Half) : List (Fin 16) :=
  slotIndices.filter (fun k => k != own &&
    s.slotIs k (fun j => j.tag == tag && j.kindOf != some .delist && j.kindOf != some .hold))

/-- The line whose order queue holds slot k. -/
def State.queueOf (s : State) (k : Fin 16) : Option (Fin 4) :=
  lines.find? (fun l => (s.scheduler l).orderQueue.contains k)

/-- A cancel request for slot k in line l's queue (R36): the item leaves, its job completes CANCELLED, and for an
ORDER hold pending is then checked. -/
def cancelItem (l : Fin 4) (k : Fin 16) (s : State) : State :=
  let n := match s.slot k with
    | some j => if j.kindOf = some .order then targetEntry j.target else none
    | none => none
  let s1 := finish k .cancelled (s.setSched l ((s.scheduler l).keepOrders (· != k)))
  match n with
  | some n => settleHold n s1
  | none => s1

/-- CANCEL (R135 to R137). -/
def jobCancel (i : Fin 16) (j : Job) (s : State) : State :=
  match s.oldest (s.cancelCandidates i (matchTag j.params)) with
  | none => finish i .notFound s
  | some k =>
    if s.slotIs k (·.state == .queued) then
      match s.queueOf k with
      | some l => finish i .ok (cancelItem l k s)
      | none => finish i .tooLate s
    else if s.slotIs k (·.state == .waiting) then finish i .ok (finish k .cancelled s)
    else finish i .tooLate s

/-- The slots whose result is not yet decided, other than one (R138). -/
def State.undecided (s : State) (own : Fin 16) : List (Fin 16) :=
  slotIndices.filter (fun k => k != own && s.slotIs k (·.state != .completing))

/-- MARK (R138). -/
def jobMark (i : Fin 16) (s : State) : State :=
  let w := s.undecided i
  if w.isEmpty then finish i .ok s
  else s.modSlot i (fun j => { j with state := .waiting, waitSet := w })

/-- Validation and dispatch of the job in slot i (R118, R119): the kind, then the payload length, then the kind's own
checks beginning with the target. -/
def dispatchJob (i : Fin 16) (s : State) : State :=
  match s.slot i with
  | none => s
  | some j =>
    match j.kindOf with
    | none => finish i .badJob s
    | some k =>
      if 32 < j.payloadLength.toNat then finish i .badJob s
      else match k with
        | .setupLine => jobSetupLine i j s
        | .lineStatus => jobLineStatus i j s
        | .enlist => jobEnlist i j s
        | .delist => jobDelist i j s
        | .hold => jobHold i j s
        | .release => jobRelease i j s
        | .retune => jobRetune i j s
        | .order => jobOrder i j s
        | .broadcast => jobBroadcast i j s
        | .cancel => jobCancel i j s
        | .mark => jobMark i s

/-- The job that a taken record makes (R101). -/
def jobOf (a : Addr) (number : Word) (r : JobRecord) : Job :=
  { address := a, takingNumber := number, kind := r.kind, flags := r.fields.flags, tag := r.fields.tag,
    target := r.fields.target, params := r.fields.params, payloadLength := r.fields.payloadLength,
    payload := r.fields.payload, state := .validating, waitSet := [], result := none }

/-- Slot i is claimed for the record at a: steps 1 to 4 of R101. -/
def claimSlot (i : Fin 16) (a : Addr) (r : JobRecord) (s : State) : State :=
  let n := s.job.takingCount + 1
  let s1 := (s.setSlot i (some (jobOf a n r))).listWrite (.taken a)
  { s1 with job := { s1.job with takingCount := n, parking := some (linkField a), nextRecord := none,
                                 rereadOf := none } }

/-- Taking a record (R101): a slot is claimed, the follower goes on by the link value, and the job is validated and
dispatched, in that order (log 25). A record is read only while a slot is FREE. -/
def takeRecord (a : Addr) (r : JobRecord) (s : State) : State :=
  match s.freeSlot with
  | some i => dispatchJob i (followLink (linkField a) r.fields.link (claimSlot i a r s))
  | none => s.setFollower .paused

/-- The follower judges a record read (R100): halts on a POSTED record with a misaligned link (log 9), takes a
takeable one, and parks on any other. -/
def judgeRecord (a : Addr) (r : JobRecord) (s : State) : State :=
  if r.stateWord = postedWord then
    if !aligned 128 r.fields.link then haltAlign (linkField a) s
    else if s.holdsRecord a then park .record s
    else takeRecord a r s
  else park .record s

/-- A record read has returned r: it is judged while the follower waits for it, and dropped otherwise: in STOPPING no
record of any kind is taken (R107, R115, R173). -/
def recordReturned (r : JobRecord) (s : State) : State :=
  if s.active && s.serving .recordRead then
    let s1 := s.served
    match s1.running, s1.job.follower, s1.job.nextRecord with
    | true, .recordRead, some a => settle (judgeRecord a r s1)
    | _, _, _ => settle s1
  else s

/-- A record read has returned a POSTED record of this kind with these fields (log 3). -/
def jobTaken (k : JobKind) (f : JobFields) (s : State) : State :=
  recordReturned { stateWord := postedWord, kind := k.code, fields := f } s

/-- The fields copied into the slot at the taking are these (R101). -/
def Job.hasFields (j : Job) (f : JobFields) : Bool :=
  j.flags == f.flags && j.tag == f.tag && j.target == f.target && j.params == f.params &&
    j.payloadLength == f.payloadLength && j.payload == f.payload

/-- The slot of a LINE STATUS with these fields that has been taken and is still to be carried out (R109). -/
def State.lineStatusToDo (s : State) (f : JobFields) : Option (Fin 16) :=
  slotIndices.find? (fun i => s.slotIs i (fun j =>
    j.state == .validating && j.kindOf == some .lineStatus && j.hasFields f))

/-- The row LINE STATUS (R123). In STOPPING no record is taken (R107), but a LINE STATUS that a slot already holds and that
is still VALIDATING is carried out; otherwise the row is the taking of a record (log 33, DEDUCED). -/
def lineStatusTaken (f : JobFields) (s : State) : State :=
  match s.active && !s.running, s.lineStatusToDo f with
  | true, some i => settle (dispatchJob i s)
  | _, _ => jobTaken .lineStatus f s

end Sys2Proof.Machine
end

