-- ==== Sys2Proof/Machine/ControlCommands.lean ====
section
/-! DEFINITION. The commands of the host and of RSTN: START to REGISTER_WRITE. -/

set_option Elab.async false

namespace Sys2Proof.Machine

/-- The anchor address that ANCH and ANCL hold (R169). -/
def State.anchorRegisters (s : State) : Addr := s.ctl.anch ++ s.ctl.ancl

/-- START taken alone (R167, R169): in IDLE the part goes STARTING with the anchor read; elsewhere NOT_IDLE. -/
def takeStart (s : State) : State :=
  if s.ctl.part = .idle then
    let a := s.anchorRegisters
    let s1 := { s with ctl := { s.ctl with part := .starting, phase := .anchorRead, startStop := false, anchor := a } }
    (s1.issue (readRequest .control .anchorRead .anchor a 256)).arbitrate
  else refuse .notIdle s

/-- The Scheduler of every line gives up its order queue; orders-in-a-row is then 0 (R35, R37). -/
def emptyQueues (s : State) : State :=
  { s with sched := s.sched.map (fun q => { q with orderQueue := [], ordersInRow := 0 }) }

/-- Each of these jobs is decided ABORTED, in order. -/
def abortJobs : List (Fin 16) → State → State
  | [], s => s
  | i :: rest, s => abortJobs rest (decideJob i (.plain .aborted) s)

/-- Waiting jobs of the kinds a stop aborts: MARKs, or DELISTs and HOLDs (R173). -/
def State.waitingJobs (s : State) (marks : Bool) : List (Fin 16) :=
  slotIndices.filter (fun i => s.slotIs i (fun j => j.state == .waiting && (j.kindOf == some .mark) == marks))

/-- RUNNING to STOPPING in one action (R173): the follower goes OFF, the order queues are completed ABORTED line by line
in queue order, then the waiting MARKs, then the waiting DELISTs and HOLDs (log 6); hold pending is cleared. -/
def beginStop (s : State) : State :=
  let queued := lines.flatMap (fun l => (s.scheduler l).orderQueue)
  let s1 := { s with ctl := { s.ctl with part := .stopping },
                     job := { s.job with follower := .off, nudgePending := false, rereadOf := none } }
  let s2 := abortJobs queued (emptyQueues s1)
  let s3 := abortJobs (s2.waitingJobs false) (abortJobs (s2.waitingJobs true) s2)
  s3.mapEntries (fun e => { e with holdPending := false })

/-- STOP taken alone, by the part state (R167, R172, R173). In STARTING it is remembered for the end of the request in
service (log 24). -/
def takeStop (s : State) : State :=
  match s.ctl.part with
  | .idle => refuse .notRunning s
  | .halted => refuse .notRunning s
  | .starting => { s with ctl := { s.ctl with startStop := true } }
  | .running => drain (beginStop s)
  | .stopping => s

/-- A NUDGE taken while RUNNING goes to the Chain Follower and the Notice Writer (R168). -/
def takeNudge (s : State) : State := drain (nudgeRead (nudgeFollower s))

/-- A write to HZCMD, one command event (R167). RESET goes alone; a NUDGE is judged by the state the write found, and
taken before a STOP of the same write (log 11). While RSTN is asserted the access is not taken (R175). -/
def takeCommand (v : Word) (s : State) : State :=
  if s.pins.rstn then s
  else if v.getLsbD 2 then commandReset s
  else
    let s1 := if v.getLsbD 3 && s.running then takeNudge s else s
    match v.getLsbD 0, v.getLsbD 1 with
    | true, true => refuse .conflict s1
    | true, false => takeStart s1
    | false, true => takeStop s1
    | false, false => s1

/-- A write to HZINT clears each cause whose bit is 1 (R178). -/
def writeHzint (v : Word) (s : State) : State :=
  if s.pins.rstn then s else { s with ctl := { s.ctl with hzint := s.ctl.hzint &&& ~~~(v.setWidth 5) } }

/-- A write to HZMASK sets the five enables (R179). -/
def writeHzmask (v : Word) (s : State) : State :=
  if s.pins.rstn then s else { s with ctl := { s.ctl with hzmask := v.setWidth 5 } }

/-- A write to ANCL ignores its bits 0 to 7 (R180). -/
def writeAncl (v : Word) (s : State) : State :=
  if s.pins.rstn then s else { s with ctl := { s.ctl with ancl := v &&& 0xFFFFFF00 } }

/-- A write to ANCH (R180). -/
def writeAnch (v : Word) (s : State) : State :=
  if s.pins.rstn then s else { s with ctl := { s.ctl with anch := v } }

/-- A write to a register offset with byte enables (R180): partial writes are ignored, as are writes to the read-only
registers and to offsets 24h to 3Fh. A whole write to the offset of HZCMD, HZINT or HZMASK is that register's write
(log 18). -/
def writeRegister (offset : BitVec 6) (v : Word) (enables : BitVec 4) (s : State) : State :=
  if enables ≠ 0xF then s
  else match offset.toNat with
    | 0x04 => takeCommand v s
    | 0x0C => writeHzint v s
    | 0x10 => writeHzmask v s
    | 0x14 => writeAncl v s
    | 0x18 => writeAnch v s
    | _ => s

/-- START (R169): a write to HZCMD with bit 0 set. -/
def execStart (v : Word) (s : State) : Host.Outcome State Fault Refusal := .next (takeCommand (v ||| 0x1) s)

/-- STOP (R173): a write to HZCMD with bit 1 set. -/
def execStop (v : Word) (s : State) : Host.Outcome State Fault Refusal := .next (takeCommand (v ||| 0x2) s)

/-- RESET (R175): a write to HZCMD with bit 2 set. -/
def execReset (v : Word) (s : State) : Host.Outcome State Fault Refusal := .next (takeCommand (v ||| 0x4) s)

/-- NUDGE (R168): a write to HZCMD with bit 3 set. -/
def execNudge (v : Word) (s : State) : Host.Outcome State Fault Refusal := .next (takeCommand (v ||| 0x8) s)

/-- PIN_RESET (R175): RSTN is asserted. -/
def execPinReset (s : State) : Host.Outcome State Fault Refusal := .next (pinReset s)

/-- RSTN_RELEASE (R175): the part is IDLE, by its pin reset values, and takes register accesses. -/
def execRstnRelease (s : State) : Host.Outcome State Fault Refusal :=
  .next { s with pins := { s.pins with rstn := false } }

/-- HZINT_WRITE (R178). -/
def execHzintWrite (v : Word) (s : State) : Host.Outcome State Fault Refusal := .next (writeHzint v s)

/-- HZMASK_WRITE (R179). -/
def execHzmaskWrite (v : Word) (s : State) : Host.Outcome State Fault Refusal := .next (writeHzmask v s)

/-- REGISTER_WRITE (R180). -/
def execRegisterWrite (offset : BitVec 6) (v : Word) (enables : BitVec 4) (s : State) :
    Host.Outcome State Fault Refusal := .next (writeRegister offset v enables s)

end Sys2Proof.Machine
end

