-- ==== Sys2Proof/Machine/JobCommands.lean ====
section
/-! DEFINITION. The job rows: each is the completion of the record read with a POSTED record of the row's kind, which
is taken, validated and dispatched in one action (R101, R119, log 3). A LINE STATUS already taken is carried out in STOPPING too
(R123, log 33). -/

set_option Elab.async false

namespace Sys2Proof.Machine

/-- A taken SETUP LINE job (R120). -/
def execSetupLine (f : JobFields) (s : State) : Host.Outcome State Fault Refusal :=
  .next (jobTaken .setupLine f s)

/-- A taken LINE STATUS job (R123). -/
def execLineStatus (f : JobFields) (s : State) : Host.Outcome State Fault Refusal :=
  .next (lineStatusTaken f s)

/-- A taken ENLIST job (R125). -/
def execEnlist (f : JobFields) (s : State) : Host.Outcome State Fault Refusal :=
  .next (jobTaken .enlist f s)

/-- A taken DELIST job (R126). -/
def execDelist (f : JobFields) (s : State) : Host.Outcome State Fault Refusal :=
  .next (jobTaken .delist f s)

/-- A taken HOLD job (R128). -/
def execHold (f : JobFields) (s : State) : Host.Outcome State Fault Refusal :=
  .next (jobTaken .hold f s)

/-- A taken RELEASE job (R130). -/
def execRelease (f : JobFields) (s : State) : Host.Outcome State Fault Refusal :=
  .next (jobTaken .release f s)

/-- A taken RETUNE job (R131). -/
def execRetune (f : JobFields) (s : State) : Host.Outcome State Fault Refusal :=
  .next (jobTaken .retune f s)

/-- A taken ORDER job (R132). -/
def execOrder (f : JobFields) (s : State) : Host.Outcome State Fault Refusal :=
  .next (jobTaken .order f s)

/-- A taken BROADCAST job (R134). -/
def execBroadcast (f : JobFields) (s : State) : Host.Outcome State Fault Refusal :=
  .next (jobTaken .broadcast f s)

/-- A taken CANCEL job (R136). -/
def execCancel (f : JobFields) (s : State) : Host.Outcome State Fault Refusal :=
  .next (jobTaken .cancel f s)

/-- A taken MARK job (R138). -/
def execMark (f : JobFields) (s : State) : Host.Outcome State Fault Refusal :=
  .next (jobTaken .mark f s)

end Sys2Proof.Machine
end

