-- ==== Sys2Proof/Machine/LineCommands.lean ====
section
/-! DEFINITION. The events of a line: CALL_SENT to START_BIT_CONFIRMATION. Each is taken only in RUNNING or STOPPING,
in the line states that know it, and when its moment is reached (log 1, log 13). -/

set_option Elab.async false

namespace Sys2Proof.Machine

/-- What the engine does at the end of a call's last stop bit, at `stopEnd` (R73): DE deasserted, the receiver enabled by
the level RXD showed at that moment (R52), the space run started when RXD shows space (R72). `now` is the level RXD
shows when the event is taken; what changed since `stopEnd` has its effect. -/
def Engine.callSent (stopEnd : Nat) (now : Bool) (e : Engine) : Engine :=
  let e1 := { e.resume stopEnd (e.levelAt stopEnd now) with
    spaceRun := if now then none else some ((e.edgesSince stopEnd).getLast?.getD stopEnd), since := stopEnd }
  match e.op with
  | some (.call _ _ _ _ _) =>
    { e1 with lineState := .awaiting, answerBuf := [], taken := 0, draining := false, limitPassed := false }
  | some (.broadcast _) => e1.rest 4 stopEnd
  | some .window => { e1 with lineState := .window, windowFrom := stopEnd }
  | none => e1.rest 2 stopEnd

/-- The last stop bit of a call ends (R73). -/
def callSent (l : Fin 4) (s : State) : State :=
  let e := s.engine l
  let stopEnd := e.since + e.sendTime
  if s.active && e.lineState == .sending && decide (stopEnd ≤ s.moment) then
    s.setEngine l (e.callSent stopEnd (s.rxd l))
  else s

/-- The character `c` is delivered at the middle of its stop bit, 10.5 bit times after its start (R52, R86); what is
delivered is what the receiver sampled from RXD, and no other character can come (log 1). From the middle of the stop
bit on the receiver hunts, or waits for mark after a stop bit sampled at space: R52 says that it hunts when a delivered
character ends, and the model takes the delivery as that end (log 28, DESIGN CHOICE). -/
def deliver (l : Fin 4) (c : LineChar) (s : State) : State :=
  let e := s.engine l
  match s.active, e.receiver with
  | true, .receiving start =>
    let stopBit := start + 21 * halfBit e.rateCode
    if stopBit ≤ s.moment ∧ e.character start = c then
      settle (takeCharacter l start c.value (s.setEngine l (e.resume stopBit (e.sample start 10))))
    else s
  | _, _ => s

/-- The turnaround limit runs out in AWAITING (R75). -/
def turnaroundLimit (l : Fin 4) (s : State) : State :=
  let e := s.engine l
  if s.active && e.lineState == .awaiting && !e.limitPassed && decide (e.turnaroundEnd ≤ s.moment) then
    settle (turnaroundOut l s)
  else s

/-- The gap limit runs out in RECEIVING: a gap of more than 3 character times (R76). -/
def answerGapLimit (l : Fin 4) (s : State) : State :=
  let e := s.engine l
  if s.active && e.lineState == .receiving && !e.limitPassed && decide (e.gapEnd < s.moment) then
    settle (gapOut l s)
  else s

/-- What follows the rest (R81): the next attempt of a call that goes on, or IDLE, after a BROADCAST's report (R82).
Where REST_END is taken later than the exact end of the rest, the next attempt's sending is timed from the moment the row
is taken, as that of an operation chosen then is (`handOver`), and not from the end of the rest: the spec has the two at
one moment (log 37, DESIGN CHOICE). -/
def restOver (l : Fin 4) (s : State) : State :=
  let e := s.engine l
  match e.op with
  | some (.call _ _ _ _ _) => s.setEngine l (e.startSending s.moment)
  | some (.broadcast _) => broadcastEnded l (s.setEngine l { e.toIdle with op := none })
  | some .window => s.setEngine l e.toIdle
  | none => s.setEngine l e.toIdle

/-- The rest ends (R81). -/
def restEnd (l : Fin 4) (s : State) : State :=
  let e := s.engine l
  if s.active && e.lineState == .resting && decide (e.since + e.restLength * charTime e.rateCode ≤ s.moment) then
    settle (restOver l s)
  else s

/-- The last slot of a window ends (R87): the window is reported ended and the engine rests. -/
def windowEnd (l : Fin 4) (s : State) : State :=
  let e := s.engine l
  if s.active && e.lineState == .window && decide (e.windowEnd ≤ s.moment) then
    settle (windowEnded l (s.setEngine l { e.rest 2 e.windowEnd with op := none }))
  else s

/-- The mark run reaches 10 character times in SETTLING (R70): the line is IDLE. -/
def settlingEnd (l : Fin 4) (s : State) : State :=
  let e := s.engine l
  if s.active && e.lineState == .settling && e.runReaches s.moment e.markRun 10 then
    settle (s.setEngine l e.toIdle)
  else s

/-- A line can be found stuck in SETTLING, IDLE, AWAITING, RECEIVING, RESTING and WINDOW, but not during a BROADCAST
(R82, R88, log 15). -/
def Engine.canStick (e : Engine) : Bool :=
  match e.lineState, e.op with
  | .resting, some (.broadcast _) => false
  | .settling, _ => true
  | .idle, _ => true
  | .awaiting, _ => true
  | .receiving, _ => true
  | .resting, _ => true
  | .window, _ => true
  | _, _ => false

/-- The space run reaches 20 character times (R88). -/
def lineFoundStuck (l : Fin 4) (s : State) : State :=
  if s.active && (s.engine l).canStick && s.stuckDue l then settle (foundStuck l s) else s

/-- The mark run reaches 10 character times in STUCK (R90): the line goes IDLE with a LINE_RECOVERED notice. -/
def lineRecovered (l : Fin 4) (s : State) : State :=
  let e := s.engine l
  if s.active && e.lineState == .stuck && e.runReaches s.moment e.markRun 10 then
    settle (requestNotice (recoveredNotice l s.tb.now) (s.setEngine l e.toIdle))
  else s

/-- RXD changes its level (R52, R72). The pin follows in every part state; the engine looks at it outside OFF. -/
def rxdLevelChange (l : Fin 4) (s : State) : State :=
  let mark := !s.rxd l
  let s1 := { s with pins := { s.pins with rxd := s.pins.rxd.set l.val mark } }
  if s.active then s1.setEngine l ((s.engine l).levelChange s.moment mark) else s1

/-- Half a bit time after a change to space the receiver has sampled RXD (R52). -/
def startBitConfirmation (l : Fin 4) (s : State) : State :=
  let e := s.engine l
  match s.active, e.receiver with
  | true, .confirming start =>
    if start + halfBit e.rateCode ≤ s.moment then settle (confirmStart l start s) else s
  | _, _ => s

/-- CALL_SENT (R73). -/
def execCallSent (l : Fin 4) (s : State) : Host.Outcome State Fault Refusal := .next (callSent l s)

/-- CHARACTER_DELIVERED (R86). The mark bit of a received character has no effect (R67, R76, R85). -/
def execCharacterDelivered (l : Fin 4) (value : Byte) (markBit : Bool) (s : State) :
    Host.Outcome State Fault Refusal := .next (deliver l ⟨value, markBit⟩ s)

/-- TURNAROUND_LIMIT (R75). -/
def execTurnaroundLimit (l : Fin 4) (s : State) : Host.Outcome State Fault Refusal := .next (turnaroundLimit l s)

/-- ANSWER_GAP_LIMIT (R76). -/
def execAnswerGapLimit (l : Fin 4) (s : State) : Host.Outcome State Fault Refusal := .next (answerGapLimit l s)

/-- REST_END (R81). -/
def execRestEnd (l : Fin 4) (s : State) : Host.Outcome State Fault Refusal := .next (restEnd l s)

/-- WINDOW_END (R87). -/
def execWindowEnd (l : Fin 4) (s : State) : Host.Outcome State Fault Refusal := .next (windowEnd l s)

/-- SETTLING_END (R70). -/
def execSettlingEnd (l : Fin 4) (s : State) : Host.Outcome State Fault Refusal := .next (settlingEnd l s)

/-- LINE_FOUND_STUCK (R88). -/
def execLineFoundStuck (l : Fin 4) (s : State) : Host.Outcome State Fault Refusal := .next (lineFoundStuck l s)

/-- LINE_RECOVERED (R90). -/
def execLineRecovered (l : Fin 4) (s : State) : Host.Outcome State Fault Refusal := .next (lineRecovered l s)

/-- RXD_LEVEL_CHANGE (R72). -/
def execRxdLevelChange (l : Fin 4) (s : State) : Host.Outcome State Fault Refusal := .next (rxdLevelChange l s)

/-- START_BIT_CONFIRMATION (R75). -/
def execStartBitConfirmation (l : Fin 4) (s : State) : Host.Outcome State Fault Refusal :=
  .next (startBitConfirmation l s)

end Sys2Proof.Machine
end

