-- ==== Sys2Proof/Machine/MemoryCommands.lean ====
section
/-! DEFINITION. The completions of memory requests: ANCHOR_READ_DONE to MEMORY_ERROR_RESPONSE. A completion is taken
only while its request is in service (log 1). -/

set_option Elab.async false

namespace Sys2Proof.Machine

/-- The completion of a request of kind k in RUNNING or STOPPING: the requester takes the result by f. -/
def whenServed (k : RequestKind) (f : State → State) (s : State) : State :=
  if s.active && s.serving k then f s.served else s

/-- The completion of a request of kind k in a phase of STARTING: f, or the end of STARTING after a STOP (R172). -/
def whenStarting (p : Phase) (k : RequestKind) (f : State → State) (s : State) : State :=
  if s.startingIn p && s.serving k then
    if s.ctl.startStop then endStarting s.served else f s.served
  else s

/-- The START status block write (R171): the new session count, the clock, and 0 in every other field. -/
def State.startStatusRequest (s : State) : Request :=
  writeRequest .control .statusWrite .status (s.anchorAt 0x80)
    (leBytes 4 s.ctl.sessionCount.toNat ++ List.replicate 16 0 ++ leBytes 4 s.tb.now.toNat ++ List.replicate 8 0)

/-- The anchor has been read (R170, R171): a failed check refuses the START and the part goes back to IDLE; otherwise
the session reset is carried out and the status block write issued. -/
def anchorRead (a : Anchor) (s : State) : State :=
  match a.check with
  | some r =>
    let s1 := refuse r s
    { s1 with ctl := { s1.ctl with part := .idle } }
  | none =>
    let s1 := sessionReset a s
    let s2 := { s1 with ctl := { s1.ctl with phase := .statusWrite } }
    (s2.issue s2.startStatusRequest).arbitrate

/-- The whole-cell initialisation write of cell n is issued (R147). -/
def issueInit (n : Fin 64) (s : State) : State :=
  let s1 := { s with rep := { s.rep with initCell := some n } }
  (s1.issue (s1.initRequest n)).arbitrate

/-- The part goes RUNNING (R171), unless the notices-taken view fails its check against 0 and halts it (R162): the
follower reads the first link and the re-read timer starts. -/
def enterRunning (s : State) : State :=
  if !s.takenPasses s.ntc.taken then haltCount s
  else
    let s1 := { s with
      ctl := { s.ctl with part := .running },
      job := { s.job with timer := if s.job.interval = 0 then none else some (s.tb.now + s.job.interval) } }
    drain (readLink s1)

/-- A cell's initialisation write has been carried out (R147): the next cell, or after cell 63 RUNNING. -/
def cellInitialised (s : State) : State :=
  match s.rep.initCell with
  | some n =>
    if h : n.val + 1 < 64 then issueInit ⟨n.val + 1, h⟩ s
    else enterRunning { s with rep := { s.rep with initCell := none } }
  | none => s

/-- A link read has returned v (R98), dropped when the follower does not wait for it (R107). -/
def linkReturned (v : Addr) (s : State) : State :=
  match s.running, s.job.follower, s.job.parking with
  | true, .linkRead, some p => drain (followLink p v s)
  | _, _, _ => drain s

/-- A tally write has been carried out (R113). -/
def tallyWritten (s : State) : State :=
  match s.job.writes with
  | .tally i _ :: _ => drain (freeTheSlot i (popWrite s))
  | _ => drain (popWrite s)

/-- A notices-taken read has returned v (R162). -/
def takenReturned (v : Word) (s : State) : State :=
  if s.takenPasses v then drain (adoptTaken v s) else haltCount s

/-- The part works, so an error response can be met: STARTING, RUNNING or STOPPING (R176). -/
def State.working (s : State) : Bool := s.active || (!s.pins.rstn && s.ctl.part == .starting)

/-- An error response ends the request in service and halts the part with BUS, capturing the first byte of the request,
its structure and its direction (R176, R182). -/
def busError (s : State) : State :=
  match s.port.inService with
  | some r => if s.working then enterHalted .bus r.addr r.struct r.dir s else s
  | none => s

/-- ANCHOR_READ_DONE (R170). -/
def execAnchorReadDone (data : List Byte) (s : State) : Host.Outcome State Fault Refusal :=
  .next (whenStarting .anchorRead .anchorRead (anchorRead (Anchor.ofBytes data)) s)

/-- STATUS_BLOCK_WRITE_DONE (R171): the cell initialisation begins with cell 0. -/
def execStatusBlockWriteDone (s : State) : Host.Outcome State Fault Refusal :=
  .next (whenStarting .statusWrite .statusWrite
    (fun s => issueInit 0 { s with ctl := { s.ctl with phase := .cellInit } }) s)

/-- CELL_INITIALISATION_WRITE_DONE (R147). -/
def execCellInitialisationWriteDone (s : State) : Host.Outcome State Fault Refusal :=
  .next (whenStarting .cellInit .cellInit cellInitialised s)

/-- LINK_READ_DONE (R98). -/
def execLinkReadDone (v : Addr) (s : State) : Host.Outcome State Fault Refusal :=
  .next (whenServed .linkRead (linkReturned v) s)

/-- RECORD_READ_DONE (R100). -/
def execRecordReadDone (data : List Byte) (s : State) : Host.Outcome State Fault Refusal :=
  .next (recordReturned (JobRecord.ofBytes data) s)

/-- TAKEN_WRITE_DONE (R114). -/
def execTakenWriteDone (s : State) : Host.Outcome State Fault Refusal :=
  .next (whenServed .takenWrite (fun s => drain (popWrite s)) s)

/-- RESULT_WRITE_DONE (R111). -/
def execResultWriteDone (s : State) : Host.Outcome State Fault Refusal :=
  .next (whenServed .resultWrite (fun s => drain (popWrite s)) s)

/-- STATE_WRITE_DONE (R111). -/
def execStateWriteDone (s : State) : Host.Outcome State Fault Refusal :=
  .next (whenServed .stateWrite (fun s => drain (popWrite s)) s)

/-- TALLY_WRITE_DONE (R113). -/
def execTallyWriteDone (s : State) : Host.Outcome State Fault Refusal :=
  .next (whenServed .tallyWrite tallyWritten s)

/-- PARKING_WRITE_DONE (R102). -/
def execParkingWriteDone (s : State) : Host.Outcome State Fault Refusal :=
  .next (whenServed .parkingWrite (fun s => drain (popWrite s)) s)

/-- CELL_OPENING_WRITE_DONE (R145): the body write is issued. -/
def execCellOpeningWriteDone (s : State) : Host.Outcome State Fault Refusal :=
  .next (whenServed .cellOpening (fun s => drain (advanceUpdate .body s)) s)

/-- CELL_BODY_WRITE_DONE (R145): the closing write is issued. -/
def execCellBodyWriteDone (s : State) : Host.Outcome State Fault Refusal :=
  .next (whenServed .cellBody (fun s => drain (advanceUpdate .closing s)) s)

/-- CELL_CLOSING_WRITE_DONE (R145). -/
def execCellClosingWriteDone (s : State) : Host.Outcome State Fault Refusal :=
  .next (whenServed .cellClosing (fun s => drain (endUpdate s)) s)

/-- NOTICE_RECORD_WRITE_DONE (R159). -/
def execNoticeRecordWriteDone (s : State) : Host.Outcome State Fault Refusal :=
  .next (whenServed .noticeRecord (fun s => drain (noticeWritten s)) s)

/-- NOTICE_COUNT_WRITE_DONE (R159); the freed place lets a Scheduler choose (R158). -/
def execNoticeCountWriteDone (s : State) : Host.Outcome State Fault Refusal :=
  .next (whenServed .countWrite (fun s => settle (noticeCounted s)) s)

/-- LOST_TOTAL_WRITE_DONE (R155). -/
def execLostTotalWriteDone (s : State) : Host.Outcome State Fault Refusal :=
  .next (whenServed .lostTotalWrite drain s)

/-- DROPPED_AT_STOP_WRITE_DONE (R164). -/
def execDroppedAtStopWriteDone (s : State) : Host.Outcome State Fault Refusal :=
  .next (whenServed .droppedWrite drain s)

/-- NOTICES_TAKEN_READ_DONE (R162). -/
def execNoticesTakenReadDone (v : Word) (s : State) : Host.Outcome State Fault Refusal :=
  .next (whenServed .noticesTakenRead (takenReturned v) s)

/-- MEMORY_ERROR_RESPONSE (R182). -/
def execMemoryErrorResponse (s : State) : Host.Outcome State Fault Refusal := .next (busError s)

end Sys2Proof.Machine
end

