-- ==== Sys2Proof/Machine/TimerCommands.lean ====
section
/-! DEFINITION. The timers in milliseconds: RE_READ_TIMER_END to OVERDUE_REFRESH. Each is taken only when its time is
reached (log 1). -/

set_option Elab.async false

namespace Sys2Proof.Machine

/-- The follower's part of an end of the re-read interval: a parked follower re-reads (R103). -/
def rereadIfParked (s : State) : State :=
  match s.job.follower with
  | .parkedLink => reread s
  | .parkedRecord => reread s
  | _ => s

/-- An end of the re-read interval (R103, R161): the timer starts again, a parked follower re-reads and the Notice
Writer wants a read. -/
def timerEnded (s : State) : State :=
  match s.active, s.job.timer with
  | true, some t =>
    if reached s.tb.now t then
      drain (wantRead (rereadIfParked { s with job := { s.job with timer := some (t + s.job.interval) } }))
    else s
  | _, _ => s

/-- A quiet expiry, when the deadline of a LIVE entry is reached (R14, R15). -/
def quietExpiry (n : Fin 64) (s : State) : State :=
  if s.active && (s.entry n).quietExpired s.tb.now then drain (expireQuiet n s) else s

/-- An entry's due time is reached: the Schedulers may choose (R31, R40). -/
def dueReached (n : Fin 64) (s : State) : State :=
  if s.running && (s.entry n).state.called && reached s.tb.now (s.entry n).dueTime then settle s else s

/-- A window due time is reached: the Schedulers may choose, or the due time is advanced (R47). -/
def windowDueReached (l : Fin 4) (s : State) : State :=
  if s.running && s.windowReached l then settle s else s

/-- A due time has been reached for 2^30 ms or more (R33). -/
def overdue (now t : Word) : Bool := 2 ^ 30 ≤ (now - t).toNat && reached now t

/-- JOINING, LIVE, MUTE or HELD (R33). -/
def EntryState.enlistedState : EntryState → Bool
  | .joining => true
  | .live => true
  | .mute => true
  | .held => true
  | _ => false

/-- A due time left reached for 2^30 ms is set to now (R33). -/
def refreshOverdue (t : RefreshTarget) (s : State) : State :=
  match t with
  | .entry n =>
    let e := s.entry n
    if s.active && e.state.enlistedState && overdue s.tb.now e.dueTime then
      s.setEntry n { e with dueTime := s.tb.now }
    else s
  | .window l =>
    let q := s.scheduler l
    match q.windowDue with
    | some d => if s.active && overdue s.tb.now d then s.setSched l { q with windowDue := some s.tb.now } else s
    | none => s

/-- RE_READ_TIMER_END (R103). -/
def execReReadTimerEnd (s : State) : Host.Outcome State Fault Refusal := .next (timerEnded s)

/-- QUIET_TIMER_EXPIRY (R14). -/
def execQuietTimerExpiry (n : Fin 64) (s : State) : Host.Outcome State Fault Refusal := .next (quietExpiry n s)

/-- DUE_TIME_REACHED (R31). -/
def execDueTimeReached (n : Fin 64) (s : State) : Host.Outcome State Fault Refusal := .next (dueReached n s)

/-- WINDOW_DUE_TIME_REACHED (R47). -/
def execWindowDueTimeReached (l : Fin 4) (s : State) : Host.Outcome State Fault Refusal :=
  .next (windowDueReached l s)

/-- OVERDUE_REFRESH (R33). -/
def execOverdueRefresh (t : RefreshTarget) (s : State) : Host.Outcome State Fault Refusal :=
  .next (refreshOverdue t s)

end Sys2Proof.Machine
end

