-- ==== Sys2Proof/Machine/Dispatch.lean ====
section
/-! DEFINITION. exec: one arm per command, each the command's effect on everything but the queue. -/

namespace Sys2Proof.Machine

def exec (i : Instr) (s : State) : Host.Outcome State Fault Refusal :=
  match i with
  | .start value => Sys2Proof.Machine.execStart value s
  | .stop value => Sys2Proof.Machine.execStop value s
  | .reset value => Sys2Proof.Machine.execReset value s
  | .nudge value => Sys2Proof.Machine.execNudge value s
  | .pinReset => Sys2Proof.Machine.execPinReset s
  | .rstnRelease => Sys2Proof.Machine.execRstnRelease s
  | .hzintWrite value => Sys2Proof.Machine.execHzintWrite value s
  | .hzmaskWrite value => Sys2Proof.Machine.execHzmaskWrite value s
  | .registerWrite offset value enables => Sys2Proof.Machine.execRegisterWrite offset value enables s
  | .anchorReadDone data => Sys2Proof.Machine.execAnchorReadDone data s
  | .statusBlockWriteDone => Sys2Proof.Machine.execStatusBlockWriteDone s
  | .cellInitialisationWriteDone => Sys2Proof.Machine.execCellInitialisationWriteDone s
  | .linkReadDone value => Sys2Proof.Machine.execLinkReadDone value s
  | .recordReadDone data => Sys2Proof.Machine.execRecordReadDone data s
  | .setupLine f => Sys2Proof.Machine.execSetupLine f s
  | .lineStatus f => Sys2Proof.Machine.execLineStatus f s
  | .enlist f => Sys2Proof.Machine.execEnlist f s
  | .delist f => Sys2Proof.Machine.execDelist f s
  | .hold f => Sys2Proof.Machine.execHold f s
  | .release f => Sys2Proof.Machine.execRelease f s
  | .retune f => Sys2Proof.Machine.execRetune f s
  | .order f => Sys2Proof.Machine.execOrder f s
  | .broadcast f => Sys2Proof.Machine.execBroadcast f s
  | .cancel f => Sys2Proof.Machine.execCancel f s
  | .mark f => Sys2Proof.Machine.execMark f s
  | .takenWriteDone => Sys2Proof.Machine.execTakenWriteDone s
  | .resultWriteDone => Sys2Proof.Machine.execResultWriteDone s
  | .stateWriteDone => Sys2Proof.Machine.execStateWriteDone s
  | .tallyWriteDone => Sys2Proof.Machine.execTallyWriteDone s
  | .parkingWriteDone => Sys2Proof.Machine.execParkingWriteDone s
  | .cellOpeningWriteDone => Sys2Proof.Machine.execCellOpeningWriteDone s
  | .cellBodyWriteDone => Sys2Proof.Machine.execCellBodyWriteDone s
  | .cellClosingWriteDone => Sys2Proof.Machine.execCellClosingWriteDone s
  | .noticeRecordWriteDone => Sys2Proof.Machine.execNoticeRecordWriteDone s
  | .noticeCountWriteDone => Sys2Proof.Machine.execNoticeCountWriteDone s
  | .lostTotalWriteDone => Sys2Proof.Machine.execLostTotalWriteDone s
  | .droppedAtStopWriteDone => Sys2Proof.Machine.execDroppedAtStopWriteDone s
  | .noticesTakenReadDone value => Sys2Proof.Machine.execNoticesTakenReadDone value s
  | .memoryErrorResponse => Sys2Proof.Machine.execMemoryErrorResponse s
  | .reReadTimerEnd => Sys2Proof.Machine.execReReadTimerEnd s
  | .quietTimerExpiry n => Sys2Proof.Machine.execQuietTimerExpiry n s
  | .dueTimeReached n => Sys2Proof.Machine.execDueTimeReached n s
  | .windowDueTimeReached l => Sys2Proof.Machine.execWindowDueTimeReached l s
  | .overdueRefresh t => Sys2Proof.Machine.execOverdueRefresh t s
  | .callSent l => Sys2Proof.Machine.execCallSent l s
  | .characterDelivered l value markBit => Sys2Proof.Machine.execCharacterDelivered l value markBit s
  | .turnaroundLimit l => Sys2Proof.Machine.execTurnaroundLimit l s
  | .answerGapLimit l => Sys2Proof.Machine.execAnswerGapLimit l s
  | .restEnd l => Sys2Proof.Machine.execRestEnd l s
  | .windowEnd l => Sys2Proof.Machine.execWindowEnd l s
  | .settlingEnd l => Sys2Proof.Machine.execSettlingEnd l s
  | .lineFoundStuck l => Sys2Proof.Machine.execLineFoundStuck l s
  | .lineRecovered l => Sys2Proof.Machine.execLineRecovered l s
  | .rxdLevelChange l => Sys2Proof.Machine.execRxdLevelChange l s
  | .startBitConfirmation l => Sys2Proof.Machine.execStartBitConfirmation l s

end Sys2Proof.Machine
end

