-- ==== Sys2Proof/WellFormed.lean ====
section
/-! DEFINITION. The checks a command must pass to be one the spec describes. -/

set_option Elab.async false

namespace Sys2Proof

/-- The parameters field is 15 bytes and the payload field 32 (section 10.3). -/
def JobFields.wf (f : JobFields) : Bool :=
  f.params.length == 15 && f.payload.length == 32

/-- A command is well formed: its HZCMD word has the row's own bit (section 10.7), its register offset is 4-byte
aligned (R180), and what a
read returned has the length of that read (R183). -/
def Instr.wf : Instr → Bool
  | .start v => v.getLsbD 0
  | .stop v => v.getLsbD 1
  | .reset v => v.getLsbD 2
  | .nudge v => v.getLsbD 3
  | .registerWrite o _ _ => o.toNat % 4 == 0
  | .anchorReadDone d => d.length == 256
  | .recordReadDone d => d.length == 128
  | .setupLine f => f.wf
  | .lineStatus f => f.wf
  | .enlist f => f.wf
  | .delist f => f.wf
  | .hold f => f.wf
  | .release f => f.wf
  | .retune f => f.wf
  | .order f => f.wf
  | .broadcast f => f.wf
  | .cancel f => f.wf
  | .mark f => f.wf
  | .pinReset => true
  | .rstnRelease => true
  | .hzintWrite _ => true
  | .hzmaskWrite _ => true
  | .statusBlockWriteDone => true
  | .cellInitialisationWriteDone => true
  | .linkReadDone _ => true
  | .takenWriteDone => true
  | .resultWriteDone => true
  | .stateWriteDone => true
  | .tallyWriteDone => true
  | .parkingWriteDone => true
  | .cellOpeningWriteDone => true
  | .cellBodyWriteDone => true
  | .cellClosingWriteDone => true
  | .noticeRecordWriteDone => true
  | .noticeCountWriteDone => true
  | .lostTotalWriteDone => true
  | .droppedAtStopWriteDone => true
  | .noticesTakenReadDone _ => true
  | .memoryErrorResponse => true
  | .reReadTimerEnd => true
  | .quietTimerExpiry _ => true
  | .dueTimeReached _ => true
  | .windowDueTimeReached _ => true
  | .overdueRefresh _ => true
  | .callSent _ => true
  | .characterDelivered _ _ _ => true
  | .turnaroundLimit _ => true
  | .answerGapLimit _ => true
  | .restEnd _ => true
  | .windowEnd _ => true
  | .settlingEnd _ => true
  | .lineFoundStuck _ => true
  | .lineRecovered _ => true
  | .rxdLevelChange _ => true
  | .startBitConfirmation _ => true

end Sys2Proof
end

