-- ==== Sys2Proof/Safety.lean ====
section
/-! DEFINITION. The terms the statements use: a step that goes on, what two states have in common, the taking of a job
record, and the invariants. -/

set_option Elab.async false

namespace Sys2Proof.Machine

/-- A step goes on: it answers a next state, neither a fault nor a refusal. -/
def goesOn (o : Host.Outcome State Fault Refusal) : Prop := ∃ t, o = .next t

/-- Every command that waits is one the spec describes. -/
def State.queueWf (s : State) : Bool := s.pending.all Instr.wf

/-! ### What two states have in common -/

/-- The pieces of the state that a frame tells apart. -/
inductive Piece where
  | pending | pins | tb
  /-- HZINT -/
  | causes
  /-- every other item of the Control Block -/
  | control
  | port
  /-- the Chain Follower, the taking count and the re-read timer -/
  | chain
  /-- the job slots, the done tally and the write list -/
  | slots
  | entries | sched | eng
  /-- the pending-cell set and the update in progress -/
  | cells
  /-- the table address, the editions and the initialisation -/
  | editions
  | ntc | free
  deriving DecidableEq, Repr

/-- The piece is the same in both states. -/
def Piece.Same : Piece → State → State → Prop
  | .pending, s, t => t.pending = s.pending
  | .pins, s, t => t.pins = s.pins
  | .tb, s, t => t.tb = s.tb
  | .causes, s, t => t.ctl.hzint = s.ctl.hzint
  | .control, s, t => t.ctl = { s.ctl with hzint := t.ctl.hzint }
  | .port, s, t => t.port = s.port
  | .chain, s, t =>
    t.job = { s.job with slots := t.job.slots, doneTally := t.job.doneTally, writes := t.job.writes }
  | .slots, s, t =>
    t.job.slots = s.job.slots ∧ t.job.doneTally = s.job.doneTally ∧ t.job.writes = s.job.writes
  | .entries, s, t => t.entries = s.entries
  | .sched, s, t => t.sched = s.sched
  | .eng, s, t => t.eng = s.eng
  | .cells, s, t => t.rep.pendingCells = s.rep.pendingCells ∧ t.rep.update = s.rep.update
  | .editions, s, t => t.rep = { s.rep with pendingCells := t.rep.pendingCells, update := t.rep.update }
  | .ntc, s, t => t.ntc = s.ntc
  | .free, s, t => t.freeCount = s.freeCount

/-- Between s and t no piece outside `touched` has changed. -/
structure Frame (touched : List Piece) (s t : State) : Prop where
  keeps : ∀ p, p ∉ touched → p.Same s t

/-! ### The taking of a job record (R100, R101) -/

/-- The table row of a job kind. -/
def JobKind.command : JobKind → JobFields → Instr
  | .setupLine => .setupLine
  | .lineStatus => .lineStatus
  | .enlist => .enlist
  | .delist => .delist
  | .hold => .hold
  | .release => .release
  | .retune => .retune
  | .order => .order
  | .broadcast => .broadcast
  | .cancel => .cancel
  | .mark => .mark

/-- The part is RUNNING, the follower's record read of the record at a is in service, no slot in use holds that record,
and slot i is the lowest-numbered FREE one. -/
structure State.AwaitsRecord (s : State) (i : Fin 16) (a : Addr) : Prop where
  running : s.running = true
  serving : s.serving .recordRead = true
  follower : s.job.follower = .recordRead
  next : s.job.nextRecord = some a
  notHeld : s.holdsRecord a = false
  free : s.freeSlot = some i

/-- The job that slot i holds once the record is taken, before validation (R101). -/
def State.takenJob (s : State) (a : Addr) (k : JobKind) (f : JobFields) : Job :=
  jobOf a (s.job.takingCount + 1) { stateWord := postedWord, kind := k.code, fields := f }

/-- The state in which the taken job is validated: the slot claimed, the follower gone on by the link (R101). -/
def State.takenState (s : State) (i : Fin 16) (a : Addr) (k : JobKind) (f : JobFields) : State :=
  followLink (linkField a) f.link
    (claimSlot i a { stateWord := postedWord, kind := k.code, fields := f } s.served)

/-- Slot i is COMPLETING with this result, decided now; the result stands in the slot's job, whose copied fields are
those of j (R110). -/
def State.completedWith (s : State) (i : Fin 16) (j : Job) (r : JobEnd) : Prop :=
  ∃ w, s.slot i = some { j with state := .completing, result := some (r, s.tb.now), waitSet := w }

/-- Slot k stands in u as it stood in s, save for its job's waiting set and for a waiting MARK that completed OK
(R139). -/
def State.SlotKept (s u : State) (k : Fin 16) : Prop :=
  (s.slot k = none → u.slot k = none) ∧ ∀ j, s.slot k = some j →
    (∃ w, u.slot k = some { j with waitSet := w }) ∨
      (j.state = .waiting ∧ j.kindOf = some .mark ∧ u.completedWith k j ⟨.ok, 0, 0, []⟩)

/-- Every job but that of slot i stands as it stood, save for its waiting set and for a waiting MARK that completed OK
(R139). -/
def State.OthersKept (s u : State) (i : Fin 16) : Prop := ∀ k, k ≠ i → s.SlotKept u k

/-- Command c takes job j into slot i and completes it at once with result r, without sending; nothing else changes but
the chain, the write list and the MARKs that waited. -/
def State.EndsAtOnce (s : State) (c : Instr) (i : Fin 16) (j : Job) (r : JobResult) : Prop :=
  ∃ u, exec c s = .next (settle u) ∧ Frame [.chain, .slots, .port] s u ∧
    u.completedWith i j ⟨r, 0, 0, []⟩ ∧ s.OthersKept u i

/-- Command c takes job j into slot i and appends it to line l's order queue, QUEUED (R34); nothing else changes but
the chain and the write list. -/
def State.QueuesOn (s : State) (c : Instr) (i : Fin 16) (j : Job) (l : Fin 4) : Prop :=
  ∃ u, exec c s = .next (settle u) ∧ Frame [.chain, .slots, .port, .sched] s u ∧
    u.slot i = some { j with state := .queued } ∧ (∀ k, k ≠ i → u.slot k = s.slot k) ∧
    u.job.doneTally = s.job.doneTally ∧
    u.scheduler l = { s.scheduler l with orderQueue := (s.scheduler l).orderQueue ++ [i] } ∧
    (∀ m, m ≠ l → u.scheduler m = s.scheduler m)

/-- A write list after the parking write for the place at `a` (R102, R114): a parking write not yet issued leaves it, the
head stays where it is issued, and the new one stands at the tail. -/
def parkedWrites (issued : Bool) (a : Addr) (writes : List JobWrite) : List JobWrite :=
  match issued, writes with
  | true, w :: rest => w :: rest.filter (!·.isParking) ++ [.parking a]
  | _, _ => writes.filter (!·.isParking) ++ [.parking a]

/-- The Schedulers of u are those of s without the ORDERs for entry n in line l's order queue (R35): the other items stand
in their order, an empty queue sets orders-in-a-row to 0, and nothing else changes. -/
def State.OrdersGone (s u : State) (l : Fin 4) (n : Fin 64) : Prop :=
  let left := (s.scheduler l).orderQueue.filter (fun k =>
    !s.slotIs k (fun j => j.kindOf == some .order && targetEntry j.target == some n))
  u.scheduler l = { s.scheduler l with
    orderQueue := left, ordersInRow := if left = [] then 0 else (s.scheduler l).ordersInRow } ∧
  ∀ m, m ≠ l → u.scheduler m = s.scheduler m

/-- The pending-cell set of u is that of s with cell n asked for (R144). -/
def State.AsksCell (s u : State) (n : Fin 64) : Prop :=
  u.rep.update = s.rep.update ∧ u.rep.pendingCells =
    if n ∈ s.rep.pendingCells then s.rep.pendingCells else s.rep.pendingCells ++ [n]

/-- The Notice Writer of u is that of s after a request of notice t (R155, R164). -/
def State.AsksNotice (s u : State) (t : Notice) : Prop := u.ntc = (requestNotice t s).ntc

/-- Every other entry stands as it stood. -/
def State.OtherEntriesKept (s u : State) (n : Fin 64) : Prop := ∀ m, m ≠ n → u.entry m = s.entry m

/-- Every other Line Engine stands as it stood. -/
def State.OtherEnginesKept (s u : State) (l : Fin 4) : Prop := ∀ m, m ≠ l → u.engine m = s.engine m

/-- Every other Line Scheduler stands as it stood. -/
def State.OtherSchedsKept (s u : State) (l : Fin 4) : Prop := ∀ m, m ≠ l → u.scheduler m = s.scheduler m

/-! ### The choices of an event (R40) -/

/-- Before a choice of line l a window that is due with no eligible station is passed (R47). -/
def State.windowPassed (s : State) (l : Fin 4) : State := if s.mayChoose l then passWindow l s else s

/-- Line l chooses until no candidate applies, and s becomes t (R40). -/
inductive LineChooses (l : Fin 4) : State → State → Prop where
  | done (s : State) (h : chooseOnce l (s.windowPassed l) = none) : LineChooses l s (s.windowPassed l)
  | next (s t u : State) (h : chooseOnce l (s.windowPassed l) = some t) (r : LineChooses l t u) : LineChooses l s u

/-! ### Invariants -/

/-- Outside HALTED no halt reason and no capture stand (R166). -/
def State.CaptureOnlyInHalted (s : State) : Prop :=
  s.ctl.part ≠ .halted → s.ctl.haltReason = .none ∧ s.ctl.faultStruct = .none ∧ s.ctl.faultDir = .none

/-- Every VACANT entry holds its vacant values (R1). -/
def State.VacantHoldsVacantValues (s : State) : Prop :=
  ∀ n, (s.entry n).state = .vacant → s.entry n = Entry.vacant

/-- The quiet deadline exists exactly while the entry is LIVE with a quiet limit (R12). -/
def State.DeadlineWhileLive (s : State) : Prop :=
  ∀ n, (s.entry n).quietDeadline.isSome = true ↔ (s.entry n).state = .live ∧ (s.entry n).quietLimit ≠ 0

/-- Every edition that the Report Writer keeps is even (R146). -/
def State.EditionsEven (s : State) : Prop := ∀ n : Fin 64, (s.rep.editions[n.val]).toNat % 2 = 0

/-- Held notices and reservations together occupy at most 8 places (section 8.3). -/
def State.BufferBounded (s : State) : Prop := s.ntc.held.length + s.reservations ≤ 8

/-- In HALTED no request is at the Memory Port, every line is OFF without an operation, and the re-read timer is
stopped (R176, R177). -/
def State.HaltedIsQuiet (s : State) : Prop :=
  s.ctl.part = .halted → s.port.inService = none ∧ s.port.waiting = Waiting.empty ∧ s.job.timer = none ∧
    ∀ l, (s.engine l).lineState = .off ∧ (s.engine l).op = none ∧ (s.engine l).receiver = .disabled

/-- While no session is under way every entry is VACANT with its vacant values and every line OFF (R29, section
9.1). -/
def State.IdleHoldsVacant (s : State) : Prop :=
  (s.ctl.part = .idle ∨ s.ctl.part = .starting) →
    (∀ n, s.entry n = Entry.vacant) ∧ ∀ l, (s.engine l).lineState = .off

/-- Bits 0 to 7 of ANCL are 0 (R180). -/
def State.AnchorAligned (s : State) : Prop := s.ctl.ancl &&& 0xFF = 0

end Sys2Proof.Machine
end

