-- ==== Sys2Proof/Certificates/Slice0/Obligations.lean ====
section
/-! DEFINITION. The statements for the provers. A statement names the state after the command's own effect as u or t;
`drain` and `settle`, with which every event ends, have statements of their own (EventEnds, ArbiterChooses). -/

set_option Elab.async false

open Sys2Proof Sys2Proof.Machine

/-! ### The machine -/

/-- One step takes the command at the front of the queue (the block's own rule in place of a fetch). -/
def Obligations.StepTakesFrontCommand : Prop :=
  ∀ (c : Instr) (rest : List Instr) (s : State), s.pending = c :: rest → step s = exec c { s with pending := rest }

/-- With no command waiting one REFCLK period passes: the Time Base counts 25000 of them in a millisecond, wraps, and is
held at 0 while RSTN is asserted (R181). That an empty queue counts time is log 2. -/
def Obligations.EmptyQueueCountsTime : Prop :=
  ∀ s : State, s.pending = [] →
    (s.pins.rstn = true → step s = .next { s with tb := ⟨0, 0, s.tb.elapsed + 1⟩ }) ∧
    (s.pins.rstn = false → s.tb.divider + 1 < 25000 →
      step s = .next { s with tb := ⟨s.tb.now, s.tb.divider + 1, s.tb.elapsed + 1⟩ }) ∧
    (s.pins.rstn = false → 25000 ≤ s.tb.divider + 1 →
      step s = .next { s with tb := ⟨s.tb.now + 1, 0, s.tb.elapsed + 1⟩ })

/-- What a pin reset leaves, by the reset columns of R1, R30, R68, R96, R143, R154, R166, R181 and R182. -/
def Obligations.ResetLeavesStatedValues : Prop :=
  let s := State.reset
  s.ctl.part = .idle ∧ s.ctl.anchor = 0 ∧ s.ctl.ancl = 0 ∧ s.ctl.anch = 0 ∧ s.hzstat = 0 ∧ s.ctl.faultAddr = 0 ∧
    s.ctl.hzint = 0 ∧ s.ctl.hzmask = 0 ∧ s.irq = false ∧ s.tb.now = 0 ∧
    (∀ n, (s.entry n).state = .vacant ∧ (s.entry n).line = 0 ∧ (s.entry n).address = 0 ∧
      (s.entry n).pollPeriod = 0 ∧ (s.entry n).quietLimit = 0 ∧
      (s.entry n).options = ⟨false, false, false, false, false⟩ ∧ (s.entry n).dueTime = 0 ∧
      (s.entry n).lastPollStart = 0 ∧ (s.entry n).lastHeard = 0 ∧ (s.entry n).lastStatus = 0 ∧
      (s.entry n).answers = 0 ∧ (s.entry n).failures = 0 ∧ (s.entry n).lastPayload = [] ∧
      (s.entry n).quietDeadline = none ∧ (s.entry n).seqBit = false ∧ (s.entry n).latch = false ∧
      (s.entry n).holdPending = false ∧ (s.entry n).busy = false) ∧
    (∀ l, (s.scheduler l).orderQueue = [] ∧ (s.scheduler l).fetchQueue = [] ∧ (s.scheduler l).ordersInRow = 0 ∧
      (s.scheduler l).windowDue = none ∧ (s.scheduler l).rotation = 1 ∧ (s.scheduler l).inFlight = none ∧
      (s.scheduler l).enabled = false ∧ (s.scheduler l).searchPeriod = 1000 ∧ (s.scheduler l).windowInterval = 0 ∧
      (s.scheduler l).orderBurst = 4) ∧
    (∀ l, (s.engine l).lineState = .off ∧ (s.engine l).op = none ∧ (s.engine l).attempt = 0 ∧
      (s.engine l).lastOutcome = none ∧ (s.engine l).answerBuf = [] ∧ (s.engine l).kept = none ∧
      (s.engine l).rateCode = 0 ∧ (s.engine l).turnaround = 20 ∧ (s.engine l).retryLimit = 2 ∧
      (s.engine l).markRun = none ∧ (s.engine l).spaceRun = none ∧ (s.engine l).counters = ⟨0, 0, 0, 0, 0, 0, 0⟩ ∧
      s.txdLevel l = true ∧ s.deAsserted l = false) ∧
    s.job.follower = .off ∧ s.job.parking = none ∧ s.job.nextRecord = none ∧ s.job.interval = 0 ∧
    s.job.timer = none ∧ s.job.nudgePending = false ∧ (∀ i, s.slot i = none) ∧ s.job.takingCount = 0 ∧
    s.job.doneTally = 0 ∧ s.job.writes = [] ∧
    s.rep.tableAddr = none ∧ s.rep.pendingCells = [] ∧ s.rep.update = none ∧ s.rep.initCell = none ∧
    (∀ n : Fin 64, s.rep.editions[n.val] = 0) ∧
    s.ntc.area = none ∧ s.ntc.held = [] ∧ (∀ l, s.reserved l = false) ∧ s.ntc.lostCount = 0 ∧
    s.ntc.lostAfter = none ∧ s.ntc.lostTotal = 0 ∧ s.ntc.written = 0 ∧ s.ntc.taken = 0 ∧ s.ntc.writing = none ∧
    s.ntc.waitingRoom = false ∧ s.ntc.readInFlight = false ∧ s.ntc.readAgain = false ∧ s.ntc.closing = false ∧
    s.port.inService = none ∧ s.port.waiting = ⟨none, none, none, none, none⟩ ∧ s.port.pointer = .control

/-- The invariants below hold right after a pin reset. -/
def Obligations.InvariantsHoldAtReset : Prop :=
  State.reset.CaptureOnlyInHalted ∧ State.reset.VacantHoldsVacantValues ∧ State.reset.DeadlineWhileLive ∧
    State.reset.EditionsEven ∧ State.reset.BufferBounded ∧ State.reset.HaltedIsQuiet ∧
    State.reset.IdleHoldsVacant ∧ State.reset.AnchorAligned

/-! ### Commands and registers -/

/-- A write to HZCMD, by R167: RESET alone counts; a NUDGE is judged by the state the write found; START and STOP
together, or one that the part state forbids, are refused, which sets the refusal reason and REFUSED and changes
nothing else. That a NUDGE goes before a STOP of the same write is log 11. The four command rows are writes to HZCMD
with their own bit set, and a whole register write at HZCMD's offset is that write (R180): that a row carries the word
written and that its own bit counts as set is the model's deduction (log 18, DEDUCED). RSTN is not asserted (R175). -/
def Obligations.CommandTable : Prop :=
  ∀ (v : Word) (s : State), s.pins.rstn = false →
    let u := if v.getLsbD 3 = true ∧ s.ctl.part = .running then takeNudge s else s
    let refused := fun (r : RefusalReason) =>
      { u with ctl := { u.ctl with refusal := r, hzint := u.ctl.hzint ||| 0b10000 } }
    exec (.start v) s = exec (.registerWrite 0x04 (v ||| 1) 0xF) s ∧
    exec (.stop v) s = exec (.registerWrite 0x04 (v ||| 2) 0xF) s ∧
    exec (.reset v) s = exec (.registerWrite 0x04 (v ||| 4) 0xF) s ∧
    exec (.nudge v) s = exec (.registerWrite 0x04 (v ||| 8) 0xF) s ∧
    (v.getLsbD 2 = true → exec (.registerWrite 0x04 v 0xF) s = .next (commandReset s)) ∧
    (v.getLsbD 2 = false →
      (v.getLsbD 0 = true → v.getLsbD 1 = true →
        exec (.registerWrite 0x04 v 0xF) s = .next (refused .conflict)) ∧
      (v.getLsbD 0 = true → v.getLsbD 1 = false → s.ctl.part ≠ .idle →
        exec (.registerWrite 0x04 v 0xF) s = .next (refused .notIdle)) ∧
      (v.getLsbD 0 = false → v.getLsbD 1 = true → s.ctl.part = .idle ∨ s.ctl.part = .halted →
        exec (.registerWrite 0x04 v 0xF) s = .next (refused .notRunning)) ∧
      (v.getLsbD 0 = false → v.getLsbD 1 = true → s.ctl.part = .starting →
        exec (.registerWrite 0x04 v 0xF) s = .next { s with ctl := { s.ctl with startStop := true } }) ∧
      (v.getLsbD 0 = false → v.getLsbD 1 = true → s.ctl.part = .running →
        exec (.registerWrite 0x04 v 0xF) s = .next (drain (beginStop u))) ∧
      (v.getLsbD 0 = false → v.getLsbD 1 = true → s.ctl.part = .stopping →
        exec (.registerWrite 0x04 v 0xF) s = .next s) ∧
      (v.getLsbD 0 = false → v.getLsbD 1 = false → exec (.registerWrite 0x04 v 0xF) s = .next u))

/-- A START accepted in IDLE (R169): STARTING, phase ANCHOR_READ, ANCH and ANCL copied into the session anchor address,
and the anchor asked for as one 256-byte read. Nothing else changes. -/
def Obligations.StartAccepted : Prop :=
  ∀ (v : Word) (s : State), s.pins.rstn = false → s.ctl.part = .idle → v.getLsbD 1 = false → v.getLsbD 2 = false →
    ∃ t, exec (.start v) s = .next t ∧ Frame [.control, .port] s t ∧
      t.ctl = { s.ctl with part := .starting, phase := .anchorRead, startStop := false,
                           anchor := s.ctl.anch ++ s.ctl.ancl } ∧
      (s.port.inService = none → s.port.waiting = Waiting.empty →
        t.port.inService = some { who := .control, kind := .anchorRead, struct := .anchor, dir := .read,
                                  addr := s.ctl.anch ++ s.ctl.ancl,
                                  transfers := [.read (s.ctl.anch ++ s.ctl.ancl) 256] })

/-- A STOP taken in RUNNING (R173): STOPPING; the follower OFF; every order queue empty with its items ABORTED (R37);
every waiting job ABORTED, a MARK included (log 6: the model's choice); hold pending cleared; the engines and the
operations in flight as they were. The result, state and tally writes of each aborted job join the write list in that
order, the tally being the done tally with that job counted (R111, R112, R115); every other slot stands, a COMPLETING
and an ON_WIRE one included. The jobs follow one another by the order queues of lines 0 to 3, each in queue order (R37),
then the waiting MARKs, then the waiting DELISTs and HOLDs: the order between queues and of the waiting jobs is the
model's choice (log 6, DESIGN CHOICE). -/
def Obligations.StopBeginsStopping : Prop :=
  ∀ (v : Word) (s : State), s.running = true → s.ntc.closing = false → v.getLsbD 0 = false → v.getLsbD 2 = false →
    v.getLsbD 3 = false →
    let queued := ([0, 1, 2, 3] : List (Fin 4)).flatMap (fun l => (s.scheduler l).orderQueue)
    let undecided := fun (i : Fin 16) => s.slotIs i (fun j => j.state != .completing)
    let waiting := fun (mark : Bool) (i : Fin 16) =>
      s.slotIs i (fun j => j.state == .waiting && (j.kindOf == some .mark) == mark) && !queued.contains i
    let aborted := fun (i : Fin 16) => ∃ j, s.slot i = some j ∧ j.state ≠ .completing ∧
      (j.state = .waiting ∨ ∃ l, i ∈ (s.scheduler l).orderQueue)
    ∃ u t, exec (.stop v) s = .next t ∧ t = drain u ∧ Frame [.control, .chain, .slots, .sched, .entries] s u ∧
      Frame [.port, .cells, .ntc] u t ∧ (∀ i, ¬ aborted i → t.slot i = s.slot i) ∧
      t.job = { s.job with
        follower := .off, nudgePending := false, rereadOf := none, slots := t.job.slots,
        doneTally := t.job.doneTally, writes := t.job.writes } ∧
      (∃ order : List (Fin 16), order.Nodup ∧ (∀ i, i ∈ order ↔ aborted i) ∧
        (queued.Nodup → order = queued.filter undecided ++ (List.finRange 16).filter (waiting true) ++
          (List.finRange 16).filter (waiting false)) ∧
        t.job.doneTally = s.job.doneTally + BitVec.ofNat 32 order.length ∧
        t.job.writes = s.job.writes ++ order.zipIdx.flatMap (fun p => [JobWrite.result p.1, .state p.1,
          .tally p.1 (s.job.doneTally + 1 + BitVec.ofNat 32 p.2)])) ∧
      t.ctl = { s.ctl with part := .stopping } ∧ t.job.follower = .off ∧
      t.job.nudgePending = false ∧ t.eng = s.eng ∧ t.tb = s.tb ∧ t.pins = s.pins ∧ t.rep.editions = s.rep.editions ∧
      (∀ l, (t.scheduler l) = { s.scheduler l with orderQueue := [], ordersInRow := 0 }) ∧
      (∀ n, t.entry n = { s.entry n with holdPending := false }) ∧
      (∀ i j, s.slot i = some j → j.state ≠ .completing →
        (j.state = .waiting ∨ ∃ l, i ∈ (s.scheduler l).orderQueue) →
        t.slot i = some { j with state := .completing, result := some (⟨.aborted, 0, 0, []⟩, s.tb.now) })

/-- The resets (R175): every block at its reset values; a command reset keeps ANCL and ANCH; RSTN asserted holds the
part, and its release leaves it IDLE. The levels on RXD are inputs and stay.
While RSTN is asserted IRQ is low, RXD is an input that moves as it does, and no other command but the two of RSTN
changes anything: register accesses are not taken (R175), and of the other events none can happen (log 1). -/
def Obligations.ResetsTaken : Prop :=
  ((∀ (v : Word) (s : State), s.pins.rstn = false →
     exec (.reset v) s = .next { State.reset with
       pending := s.pending, pins := s.pins, tb := ⟨0, 0, s.tb.elapsed⟩, freeCount := s.freeCount,
       ctl := { State.reset.ctl with ancl := s.ctl.ancl, anch := s.ctl.anch } }) ∧
   (∀ s : State, exec .pinReset s = .next { State.reset with
       pending := s.pending, pins := { s.pins with rstn := true }, tb := ⟨0, 0, s.tb.elapsed⟩,
       freeCount := s.freeCount }) ∧
   (∀ s : State, exec .rstnRelease s = .next { s with pins := { s.pins with rstn := false } })) ∧
  (∀ (s : State), s.pins.rstn = true → s.irq = false ∧
     (∀ l : Fin 4, exec (.rxdLevelChange l) s =
       .next { s with pins := { s.pins with rxd := s.pins.rxd.set l.val (!s.rxd l) } }) ∧
     ∀ c : Instr, c ≠ .pinReset → c ≠ .rstnRelease → (∀ l, c ≠ .rxdLevelChange l) → exec c s = .next s)

/-- A NUDGE (R168): ignored outside RUNNING; in RUNNING it reaches the Chain Follower (R104) and the Notice Writer
(R161), each by its own state, and then the blocks issue what they have (`drain`). -/
def Obligations.NudgeTaken : Prop :=
  ∀ (v : Word) (s : State), s.pins.rstn = false → v.getLsbD 0 = false → v.getLsbD 1 = false → v.getLsbD 2 = false →
    (s.ctl.part ≠ .running → exec (.nudge v) s = .next s) ∧
    (s.ctl.part = .running → ∃ u, exec (.nudge v) s = .next (drain u) ∧ Frame [.chain, .port, .ntc] s u ∧
      (∀ p, s.job.follower = .parkedLink → s.job.parking = some p →
        u.job.follower = .linkRead ∧ u.job.nudgePending = false ∧
          u.port.waiting.follower = some (readRequest .follower .linkRead (s.linkStructure p) p 8)) ∧
      (∀ a i, s.job.follower = .parkedRecord → s.job.nextRecord = some a → s.freeSlot = some i →
        u.job.follower = .recordRead ∧ u.job.nudgePending = false ∧
          u.port.waiting.follower = some (readRequest .follower .recordRead .chain a 128)) ∧
      (s.job.follower = .parkedRecord → s.freeSlot = none → u.job.follower = .paused) ∧
      (s.job.follower = .linkRead ∨ s.job.follower = .recordRead ∨ s.job.follower = .paused →
        u.job = { s.job with nudgePending := true } ∧ u.port = s.port) ∧
      (s.job.follower = .off → u.job = s.job ∧ u.port = s.port) ∧
      (s.ntc.closing = true → u.ntc = s.ntc) ∧
      (s.ntc.closing = false → s.ntc.readInFlight = true → u.ntc = { s.ntc with readAgain := true }) ∧
      (s.ntc.closing = false → s.ntc.readInFlight = false → u.ntc = { s.ntc with readWanted := true }))

/-- Register writes (R178, R179, R180): HZINT clears the causes written as 1; HZMASK takes its five bits; ANCL ignores
bits 0 to 7; partial writes, the read-only registers and offsets 24h to 3Fh are ignored; a whole write to HZINT's or
HZMASK's offset is that register's write (log 18).
What the registers read (section 10.7, R180): HZID, HZCMD as 0, HZSTAT's fields in their places with the codes of
section 10.7, HZINT, HZMASK, ANCL, ANCH, the two halves of the fault address, and 0 at offsets 24h to 3Fh. -/
def Obligations.RegisterAccesses : Prop :=
  ([PartState.idle, .starting, .running, .stopping, .halted].map PartState.code = [0, 1, 2, 3, 4] ∧
   [RefusalReason.none, .notIdle, .notRunning, .conflict, .badFormat, .badLayout].map RefusalReason.code =
     [0, 1, 2, 3, 4, 5] ∧
   [HaltReason.none, .bus, .align, .count].map HaltReason.code = [0, 1, 2, 3] ∧
   [Structure.none, .anchor, .chain, .job, .cell, .notice, .status].map Structure.code = [0, 1, 2, 3, 4, 5, 6] ∧
   [Direction.none, .read, .write].map Direction.code = [0, 1, 2]) ∧
  (∀ (v : Word) (s : State), s.pins.rstn = false →
     exec (.hzintWrite v) s = .next { s with ctl := { s.ctl with hzint := s.ctl.hzint &&& ~~~(v.setWidth 5) } } ∧
     exec (.hzmaskWrite v) s = .next { s with ctl := { s.ctl with hzmask := v.setWidth 5 } } ∧
     exec (.registerWrite 0x0C v 0xF) s = exec (.hzintWrite v) s ∧
     exec (.registerWrite 0x10 v 0xF) s = exec (.hzmaskWrite v) s ∧
     exec (.registerWrite 0x14 v 0xF) s = .next { s with ctl := { s.ctl with ancl := v &&& 0xFFFFFF00 } } ∧
     exec (.registerWrite 0x18 v 0xF) s = .next { s with ctl := { s.ctl with anch := v } } ∧
     (∀ o : BitVec 6, o = 0x00 ∨ o = 0x08 ∨ o = 0x1C ∨ o = 0x20 ∨ 0x24 ≤ o.toNat →
       exec (.registerWrite o v 0xF) s = .next s) ∧
     (∀ (o : BitVec 6) (en : BitVec 4), en ≠ 0xF → exec (.registerWrite o v en) s = .next s)) ∧
  (∀ s : State, s.readRegister 0x00 = 0xA4D02441 ∧ s.readRegister 0x04 = 0 ∧
     (s.readRegister 0x08).extractLsb' 0 3 = s.ctl.part.code.setWidth 3 ∧
     (s.readRegister 0x08).extractLsb' 4 4 = s.ctl.refusal.code.setWidth 4 ∧
     (s.readRegister 0x08).extractLsb' 8 4 = s.ctl.haltReason.code.setWidth 4 ∧
     (s.readRegister 0x08).extractLsb' 12 3 = s.ctl.faultStruct.code.setWidth 3 ∧
     (s.readRegister 0x08).extractLsb' 16 2 = s.ctl.faultDir.code.setWidth 2 ∧
     s.readRegister 0x08 &&& 0xFFFC8008 = 0 ∧
     s.readRegister 0x0C = s.ctl.hzint.setWidth 32 ∧ s.readRegister 0x10 = s.ctl.hzmask.setWidth 32 ∧
     s.readRegister 0x14 = s.ctl.ancl ∧ s.readRegister 0x18 = s.ctl.anch ∧
     s.readRegister 0x20 ++ s.readRegister 0x1C = s.ctl.faultAddr ∧
     (∀ o : BitVec 6, 0x24 ≤ o.toNat → s.readRegister o = 0) ∧
     (s.ctl.part = .halted → s.ctl.refusal = .none → s.ctl.haltReason = .bus → s.ctl.faultStruct = .cell →
       s.ctl.faultDir = .write → s.readRegister 0x08 = 0x00024104))

/-- The interrupt output is high exactly while HZINT and HZMASK have a set bit in common (R179); HZMASK reads back as
written in its five cause positions, setting a cause leaves it, and it is 0 after a pin and a command reset. -/
def Obligations.InterruptOutput : Prop :=
  (∀ s : State, s.pins.rstn = false →
    (s.irq = true ↔ ∃ k : Nat, k < 5 ∧ s.ctl.hzint.getLsbD k = true ∧ s.ctl.hzmask.getLsbD k = true)) ∧
  (∀ (v : Word) (s : State), s.pins.rstn = false → ∃ t, exec (.hzmaskWrite v) s = .next t ∧
    t.readRegister 0x10 = v &&& 0x1F) ∧
  (∀ (c : Cause) (s : State), s.pins.rstn = false → (s.setCause c).ctl.hzmask = s.ctl.hzmask ∧
    (s.ctl.hzmask &&& c.bit ≠ 0 → (s.setCause c).irq = true)) ∧
  (∀ s : State, (pinReset s).ctl.hzmask = 0) ∧ (∀ s : State, (commandReset s).ctl.hzmask = 0)

/-! ### START, and the completions of memory requests -/

/-- The anchor has been read (R170, R171): the format, then k and the two alignments; a failed check refuses the START
and changes nothing else but the part state; otherwise every block takes its session-reset values and the status block
write of 32 bytes is issued. The anchor's fields stand at the offsets of section 10.2, each little-endian (R183). -/
def Obligations.AnchorReadTaken : Prop :=
  (∀ (b : List Byte) (o k : Nat), byteAt b o = b[o]?.getD 0 ∧ leField b o 0 = 0 ∧
    leField b o (k + 1) = (byteAt b o).toNat + 256 * leField b (o + 1) k) ∧
  (∀ b : List Byte, Anchor.ofBytes b = {
    format := BitVec.ofNat 16 (leField b 0x00 2), k := byteAt b 0x02, interval := byteAt b 0x03,
    report := BitVec.ofNat 64 (leField b 0x08 8), notices := BitVec.ofNat 64 (leField b 0x10 8),
    firstLink := BitVec.ofNat 64 (leField b 0x18 8), taken := BitVec.ofNat 32 (leField b 0x20 4),
    sessionCount := BitVec.ofNat 32 (leField b 0x80 4) }) ∧
  ∀ (data : List Byte) (s : State), s.pins.rstn = false → s.ctl.part = .starting → s.ctl.phase = .anchorRead →
    s.ctl.startStop = false → s.serving .anchorRead = true →
    let a := Anchor.ofBytes data
    let badLayout := a.k.toNat < 4 ∨ 12 < a.k.toNat ∨ a.report.toNat % 4096 ≠ 0 ∨ a.notices.toNat % 64 ≠ 0
    let refused := fun (r : RefusalReason) =>
      { s.served with ctl := { s.ctl with part := .idle, refusal := r, hzint := s.ctl.hzint ||| 0b10000 } }
    (a.format ≠ 0x0001 → exec (.anchorReadDone data) s = .next (refused .badFormat)) ∧
    (a.format = 0x0001 → badLayout → exec (.anchorReadDone data) s = .next (refused .badLayout)) ∧
    (a.format = 0x0001 → ¬ badLayout → ∃ t, exec (.anchorReadDone data) s = .next t ∧
      t.ctl = { s.ctl with phase := .statusWrite, sessionCount := a.sessionCount + 1 } ∧
      (∀ n, t.entry n = Entry.vacant) ∧ (∀ l, t.scheduler l = Sched.reset) ∧ (∀ l, t.engine l = Engine.reset) ∧
      t.job = { JobUnit.reset with parking := some (s.ctl.anchor + 0x18), interval := a.interval.setWidth 32 } ∧
      t.rep = { ReportWriter.reset with tableAddr := some a.report } ∧
      t.ntc = { NoticeWriter.reset with area := some a.notices, sizeExp := a.k.toNat, taken := a.taken } ∧
      t.pins = s.pins ∧ t.tb = s.tb ∧ t.pending = s.pending ∧ t.freeCount = s.freeCount ∧
      (s.port.waiting = Waiting.empty → t.port.inService = some
        { who := .control, kind := .statusWrite, struct := .status, dir := .write, addr := s.ctl.anchor + 0x80,
          transfers := [.write (s.ctl.anchor + 0x80) (leBytes 4 (a.sessionCount + 1).toNat ++
            List.replicate 16 0 ++ leBytes 4 s.tb.now.toNat ++ List.replicate 8 0)] }))

/-- After a STOP taken in STARTING (R172), the end of the request in service in each phase makes the part IDLE and sets
STOPPED; what that request brought is dropped and no further request is issued. -/
def Obligations.StoppedInStarting : Prop :=
  ∀ (data : List Byte) (s : State), s.pins.rstn = false → s.ctl.part = .starting → s.ctl.startStop = true →
    let ended := { s.served with
      ctl := { s.ctl with part := .idle, startStop := false, hzint := s.ctl.hzint ||| 0b00100 },
      rep := { s.rep with initCell := none } }
    (s.ctl.phase = .anchorRead → s.serving .anchorRead = true → exec (.anchorReadDone data) s = .next ended) ∧
    (s.ctl.phase = .statusWrite → s.serving .statusWrite = true → exec .statusBlockWriteDone s = .next ended) ∧
    (s.ctl.phase = .cellInit → s.serving .cellInit = true → exec .cellInitialisationWriteDone s = .next ended)

/-- The session initialisation of the report table (R147, R171): 64 whole-cell writes of zeros in index order, each
issued when the one before has been carried out; after cell 63 the notices-taken view is checked (R162), which halts
the part with COUNT, or the part goes RUNNING with the follower's first link read (R97) and the re-read timer. -/
def Obligations.CellsInitialised : Prop :=
  ∀ (r : Addr) (s : State), s.pins.rstn = false → s.ctl.part = .starting → s.ctl.startStop = false →
    s.rep.tableAddr = some r → s.port.waiting = Waiting.empty →
    let whole := fun (n : Fin 64) =>
      writeRequest .report .cellInit .cell (r + BitVec.ofNat 64 (64 * n.val)) (List.replicate 64 0)
    (s.ctl.phase = .statusWrite → s.serving .statusWrite = true → ∃ t, exec .statusBlockWriteDone s = .next t ∧
      t.ctl = { s.ctl with phase := .cellInit } ∧ t.rep = { s.rep with initCell := some 0 } ∧
      t.port.inService = some (whole 0) ∧ Frame [.control, .port, .editions] s t) ∧
    (s.ctl.phase = .cellInit → s.serving .cellInit = true →
      (∀ n m : Fin 64, s.rep.initCell = some n → m.val = n.val + 1 →
        ∃ t, exec .cellInitialisationWriteDone s = .next t ∧ t.rep = { s.rep with initCell := some m } ∧
          t.port.inService = some (whole m) ∧ Frame [.port, .editions] s t) ∧
      (s.rep.initCell = some 63 → 2 ^ s.ntc.sizeExp < (s.ntc.written - s.ntc.taken).toNat →
        exec .cellInitialisationWriteDone s = .next (enterHalted .count (s.ctl.anchor + 0x20) .anchor .read
          { s.served with rep := { s.rep with initCell := none } })) ∧
      (∀ p, s.rep.initCell = some 63 → (s.ntc.written - s.ntc.taken).toNat ≤ 2 ^ s.ntc.sizeExp →
        s.job.parking = some p → ∃ u, exec .cellInitialisationWriteDone s = .next (drain u) ∧
          u.ctl = { s.ctl with part := .running } ∧ u.rep = { s.rep with initCell := none } ∧
          u.job = { s.job with
            follower := .linkRead, nudgePending := false,
            timer := if s.job.interval = 0 then none else some (s.tb.now + s.job.interval) } ∧
          u.port.waiting.follower = some (readRequest .follower .linkRead (s.linkStructure p) p 8) ∧
          Frame [.control, .port, .editions, .chain] s u))

/-- The writes of the write list (R114, R113): the end of each takes the head off the list; the end of a tally write
also sets its slot FREE, sets JOBS for SIGNAL, and lets a follower that is PAUSED, or parked on that record, read. What
each of them writes (R111, R112, R102, sections 10.2 and 10.3): TAKEN and FINISHED in the record's state word, the
result fields from 48h with the payload filled up with 0, the done tally and the parking place with the clock. -/
def Obligations.ListedWritesDone : Prop :=
  (∀ (s : State) (a : Addr), s.jobRequest (.taken a) = some (writeRequest .jobUnit .takenWrite .job a [2, 0, 0, 0])) ∧
  (∀ (s : State) (i : Fin 16) (j : Job) (r : JobEnd) (t : Word), s.slot i = some j →
    s.jobRequest (.state i) = some (writeRequest .jobUnit .stateWrite .job j.address [3, 0, 0, 0]) ∧
    (j.result = some (r, t) → r.payload.length ≤ 32 →
      s.jobRequest (.result i) = some (writeRequest .jobUnit .resultWrite .job (j.address + 0x48)
        ([r.result.code, BitVec.ofNat 8 r.attempts, r.status, BitVec.ofNat 8 r.payload.length] ++
          leBytes 4 t.toNat ++ r.payload ++ List.replicate (32 - r.payload.length) 0)))) ∧
  [JobResult.ok, .badJob, .entryInUse, .duplicateAddress, .notEnlisted, .wrongState, .noAnswer, .badAnswer,
    .stationBusy, .refused, .stationGone, .lineOff, .lineStuck, .cancelled, .aborted, .tooLate, .notFound].map
    JobResult.code = [0, 1, 2, 3, 4, 5, 6, 7, 9, 10, 11, 12, 13, 14, 15, 16, 17] ∧
  (∀ v : Word, leBytes 4 v.toNat =
    [v.setWidth 8, (v >>> 8).setWidth 8, (v >>> 16).setWidth 8, (v >>> 24).setWidth 8]) ∧
  (∀ (s : State) (i : Fin 16) (v : Word) (a : Addr),
    let clock := Transfer.write (s.ctl.anchor + 0x94) (leBytes 4 s.tb.now.toNat)
    s.jobRequest (.tally i v) = some
      { who := .jobUnit, kind := .tallyWrite, struct := .status, dir := .write, addr := s.ctl.anchor + 0x84,
        transfers := [.write (s.ctl.anchor + 0x84) (leBytes 4 v.toNat), clock] } ∧
    s.jobRequest (.parking a) = some
      { who := .jobUnit, kind := .parkingWrite, struct := .status, dir := .write, addr := s.ctl.anchor + 0x98,
        transfers := [.write (s.ctl.anchor + 0x98) (leBytes 8 a.toNat), clock] }) ∧
  ∀ s : State, s.active = true →
    let popped := { s.served with job := { s.job with writes := s.job.writes.tail } }
    (s.serving .takenWrite = true → exec .takenWriteDone s = .next (drain popped)) ∧
    (s.serving .resultWrite = true → exec .resultWriteDone s = .next (drain popped)) ∧
    (s.serving .stateWrite = true → exec .stateWriteDone s = .next (drain popped)) ∧
    (s.serving .parkingWrite = true → exec .parkingWriteDone s = .next (drain popped)) ∧
    (∀ i v rest j, s.serving .tallyWrite = true → s.job.writes = .tally i v :: rest → s.slot i = some j →
      ∃ u, exec .tallyWriteDone s = .next (drain u) ∧ Frame [.slots, .causes, .chain, .port] s u ∧
        u.slot i = none ∧ (∀ k, k ≠ i → u.slot k = s.slot k) ∧ u.job.writes = rest ∧
        u.job.doneTally = s.job.doneTally ∧
        u.ctl.hzint = (if j.flags.getLsbD 0 then s.ctl.hzint ||| 0b00001 else s.ctl.hzint) ∧
        (∀ a, s.job.nextRecord = some a →
          s.job.follower = .paused ∨ s.job.follower = .parkedRecord ∧ a = j.address →
          u.job.follower = .recordRead ∧
            u.port.waiting.follower = some (readRequest .follower .recordRead .chain a 128)) ∧
        (s.job.follower ≠ .paused → ¬ (s.job.follower = .parkedRecord ∧ s.job.nextRecord = some j.address) →
          u.job.follower = s.job.follower ∧ u.port = s.served.port))

/-- The three writes of a cell update (R145): edition plus 1, then the body at 04h, then edition plus 2; the update of
the head of the pending-cell set begins with the first (`drain` lets it begin, EventEnds), each other is issued when the
one before has been carried out, and the last raises the cell's edition by 2. The body is the entry's fields at the
offsets of section 10.5 (R142), the payload filled up with 0. -/
def Obligations.CellUpdateWrites : Prop :=
  (∀ e : Entry, e.lastPayload.length ≤ 32 → cellBody e =
    [e.state.code, BitVec.ofNat 8 e.line.val, e.address, e.lastStatus] ++ leBytes 2 e.failures.toNat ++
      [BitVec.ofNat 8 e.lastPayload.length, 0] ++ leBytes 4 e.lastHeard.toNat ++ leBytes 4 e.answers.toNat ++
      List.replicate 12 0 ++ e.lastPayload ++ List.replicate (32 - e.lastPayload.length) 0) ∧
  [EntryState.vacant, .joining, .live, .mute, .held, .leaving].map EntryState.code = [0, 1, 2, 3, 4, 5] ∧
  (∀ (n : Fin 64) (rest : List (Fin 64)) (r : Addr) (s : State), s.active = true → s.rep.update = none →
    s.rep.pendingCells = n :: rest → s.rep.tableAddr = some r →
    let u := beginUpdate s
    Frame [.cells, .port] s u ∧ u.rep.pendingCells = rest ∧
    u.rep.update = some { cell := n, body := cellBody (s.entry n), stage := .opening } ∧
    u.port.waiting.report = some (writeRequest .report .cellOpening .cell (r + BitVec.ofNat 64 (64 * n.val))
      (leBytes 4 (s.rep.editions[n.val] + 1).toNat))) ∧
  ∀ (c : CellUpdate) (r : Addr) (s : State), s.active = true → s.rep.update = some c → s.rep.tableAddr = some r →
    let cell := r + BitVec.ofNat 64 (64 * c.cell.val)
    (s.serving .cellOpening = true → ∃ u, exec .cellOpeningWriteDone s = .next (drain u) ∧
      Frame [.cells, .port] s u ∧ u.rep.pendingCells = s.rep.pendingCells ∧
      u.rep.update = some { c with stage := .body } ∧
      u.port.waiting.report = some (writeRequest .report .cellBody .cell (cell + 0x04) c.body)) ∧
    (s.serving .cellBody = true → ∃ u, exec .cellBodyWriteDone s = .next (drain u) ∧
      Frame [.cells, .port] s u ∧ u.rep.pendingCells = s.rep.pendingCells ∧
      u.rep.update = some { c with stage := .closing } ∧
      u.port.waiting.report = some (writeRequest .report .cellClosing .cell cell
        (leBytes 4 (s.rep.editions[c.cell.val] + 2).toNat))) ∧
    (s.serving .cellClosing = true → exec .cellClosingWriteDone s = .next (drain { s.served with
      rep := { s.rep with update := none,
                          editions := s.rep.editions.set c.cell.val (s.rep.editions[c.cell.val] + 2) } }))

/-- The writes of the Notice Writer (R159, R155, R164): a record write counts the notice and issues the count write with
the clock; the count write sets NOTICE and a held notice leaves the hold buffer, which lets the Schedulers choose
(R158). A lost total write, and while closing a dropped at stop write, stand between notices and only end; what follows
is the common end of every event (EventEnds). -/
def Obligations.NoticeWritesDone : Prop :=
  ∀ s : State, s.active = true →
    (∀ w : NoticeWrite, s.ntc.writing = some w →
      (s.serving .noticeRecord = true → ∃ u, exec .noticeRecordWriteDone s = .next (drain u) ∧
        Frame [.ntc, .port] s u ∧ u.ntc = { s.ntc with written := s.ntc.written + 1 } ∧
        u.port.waiting.notice = some
          { who := .notice, kind := .countWrite, struct := .status, dir := .write, addr := s.ctl.anchor + 0x88,
            transfers := [.write (s.ctl.anchor + 0x88) (leBytes 4 (s.ntc.written + 1).toNat),
                          .write (s.ctl.anchor + 0x94) (leBytes 4 s.tb.now.toNat)] }) ∧
      (s.serving .countWrite = true → ∃ u, exec .noticeCountWriteDone s = .next (settle u) ∧
        Frame [.ntc, .causes, .port] s u ∧ u.ctl.hzint = s.ctl.hzint ||| 0b00010 ∧ u.port = s.served.port ∧
        (w.isLost = true → u.ntc = { s.ntc with writing := none }) ∧
        (w.isLost = false → u.ntc = { s.ntc with
          writing := none, held := s.ntc.held.tail, lostAfter := s.ntc.lostAfter.map (· - 1) }))) ∧
    (s.ntc.writing = none → s.serving .lostTotalWrite = true →
      exec .lostTotalWriteDone s = .next (drain s.served)) ∧
    (s.ntc.writing = none → s.ntc.closing = true → s.serving .droppedWrite = true →
      exec .droppedAtStopWriteDone s = .next (drain s.served))

/-- A notices-taken value (R162, R161, R163): a lag of at most the size of the area makes it notices taken as read, and
room is judged again; a larger lag halts the part with COUNT, the capture naming the anchor's field. -/
def Obligations.NoticesTakenRead : Prop :=
  ∀ (v : Word) (s : State), s.active = true → s.serving .noticesTakenRead = true →
    let lag := (s.ntc.written - v).toNat
    let n := { s.ntc with
      taken := v, readInFlight := false,
      waitingRoom := s.ntc.waitingRoom && !decide (lag < 2 ^ s.ntc.sizeExp) }
    (2 ^ s.ntc.sizeExp < lag → exec (.noticesTakenReadDone v) s =
      .next (enterHalted .count (s.ctl.anchor + 0x20) .anchor .read s.served)) ∧
    (lag ≤ 2 ^ s.ntc.sizeExp → exec (.noticesTakenReadDone v) s = .next (drain { s.served with
      ntc := if s.ntc.readAgain then { n with readAgain := false, readWanted := !s.ntc.closing } else n }))

/-- An error response (R182, R176): the request in service is dropped and the part is HALTED with BUS; the capture holds
the first byte of the request, its structure and its direction; HALTED is set; the lines go OFF with their settings and
counters kept; everything else stays as it stood. That waiting requests are dropped is log 12. -/
def Obligations.ErrorResponseHalts : Prop :=
  ∀ (r : Request) (s : State), s.pins.rstn = false →
    s.ctl.part = .starting ∨ s.ctl.part = .running ∨ s.ctl.part = .stopping → s.port.inService = some r →
    ∃ t, exec .memoryErrorResponse s = .next t ∧
      t.ctl = { s.ctl with part := .halted, haltReason := .bus, faultAddr := r.addr, faultStruct := r.struct,
                           faultDir := r.dir, hzint := s.ctl.hzint ||| 0b01000 } ∧
      t.port = { s.port with inService := none, waiting := Waiting.empty } ∧ t.job = { s.job with timer := none } ∧
      (∀ l, (t.engine l).lineState = .off ∧ (t.engine l).op = none ∧ (t.engine l).attempt = 0 ∧
        (t.engine l).lastOutcome = none ∧ (t.engine l).answerBuf = [] ∧ (t.engine l).kept = none ∧
        (t.engine l).markRun = none ∧ (t.engine l).spaceRun = none ∧ (t.engine l).receiver = .disabled ∧
        (t.engine l).rateCode = (s.engine l).rateCode ∧ (t.engine l).turnaround = (s.engine l).turnaround ∧
        (t.engine l).retryLimit = (s.engine l).retryLimit ∧ (t.engine l).counters = (s.engine l).counters) ∧
      Frame [.control, .causes, .port, .eng, .chain] s t

/-- A link read has returned (R98, R99, R102, R104, R105): 0 parks the follower; a misaligned value halts the part
with ALIGN, the capture naming the link word; an aligned one becomes the next record, which is read, or the follower
pauses. Parking lists a parking write at the tail in place of one not yet issued (R102, R114; `parkedWrites`), none
where a re-read returns to the state it left. A result that nothing waits for is dropped (R107). -/
def Obligations.LinkReadTaken : Prop :=
  ∀ (v p : Addr) (s : State), s.active = true → s.serving .linkRead = true →
    (s.job.follower ≠ .linkRead ∨ s.ctl.part = .stopping →
      exec (.linkReadDone v) s = .next (drain s.served)) ∧
    (s.ctl.part = .running → s.job.follower = .linkRead → s.job.parking = some p →
      let listed := parkedWrites (s.served.port.busyFor .jobUnit) p s.job.writes
      (v ≠ 0 → v.toNat % 128 ≠ 0 → exec (.linkReadDone v) s =
        .next (enterHalted .align p (if p = s.ctl.anchor + 0x18 then .anchor else .chain) .read s.served)) ∧
      (v.toNat % 128 = 0 → ∃ u, exec (.linkReadDone v) s = .next (drain u) ∧ Frame [.chain, .slots, .port] s u ∧
        u.job.slots = s.job.slots ∧ u.job.doneTally = s.job.doneTally ∧ u.job.parking = some p ∧
        u.job.timer = s.job.timer ∧
        (v = 0 → s.job.nudgePending = false → u.job.follower = .parkedLink ∧ u.port = s.served.port ∧
          (s.job.rereadOf = some .link → u.job.writes = s.job.writes) ∧
          (s.job.rereadOf ≠ some .link → u.job.writes = listed)) ∧
        (v = 0 → s.job.nudgePending = true → u.job.follower = .linkRead ∧ u.job.nudgePending = false ∧
          u.port.waiting.follower = some (readRequest .follower .linkRead (s.linkStructure p) p 8) ∧
          (s.job.rereadOf = some .link → u.job.writes = s.job.writes) ∧
          (s.job.rereadOf ≠ some .link → u.job.writes = listed)) ∧
        (∀ i, v ≠ 0 → s.freeSlot = some i → u.job.follower = .recordRead ∧ u.job.nextRecord = some v ∧
          u.job.nudgePending = false ∧ u.job.writes = s.job.writes ∧
          u.port.waiting.follower = some (readRequest .follower .recordRead .chain v 128)) ∧
        (v ≠ 0 → s.freeSlot = none → u.job.follower = .paused ∧ u.job.nextRecord = some v ∧
          u.job.writes = s.job.writes ∧ u.port = s.served.port)))

/-- A record read has returned (R100, R99): a record that is not POSTED, or whose address a slot in use holds, parks
the follower, which with a NUDGE pending reads it again at once (R104), or pauses with no slot FREE; a POSTED one with
a misaligned link halts the part with ALIGN; a POSTED one of a known kind is the command of that kind; a POSTED one of
an unknown kind is taken and completes BAD_JOB (R118). Parking lists its parking write as in LinkReadTaken (R102,
R114). The record's fields stand at the offsets of section 10.3, each little-endian (R183), and the kinds have the
codes given there. A result that nothing waits for is dropped (R107). That a command of a kind reads the record in
service is log 3; ALIGN before the parking is log 9. In STOPPING every record is dropped, a command of a kind as the
record itself (R107); a LINE STATUS that a slot already holds VALIDATING is LineJobsTaken's. -/
def Obligations.RecordReadJudged : Prop :=
  (∀ b : List Byte, JobRecord.ofBytes b = {
    stateWord := BitVec.ofNat 32 (leField b 0x00 4), kind := byteAt b 0x04, fields := {
      flags := byteAt b 0x05, tag := BitVec.ofNat 16 (leField b 0x06 2), link := BitVec.ofNat 64 (leField b 0x08 8),
      target := byteAt b 0x10, params := (b.drop 0x11).take 15, payloadLength := byteAt b 0x20,
      payload := (b.drop 0x28).take 32 } }) ∧
  [JobKind.setupLine, .lineStatus, .enlist, .delist, .hold, .release, .retune, .order, .broadcast, .cancel,
    .mark].map JobKind.code = [1, 2, 3, 4, 5, 6, 7, 8, 9, 10, 11] ∧
  ∀ (data : List Byte) (a : Addr) (s : State), s.active = true → s.serving .recordRead = true →
    let r := JobRecord.ofBytes data
    let listed := fun (p : Addr) => parkedWrites (s.served.port.busyFor .jobUnit) p s.job.writes
    (s.job.follower ≠ .recordRead ∨ s.ctl.part = .stopping →
      exec (.recordReadDone data) s = .next (settle s.served)) ∧
    (∀ (k : JobKind) (f : JobFields), s.ctl.part = .stopping →
      k ≠ .lineStatus ∨ (∀ i j, s.slot i = some j → j.state ≠ .validating) →
      exec (k.command f) s = .next (settle s.served)) ∧
    (s.ctl.part = .running → s.job.follower = .recordRead → s.job.nextRecord = some a →
      (r.stateWord ≠ 1 ∨ s.holdsRecord a = true ∧ r.fields.link.toNat % 128 = 0 → s.job.nudgePending = false →
        ∃ u, exec (.recordReadDone data) s = .next (settle u) ∧ Frame [.chain, .slots, .port] s u ∧
          u.job.follower = .parkedRecord ∧ u.job.nextRecord = some a ∧ u.job.slots = s.job.slots ∧
          u.port = s.served.port ∧ (s.job.rereadOf = some .record → u.job.writes = s.job.writes) ∧
          (∀ p, s.job.rereadOf ≠ some .record → s.job.parking = some p → u.job.writes = listed p)) ∧
      (r.stateWord ≠ 1 ∨ s.holdsRecord a = true ∧ r.fields.link.toNat % 128 = 0 → s.job.nudgePending = true →
        ∃ u, exec (.recordReadDone data) s = .next (settle u) ∧ Frame [.chain, .slots, .port] s u ∧
          u.job.nudgePending = false ∧ u.job.nextRecord = some a ∧ u.job.slots = s.job.slots ∧
          (s.job.rereadOf = some .record → u.job.writes = s.job.writes) ∧
          (∀ p, s.job.rereadOf ≠ some .record → s.job.parking = some p → u.job.writes = listed p) ∧
          (∀ i, s.freeSlot = some i → u.job.follower = .recordRead ∧
            u.port.waiting.follower = some (readRequest .follower .recordRead .chain a 128)) ∧
          (s.freeSlot = none → u.job.follower = .paused ∧ u.port = s.served.port)) ∧
      (r.stateWord = 1 → r.fields.link.toNat % 128 ≠ 0 → exec (.recordReadDone data) s =
        .next (enterHalted .align (a + 8)
          (if a + 8 = s.ctl.anchor + 0x18 then .anchor else .chain) .read s.served)) ∧
      (∀ k : JobKind, r.stateWord = 1 → r.kind = k.code → exec (.recordReadDone data) s = exec (k.command r.fields) s) ∧
      (∀ i, r.stateWord = 1 → 11 < r.kind.toNat ∨ r.kind = 0 → s.AwaitsRecord i a →
        r.fields.link.toNat % 128 = 0 →
        ∃ u j, exec (.recordReadDone data) s = .next (settle u) ∧ j.address = a ∧ j.tag = r.fields.tag ∧
          u.completedWith i j ⟨.badJob, 0, 0, []⟩ ∧ Frame [.chain, .slots, .port] s u))

/-! ### Jobs -/

/-- Taking a record (R101): the lowest-numbered FREE slot is claimed with the host fields and the next taking number,
the TAKEN write is listed, the parking place becomes the record's link field, the follower goes on by the link value, a
link of 0 with a NUDGE pending being read again at once (R104), and the job is validated and dispatched, in one action
(R119). Parking puts its parking write on the list after the TAKEN write (R102, R114, as in LinkReadTaken;
`parkedWrites`). It stands there before the completion writes of a job that completes at once: that order is the
model's deduction from the steps of R101 (log 25, DEDUCED). The common checks (R118): a payload longer than 32 bytes, a
target that is no entry index for a kind that targets an entry, or no line number for one that targets a line,
completes BAD_JOB. -/
def Obligations.RecordTaken : Prop :=
  (∀ (k : JobKind) (f : JobFields) (i : Fin 16) (a : Addr) (s : State), s.AwaitsRecord i a → f.link.toNat % 128 = 0 →
     let u := s.takenState i a k f
     let listed := parkedWrites (s.served.port.busyFor .jobUnit) (a + 8) (s.job.writes ++ [.taken a])
     exec (k.command f) s = .next (settle (dispatchJob i u)) ∧ Frame [.chain, .slots, .port] s u ∧
     u.slot i = some { address := a, takingNumber := s.job.takingCount + 1, kind := k.code, flags := f.flags,
                       tag := f.tag, target := f.target, params := f.params, payloadLength := f.payloadLength,
                       payload := f.payload, state := .validating, waitSet := [], result := none } ∧
     (∀ m, m ≠ i → u.slot m = s.slot m) ∧ u.job.takingCount = s.job.takingCount + 1 ∧
     u.job.parking = some (a + 8) ∧ u.job.doneTally = s.job.doneTally ∧ JobWrite.taken a ∈ u.job.writes ∧
     (f.link = 0 → s.job.nudgePending = false → u.job.follower = .parkedLink ∧ u.job.nextRecord = none ∧
       u.job.writes = listed) ∧
     (f.link = 0 → s.job.nudgePending = true → u.job.follower = .linkRead ∧ u.job.nudgePending = false ∧
       u.job.nextRecord = none ∧ u.job.writes = listed ∧
       u.port.waiting.follower = some (readRequest .follower .linkRead (s.linkStructure (a + 8)) (a + 8) 8)) ∧
     (f.link ≠ 0 → (∃ m, m ≠ i ∧ s.slot m = none) → u.job.follower = .recordRead ∧
       u.job.nextRecord = some f.link ∧ u.job.writes = s.job.writes ++ [.taken a] ∧
       u.port.waiting.follower = some (readRequest .follower .recordRead .chain f.link 128)) ∧
     (f.link ≠ 0 → (∀ m, m ≠ i → s.slot m ≠ none) → u.job.follower = .paused ∧
       u.job.nextRecord = some f.link ∧ u.job.writes = s.job.writes ++ [.taken a])) ∧
  (∀ (k : JobKind) (f : JobFields) (i : Fin 16) (a : Addr) (s : State), s.AwaitsRecord i a → f.link.toNat % 128 = 0 →
     32 < f.payloadLength.toNat ∨
       (k = .enlist ∨ k = .delist ∨ k = .hold ∨ k = .release ∨ k = .retune ∨ k = .order) ∧ 64 ≤ f.target.toNat ∨
       (k = .setupLine ∨ k = .lineStatus ∨ k = .broadcast) ∧ 4 ≤ f.target.toNat →
     s.EndsAtOnce (k.command f) i (s.takenJob a k f) .badJob)

/-- SETUP LINE at its taking (R120): each setting named in the change set must lie in its range, or the job completes
BAD_JOB; one that passes is queued, whatever the state of the line.
LINE STATUS (R123, R92): completes OK with the seven counters and the line state's code (section 10.4) as its answer,
and clears the counters in the same action when the clear flag is set, whatever the state of the line. While the part is
STOPPING no record is taken (R107, R115; RecordReadJudged), but a LINE STATUS that a slot holds and that is not yet
carried out is carried out then too: so the model reads R123 (log 33, DEDUCED). -/
def Obligations.LineJobsTaken : Prop :=
  [LineState.off, .settling, .idle, .sending, .awaiting, .receiving, .resting, .window, .stuck].map LineState.code =
    [0, 1, 2, 3, 4, 5, 6, 7, 8] ∧
  (∀ (f : JobFields) (l : Fin 4) (i : Fin 16) (a : Addr) (s : State), s.AwaitsRecord i a → f.link.toNat % 128 = 0 →
     f.payloadLength.toNat ≤ 32 → f.target.toNat = l.val →
     let j := s.takenJob a .setupLine f
     let p := f.params
     let named := fun (b : Nat) => (byteAt p 1).getLsbD b = true
     let ok := (named 0 → (byteAt p 2).toNat ≤ 7) ∧ (named 1 → 2 ≤ (byteAt p 3).toNat) ∧
       (named 2 → (byteAt p 4).toNat ≤ 7) ∧ (named 3 → 1 ≤ (byteAt p 5).toNat ∧ (byteAt p 5).toNat ≤ 8) ∧
       (named 4 → 100 ≤ leField p 6 2 ∧ leField p 6 2 ≤ 10000) ∧
       (named 5 → leField p 8 2 = 0 ∨ 20 ≤ leField p 8 2 ∧ leField p 8 2 ≤ 10000)
     (ok → s.QueuesOn (.setupLine f) i j l) ∧ (¬ ok → s.EndsAtOnce (.setupLine f) i j .badJob)) ∧
  (let answers := fun (s u : State) (l : Fin 4) (i : Fin 16) (j : Job) =>
     let c := (s.engine l).counters
     u.completedWith i j
       ⟨.ok, 0, 0, leBytes 4 c.callsStarted.toNat ++ leBytes 4 c.failedAttempts.toNat ++
         leBytes 4 c.strayCharacters.toNat ++ leBytes 4 c.garbledMarks.toNat ++ leBytes 4 c.checkErrors.toNat ++
         leBytes 4 c.stuckEvents.toNat ++ leBytes 4 c.windowsOpened.toNat ++ [(s.engine l).lineState.code]⟩ ∧
     u.engine l = (if (byteAt j.params 0).getLsbD 0 then { s.engine l with counters := ⟨0, 0, 0, 0, 0, 0, 0⟩ }
                   else s.engine l) ∧
     s.OtherEnginesKept u l ∧ s.OthersKept u i
   (∀ (f : JobFields) (l : Fin 4) (i : Fin 16) (a : Addr) (s : State), s.AwaitsRecord i a → f.link.toNat % 128 = 0 →
     f.payloadLength.toNat ≤ 32 → f.target.toNat = l.val → ∃ u, exec (.lineStatus f) s = .next (settle u) ∧
       Frame [.chain, .slots, .port, .eng] s u ∧ answers s u l i (s.takenJob a .lineStatus f)) ∧
   (∀ (f : JobFields) (l : Fin 4) (i : Fin 16) (j : Job) (s : State), s.active = true → s.ctl.part = .stopping →
     s.slot i = some j → j.state = .validating → j.kindOf = some .lineStatus →
     j.flags = f.flags → j.tag = f.tag → j.target = f.target → j.params = f.params →
     j.payloadLength = f.payloadLength → j.payload = f.payload →
     (∀ k jk, s.slot k = some jk → jk.state = .validating → k = i) → f.payloadLength.toNat ≤ 32 →
     f.target.toNat = l.val → ∃ u, exec (.lineStatus f) s = .next (settle u) ∧ Frame [.slots, .eng] s u ∧
       answers s u l i j))

/-- ENLIST (R124, R125, R3): its range checks, then the entry in use and the duplicate address; one that passes sets up
the entry JOINING, due now, and completes OK. The options stand in the bits of section 10.4. -/
def Obligations.EnlistTaken : Prop :=
  (∀ b : Byte, Options.ofByte b = {
    slot := b.getLsbD 0, notify := b.getLsbD 1, refresh := b.getLsbD 2, reloadOrder := b.getLsbD 3,
    reloadMark := b.getLsbD 4 }) ∧
  ∀ (f : JobFields) (n : Fin 64) (i : Fin 16) (a : Addr) (s : State), s.AwaitsRecord i a → f.link.toNat % 128 = 0 →
    f.payloadLength.toNat ≤ 32 → f.target.toNat = n.val →
    let j := s.takenJob a .enlist f
    let p := f.params
    let poll := leField p 2 2
    let quiet := leField p 4 4
    let ok := (byteAt p 0).toNat ≤ 3 ∧ 1 ≤ (byteAt p 1).toNat ∧ (byteAt p 1).toNat ≤ 254 ∧ 10 ≤ poll ∧ poll ≤ 60000 ∧
      (quiet = 0 ∨ 2 * poll ≤ quiet ∧ quiet ≤ 600000) ∧ (byteAt p 8).toNat < 32
    let inUse := (s.entry n).state ≠ .vacant
    let held := ∃ m, (s.entry m).state ≠ .vacant ∧ (s.entry m).line.val = (byteAt p 0).toNat ∧
      (s.entry m).address = byteAt p 1
    (¬ ok → s.EndsAtOnce (.enlist f) i j .badJob) ∧
    (ok → inUse → s.EndsAtOnce (.enlist f) i j .entryInUse) ∧
    (ok → ¬ inUse → held → s.EndsAtOnce (.enlist f) i j .duplicateAddress) ∧
    (ok → ¬ inUse → ¬ held → ∃ u, exec (.enlist f) s = .next (settle u) ∧
      Frame [.chain, .slots, .port, .entries, .cells] s u ∧ u.completedWith i j ⟨.ok, 0, 0, []⟩ ∧
      s.OthersKept u i ∧ s.OtherEntriesKept u n ∧ s.AsksCell u n ∧
      (u.entry n).line.val = (byteAt p 0).toNat ∧
      u.entry n = { Entry.vacant with
        state := .joining, line := (u.entry n).line, address := byteAt p 1, pollPeriod := BitVec.ofNat 32 poll,
        quietLimit := BitVec.ofNat 32 quiet, options := Options.ofByte (byteAt p 8), dueTime := s.tb.now,
        lastPollStart := s.tb.now })

/-- DELIST (R126, R20): NOT_ENLISTED for a VACANT or LEAVING entry; otherwise the entry's queued ORDERs complete
STATION_GONE, its index leaves the fetch queue, its slots in a window become void, and a HOLD that waits for it
completes STATION_GONE; these completions come before the DELIST's own (R126); every other job stands, and nothing else
of its line's Scheduler and engine changes. That a slot becomes void also while the engine rests after the window's end
is the model's choice (log 30, DESIGN CHOICE). With no call on the wire the entry is VACANT at once, with its LEFT
notice and cell write, and the job completes OK; else it is LEAVING and the job waits. -/
def Obligations.DelistTaken : Prop :=
  ∀ (f : JobFields) (n : Fin 64) (i : Fin 16) (a : Addr) (s : State), s.AwaitsRecord i a → f.link.toNat % 128 = 0 →
    f.payloadLength.toNat ≤ 32 → f.target.toNat = n.val →
    let j := s.takenJob a .delist f
    let e := s.entry n
    let q := s.scheduler e.line
    let voided := (s.engine e.line).slots.map (fun r => if r.entry = n then { r with void := true } else r)
    let gone := fun (k : Fin 16) (jk : Job) => k ∈ (s.scheduler e.line).orderQueue ∧ s.slot k = some jk ∧
      jk.state = .queued ∧ jk.kindOf = some .order ∧ targetEntry jk.target = some n
    let order := fun (k : Fin 16) => k ∈ (s.scheduler e.line).orderQueue ∧
      ∃ jk, s.slot k = some jk ∧ jk.kindOf = some .order ∧ targetEntry jk.target = some n
    (e.state = .vacant ∨ e.state = .leaving → s.EndsAtOnce (.delist f) i j .notEnlisted) ∧
    (e.state ≠ .vacant → e.state ≠ .leaving → ∃ u, exec (.delist f) s = .next (settle u) ∧
      Frame [.chain, .slots, .port, .entries, .sched, .eng, .ntc, .cells] s u ∧
      (∀ k jk, gone k jk → u.completedWith k jk ⟨.stationGone, 0, 0, []⟩ ∧ k ∉ (u.scheduler e.line).orderQueue) ∧
      (u.scheduler e.line).orderQueue.Sublist q.orderQueue ∧
      (∀ k, k ∈ (u.scheduler e.line).orderQueue ↔ k ∈ q.orderQueue ∧ ∀ jk, s.slot k = some jk →
        jk.kindOf = some .order → targetEntry jk.target ≠ some n) ∧
      u.scheduler e.line = { q with
        orderQueue := (u.scheduler e.line).orderQueue, fetchQueue := q.fetchQueue.filter (· != n),
        ordersInRow := if (u.scheduler e.line).orderQueue = [] then 0 else q.ordersInRow } ∧
      u.engine e.line = { s.engine e.line with slots := voided } ∧
      (∀ k jk, e.holdPending = true → s.slot k = some jk → s.waitsFor .hold n k = true →
        (∀ m, s.waitsFor .hold n m = true → m = k) → u.completedWith k jk ⟨.stationGone, 0, 0, []⟩) ∧
      s.OtherEntriesKept u n ∧ s.OtherSchedsKept u e.line ∧ s.OtherEnginesKept u e.line ∧
      (∀ k, k ≠ i → ¬ order k → ¬ (e.holdPending = true ∧ s.waitsFor .hold n k = true) → s.SlotKept u k) ∧
      (e.busy = false → ∃ v, u = completeJob i ⟨.ok, 0, 0, []⟩ v ∧ v.slot i = some j ∧
        (∀ k jk, gone k jk → v.completedWith k jk ⟨.stationGone, 0, 0, []⟩) ∧
        (∀ k jk, e.holdPending = true → s.slot k = some jk → s.waitsFor .hold n k = true →
          (∀ m, s.waitsFor .hold n m = true → m = k) → v.completedWith k jk ⟨.stationGone, 0, 0, []⟩)) ∧
      (e.busy = false → u.completedWith i j ⟨.ok, 0, 0, []⟩ ∧ u.entry n = Entry.vacant ∧ s.AsksCell u n ∧
        s.AsksNotice u { kind := .left, entry := some n, line := some e.line, address := e.address, time := s.tb.now,
                         count := e.failures.setWidth 32, payload := [] }) ∧
      (e.busy = true → (∃ w, u.slot i = some { j with state := .waiting, waitSet := w }) ∧
        u.entry n = { e with state := .leaving, quietDeadline := none, latch := false, holdPending := false } ∧
        u.ntc = s.ntc ∧ u.rep = s.rep))

/-- HOLD (R128, R22): NOT_ENLISTED for a VACANT or LEAVING entry; WRONG_STATE for a HELD one or one with hold pending;
with no ORDER queued and no call on the wire the entry is HELD at once and the job completes OK; otherwise hold pending
is set and the job waits; where its latch is set with its fetch queued, R39 completes the ORDERs WRONG_STATE and the
entry is HELD in the same action (R23), and the line's Scheduler changes in nothing else: the fetch and its index stay
queued (R39, R35; `OrdersGone`).
RELEASE (R130, R24): WRONG_STATE unless the entry is HELD; else the entry is JOINING and due now, its cell is asked for,
no notice, and the job completes OK. -/
def Obligations.HoldAndReleaseTaken : Prop :=
  (∀ (f : JobFields) (n : Fin 64) (i : Fin 16) (a : Addr) (s : State), s.AwaitsRecord i a → f.link.toNat % 128 = 0 →
     f.payloadLength.toNat ≤ 32 → f.target.toNat = n.val →
     let j := s.takenJob a .hold f
     let e := s.entry n
     let waits := e.busy = true ∨ ∃ k jk, k ∈ (s.scheduler e.line).orderQueue ∧ k ≠ i ∧ s.slot k = some jk ∧
       jk.kindOf = some .order ∧ targetEntry jk.target = some n
     (e.state = .vacant ∨ e.state = .leaving → s.EndsAtOnce (.hold f) i j .notEnlisted) ∧
     (e.state = .held ∨ e.state ≠ .vacant ∧ e.state ≠ .leaving ∧ e.holdPending = true →
       s.EndsAtOnce (.hold f) i j .wrongState) ∧
     (e.state = .joining ∨ e.state = .live ∨ e.state = .mute → e.holdPending = false →
       (¬ waits → ∃ u, exec (.hold f) s = .next (settle u) ∧
         Frame [.chain, .slots, .port, .entries, .cells] s u ∧ u.completedWith i j ⟨.ok, 0, 0, []⟩ ∧
         s.OthersKept u i ∧ s.OtherEntriesKept u n ∧ s.AsksCell u n ∧
         u.entry n = { e with state := .held, quietDeadline := none }) ∧
       (waits → e.latch = false ∨ e.busy = true → ∃ u, exec (.hold f) s = .next (settle u) ∧
         Frame [.chain, .slots, .port, .entries] s u ∧ u.slot i = some { j with state := .waiting } ∧
         (∀ k, k ≠ i → u.slot k = s.slot k) ∧ s.OtherEntriesKept u n ∧
         u.entry n = { e with holdPending := true }) ∧
       (waits → e.latch = true → e.busy = false → n ∈ (s.scheduler e.line).fetchQueue →
         (∀ k jk, s.slot k = some jk → jk.kindOf = some .hold → targetEntry jk.target ≠ some n) →
         ∃ u, exec (.hold f) s = .next (settle u) ∧ Frame [.chain, .slots, .port, .entries, .sched, .cells] s u ∧
           u.completedWith i j ⟨.ok, 0, 0, []⟩ ∧ s.OtherEntriesKept u n ∧ s.AsksCell u n ∧
           u.entry n = { e with state := .held, quietDeadline := none } ∧ s.OrdersGone u e.line n ∧
           ∀ k jk, k ∈ (s.scheduler e.line).orderQueue → s.slot k = some jk → jk.state = .queued →
             jk.kindOf = some .order → targetEntry jk.target = some n →
             u.completedWith k jk ⟨.wrongState, 0, 0, []⟩ ∧ k ∉ (u.scheduler e.line).orderQueue))) ∧
  (∀ (f : JobFields) (n : Fin 64) (i : Fin 16) (a : Addr) (s : State), s.AwaitsRecord i a → f.link.toNat % 128 = 0 →
     f.payloadLength.toNat ≤ 32 → f.target.toNat = n.val →
     let j := s.takenJob a .release f
     ((s.entry n).state ≠ .held → s.EndsAtOnce (.release f) i j .wrongState) ∧
     ((s.entry n).state = .held → ∃ u, exec (.release f) s = .next (settle u) ∧
       Frame [.chain, .slots, .port, .entries, .cells] s u ∧ u.completedWith i j ⟨.ok, 0, 0, []⟩ ∧
       s.OthersKept u i ∧ s.OtherEntriesKept u n ∧ s.AsksCell u n ∧
       u.entry n = { s.entry n with state := .joining, dueTime := s.tb.now }))

/-- RETUNE (R131, R25): its range checks, then NOT_ENLISTED; one that passes replaces the three settings; a LIVE entry's
due time and deadline are recomputed, and a deadline that counts as reached expires within the RETUNE; the job completes
OK. A LIVE entry's poll on the wire is marked, so that the due time set now stands at its end (R32); nothing else of any
Scheduler changes. That the due time moves also where the entry goes MUTE is log 10. -/
def Obligations.RetuneTaken : Prop :=
  ∀ (f : JobFields) (n : Fin 64) (i : Fin 16) (a : Addr) (s : State), s.AwaitsRecord i a → f.link.toNat % 128 = 0 →
    f.payloadLength.toNat ≤ 32 → f.target.toNat = n.val →
    let j := s.takenJob a .retune f
    let e := s.entry n
    let poll := leField f.params 2 2
    let quiet := leField f.params 4 4
    let ok := 10 ≤ poll ∧ poll ≤ 60000 ∧ (quiet = 0 ∨ 2 * poll ≤ quiet ∧ quiet ≤ 600000) ∧
      (byteAt f.params 8).toNat < 32
    let set := { e with
      pollPeriod := BitVec.ofNat 32 poll, quietLimit := BitVec.ofNat 32 quiet,
      options := Options.ofByte (byteAt f.params 8) }
    let due := if poll ≤ (s.tb.now - e.lastPollStart).toNat then s.tb.now else e.lastPollStart + BitVec.ofNat 32 poll
    let past := quiet ≠ 0 ∧ quiet ≤ (s.tb.now - e.lastHeard).toNat
    (¬ ok → s.EndsAtOnce (.retune f) i j .badJob) ∧
    (ok → e.state = .vacant ∨ e.state = .leaving → s.EndsAtOnce (.retune f) i j .notEnlisted) ∧
    (ok → e.state ≠ .vacant → e.state ≠ .leaving → ∃ u, exec (.retune f) s = .next (settle u) ∧
      Frame [.chain, .slots, .port, .entries, .sched, .ntc, .cells] s u ∧ u.completedWith i j ⟨.ok, 0, 0, []⟩ ∧
      s.OthersKept u i ∧ s.OtherEntriesKept u n ∧ s.OtherSchedsKept u e.line ∧
      (∀ d, e.state = .live → (s.scheduler e.line).inFlight = some (.poll n d) →
        u.scheduler e.line = { s.scheduler e.line with inFlight := some (.poll n true) }) ∧
      (e.state ≠ .live ∨ (∀ d, (s.scheduler e.line).inFlight ≠ some (.poll n d)) → u.sched = s.sched) ∧
      (e.state ≠ .live → u.entry n = set ∧ u.ntc = s.ntc ∧ u.rep = s.rep) ∧
      (e.state = .live → ¬ past → u.ntc = s.ntc ∧ u.rep = s.rep ∧ u.entry n = { set with
        dueTime := due, quietDeadline := if quiet = 0 then none else some (e.lastHeard + BitVec.ofNat 32 quiet) }) ∧
      (e.state = .live → past → s.AsksCell u n ∧
        s.AsksNotice u { kind := .muted, entry := some n, line := some e.line, address := e.address, time := s.tb.now,
                         count := e.failures.setWidth 32, payload := [] } ∧
        u.entry n = { set with state := .mute, dueTime := due, quietDeadline := none }))

/-- ORDER and BROADCAST at their taking (R132, R134): the entry's or the line's state is checked, and a job that passes
is queued on its line. -/
def Obligations.LineBoundJobsTaken : Prop :=
  ∀ (f : JobFields) (n : Fin 64) (l : Fin 4) (i : Fin 16) (a : Addr) (s : State), s.AwaitsRecord i a →
    f.link.toNat % 128 = 0 → f.payloadLength.toNat ≤ 32 →
    let e := s.entry n
    let jo := s.takenJob a .order f
    let jb := s.takenJob a .broadcast f
    (f.target.toNat = n.val →
      (e.state = .vacant ∨ e.state = .leaving → s.EndsAtOnce (.order f) i jo .notEnlisted) ∧
      (e.state = .held ∨ e.state ≠ .vacant ∧ e.state ≠ .leaving ∧ e.holdPending = true →
        s.EndsAtOnce (.order f) i jo .wrongState) ∧
      (e.state = .joining ∨ e.state = .live ∨ e.state = .mute → e.holdPending = false →
        ((s.engine e.line).lineState = .off → s.EndsAtOnce (.order f) i jo .lineOff) ∧
        ((s.engine e.line).lineState ≠ .off → s.QueuesOn (.order f) i jo e.line))) ∧
    (f.target.toNat = l.val →
      ((s.engine l).lineState = .off → s.EndsAtOnce (.broadcast f) i jb .lineOff) ∧
      ((s.engine l).lineState ≠ .off → s.QueuesOn (.broadcast f) i jb l))

/-- CANCEL (R135, R136): the job taken first among those with the match tag, DELIST and HOLD apart, is matched; queued,
it leaves its queue CANCELLED, an empty queue setting orders-in-a-row to 0 (R35, R36); waiting, it completes CANCELLED;
otherwise TOO_LATE; with no match NOT_FOUND. The CANCELLED completion comes before the CANCEL's own OK (R136), and
every other job stands. Where the item was an ORDER of an entry with a hold pending, the hold is checked after the
CANCELLED completion and before the CANCEL's own (R23, R136; `settleHold`, CallEndPassedOn). -/
def Obligations.CancelTaken : Prop :=
  ∀ (f : JobFields) (i : Fin 16) (a : Addr) (s : State), s.AwaitsRecord i a → f.link.toNat % 128 = 0 →
    f.payloadLength.toNat ≤ 32 →
    let j := s.takenJob a .cancel f
    let candidate := fun (k : Fin 16) (jk : Job) => k ≠ i ∧ s.slot k = some jk ∧
      jk.tag.toNat = leField f.params 0 2 ∧ jk.kindOf ≠ some .delist ∧ jk.kindOf ≠ some .hold
    let matched := fun (k : Fin 16) (jk : Job) => candidate k jk ∧
      ∀ m jm, candidate m jm → m ≠ k → takenBefore jk.takingNumber jm.takingNumber = true
    let othersKept := fun (u : State) (k : Fin 16) => ∀ m, m ≠ i → m ≠ k → s.SlotKept u m
    ((∀ k jk, ¬ candidate k jk) → s.EndsAtOnce (.cancel f) i j .notFound) ∧
    (∀ k jk, matched k jk →
      (jk.state ≠ .queued → jk.state ≠ .waiting → s.EndsAtOnce (.cancel f) i j .tooLate) ∧
      (jk.state = .waiting → ∃ v, let u := completeJob i ⟨.ok, 0, 0, []⟩ v
        exec (.cancel f) s = .next (settle u) ∧ Frame [.chain, .slots, .port] s u ∧ v.slot i = some j ∧
        v.completedWith k jk ⟨.cancelled, 0, 0, []⟩ ∧ othersKept v k ∧ u.completedWith i j ⟨.ok, 0, 0, []⟩ ∧
        u.completedWith k jk ⟨.cancelled, 0, 0, []⟩ ∧ othersKept u k) ∧
      (∀ l, jk.state = .queued → (∀ m, k ∈ (s.scheduler m).orderQueue ↔ m = l) →
        let q := s.scheduler l
        let rest := q.orderQueue.filter (· != k)
        let left : Sched := { q with orderQueue := rest, ordersInRow := if rest = [] then 0 else q.ordersInRow }
        (∀ n, jk.kindOf = some .order → targetEntry jk.target = some n → (s.entry n).holdPending = true → ∃ v,
          exec (.cancel f) s = .next (settle (completeJob i ⟨.ok, 0, 0, []⟩ (settleHold n v))) ∧
          Frame [.chain, .slots, .port, .sched] s v ∧ v.slot i = some j ∧
          v.completedWith k jk ⟨.cancelled, 0, 0, []⟩ ∧ othersKept v k ∧ v.scheduler l = left ∧
          s.OtherSchedsKept v l) ∧
        ((∀ n, jk.kindOf = some .order → targetEntry jk.target = some n → (s.entry n).holdPending = false) →
        ∃ v, let u := completeJob i ⟨.ok, 0, 0, []⟩ v
          exec (.cancel f) s = .next (settle u) ∧ Frame [.chain, .slots, .port, .sched] s u ∧ v.slot i = some j ∧
          v.completedWith k jk ⟨.cancelled, 0, 0, []⟩ ∧ othersKept v k ∧ u.completedWith i j ⟨.ok, 0, 0, []⟩ ∧
          u.completedWith k jk ⟨.cancelled, 0, 0, []⟩ ∧ othersKept u k ∧ u.scheduler l = left ∧
          s.OtherSchedsKept u l)))

/-- MARK at its taking (R138): its waiting set is the slots in use, other than its own, whose result is not decided;
with none the MARK completes OK, otherwise its slot waits. -/
def Obligations.MarkTaken : Prop :=
  ∀ (f : JobFields) (i : Fin 16) (a : Addr) (s : State), s.AwaitsRecord i a → f.link.toNat % 128 = 0 →
    f.payloadLength.toNat ≤ 32 →
    let j := s.takenJob a .mark f
    let undecided := fun (k : Fin 16) => k ≠ i ∧ ∃ jk, s.slot k = some jk ∧ jk.state ≠ .completing
    ((∀ k, ¬ undecided k) → s.EndsAtOnce (.mark f) i j .ok) ∧
    ((∃ k, undecided k) → ∃ u w, exec (.mark f) s = .next (settle u) ∧ Frame [.chain, .slots, .port] s u ∧
      u.slot i = some { j with state := .waiting, waitSet := w } ∧ (∀ k, k ∈ w ↔ undecided k) ∧
      ∀ k, k ≠ i → u.slot k = s.slot k)

/-- Taking a completion (R110, R111, R112, R139): the slot goes COMPLETING with its result and finish time; its result,
state and tally writes join the write list in that order, the tally being the done tally plus 1; a waiting MARK whose
set it empties completes OK after it, with its own three writes and the next done tally, and so on, each MARK once; the
done tally is then that of the last of them. Of the waiting MARKs whose sets are empty at a time, the one taken first
completes first (R139), by the comparison of R108 where their taking numbers lie within 2^31 of one base. Everything
else stands. -/
def Obligations.CompletionTaken : Prop :=
  ∀ (i : Fin 16) (j : Job) (r : JobEnd) (s : State), s.slot i = some j → j.state ≠ .completing →
    let u := completeJob i r s
    let waits := fun (m : Fin 16) (jm : Job) => m ≠ i ∧ s.slot m = some jm ∧ jm.state = .waiting ∧
      jm.kindOf = some .mark
    let writes := fun (k : Fin 16) (x : Nat) =>
      [JobWrite.result k, .state k, .tally k (s.job.doneTally + 1 + BitVec.ofNat 32 x)]
    Frame [.slots] s u ∧ u.completedWith i j r ∧ s.OthersKept u i ∧
    (∀ m jm, waits m jm → (∀ k, k ∈ jm.waitSet → k = i) → u.completedWith m jm ⟨.ok, 0, 0, []⟩) ∧
    ∃ marks : List (Fin 16), marks.Nodup ∧
      (∀ m, m ∈ marks ↔ ∃ jm jn, waits m jm ∧ u.slot m = some jn ∧ jn.state = .completing) ∧
      u.job.doneTally = s.job.doneTally + 1 + BitVec.ofNat 32 marks.length ∧
      u.job.writes = s.job.writes ++ writes i 0 ++ (marks.zipIdx 1).flatMap (fun p => writes p.1 p.2) ∧
      (∀ base : Word, (∀ m jm, waits m jm → (jm.takingNumber - base).toNat < 2 ^ 31) →
        ∀ before m after, marks = before ++ m :: after → ∃ jm, waits m jm ∧
          (∀ k, k ∈ jm.waitSet → k = i ∨ k ∈ before) ∧
          ∀ n jn, waits n jn → n ∉ before → (∀ k, k ∈ jn.waitSet → k = i ∨ k ∈ before) →
            (jm.takingNumber - base).toNat ≤ (jn.takingNumber - base).toNat)

/-! ### Timers and choices -/

/-- An end of the re-read interval (R103, R161): the timer starts again one interval later; a parked follower re-reads;
a read of notices taken is wanted unless one is in flight. Before its moment the command changes nothing (log 1). -/
def Obligations.ReReadTimerEnds : Prop :=
  ∀ (t : Word) (s : State), s.active = true → s.job.timer = some t →
    (2 ^ 31 ≤ (s.tb.now - t).toNat → exec .reReadTimerEnd s = .next s) ∧
    ((s.tb.now - t).toNat < 2 ^ 31 → ∃ u, exec .reReadTimerEnd s = .next (drain u) ∧
      Frame [.chain, .port, .ntc] s u ∧ u.job.timer = some (t + s.job.interval) ∧
      u.ntc = { s.ntc with
        readWanted := s.ntc.readWanted || (!s.ntc.readInFlight && !s.ntc.closing) } ∧
      (∀ p, s.job.follower = .parkedLink → s.job.parking = some p → u.job.follower = .linkRead ∧
        u.port.waiting.follower = some (readRequest .follower .linkRead (s.linkStructure p) p 8)) ∧
      (∀ a i, s.job.follower = .parkedRecord → s.job.nextRecord = some a → s.freeSlot = some i →
        u.job.follower = .recordRead ∧
          u.port.waiting.follower = some (readRequest .follower .recordRead .chain a 128)) ∧
      (s.job.follower = .parkedRecord → s.freeSlot = none → u.job.follower = .paused ∧ u.port = s.port) ∧
      (s.job.follower ≠ .parkedLink → s.job.follower ≠ .parkedRecord →
        u.job = { s.job with timer := some (t + s.job.interval) } ∧ u.port = s.port))

/-- A quiet expiry (R14, R13): a LIVE entry whose deadline is reached goes MUTE without a deadline, with a MUTED notice
and a cell write; before its deadline nothing happens (log 1). -/
def Obligations.QuietExpiryTaken : Prop :=
  ∀ (n : Fin 64) (d : Word) (s : State), s.active = true → (s.entry n).state = .live →
    (s.entry n).quietDeadline = some d →
    let e := s.entry n
    (2 ^ 31 ≤ (s.tb.now - d).toNat → exec (.quietTimerExpiry n) s = .next s) ∧
    ((s.tb.now - d).toNat < 2 ^ 31 → ∃ u, exec (.quietTimerExpiry n) s = .next (drain u) ∧
      Frame [.entries, .ntc, .cells] s u ∧ u.entry n = { e with state := .mute, quietDeadline := none } ∧
      s.OtherEntriesKept u n ∧ s.AsksCell u n ∧
      s.AsksNotice u { kind := .muted, entry := some n, line := some e.line, address := e.address, time := s.tb.now,
                       count := e.failures.setWidth 32, payload := [] })

/-- The reached due times of R31 and R47 make the Schedulers choose; R33 keeps an overdue one reached.
An overdue time is kept reached (R33): while an entry is JOINING, LIVE, MUTE or HELD, a due time with now minus it,
modulo 2^32, at least 2^30 and still reached is set to now, and so is a window due time; an earlier one stands; and the
time set is reached. -/
def Obligations.DueTimesTaken : Prop :=
  (∀ (n : Fin 64) (l : Fin 4) (s : State), s.running = true →
     ((s.entry n).state = .joining ∨ (s.entry n).state = .live ∨ (s.entry n).state = .mute →
       (s.tb.now - (s.entry n).dueTime).toNat < 2 ^ 31 → exec (.dueTimeReached n) s = .next (settle s)) ∧
     (∀ t, (s.scheduler l).windowDue = some t → (s.tb.now - t).toNat < 2 ^ 31 →
       exec (.windowDueTimeReached l) s = .next (settle s)) ∧
     (∀ t, (s.scheduler l).windowDue = some t → 2 ^ 31 ≤ (s.tb.now - t).toNat →
       exec (.windowDueTimeReached l) s = .next s)) ∧
  ((∀ (n : Fin 64) (s : State), s.active = true →
     (s.entry n).state = .joining ∨ (s.entry n).state = .live ∨ (s.entry n).state = .mute ∨
       (s.entry n).state = .held →
     let d := (s.tb.now - (s.entry n).dueTime).toNat
     (2 ^ 30 ≤ d → d < 2 ^ 31 → ∃ t, exec (.overdueRefresh (.entry n)) s = .next t ∧ Frame [.entries] s t ∧
       t.entry n = { s.entry n with dueTime := s.tb.now } ∧ s.OtherEntriesKept t n) ∧
     (d < 2 ^ 30 → exec (.overdueRefresh (.entry n)) s = .next s)) ∧
   (∀ (l : Fin 4) (w : Word) (s : State), s.active = true → (s.scheduler l).windowDue = some w →
     let d := (s.tb.now - w).toNat
     (2 ^ 30 ≤ d → d < 2 ^ 31 → ∃ t, exec (.overdueRefresh (.window l)) s = .next t ∧ Frame [.sched] s t ∧
       t.scheduler l = { s.scheduler l with windowDue := some s.tb.now } ∧ s.OtherSchedsKept t l) ∧
     (d < 2 ^ 30 → exec (.overdueRefresh (.window l)) s = .next s)) ∧
   (∀ now : Word, reached now now = true))

/-- A choice of a line whose engine is IDLE (R40, R41): first a due window with an eligible station, then a fetch with
a free place (R44), then an order-queue item that may go before a due poll (R43), then a due poll; what is picked is
handed to the engine (R71), an ORDER and a BROADCAST with the first payload-length bytes of its payload (R42), its
entry marked busy (R4), and a pick counts in orders-in-a-row (R43, R35). In OFF the first SETUP LINE of the queue is
picked, and nothing else (R40). That a stuck line which is not yet taken makes no choice is log 15. The candidates: a
window due with an entry that is LIVE with SLOT set and hold pending clear (R41); the oldest index of the fetch queue
that is JOINING, LIVE or MUTE, with hold pending clear and no call on the wire (R38, R44, R2); the oldest item that is
no ORDER whose entry's latch is set (R42); and the due poll (R31): an entry of the line that is JOINING, LIVE or MUTE,
with hold pending clear, no call on the wire and its due time reached; of several the one due longest, and the lowest
index where that is equal.
The slot list (R48): eligible entries, each once, from the lowest address not below the rotation pointer upward and
around, the first 32 of them. A window due with no eligible entry is passed and its due time advanced (R47). -/
def Obligations.ArbiterChooses : Prop :=
  (∀ (l : Fin 4) (s : State), s.mayChoose l = true →
     let handed := fun (u : State) (o : Operation) (f : InFlight) =>
       (u.scheduler l).inFlight = some f ∧ (u.engine l).op = some o ∧ (u.engine l).lineState = .sending ∧
       (u.engine l).since = s.moment ∧ (u.engine l).receiver = .disabled ∧
       s.OtherEnginesKept u l ∧ s.OtherSchedsKept u l
     let called := fun (u : State) => (u.engine l).attempt = 1 ∧ (u.engine l).lastOutcome = none ∧
       (u.engine l).kept = none ∧ (u.engine l).counters = { (s.engine l).counters with
         callsStarted := (s.engine l).counters.callsStarted + 1 }
     let leaves := fun (u : State) (i : Fin 16) =>
       (u.scheduler l).orderQueue = (s.scheduler l).orderQueue.filter (· != i) ∧
       (u.scheduler l).ordersInRow = (if (u.scheduler l).orderQueue = [] then 0
         else min 8 ((s.scheduler l).ordersInRow + 1))
     let sent := fun (j : Job) => j.payload.take j.payloadLength.toNat
     let place := s.ntc.held.length + s.reservations < 8
     let mayGo := (s.scheduler l).ordersInRow < (s.scheduler l).orderBurst ∨ s.duePoll l = none
     (s.windowApplies l = true → ∃ u, chooseOnce l s = some u ∧ Frame [.eng, .sched] s u ∧
       handed u .window (.window ((s.slotList l).map (·.address))) ∧ (u.engine l).slots = s.slotList l ∧
       (u.engine l).counters = { (s.engine l).counters with
         windowsOpened := (s.engine l).counters.windowsOpened + 1 } ∧
       u.scheduler l = { s.scheduler l with inFlight := (u.scheduler l).inFlight }) ∧
     (s.windowApplies l = false →
       (∀ n, s.fetchCandidate l = some n → place → ∃ u, chooseOnce l s = some u ∧
         Frame [.eng, .sched, .entries, .ntc] s u ∧ called u ∧
         handed u (.call .fetch n (s.entry n).address false []) (.fetch n) ∧ u.reserved l = true ∧
         (∀ m, m ≠ l → u.reserved m = s.reserved m) ∧ u.ntc = { s.ntc with reserved := u.ntc.reserved } ∧
         u.scheduler l = { s.scheduler l with
           inFlight := (u.scheduler l).inFlight, fetchQueue := (s.scheduler l).fetchQueue.erase n } ∧
         u.entry n = { s.entry n with busy := true } ∧ s.OtherEntriesKept u n) ∧
       (s.fetchCandidate l = none ∨ ¬ place →
         (∀ i j, s.orderCandidate l = some i → s.slot i = some j → mayGo →
           (∀ n, j.kindOf = some .order → targetEntry j.target = some n → (s.entry n).state ≠ .vacant →
             ∃ u, chooseOnce l s = some u ∧ Frame [.eng, .sched, .entries, .slots] s u ∧ called u ∧
               handed u (.call .order n (s.entry n).address (s.entry n).seqBit (sent j)) (.order n i) ∧ leaves u i ∧
               u.slot i = some { j with state := .onWire } ∧ (∀ k, k ≠ i → u.slot k = s.slot k) ∧
               u.entry n = { s.entry n with busy := true } ∧ s.OtherEntriesKept u n) ∧
           (j.kindOf = some .broadcast → ∃ u, chooseOnce l s = some u ∧ Frame [.eng, .sched, .slots] s u ∧
             handed u (.broadcast (sent j)) (.broadcast i) ∧ leaves u i ∧
             (u.engine l).counters = { (s.engine l).counters with
               callsStarted := (s.engine l).counters.callsStarted + 1 } ∧
             u.slot i = some { j with state := .onWire } ∧ (∀ k, k ≠ i → u.slot k = s.slot k)) ∧
           (j.kindOf = some .setupLine → chooseOnce l s = some (pickItem l i s))) ∧
         (∀ n, s.orderCandidate l = none ∨ (s.scheduler l).orderBurst ≤ (s.scheduler l).ordersInRow →
           s.duePoll l = some n →
           ∃ u, chooseOnce l s = some u ∧ Frame [.eng, .sched, .entries] s u ∧ called u ∧
             handed u (.call .poll n (s.entry n).address false []) (.poll n false) ∧
             u.scheduler l = { s.scheduler l with inFlight := (u.scheduler l).inFlight, ordersInRow := 0 } ∧
             u.entry n = { s.entry n with busy := true, lastPollStart := s.tb.now } ∧ s.OtherEntriesKept u n) ∧
         (s.orderCandidate l = none → s.duePoll l = none → chooseOnce l s = none)))) ∧
  (∀ (l : Fin 4) (s : State),
     let isSetup := fun (i : Fin 16) => ∃ j, s.slot i = some j ∧ j.kindOf = some .setupLine
     (s.mayChoose l = true ↔ s.running = true ∧ (s.scheduler l).inFlight = none ∧ (s.engine l).lineState = .idle ∧
       ∀ r, (s.engine l).spaceRun = some r → s.moment < r + 20 * charTime (s.engine l).rateCode) ∧
     (s.maySetup l = true ↔
       s.running = true ∧ (s.scheduler l).inFlight = none ∧ (s.engine l).lineState = .off) ∧
     (s.maySetup l = true → (∀ q i rest, (s.scheduler l).orderQueue = q ++ i :: rest → isSetup i →
         (∀ k, k ∈ q → ¬ isSetup k) → chooseOnce l s = some (pickItem l i s)) ∧
       ((∀ k, k ∈ (s.scheduler l).orderQueue → ¬ isSetup k) → chooseOnce l s = none)) ∧
     (s.mayChoose l = false → s.maySetup l = false → chooseOnce l s = none)) ∧
  (∀ (l : Fin 4) (s : State),
     let due := ∃ t, (s.scheduler l).windowDue = some t ∧ (s.tb.now - t).toNat < 2 ^ 31
     let called := fun (n : Fin 64) =>
       ((s.entry n).state = .joining ∨ (s.entry n).state = .live ∨ (s.entry n).state = .mute) ∧
       (s.entry n).holdPending = false ∧ (s.entry n).busy = false
     let eligible := fun (n : Fin 64) => (s.entry n).line = l ∧ (s.entry n).state = .live ∧
       (s.entry n).options.slot = true ∧ (s.entry n).holdPending = false
     let blocked := fun (i : Fin 16) => ∃ j n, s.slot i = some j ∧ j.kindOf = some .order ∧
       targetEntry j.target = some n ∧ (s.entry n).latch = true
     let offered := fun (n : Fin 64) =>
       (s.entry n).line = l ∧ called n ∧ (s.tb.now - (s.entry n).dueTime).toNat < 2 ^ 31
     let age := fun (n : Fin 64) => (s.tb.now - (s.entry n).dueTime).toNat
     let place := fun (a : Byte) =>
       if (s.scheduler l).rotation.toNat ≤ a.toNat then a.toNat else a.toNat + 256
     let slots := s.slotList l
     (s.windowApplies l = true ↔ due ∧ ∃ n, eligible n) ∧
     (s.fetchCandidate l = none ↔ ∀ n, n ∈ (s.scheduler l).fetchQueue → ¬ called n) ∧
     (∀ n, s.fetchCandidate l = some n ↔ ∃ q rest, (s.scheduler l).fetchQueue = q ++ n :: rest ∧ called n ∧
       ∀ m, m ∈ q → ¬ called m) ∧
     (s.orderCandidate l = none ↔ ∀ i, i ∈ (s.scheduler l).orderQueue → blocked i) ∧
     (∀ i, s.orderCandidate l = some i ↔ ∃ q rest, (s.scheduler l).orderQueue = q ++ i :: rest ∧ ¬ blocked i ∧
       ∀ k, k ∈ q → blocked k) ∧
     (s.duePoll l = none ↔ ∀ n, ¬ offered n) ∧
     (∀ n, s.duePoll l = some n → offered n ∧ ∀ m, offered m → age m < age n ∨ age m = age n ∧ n.val ≤ m.val) ∧
     ((∀ r, r ∈ slots → eligible r.entry ∧ r.address = (s.entry r.entry).address ∧ r.void = false ∧ r.seen = false) ∧
       (slots.map (·.entry)).Nodup ∧ slots.Pairwise (fun r r' => place r.address ≤ place r'.address) ∧
       slots.length ≤ 32 ∧
       ∀ n, eligible n → n ∉ slots.map (·.entry) → slots.length = 32 ∧
         ∀ r, r ∈ slots → place r.address ≤ place (s.entry n).address) ∧
     (∀ t, (s.scheduler l).windowDue = some t → due → (∀ n, ¬ eligible n) →
       let later := t + (s.scheduler l).windowInterval
       let due' := if (s.tb.now - later).toNat < 2 ^ 31 then s.tb.now + (s.scheduler l).windowInterval else later
       passWindow l s = s.setSched l { s.scheduler l with windowDue := some due' }) ∧
     (¬ due ∨ (∃ n, eligible n) → passWindow l s = s))

/-- A picked SETUP LINE (R46, R121, R69, R70): a line whose engine is OFF or IDLE takes the settings of the change
set and goes SETTLING with its window due time set, when enabled; or goes OFF, when disabled; its job completes OK.
In SETTLING the receiver and the two runs start afresh by the level of RXD (R52, R72; that a character half taken is
dropped is log 14, DEDUCED). A disable completes every ORDER and BROADCAST left in the queue LINE_OFF and sets
orders-in-a-row to 0 (R46); LIVE and MUTE entries of the line go JOINING, due now, with a cell write, JOINING ones
are due now, HELD ones keep their state, every latch of theirs is cleared, and no notice is asked for (R26). An entry
with a hold pending whose last ORDER leaves the queue in this way is HELD, and the HOLD that waits for it completes
OK (R23). Left or newly enabled, the line keeps its queues, the picked item apart, its rotation pointer and all
entries (R46); the pick counts in orders-in-a-row (R43, R35). Turned off, it keeps the SETUP LINE items of its order
queue, which stay queued (R46). The settings stand at the offsets of section 10.4. -/
def Obligations.SetupLineApplied : Prop :=
  (∀ b : List Byte,
    let named := fun (k v : Nat) => if (byteAt b 1).getLsbD k then some v else none
    SetupParams.ofBytes b = {
      enable := (byteAt b 0).getLsbD 0, rate := named 0 (byteAt b 2).toNat, turnaround := named 1 (byteAt b 3).toNat,
      retry := named 2 (byteAt b 4).toNat, burst := named 3 (byteAt b 5).toNat, search := named 4 (leField b 6 2),
      window := named 5 (leField b 8 2) }) ∧
  ∀ (l : Fin 4) (i : Fin 16) (j : Job) (s : State), s.slot i = some j → j.kindOf = some .setupLine →
    j.state = .queued →
    let p := SetupParams.ofBytes j.params
    let e := s.engine l
    let u := pickItem l i s
    let order := fun (k : Fin 16) (n : Fin 64) => k ∈ (s.scheduler l).orderQueue ∧
      ∃ jk, s.slot k = some jk ∧ jk.kindOf = some .order ∧ targetEntry jk.target = some n
    let waits := fun (n : Fin 64) => ∃ k, order k n
    let onLine := ∀ k n, order k n → (s.entry n).line = l ∧ (s.entry n).state ≠ .vacant
    let q := s.scheduler l
    let rest := q.orderQueue.filter (· != i)
    i ∉ (u.scheduler l).orderQueue ∧ u.completedWith i j ⟨.ok, 0, 0, []⟩ ∧ s.OtherEnginesKept u l ∧
    Frame [.eng, .sched, .slots, .entries, .cells] s u ∧
    (u.engine l).rateCode = Fin.ofNat 8 (p.rate.getD e.rateCode.val) ∧
    (u.engine l).turnaround = p.turnaround.getD e.turnaround ∧
    (u.engine l).retryLimit = p.retry.getD e.retryLimit ∧ (u.engine l).counters = e.counters ∧
    (u.scheduler l).searchPeriod = BitVec.ofNat 32 (p.search.getD (s.scheduler l).searchPeriod.toNat) ∧
    (u.scheduler l).windowInterval = BitVec.ofNat 32 (p.window.getD (s.scheduler l).windowInterval.toNat) ∧
    (u.scheduler l).orderBurst = p.burst.getD (s.scheduler l).orderBurst ∧ (u.scheduler l).enabled = p.enable ∧
    (p.enable = true → (u.engine l).lineState = .settling ∧
      (u.engine l).markRun = (if s.rxd l then some s.moment else none) ∧
      (u.engine l).spaceRun = (if s.rxd l then none else some s.moment) ∧
      (u.engine l).receiver = (if s.rxd l then .hunting else .waitMark) ∧ (u.engine l).edges = [] ∧
      (u.scheduler l).windowDue = (if (u.scheduler l).windowInterval = 0 then none
        else some (s.tb.now + (u.scheduler l).windowInterval)) ∧ u.entries = s.entries ∧
      Frame [.eng, .sched, .slots] s u ∧ s.OthersKept u i ∧ s.OtherSchedsKept u l ∧
      u.scheduler l = { q with
        orderQueue := rest, ordersInRow := if rest = [] then 0 else min 8 (q.ordersInRow + 1), enabled := true,
        windowDue := (u.scheduler l).windowDue, searchPeriod := (u.scheduler l).searchPeriod,
        windowInterval := (u.scheduler l).windowInterval, orderBurst := (u.scheduler l).orderBurst }) ∧
    (p.enable = false → (u.engine l).lineState = .off ∧ (u.engine l).receiver = .disabled ∧
      (u.scheduler l).windowDue = none ∧ (u.scheduler l).rotation = 1 ∧ (u.scheduler l).fetchQueue = [] ∧
      (u.scheduler l).orderQueue = rest.filter (fun k => s.slotIs k (fun jk => jk.kindOf == some .setupLine)) ∧
      (∀ k jk, k ∈ (u.scheduler l).orderQueue → s.slot k = some jk → ∃ w, u.slot k = some { jk with waitSet := w }) ∧
      (u.scheduler l).inFlight = q.inFlight ∧ (onLine → s.OtherSchedsKept u l) ∧ (u.scheduler l).ordersInRow = 0 ∧
      u.ntc = s.ntc ∧
      (onLine → ∀ k jk, k ∈ (s.scheduler l).orderQueue → k ≠ i → s.slot k = some jk → jk.state = .queued →
        jk.kindOf = some .order ∨ jk.kindOf = some .broadcast → u.completedWith k jk ⟨.lineOff, 0, 0, []⟩) ∧
      (onLine → ∀ n, (s.entry n).line = l → (s.entry n).holdPending = true → (s.entry n).busy = false →
        (s.entry n).state = .joining ∨ (s.entry n).state = .live ∨ (s.entry n).state = .mute → waits n →
        u.entry n = { s.entry n with
          state := .held, quietDeadline := none, dueTime := s.tb.now, latch := false, holdPending := false } ∧
        n ∈ u.rep.pendingCells ∧
        ∀ k jk, s.slot k = some jk → s.waitsFor .hold n k = true → (∀ m, s.waitsFor .hold n m = true → m = k) →
          k ∉ (s.scheduler l).orderQueue → u.completedWith k jk ⟨.ok, 0, 0, []⟩) ∧
      (∀ n, (s.entry n).line = l → (s.entry n).state = .live ∨ (s.entry n).state = .mute →
        n ∈ u.rep.pendingCells) ∧
      (∀ n, (s.entry n).line = l → (s.entry n).holdPending = false ∨ (s.entry n).busy = true ∨ ¬ waits n →
        ((s.entry n).state = .live ∨ (s.entry n).state = .mute → u.entry n = { s.entry n with
          state := .joining, quietDeadline := none, dueTime := s.tb.now, latch := false }) ∧
        ((s.entry n).state = .joining → u.entry n = { s.entry n with dueTime := s.tb.now, latch := false }) ∧
        ((s.entry n).state = .held → u.entry n = { s.entry n with latch := false })))

/-! ### Lines -/

/-- The end of a call's last stop bit (R73, R72, R82, R66): the receiver is enabled by the level RXD showed at that
moment (R52; `receiverAfter`, LineLevelsTaken; a change at that very moment counts, log 29, DESIGN CHOICE), the space
run starts if RXD shows space; what RXD changed since that moment has its effect. Then AWAITING for a POLL, ORDER or
FETCH with an empty buffer, RESTING for 4 character times after a BROADCAST, WINDOW with slot 0 starting after a window
call. Before its moment nothing happens (log 1).
The pins of a line (R50, R51): DE is asserted while a call is being sent; TXD shows one bit time of mark and then the
characters back to back, each a start bit at space, eight data bits with the least significant first, the mark bit and
a stop bit at mark; at rest TXD shows mark and DE is deasserted. A halt that cuts a call off lets the bit in progress
end, then TXD shows mark, and then DE is deasserted (R94; how long after is open, log 32). That DE stays asserted until
a late CALL_SENT is taken is the model's choice (log 38, DESIGN CHOICE).
Line time (R51): the bit time of each rate code is the reciprocal of its rate, in units of 1/28.8 GHz, and a character
is eleven bit times; a REFCLK period of 25 MHz (R181) is 1152 of these units. The unit is log 13, DESIGN CHOICE. -/
def Obligations.CallSentTaken : Prop :=
  (∀ (c : Fin 8) (r : Nat), [9600, 19200, 38400, 57600, 115200, 230400, 460800, 921600][c.val]? = some r →
    bitTime c * r = 28800000000 ∧ bitTime c = 2 * halfBit c ∧ charTime c = 11 * bitTime c) ∧
  (∀ s : State, s.moment = 1152 * s.tb.elapsed ∧ (passRefclk s).moment = s.moment + 1152) ∧
  (∀ (l : Fin 4) (s : State),
    let e := s.engine l
    let bit := bitTime e.rateCode
    let k := (s.moment - e.since) / bit
    let stop := e.since + (s.moment - e.since + bit - 1) / bit * bit
    (e.lineState = .sending → s.deAsserted l = true ∧ (k = 0 → s.txdLevel l = true) ∧
      (∀ c, k ≠ 0 → e.frame[(k - 1) / 11]? = some c → s.txdLevel l =
        let b := (k - 1) % 11
        if b = 0 then false else if b ≤ 8 then c.value.getLsbD (b - 1) else if b = 9 then c.mark else true) ∧
      (k ≠ 0 → e.frame.length ≤ (k - 1) / 11 → s.txdLevel l = true)) ∧
    (e.lineState ≠ .sending → e.lineState ≠ .off ∨ e.cut = none →
      s.deAsserted l = false ∧ s.txdLevel l = true) ∧
    (∀ (why : HaltReason) (a : Addr) (st : Structure) (d : Direction) (t : State),
      t.eng = (enterHalted why a st d s).eng →
      (e.lineState = .sending → t.txdLevel l = (s.txdLevel l || decide (stop ≤ t.moment)) ∧
        (t.moment ≤ stop → t.deAsserted l = true) ∧
        (stop + Config.markBeforeRelease < t.moment → t.deAsserted l = false)) ∧
      (e.lineState ≠ .sending → t.txdLevel l = true ∧ t.deAsserted l = false))) ∧
  ∀ (l : Fin 4) (s : State), s.active = true → (s.engine l).lineState = .sending →
    let e := s.engine l
    let stop := e.since + (bitTime e.rateCode + e.frame.length * charTime e.rateCode)
    let later := e.edges.filter (stop < ·)
    let enabled := receiverAfter (s.rxd l ^^ decide (later.length % 2 = 1)) later
    (s.moment < stop → exec (.callSent l) s = .next s) ∧
    (stop ≤ s.moment → ∃ t, exec (.callSent l) s = .next t ∧ Frame [.eng] s t ∧ s.OtherEnginesKept t l ∧
      (t.engine l).op = e.op ∧ (t.engine l).attempt = e.attempt ∧ (t.engine l).counters = e.counters ∧
      (t.engine l).since = stop ∧ t.deAsserted l = false ∧
      (t.engine l).receiver = enabled.1 ∧ (t.engine l).edges = enabled.2 ∧
      (t.engine l).spaceRun = (if s.rxd l then none else some (later.getLast?.getD stop)) ∧
      (∀ k n a q p, e.op = some (.call k n a q p) →
        (t.engine l).lineState = .awaiting ∧ (t.engine l).answerBuf = []) ∧
      (∀ p, e.op = some (.broadcast p) → (t.engine l).lineState = .resting ∧ (t.engine l).restLength = 4) ∧
      (e.op = some .window → (t.engine l).lineState = .window ∧ (t.engine l).windowFrom = stop))

/-- A character outside an answer and a window (R86, R81): in SETTLING, IDLE, STUCK and RESTING it is stray: counted
and discarded. A character is delivered at the middle of its stop bit, with the value and the mark bit that were
sampled from RXD (R52); before that moment, and for any other value, nothing happens (log 1). From the middle of the
stop bit on the receiver looks for the next character by the level sampled there (`Engine.resume`, LineLevelsTaken);
that it does so from there and not from the end of the stop bit is the model's choice (log 28, DESIGN CHOICE), and so
is the level of a sample at a change (log 29). That a character begun in a window's last slot is stray in IDLE too is
log 38 (DESIGN CHOICE). -/
def Obligations.StrayCharacterTaken : Prop :=
  ∀ (l : Fin 4) (v : Byte) (m : Bool) (start : Nat) (s : State), s.active = true →
    (s.engine l).receiver = .receiving start →
    let e := s.engine l
    (s.moment < start + 21 * halfBit e.rateCode → exec (.characterDelivered l v m) s = .next s) ∧
    (e.character start ≠ ⟨v, m⟩ → exec (.characterDelivered l v m) s = .next s) ∧
    (start + 21 * halfBit e.rateCode ≤ s.moment → e.character start = ⟨v, m⟩ →
      e.lineState = .settling ∨ e.lineState = .idle ∨ e.lineState = .stuck ∨
        e.lineState = .resting ∧ e.windowFrom + 2 * e.slots.length * charTime e.rateCode ≤ start →
      ∃ u, exec (.characterDelivered l v m) s = .next (settle u) ∧ Frame [.eng] s u ∧ s.OtherEnginesKept u l ∧
        u.engine l = { e.resume (start + 21 * halfBit e.rateCode) (e.sample start 10) with
          counters := { e.counters with strayCharacters := e.counters.strayCharacters + 1 } })

/-- A character of an answer (R74, R76, R77): the first makes the engine RECEIVING; each joins the buffer; a length
above 32 makes the engine drain, up to 37 characters, and then the outcome is BAD_LENGTH; the character that completes
the answer has it judged, with the rest counted from its end.
The judging of a complete answer (R77, R185): check word, then the echo, then the status code, then for an ORDER the
sequence echo; the first test that fails decides. That it is judged at the delivery of its last character is log 13.
That a character which started past its limit is taken so where it comes before the limit's row is log 38 (DESIGN
CHOICE). The receiver's state after a delivery (`Engine.resume`, LineLevelsTaken) is the model's choice in two points:
it looks for the next character from the middle of the stop bit on (log 28, DESIGN CHOICE), and a change of RXD at the
very moment of a sample counts (log 29, DESIGN CHOICE). -/
def Obligations.AnswerCharacterTaken : Prop :=
  (∀ (l : Fin 4) (v : Byte) (m : Bool) (start : Nat) (s : State), s.active = true →
     (s.engine l).receiver = .receiving start → start + 21 * halfBit (s.engine l).rateCode ≤ s.moment →
     (s.engine l).character start = ⟨v, m⟩ → (s.engine l).lineState = .awaiting ∨ (s.engine l).lineState = .receiving →
     let e := s.engine l
     let stop := start + 11 * bitTime e.rateCode
     let buf := e.answerBuf ++ [v]
     let k := e.taken + 1
     let hunts : Engine := e.resume (start + 21 * halfBit e.rateCode) (e.sample start 10)
     let taken : Engine := { hunts with
       lineState := .receiving, answerBuf := buf, taken := k, since := stop, limitPassed := false }
     let drained : Engine := { hunts with taken := k, since := stop, limitPassed := false }
     (e.draining = false → k < 3 ∨ k ≠ 5 + (byteAt buf 2).toNat ∧ ¬ (k = 3 ∧ 32 < v.toNat) →
       exec (.characterDelivered l v m) s = .next (settle (s.setEngine l taken))) ∧
     (e.draining = false → k = 3 → 32 < v.toNat →
       exec (.characterDelivered l v m) s = .next (settle (s.setEngine l { taken with draining := true }))) ∧
     (∀ kind n a q p, e.draining = false → 5 ≤ k → k = 5 + (byteAt buf 2).toNat → e.op = some (.call kind n a q p) →
       let o := judgeAnswer kind a q buf
       let kept := if o = .good ∨ o = .busy ∨ o = .refused then
           some (byteAt buf 1, (buf.drop 3).take (byteAt buf 2).toNat) else e.kept
       exec (.characterDelivered l v m) s =
         .next (settle (endAttempt l o stop (s.setEngine l { taken with kept := kept })))) ∧
     (e.draining = true → k < 37 →
       exec (.characterDelivered l v m) s = .next (settle (s.setEngine l drained))) ∧
     (e.draining = true → 37 ≤ k → exec (.characterDelivered l v m) s =
       .next (settle (endAttempt l .badLength stop (s.setEngine l drained))))) ∧
  (∀ (k : CallKind) (a : Byte) (q : Bool) (covered : List Byte) (c1 c2 : Byte), 3 ≤ covered.length →
     let buf := covered ++ [c1, c2]
     let status := byteAt covered 1
     let passes := checkBytes covered = [c1, c2]
     let echo := k = .order → status.getLsbD 3 = q
     (¬ passes → judgeAnswer k a q buf = .checkError) ∧
     (passes → byteAt covered 0 ≠ a → judgeAnswer k a q buf = .wrongStation) ∧
     (passes → byteAt covered 0 = a → status &&& 3 = 3 → judgeAnswer k a q buf = .badStatus) ∧
     (passes → byteAt covered 0 = a → status &&& 3 ≠ 3 → ¬ echo → judgeAnswer k a q buf = .seqError) ∧
     (passes → byteAt covered 0 = a → echo → (status &&& 3 = 0 → judgeAnswer k a q buf = .good) ∧
       (status &&& 3 = 1 → judgeAnswer k a q buf = .busy) ∧ (status &&& 3 = 2 → judgeAnswer k a q buf = .refused)))

/-- A character in a window (R85, R67, R66): the first one of its slot with the slot's own address is a mark, reported
unless the slot is void; any other first one, and every later one of the slot, is garbled; past the last slot it is
stray. A character that started in the last slot and is delivered in the rest that follows is taken the same way (R86).
A reported mark (R17, R16): a VACANT or LEAVING entry ignores it; a JOINING, LIVE, MUTE or HELD one sets a clear latch,
its index joining its line's fetch queue; a LIVE one with RELOAD_MARK also reloads its quiet timer (R13). At a
hold-pending entry the mark does the same, and R39 is then looked at (`settleHold`, CallEndPassedOn; log 16). The
receiver's state after a delivery (`Engine.resume`, LineLevelsTaken) is the model's choice in two points: it looks for
the next character from the middle of the stop bit on (log 28, DESIGN CHOICE), and a change of RXD at the very moment of
a sample counts (log 29, DESIGN CHOICE). -/
def Obligations.AttentionMarkTaken : Prop :=
  (∀ (l : Fin 4) (v : Byte) (m : Bool) (start : Nat) (s : State), s.active = true →
     (s.engine l).receiver = .receiving start → start + 21 * halfBit (s.engine l).rateCode ≤ s.moment →
     (s.engine l).character start = ⟨v, m⟩ → (s.engine l).lineState = .window ∨ (s.engine l).lineState = .resting ∧
       start < (s.engine l).windowFrom +
         2 * (s.engine l).slots.length * charTime (s.engine l).rateCode →
     let e := s.engine l
     let k := (start - e.windowFrom) / (2 * charTime e.rateCode)
     let hunts : Engine := e.resume (start + 21 * halfBit e.rateCode) (e.sample start 10)
     let garbled : Counters := { e.counters with garbledMarks := e.counters.garbledMarks + 1 }
     (e.slots[k]? = none → exec (.characterDelivered l v m) s = .next (settle (s.setEngine l { hunts with
       counters := { e.counters with strayCharacters := e.counters.strayCharacters + 1 } }))) ∧
     (∀ r, e.slots[k]? = some r →
       let seen := e.slots.set k { r with seen := true }
       (r.seen = true → exec (.characterDelivered l v m) s =
         .next (settle (s.setEngine l { hunts with counters := garbled }))) ∧
       (r.seen = false → v ≠ r.address → exec (.characterDelivered l v m) s =
         .next (settle (s.setEngine l { hunts with slots := seen, counters := garbled }))) ∧
       (r.seen = false → v = r.address → r.void = true → exec (.characterDelivered l v m) s =
         .next (settle (s.setEngine l { hunts with slots := seen }))) ∧
       (r.seen = false → v = r.address → r.void = false → exec (.characterDelivered l v m) s =
         .next (settle (takeMark r.entry (s.setEngine l { hunts with slots := seen })))))) ∧
  (∀ (n : Fin 64) (s : State),
     let e := s.entry n
     (e.state = .vacant ∨ e.state = .leaving → takeMark n s = s) ∧
     (e.state ≠ .vacant → e.state ≠ .leaving → ∃ u, takeMark n s = settleHold n u ∧
       (e.holdPending = false → takeMark n s = u) ∧
       Frame [.entries, .sched] s u ∧ s.OtherEntriesKept u n ∧ s.OtherSchedsKept u e.line ∧
       u.entry n = { e with
         latch := true,
         quietDeadline := if e.state = .live ∧ e.options.reloadMark = true ∧ e.quietLimit ≠ 0 then
           some (s.tb.now + e.quietLimit) else e.quietDeadline } ∧
       u.scheduler e.line = { s.scheduler e.line with
         fetchQueue := if e.latch then (s.scheduler e.line).fetchQueue
                       else (s.scheduler e.line).fetchQueue ++ [n] }))

/-- The two limits of an attempt (R75, R76): when the turnaround limit runs out with no character begun in time the
attempt ends SILENT; a gap of more than 3 character times ends it TRUNCATED, or BAD_LENGTH when draining; while a start
that came in time is being confirmed the engine waits, and a character that begins after the limit does not change the
outcome. Before their moments nothing happens (log 1). -/
def Obligations.AnswerLimitsTaken : Prop :=
  ∀ (l : Fin 4) (s : State), s.active = true → (s.engine l).limitPassed = false →
    let e := s.engine l
    let turn := e.since + e.turnaround * charTime e.rateCode
    let gap := e.since + 3 * charTime e.rateCode
    let waits := s.setEngine l { e with limitPassed := true }
    let cut := if e.draining then CallOutcome.badLength else .truncated
    (e.lineState = .awaiting →
      (s.moment < turn → exec (.turnaroundLimit l) s = .next s) ∧
      (turn ≤ s.moment →
        (e.receiver = .hunting ∨ e.receiver = .waitMark →
          exec (.turnaroundLimit l) s = .next (settle (endAttempt l .silent turn s))) ∧
        (∀ st, e.receiver = .confirming st →
          (st < turn → exec (.turnaroundLimit l) s = .next (settle waits)) ∧
          (turn ≤ st → exec (.turnaroundLimit l) s = .next (settle (endAttempt l .silent turn s)))) ∧
        (∀ st, e.receiver = .receiving st →
          (st < turn → exec (.turnaroundLimit l) s = .next (settle s)) ∧
          (turn ≤ st → exec (.turnaroundLimit l) s = .next (settle (endAttempt l .silent turn s)))))) ∧
    (e.lineState = .receiving →
      (s.moment ≤ gap → exec (.answerGapLimit l) s = .next s) ∧
      (gap < s.moment →
        (e.receiver = .hunting ∨ e.receiver = .waitMark →
          exec (.answerGapLimit l) s = .next (settle (endAttempt l cut gap s))) ∧
        (∀ st, e.receiver = .confirming st →
          (st ≤ gap → exec (.answerGapLimit l) s = .next (settle waits)) ∧
          (gap < st → exec (.answerGapLimit l) s = .next (settle (endAttempt l cut gap s)))) ∧
        (∀ st, e.receiver = .receiving st →
          (st ≤ gap → exec (.answerGapLimit l) s = .next (settle s)) ∧
          (gap < st → exec (.answerGapLimit l) s = .next (settle (endAttempt l cut gap s))))))

/-- The end of an attempt (R79, R78, R77): the engine rests for 2 character times and counts the outcome; after a
retried outcome with attempts left the call goes on; otherwise the operation ends and its outcome, the attempts made
and, for a good answer, the kept answer are reported (R80). -/
def Obligations.AttemptEnds : Prop :=
  ∀ (l : Fin 4) (o : CallOutcome) (start : Nat) (s : State),
    let e := s.engine l
    let retried := o ≠ .good ∧ o ≠ .refused ∧ o ≠ .lineStuck
    let c := e.counters
    let counted : Counters := { c with
      failedAttempts := if o = .good ∨ o = .busy ∨ o = .refused then c.failedAttempts else c.failedAttempts + 1,
      checkErrors := if o = .checkError then c.checkErrors + 1 else c.checkErrors }
    let rests : Engine := { e with
      counters := counted, lineState := .resting, restLength := 2, since := start, limitPassed := false,
      draining := false, answerBuf := [], taken := 0, lastOutcome := some o }
    let answer := if o = .good ∨ o = .busy ∨ o = .refused then e.kept else none
    (retried → e.attempt < 1 + e.retryLimit → endAttempt l o start s = s.setEngine l rests) ∧
    (¬ retried ∨ 1 + e.retryLimit ≤ e.attempt → endAttempt l o start s =
      callEnded l o e.attempt answer (s.setEngine l { rests with op := none }))

/-- The end of a call on the wire (R45, R80, R133, R32, R21): the Station Table takes the outcome (`applyOutcome`,
CallOutcomeTaken), an ORDER's job completes with the result of R80 and, for a good answer, its status and payload, and
hold pending is checked; a poll's due time goes on by the period of the state after the outcome, or from now when that
is already reached, unless it was set during the poll. That the ORDER completes before the hold is checked is log 8;
that the LEFT notice takes the place a FETCH releases before a waiting line can is log 36 (DESIGN CHOICE). A LEAVING
entry takes no outcome (R21): an ORDER completes with its true result, a FETCH's reservation is released; then the
entry is VACANT, with its LEFT notice and cell write, and the DELIST that waits completes OK.
The check of hold pending (R23, R39): with a call on the wire, or with an ORDER queued and no pending fetch, nothing;
with an ORDER queued behind a pending fetch those ORDERs leave the queue WRONG_STATE, and the Schedulers change in
nothing else, the fetch staying queued (R39, R35; `OrdersGone`); with none queued, then, the entry is HELD with a cell
write, and the HOLD that waits completes OK. -/
def Obligations.CallEndPassedOn : Prop :=
  (∀ (l : Fin 4) (n : Fin 64) (o : CallOutcome) (attempts : Nat) (answer : Option (Byte × List Byte)) (s : State),
    let e := s.entry n
    let u := callEnded l o attempts answer s
    let w := s.setSched l { s.scheduler l with inFlight := none }
    let result : JobResult := match o with
      | .good => .ok
      | .silent => .noAnswer
      | .busy => .stationBusy
      | .refused => .refused
      | .lineStuck => .lineStuck
      | _ => .badAnswer
    let ended : JobEnd := ⟨result, attempts, (answer.map (·.1)).getD 0, (answer.map (·.2)).getD []⟩
    (∀ i j, (s.scheduler l).inFlight = some (.order n i) → s.slot i = some j → j.kindOf = some .order →
      j.state = .onWire → (u.scheduler l).inFlight = none ∧ u.completedWith i j ended) ∧
    ((s.scheduler l).inFlight = some (.poll n false) → e.state = .live ∨ e.state = .joining ∨ e.state = .mute →
      e.holdPending = false →
      let live := e.state = .live ∨ o = .good ∨ o = .busy ∨ o = .refused
      let period := if live then e.pollPeriod else (s.scheduler e.line).searchPeriod
      let due := e.dueTime + period
      (u.scheduler l).inFlight = none ∧ (u.entry n).busy = false ∧
        (u.entry n).dueTime = (if (s.tb.now - due).toNat < 2 ^ 31 then s.tb.now + period else due)) ∧
    (e.state ≠ .leaving →
      (∀ i, (s.scheduler l).inFlight = some (.order n i) →
        u = settleHold n (completeJob i ended (applyOutcome n .order o answer w))) ∧
      ((s.scheduler l).inFlight = some (.fetch n) → u = settleHold n (applyOutcome n .fetch o answer w)) ∧
      (∀ set, (s.scheduler l).inFlight = some (.poll n set) →
        let v := settleHold n (applyOutcome n .poll o answer w)
        let f := v.entry n
        let next := fun (period : Word) =>
          let due := f.dueTime + period
          v.setEntry n { f with dueTime := if (s.tb.now - due).toNat < 2 ^ 31 then s.tb.now + period else due }
        (set = true ∨ f.state = .held ∨ f.state = .vacant → u = v) ∧
        (set = false → f.state = .live → u = next f.pollPeriod) ∧
        (set = false → f.state = .joining ∨ f.state = .mute → u = next (v.scheduler f.line).searchPeriod))) ∧
    (e.state = .leaving →
      (∀ set, (s.scheduler l).inFlight = some (.poll n set) → u = leave n w ∧ u.entry n = Entry.vacant) ∧
      (∀ i, (s.scheduler l).inFlight = some (.order n i) → u = leave n (completeJob i ended w)) ∧
      ((s.scheduler l).inFlight = some (.fetch n) → u = leave n (w.setReserved l false)))) ∧
  (∀ (n : Fin 64) (s : State),
    let e := s.entry n
    let u := leave n s
    Frame [.entries, .ntc, .cells, .slots] s u ∧ u.entry n = Entry.vacant ∧ s.OtherEntriesKept u n ∧ s.AsksCell u n ∧
    s.AsksNotice u { kind := .left, entry := some n, line := some e.line, address := e.address, time := s.tb.now,
                     count := e.failures.setWidth 32, payload := [] } ∧
    (∀ i j, s.slot i = some j → s.waitsFor .delist n i = true → (∀ k, s.waitsFor .delist n k = true → k = i) →
      u.completedWith i j ⟨.ok, 0, 0, []⟩)) ∧
  (∀ (n : Fin 64) (s : State),
    let e := s.entry n
    let u := settleHold n s
    let orders := ∃ k jk, k ∈ (s.scheduler e.line).orderQueue ∧ s.slot k = some jk ∧ jk.kindOf = some .order ∧
      targetEntry jk.target = some n
    let fetch := e.latch = true ∧ n ∈ (s.scheduler e.line).fetchQueue
    (e.holdPending = false ∨ e.busy = true ∨ orders ∧ ¬ fetch → u = s) ∧
    (e.holdPending = true → e.busy = false → ¬ orders ∨ fetch →
      Frame [.entries, .cells, .slots, .sched] s u ∧ s.OtherEntriesKept u n ∧ s.AsksCell u n ∧
      u.entry n = { e with state := .held, holdPending := false, quietDeadline := none } ∧
      (¬ orders → u.sched = s.sched) ∧ (orders → s.OrdersGone u e.line n) ∧
      (∀ i j, s.slot i = some j → s.waitsFor .hold n i = true → (∀ k, s.waitsFor .hold n k = true → k = i) →
        u.completedWith i j ⟨.ok, 0, 0, []⟩) ∧
      (∀ k jk, k ∈ (s.scheduler e.line).orderQueue → s.slot k = some jk → jk.state = .queued →
        jk.kindOf = some .order → targetEntry jk.target = some n →
        u.completedWith k jk ⟨.wrongState, 0, 0, []⟩ ∧ k ∉ (u.scheduler e.line).orderQueue))) ∧
  (∀ (k : JobKind) (n : Fin 64) (i : Fin 16) (s : State), s.waitsFor k n i = true ↔
    ∃ j, s.slot i = some j ∧ j.state = .waiting ∧ j.kindOf = some k ∧ targetEntry j.target = some n)

/-- A call outcome at its entry (R5 to R10, R18, R19): a good answer counts, is stored, clears the failures and makes a
JOINING or MUTE entry LIVE with its notice and cell; a failed POLL counts, saturating, and asks for the cell (a failed
call brings no answer, R80). A good answer that carries the attention flag then sets a clear latch of an entry that is
JOINING, LIVE or MUTE, whose index joins the tail of its line's fetch queue (R16).
The end of a FETCH at its entry (R18, R157, R13): the latch is cleared, before the answer's own flag is looked at; a
GOOD answer fills the line's reservation with an ATTENTION notice carrying the payload, any other outcome releases it; a
JOINED or RESTORED notice is asked for before, also where the reservation is only released (log 31). -/
def Obligations.CallOutcomeTaken : Prop :=
  let flagged := fun (n : Fin 64) (status : Byte) (v u : State) =>
    let e := v.entry n
    let sets := status.getLsbD 2 = true ∧ e.latch = false ∧ (e.state = .joining ∨ e.state = .live ∨ e.state = .mute)
    (¬ sets → u = v) ∧
    (sets → u = (v.setEntry n { e with latch := true }).setSched e.line
      { v.scheduler e.line with fetchQueue := (v.scheduler e.line).fetchQueue ++ [n] })
  (∀ (n : Fin 64) (k : CallKind) (o : CallOutcome) (status : Byte) (payload : List Byte) (s : State),
     k ≠ .fetch →
     let e := s.entry n
     let good := o = .good ∨ o = .busy ∨ o = .refused
     let u := applyOutcome n k o (some (status, payload)) s
     let stored : Entry := { e with
       busy := false, answers := e.answers + 1, lastHeard := s.tb.now, lastStatus := status, failures := 0,
       seqBit := if k = .order ∧ o ≠ .busy then !e.seqBit else e.seqBit,
       lastPayload := if k = .poll ∧ o = .good then payload else e.lastPayload }
     let loaded := if e.quietLimit = 0 then e.quietDeadline else some (s.tb.now + e.quietLimit)
     let notice := fun (kind : NoticeKind) (p : List Byte) => ({
       kind := kind, entry := some n, line := some e.line, address := e.address, time := s.tb.now, count := 0,
       payload := p } : Notice)
     let reading := if k = .poll ∧ o = .good then payload else []
     (good → e.state = .joining ∨ e.state = .mute → ∃ v, flagged n status v u ∧
       Frame [.entries, .ntc, .cells] s v ∧ s.OtherEntriesKept v n ∧ s.AsksCell v n ∧
       v.entry n = { stored with state := .live, quietDeadline := loaded } ∧
       s.AsksNotice v (notice (if e.state = .joining then .joined else .restored) reading)) ∧
     (good → e.state = .live → ∃ v, flagged n status v u ∧
       let reloads := k = .poll ∨ e.options.reloadOrder = true
       let change := k = .poll ∧ o = .good ∧ payload ≠ e.lastPayload
       let asks := change ∨ e.options.refresh = true ∨ e.failures ≠ 0
       Frame [.entries, .ntc, .cells] s v ∧ s.OtherEntriesKept v n ∧
       v.entry n = { stored with quietDeadline := if reloads then loaded else e.quietDeadline } ∧
       (asks → s.AsksCell v n) ∧ (¬ asks → v.rep = s.rep) ∧
       (change ∧ e.options.notify = true → s.AsksNotice v (notice .changed payload)) ∧
       (¬ (change ∧ e.options.notify = true) → v.ntc = s.ntc)) ∧
     (∀ answer : Option (Byte × List Byte), ¬ good → e.state ≠ .vacant → e.state ≠ .leaving →
       let u := applyOutcome n k o answer s
       Frame [.entries, .cells] s u ∧ s.OtherEntriesKept u n ∧
       u.entry n = { e with
         busy := false,
         failures := if k = .poll then (if e.failures = 0xFFFF then e.failures else e.failures + 1) else e.failures } ∧
       (k = .poll → e.state = .joining ∨ e.state = .live ∨ e.state = .mute → s.AsksCell u n) ∧
       (k = .order → u.rep = s.rep))) ∧
  (∀ (n : Fin 64) (o : CallOutcome) (status : Byte) (payload : List Byte) (s : State),
     let e := s.entry n
     let good := o = .good ∨ o = .busy ∨ o = .refused
     let u := applyOutcome n .fetch o (some (status, payload)) s
     let notice := fun (kind : NoticeKind) (p : List Byte) => ({
       kind := kind, entry := some n, line := some e.line, address := e.address, time := s.tb.now, count := 0,
       payload := p } : Notice)
     let freed := s.ntc.reserved.set e.line.val false
     s.reserved e.line = true →
     (good → e.state = .joining ∨ e.state = .live ∨ e.state = .mute → ∃ v, flagged n status v u ∧
       let asked := match e.state with
         | .joining => (requestNotice (notice .joined []) s).ntc
         | .mute => (requestNotice (notice .restored []) s).ntc
         | _ => s.ntc
       Frame [.entries, .ntc, .cells] s v ∧ s.OtherEntriesKept v n ∧
       v.entry n = { e with
         state := .live, busy := false, latch := false, answers := e.answers + 1, lastHeard := s.tb.now,
         lastStatus := status, failures := 0,
         quietDeadline := if e.quietLimit = 0 then e.quietDeadline else some (s.tb.now + e.quietLimit) } ∧
       (e.state ≠ .live ∨ e.options.refresh = true ∨ e.failures ≠ 0 → s.AsksCell v n) ∧
       (e.state = .live → e.options.refresh = false → e.failures = 0 → v.rep = s.rep) ∧
       v.ntc = { asked with
         reserved := freed, held := if o = .good then asked.held ++ [notice .attention payload] else asked.held }) ∧
     (∀ answer : Option (Byte × List Byte), ¬ good → e.state ≠ .vacant → e.state ≠ .leaving →
       let u := applyOutcome n .fetch o answer s
       Frame [.entries, .ntc] s u ∧ s.OtherEntriesKept u n ∧
       u.entry n = { e with busy := false, latch := false } ∧ u.ntc = { s.ntc with reserved := freed }))

/-- The end of the rest and of a window (R81, R82, R87, R49, R47): a call that goes on sends its next attempt; a
BROADCAST is reported and its job completes OK with attempts used 1; otherwise the engine is IDLE. A window is reported
ended, its rotation pointer and due time go on, and the engine rests 2 character times. Before their moments nothing
happens (log 1); the sending is timed from the moment the command is taken, which is the model's choice (log 37, DESIGN
CHOICE). That IDLE holds attempt number 0 and no last outcome is the model's deduction from the example of section 4.4
(log 21). -/
def Obligations.RestAndWindowEnd : Prop :=
  ∀ (l : Fin 4) (s : State), s.active = true →
    let e := s.engine l
    let finish := e.since + e.restLength * charTime e.rateCode
    let last := e.windowFrom + 2 * e.slots.length * charTime e.rateCode
    let idle : Engine := { e with lineState := .idle, attempt := 0, lastOutcome := none }
    (e.lineState = .resting → s.moment < finish → exec (.restEnd l) s = .next s) ∧
    (e.lineState = .resting → finish ≤ s.moment →
      (∀ k n a q p, e.op = some (.call k n a q p) → exec (.restEnd l) s = .next (settle (s.setEngine l
        { e with lineState := .sending, since := s.moment, receiver := .disabled, edges := [], spaceRun := none,
                 limitPassed := false, attempt := e.attempt + 1 }))) ∧
      (e.op = none → exec (.restEnd l) s = .next (settle (s.setEngine l idle))) ∧
      (∀ p i j, e.op = some (.broadcast p) → (s.scheduler l).inFlight = some (.broadcast i) → s.slot i = some j →
        j.state = .onWire → ∃ u, exec (.restEnd l) s = .next (settle u) ∧ Frame [.eng, .sched, .slots] s u ∧
          u.engine l = { idle with op := none } ∧ (u.scheduler l).inFlight = none ∧
          u.completedWith i j ⟨.ok, 1, 0, []⟩ ∧ s.OthersKept u i)) ∧
    (e.lineState = .window → s.moment < last → exec (.windowEnd l) s = .next s) ∧
    (∀ ws w, e.lineState = .window → last ≤ s.moment → (s.scheduler l).inFlight = some (.window (ws ++ [w])) →
      let q := s.scheduler l
      ∃ u, exec (.windowEnd l) s = .next (settle u) ∧ Frame [.eng, .sched] s u ∧ s.OtherEnginesKept u l ∧
        s.OtherSchedsKept u l ∧ (u.engine l).lineState = .resting ∧ (u.engine l).restLength = 2 ∧
        (u.engine l).since = last ∧ (u.engine l).op = none ∧ (u.engine l).counters = e.counters ∧
        u.scheduler l = { q with
          inFlight := none, rotation := if w = 254 then 1 else w + 1,
          windowDue := q.windowDue.map (fun t => if (s.tb.now - (t + q.windowInterval)).toNat < 2 ^ 31
            then s.tb.now + q.windowInterval else t + q.windowInterval) })

/-- SETTLING and STUCK (R70, R90, R88): a mark run of 10 character times ends SETTLING, and STUCK with a LINE_RECOVERED
notice; a space run of 20 makes the line STUCK with a LINE_STUCK notice, an attempt in progress counting as failed and
its call ending LINE_STUCK; a call resting between two attempts ends LINE_STUCK without a further failed attempt; a
window ends, its rotation pointer and due time going on; the mark run starts if RXD shows mark (R72), and settings,
receiver and space run stand. In the rest of a BROADCAST a line is not found stuck (R82, log 15). Before their moments
nothing happens (log 1). That IDLE holds
attempt number 0 and no last outcome is the model's deduction from the example of section 4.4 (log 21). -/
def Obligations.LineSettlesAndSticks : Prop :=
  ∀ (l : Fin 4) (r : Nat) (s : State), s.active = true →
    let e := s.engine l
    let idle : Engine := { e with lineState := .idle, attempt := 0, lastOutcome := none }
    let stuck : Engine := { e with
      lineState := .stuck, op := none, slots := [], limitPassed := false, draining := false, answerBuf := [], taken := 0,
      markRun := if s.rxd l then some s.moment else none,
      counters := { e.counters with stuckEvents := e.counters.stuckEvents + 1 } }
    let cut : Engine := { stuck with
      lastOutcome := some .lineStuck,
      counters := { stuck.counters with failedAttempts := e.counters.failedAttempts + 1 } }
    (e.markRun = some r →
      (e.lineState = .settling → s.moment < r + 10 * charTime e.rateCode → exec (.settlingEnd l) s = .next s) ∧
      (e.lineState = .settling → r + 10 * charTime e.rateCode ≤ s.moment →
        exec (.settlingEnd l) s = .next (settle (s.setEngine l idle))) ∧
      (e.lineState = .stuck → s.moment < r + 10 * charTime e.rateCode → exec (.lineRecovered l) s = .next s) ∧
      (e.lineState = .stuck → r + 10 * charTime e.rateCode ≤ s.moment →
        exec (.lineRecovered l) s = .next (settle (requestNotice
          { kind := .lineRecovered, entry := none, line := some l, address := 0, time := s.tb.now, count := 0,
            payload := [] } (s.setEngine l idle))))) ∧
    (∀ p, e.op = some (.broadcast p) → e.lineState = .resting → exec (.lineFoundStuck l) s = .next s) ∧
    (e.spaceRun = some r →
      (s.moment < r + 20 * charTime e.rateCode → exec (.lineFoundStuck l) s = .next s) ∧
      (r + 20 * charTime e.rateCode ≤ s.moment →
        (e.op = none → e.lineState = .settling ∨ e.lineState = .idle ∨ e.lineState = .resting →
          ∃ u, exec (.lineFoundStuck l) s = .next (settle u) ∧ Frame [.eng, .ntc] s u ∧ s.OtherEnginesKept u l ∧
            u.engine l = stuck ∧
            s.AsksNotice u { kind := .lineStuck, entry := none, line := some l, address := 0, time := s.tb.now,
                             count := 0, payload := [] }) ∧
        (∀ k n a q p, e.op = some (.call k n a q p) → e.lineState = .awaiting ∨ e.lineState = .receiving →
          ∃ v, exec (.lineFoundStuck l) s = .next (settle (callEnded l .lineStuck e.attempt none v)) ∧
            Frame [.eng, .ntc] s v ∧ s.OtherEnginesKept v l ∧ v.engine l = cut ∧
            s.AsksNotice v { kind := .lineStuck, entry := some n, line := some l, address := a, time := s.tb.now,
                             count := 0, payload := [] }) ∧
        (∀ k n a q p, e.op = some (.call k n a q p) → e.lineState = .resting →
          ∃ v, exec (.lineFoundStuck l) s = .next (settle (callEnded l .lineStuck e.attempt none v)) ∧
            Frame [.eng, .ntc] s v ∧ s.OtherEnginesKept v l ∧ v.engine l = stuck ∧
            s.AsksNotice v { kind := .lineStuck, entry := some n, line := some l, address := a, time := s.tb.now,
                             count := 0, payload := [] }) ∧
        (∀ ws w, e.op = some .window → e.lineState = .window →
          (s.scheduler l).inFlight = some (.window (ws ++ [w])) →
          let q := s.scheduler l
          ∃ u, exec (.lineFoundStuck l) s = .next (settle u) ∧ Frame [.eng, .sched, .ntc] s u ∧
            s.OtherEnginesKept u l ∧ s.OtherSchedsKept u l ∧ u.engine l = stuck ∧
            u.scheduler l = { q with
              inFlight := none, rotation := if w = 254 then 1 else w + 1,
              windowDue := q.windowDue.map (fun t => if (s.tb.now - (t + q.windowInterval)).toNat < 2 ^ 31
                then s.tb.now + q.windowInterval else t + q.windowInterval) } ∧
            s.AsksNotice u { kind := .lineStuck, entry := none, line := some l, address := 0, time := s.tb.now,
                             count := 0, payload := [] })))

/-- The level of RXD (R72, R52): every change moves the pin; outside OFF it starts the run of the new level and ends the
other, the space run standing still in SENDING, and a change to space starts a start-bit check in a hunting receiver.
The level changes after the start, and those during a call, are kept. A sample is the level of RXD at its moment, which
each change since the start of the character turned from the space of the start, whenever the event is taken: bit 0 half
a bit time after the start, then the eight data bits, the least significant first, the mark bit and the stop bit (R52; a
change at the very moment of a sample counts, log 29, DESIGN CHOICE).
A start sampled at space begins a character; one at mark is a glitch, from whose sample on the receiver hunts, so that a
later change to space starts another check. With a limit already run out, a glitch ends the attempt at that limit,
SILENT in AWAITING (R75), TRUNCATED or, draining, BAD_LENGTH in RECEIVING (R76), unless another start in time is being
checked. -/
def Obligations.LineLevelsTaken : Prop :=
  (∀ (e : Engine) (start : Nat),
    let level := fun (k : Nat) =>
      (e.edges.filter (· ≤ start + (2 * k + 1) * halfBit e.rateCode)).length % 2 = 1
    (∀ i, i < 8 → ((e.character start).value.getLsbD i = true ↔ level (i + 1))) ∧
    ((e.character start).mark = true ↔ level 9) ∧ ∀ k, e.sample start k = true ↔ level k) ∧
  (∀ (t : Nat) (rest : List Nat), receiverAfter true [] = (.hunting, []) ∧ receiverAfter false [] = (.waitMark, []) ∧
    receiverAfter true (t :: rest) = (.confirming t, rest) ∧
    receiverAfter false (t :: rest) = receiverAfter true rest) ∧
  (∀ (e : Engine) (moment : Nat) (mark : Bool),
    let r := receiverAfter mark (e.edges.filter (moment < ·))
    e.resume moment mark = { e with receiver := r.1, edges := r.2 }) ∧
  ∀ (l : Fin 4) (s : State),
    let e := s.engine l
    let pins : Pins := { s.pins with rxd := s.pins.rxd.set l.val (!s.rxd l) }
    let edges := match e.receiver with
      | .disabled => e.edges ++ [s.moment]
      | .confirming _ => e.edges ++ [s.moment]
      | .receiving _ => e.edges ++ [s.moment]
      | _ => []
    (s.active = false ∨ e.lineState = .off → exec (.rxdLevelChange l) s = .next { s with pins := pins }) ∧
    (s.active = true → e.lineState ≠ .off → ∃ t, exec (.rxdLevelChange l) s = .next t ∧
      Frame [.pins, .eng] s t ∧ t.pins = pins ∧ s.OtherEnginesKept t l ∧
      (s.rxd l = false → t.engine l = { e with
        markRun := some s.moment, spaceRun := none, edges := edges,
        receiver := if e.receiver = .waitMark then .hunting else e.receiver }) ∧
      (s.rxd l = true → t.engine l = { e with
        markRun := none, spaceRun := if e.lineState = .sending then none else some s.moment, edges := edges,
        receiver := if e.receiver = .hunting then .confirming s.moment else e.receiver })) ∧
    (∀ st, s.active = true → e.receiver = .confirming st →
      let sampled := st + halfBit e.rateCode
      let mark := (e.edges.filter (· ≤ sampled)).length % 2 = 1
      let hunts := e.resume sampled true
      let turn := e.since + e.turnaround * charTime e.rateCode
      let gap := e.since + 3 * charTime e.rateCode
      let cut := if e.draining then CallOutcome.badLength else .truncated
      let waits := Host.Outcome.next (settle (s.setEngine l hunts))
      (s.moment < sampled → exec (.startBitConfirmation l) s = .next s) ∧
      (sampled ≤ s.moment → ¬ mark → exec (.startBitConfirmation l) s =
        .next (settle (s.setEngine l { e with receiver := .receiving st, limitPassed := false }))) ∧
      (sampled ≤ s.moment → mark → e.limitPassed = false → exec (.startBitConfirmation l) s = waits) ∧
      (sampled ≤ s.moment → mark → e.limitPassed = true →
        (e.lineState = .awaiting →
          (∀ t, hunts.receiver = .confirming t → t < turn → exec (.startBitConfirmation l) s = waits) ∧
          ((∀ t, hunts.receiver = .confirming t → turn ≤ t) → exec (.startBitConfirmation l) s =
            .next (settle (endAttempt l .silent turn (s.setEngine l hunts))))) ∧
        (e.lineState = .receiving →
          (∀ t, hunts.receiver = .confirming t → t ≤ gap → exec (.startBitConfirmation l) s = waits) ∧
          ((∀ t, hunts.receiver = .confirming t → gap < t) → exec (.startBitConfirmation l) s =
            .next (settle (endAttempt l cut gap (s.setEngine l hunts)))))))

/-! ### What every event ends with, requests to the writers, the check word -/

/-- What every event ends with. An event after which a candidate can apply lets each line choose until no candidate
applies (R40; `LineChooses`: a due window without an eligible entry is passed, then `chooseOnce`, ArbiterChooses).
Where several ask for the last places of the hold buffer, which line asks first is open (R44, R156, log 5). Then, in
RUNNING and STOPPING, the head of the write list is issued (R114), an update of the head of the pending-cell set begins
with its opening write (R145; not between two transitions of one event, log 39, DESIGN CHOICE), and the Notice Writer
issues its next request, a read being wanted once where it has no room (R163, NoticesIssuedInOrder); nothing is issued
in any other state.
A stop moves on in its two steps (R174). The Notice Writer is told to close before a notice of the same event could
begin (R159): that is the model's choice (log 34). It then discards what it holds once it has no write in progress and
no read in flight, publishes the lost total if due and then the dropped count (R164), in which a discarded LOST notice
does not count: that is the model's reading of the example of section 8.8 (log 23, DEDUCED); and the part goes IDLE
with STOPPED and the end-of-stop values of R1, R30, R68, R96, R143 and R154. Until then what an event ends with changes
the port, the cells and the Notice Writer alone.
The Memory Port (R182): with a request in service it takes none; otherwise it takes the waiting request of the first
requester after its pointer in the cyclic order, and the pointer moves to that requester; the other waiting requests
stand. -/
def Obligations.EventEnds : Prop :=
  (∀ s : State,
     let wants := (lines.filter (fun l => s.mayChoose l && !s.windowApplies l && (s.fetchCandidate l).isSome)).length
     let contended := 2 ≤ wants ∧ 8 < s.ntc.held.length + s.reservations + wants
     (∀ l, (s.scheduler l).orderQueue.length ≤ 16) → ∃ l f a b c d,
       LineChooses l { s with freeCount := f } a ∧ LineChooses (l + 1) a b ∧ LineChooses (l + 2) b c ∧
       LineChooses (l + 3) c d ∧ settle s = drain d ∧
       (contended → f = s.freeCount + 1) ∧ (¬ contended → l = 0 ∧ f = s.freeCount)) ∧
  (∀ s : State,
     let issued := fun (r : Request) =>
       (drain s).port.inService = some r ∨ (drain s).port.waiting.get r.who = some r
     let clock := Transfer.write (s.ctl.anchor + 0x94) (leBytes 4 s.tb.now.toNat)
     let lostTotal : Request :=
       { who := .notice, kind := .lostTotalWrite, struct := .status, dir := .write, addr := s.ctl.anchor + 0x8C,
         transfers := [.write (s.ctl.anchor + 0x8C) (leBytes 4 s.ntc.lostTotal.toNat), clock] }
     let droppedAtStop := fun (count : Word) => ({
       who := .notice, kind := .droppedWrite, struct := .status, dir := .write, addr := s.ctl.anchor + 0x90,
       transfers := [.write (s.ctl.anchor + 0x90) (leBytes 4 count.toNat), clock] } : Request)
     let room := (s.ntc.written - s.ntc.taken).toNat < 2 ^ s.ntc.sizeExp
     let toWrite := s.ntc.held ≠ [] ∨ s.ntc.lostAfter = some 0
     let quiet := s.ntc.writing = none ∧ s.port.busyFor .notice = false
     let ended := s.active = true ∧ s.ctl.part = .stopping ∧ s.ntc.closing = true ∧ s.ntc.discarded = true ∧
       s.ntc.lostDue = false ∧ s.ntc.droppedDue = false ∧ s.port.busyFor .notice = false ∧ s.rep.pendingCells = [] ∧
       s.rep.update = none
     (¬ ended → Frame [.port, .cells, .ntc] s (drain s)) ∧
     (s.ctl.part ≠ .stopping →
       Frame [.entries, .sched, .eng, .slots, .cells, .ntc, .port, .free] s (settle s)) ∧
     ((∀ l, s.mayChoose l = false ∧ s.maySetup l = false) → settle s = drain s) ∧
     (s.running = false → settle s = drain s) ∧ (s.active = false → drain s = s.arbitrate) ∧
     (∀ w rest r, s.active = true → s.port.busyFor .jobUnit = false → s.job.writes = w :: rest →
       s.jobRequest w = some r → issued r) ∧
     (∀ n rest a, s.active = true → s.rep.update = none → s.rep.pendingCells = n :: rest → s.rep.tableAddr = some a →
       (drain s).rep.pendingCells = rest ∧
       (drain s).rep.update = some { cell := n, body := cellBody (s.entry n), stage := .opening } ∧
       issued (writeRequest .report .cellOpening .cell (a + BitVec.ofNat 64 (64 * n.val))
         (leBytes 4 (s.rep.editions[n.val] + 1).toNat))) ∧
     (s.active = true → s.ntc.closing = false → s.ctl.part = .running ∨
         ((∃ l, (s.scheduler l).inFlight ≠ none) ∨ s.port.busyFor .follower = true ∨ (∃ i, s.slot i ≠ none) ∨
           s.job.writes ≠ [] ∨ s.rep.pendingCells ≠ [] ∨ s.rep.update ≠ none) →
       (drain s).ntc = (issueNotice (waitForRoom s)).ntc ∧ (drain s).ctl = s.ctl ∧
       ∀ r, (issueNotice (waitForRoom s)).port.waiting.notice = some r → r.who = .notice → issued r) ∧
     (s.active = true → s.ntc.closing = false → s.ntc.writing = none → toWrite → ¬ room →
       s.ntc.waitingRoom = false → waitForRoom s = { s with ntc := { s.ntc with
         waitingRoom := true, readWanted := s.ntc.readWanted || !s.ntc.readInFlight } }) ∧
     (¬ toWrite ∨ room ∨ s.ntc.waitingRoom = true → waitForRoom s = s) ∧
     (s.active = true → s.ctl.part = .stopping → s.ntc.closing = false → (∀ l, (s.scheduler l).inFlight = none) →
       s.port.busyFor .follower = false → (∀ i, s.slot i = none) → s.job.writes = [] → s.rep.pendingCells = [] →
       s.rep.update = none → (drain s).ntc.closing = true ∧ (drain s).ctl = s.ctl) ∧
     (s.active = true → s.ntc.closing = true → s.ntc.discarded = false → s.ntc.readInFlight = false → quiet →
       (drain s).ctl = s.ctl ∧
       (drain s).ntc = { s.ntc with
         held := [], lostAfter := none, lostCount := 0, discarded := true, lostDue := false,
         dropped := s.ntc.dropped + BitVec.ofNat 32 s.ntc.held.length, droppedDue := s.ntc.lostDue } ∧
       issued (if s.ntc.lostDue then lostTotal
         else droppedAtStop (s.ntc.dropped + BitVec.ofNat 32 s.ntc.held.length))) ∧
     (s.active = true → s.ntc.closing = true → s.ntc.discarded = true → quiet →
       (s.ntc.lostDue = true → (drain s).ctl = s.ctl ∧ (drain s).ntc = { s.ntc with lostDue := false } ∧
         issued lostTotal) ∧
       (s.ntc.lostDue = false → s.ntc.droppedDue = true → (drain s).ctl = s.ctl ∧
         (drain s).ntc = { s.ntc with droppedDue := false } ∧ issued (droppedAtStop s.ntc.dropped))) ∧
     (ended →
       (drain s).ctl = { s.ctl with part := .idle, hzint := s.ctl.hzint ||| 0b00100 } ∧
       (∀ n, (drain s).entry n = Entry.vacant) ∧ (∀ i, (drain s).slot i = none) ∧
       (drain s).job = { s.job with
         follower := .off, nextRecord := none, timer := none, nudgePending := false, rereadOf := none,
         slots := (drain s).job.slots, writes := [] } ∧
       (drain s).rep = { s.rep with initCell := none } ∧
       (∀ l, (drain s).reserved l = false) ∧
       (drain s).ntc = { s.ntc with
         held := [], reserved := (drain s).ntc.reserved, lostCount := 0, lostAfter := none, writing := none,
         waitingRoom := false, readWanted := false, readInFlight := false, readAgain := false, closing := false,
         discarded := false } ∧
       ∀ l, let e := s.engine l
         (drain s).scheduler l = { s.scheduler l with
           enabled := false, orderQueue := [], fetchQueue := [], ordersInRow := 0, windowDue := none, rotation := 1,
           inFlight := none } ∧
         (drain s).engine l = { (drain s).engine l with
           lineState := .off, op := none, attempt := 0, lastOutcome := none, answerBuf := [], kept := none,
           markRun := none, spaceRun := none, receiver := .disabled, rateCode := e.rateCode,
           turnaround := e.turnaround, retryLimit := e.retryLimit, counters := e.counters })) ∧
  (let order : List Requester := [.follower, .jobUnit, .report, .notice, .control]
   (∀ (r : Request) (p : Port), p.inService = some r → p.arbitrate = p) ∧
   (∀ p : Port, p.waiting = Waiting.empty → p.arbitrate = p) ∧
   (∀ (p : Port) (k d : Nat) (who : Requester) (r : Request), p.inService = none → order[k]? = some p.pointer →
     d < 5 → order[(k + 1 + d) % 5]? = some who → p.waiting.get who = some r →
     (∀ c x, c < d → order[(k + 1 + c) % 5]? = some x → p.waiting.get x = none) →
     p.arbitrate.inService = some r ∧ p.arbitrate.pointer = who ∧ p.arbitrate.waiting.get who = none ∧
       ∀ x, x ≠ who → p.arbitrate.waiting.get x = p.waiting.get x))

/-- Requests to the writers (R144, R155, R164): a cell already pending is merged, another joins the tail; a notice
joins the hold buffer while a place holds neither a notice nor a reservation, and is lost and counted otherwise, the
tail being the LOST position (log 23) at the first loss; while closing it is discarded and counted as dropped. The
places that reservations take are as many as the lines whose reservation stands (R156). -/
def Obligations.WriterRequestsTaken : Prop :=
  (∀ s : State, s.reservations = (([0, 1, 2, 3] : List (Fin 4)).filter (fun l => s.ntc.reserved[l.val])).length ∧
    ∀ l : Fin 4, s.reserved l = s.ntc.reserved[l.val]) ∧
  (∀ (n : Fin 64) (s : State), s.AsksCell (requestCell n s) n ∧ Frame [.cells] s (requestCell n s)) ∧
  (∀ (t : Notice) (s : State),
    (s.ntc.closing = true → requestNotice t s = { s with ntc := { s.ntc with
      dropped := s.ntc.dropped + 1, droppedDue := s.ntc.droppedDue || s.ntc.discarded } }) ∧
    (s.ntc.closing = false → s.ntc.held.length + s.reservations < 8 →
      requestNotice t s = { s with ntc := { s.ntc with held := s.ntc.held ++ [t] } }) ∧
    (s.ntc.closing = false → 8 ≤ s.ntc.held.length + s.reservations →
      requestNotice t s = { s with ntc := { s.ntc with
        lostCount := if s.ntc.lostCount = 0xFFFFFFFF then 0xFFFFFFFF else s.ntc.lostCount + 1,
        lostTotal := s.ntc.lostTotal + 1, lostDue := true,
        lostAfter := if s.ntc.lostCount = 0 then some s.ntc.held.length else s.ntc.lostAfter } }))

/-- The Notice Writer's next request between two notices (R159, R160, R161, R155): a wanted read of notices taken first,
then a due lost total write, then, with room in the area, a LOST notice that is due or else the head of the hold buffer,
as record (notices written) mod size with the next sequence number. The record's bytes stand at the offsets of section
10.5, the payload filled up with 0. -/
def Obligations.NoticesIssuedInOrder : Prop :=
  (∀ (number : Word) (t : Notice), t.payload.length ≤ 32 → noticeBytes number t =
    leBytes 4 number.toNat ++
      [t.kind.code, (t.entry.map (fun n => BitVec.ofNat 8 n.val)).getD 0xFF,
        (t.line.map (fun l => BitVec.ofNat 8 l.val)).getD 0xFF, t.address] ++
      leBytes 4 t.time.toNat ++ leBytes 4 t.count.toNat ++ [BitVec.ofNat 8 t.payload.length] ++
      List.replicate 15 0 ++ t.payload ++ List.replicate (32 - t.payload.length) 0) ∧
  [NoticeKind.joined, .muted, .restored, .changed, .attention, .left, .lineStuck, .lineRecovered, .lost].map
    NoticeKind.code = [1, 2, 3, 4, 5, 6, 7, 8, 9] ∧
  ∀ (area : Addr) (s : State), s.active = true → s.port.busyFor .notice = false → s.ntc.writing = none →
    s.ntc.closing = false → s.ntc.area = some area →
    let u := issueNotice s
    let room := (s.ntc.written - s.ntc.taken).toNat < 2 ^ s.ntc.sizeExp
    let place := area + BitVec.ofNat 64 (64 * (s.ntc.written.toNat % 2 ^ s.ntc.sizeExp))
    let record := fun (t : Notice) =>
      writeRequest .notice .noticeRecord .notice place (noticeBytes (s.ntc.written + 1) t)
    let lost : Notice :=
      { kind := .lost, entry := none, line := none, address := 0, time := s.tb.now, count := s.ntc.lostCount,
        payload := [] }
    Frame [.ntc, .port] s u ∧
    (s.ntc.readWanted = true → u.ntc = { s.ntc with readWanted := false, readInFlight := true } ∧
      u.port.waiting.notice = some (readRequest .notice .noticesTakenRead .anchor (s.ctl.anchor + 0x20) 4)) ∧
    (s.ntc.readWanted = false → s.ntc.lostDue = true → u.ntc = { s.ntc with lostDue := false } ∧
      u.port.waiting.notice = some
        { who := .notice, kind := .lostTotalWrite, struct := .status, dir := .write, addr := s.ctl.anchor + 0x8C,
          transfers := [.write (s.ctl.anchor + 0x8C) (leBytes 4 s.ntc.lostTotal.toNat),
                        .write (s.ctl.anchor + 0x94) (leBytes 4 s.tb.now.toNat)] }) ∧
    (s.ntc.readWanted = false → s.ntc.lostDue = false →
      (room → s.ntc.lostAfter = some 0 → u.port.waiting.notice = some (record lost) ∧
        u.ntc = { s.ntc with writing := some ⟨lost, s.ntc.written + 1, true⟩, lostCount := 0, lostAfter := none }) ∧
      (∀ t rest, room → s.ntc.lostAfter ≠ some 0 → s.ntc.held = t :: rest →
        u.port.waiting.notice = some (record t) ∧
        u.ntc = { s.ntc with writing := some ⟨t, s.ntc.written + 1, false⟩ }) ∧
      (¬ room ∨ s.ntc.held = [] ∧ s.ntc.lostAfter ≠ some 0 → u = s))

/-- The check word (R60) and the frame of a call (R54, R185): the register starts at FFFFh and takes each byte into its
high half, then eight shifts with 1021h; a call is its address with mark bit 1, then control, length and payload, then
the check word over those three, high byte first; over a frame with its check word the register ends at 0. A BROADCAST
and a WINDOW go to address 0, the WINDOW with the slot addresses as its payload (R64, R65). Control characters are 1 for
a POLL, 2 for an ORDER, 0Ah with sequence bit 1, 3 for a FETCH, 4 for a BROADCAST and 5 for a WINDOW (section 10.6). -/
def Obligations.CheckWordFormed : Prop :=
  let shift := fun (r : Half) => if r.getLsbD 15 then (r <<< 1) ^^^ 0x1021 else r <<< 1
  checkWord [] = 0xFFFF ∧
  (∀ (b : List Byte) (x : Byte), checkWord (b ++ [x]) =
    shift (shift (shift (shift (shift (shift (shift (shift (checkWord b ^^^ (x.setWidth 16 <<< 8)))))))))) ∧
  (∀ b : List Byte, checkWord (b ++ checkBytes b) = 0) ∧
  (∀ e : Engine,
    let frame := fun (address control : Byte) (payload : List Byte) =>
      let covered := control :: BitVec.ofNat 8 payload.length :: payload
      (⟨address, true⟩ : LineChar) ::
        (covered ++ [(checkWord covered >>> 8).setWidth 8, (checkWord covered).setWidth 8]).map (fun b => ⟨b, false⟩)
    (∀ (k : CallKind) (n : Fin 64) (a : Byte) (q : Bool) (p : List Byte), e.op = some (.call k n a q p) →
      e.frame = frame a (controlChar k q) (if k = .order then p else [])) ∧
    (∀ p, e.op = some (.broadcast p) → e.frame = frame 0 4 p) ∧
    (e.op = some .window → e.frame = frame 0 5 (e.slots.map (·.address)))) ∧
  (∀ q : Bool, controlChar .poll q = 1 ∧ controlChar .fetch q = 3 ∧
    controlChar .order q = (if q then 0x0A else 2))

/-! ### Invariants that every step keeps -/

/-- Outside HALTED no halt reason and no capture stand (R166): every step keeps it. -/
def Obligations.CaptureOnlyInHaltedKept : Prop :=
  ∀ s t : State, s.CaptureOnlyInHalted → step s = .next t → t.CaptureOnlyInHalted

/-- A VACANT entry holds its vacant values (R1): every step keeps it. -/
def Obligations.VacantValuesKept : Prop :=
  ∀ s t : State, s.VacantHoldsVacantValues → step s = .next t → t.VacantHoldsVacantValues

/-- The quiet deadline exists exactly while the entry is LIVE with a quiet limit that is not 0 (R12): every step keeps
it, so it is removed by every step that takes the entry out of LIVE or sets the limit to 0. -/
def Obligations.DeadlineWhileLiveKept : Prop :=
  ∀ s t : State, s.DeadlineWhileLive → step s = .next t → t.DeadlineWhileLive

/-- Every edition kept by the Report Writer is even (R146), and bits 0 to 7 of ANCL are 0 (R180): every step keeps
both. -/
def Obligations.EditionsEvenAndAnchorAlignedKept : Prop :=
  (∀ s t : State, s.EditionsEven → step s = .next t → t.EditionsEven) ∧
  (∀ s t : State, s.AnchorAligned → step s = .next t → t.AnchorAligned)

/-- Held notices and reservations together never exceed the 8 places of the hold buffer (R155, R156): every step keeps
it. -/
def Obligations.BufferBoundedKept : Prop :=
  ∀ s t : State, s.BufferBounded → step s = .next t → t.BufferBounded

/-- In HALTED nothing is at the Memory Port, every line is OFF without an operation and the re-read timer is stopped
(R176, R177): every step keeps it. R176 says that no request is issued; that none waits at the port either is the
model's deduction, since it drops the waiting ones at a halt (log 12, DEDUCED). -/
def Obligations.HaltedIsQuietKept : Prop :=
  ∀ s t : State, s.HaltedIsQuiet → step s = .next t → t.HaltedIsQuiet

/-- While the part is IDLE or STARTING every entry is VACANT with its vacant values (R29) and every line is OFF (R68,
section 9.1): every step keeps it. -/
def Obligations.IdleHoldsVacantKept : Prop :=
  ∀ s t : State, s.IdleHoldsVacant → step s = .next t → t.IdleHoldsVacant

/-- In HALTED a command other than a reset changes no more than the pins, the causes and the registers; the part stays
HALTED, and its capture and the Control Block's own items stand (R177, R180). -/
def Obligations.HaltedKeeps : Prop :=
  ∀ (c : Instr) (s : State), s.ctl.part = .halted → s.pins.rstn = false → c ≠ .pinReset →
    (∀ v, c ≠ .reset v) → (∀ v, v.getLsbD 2 = true → c ≠ .start v ∧ c ≠ .stop v ∧ c ≠ .nudge v) →
    (∀ v, v.getLsbD 2 = true → c ≠ .registerWrite 0x04 v 0xF) →
    ∃ t, exec c s = .next t ∧ Frame [.pins, .causes, .control] s t ∧ t.ctl.part = .halted ∧
      t.ctl.haltReason = s.ctl.haltReason ∧ t.ctl.faultStruct = s.ctl.faultStruct ∧
      t.ctl.faultDir = s.ctl.faultDir ∧ t.ctl.faultAddr = s.ctl.faultAddr ∧ t.ctl.anchor = s.ctl.anchor ∧
      t.ctl.phase = s.ctl.phase ∧ t.ctl.startStop = s.ctl.startStop ∧ t.ctl.sessionCount = s.ctl.sessionCount

/-- The causes (R178): each is set whether or not it is set already and whatever HZMASK holds; a write to HZINT clears
those written as 1 and leaves the others; no other command clears one, START and the end of a stop included, but a pin
or command reset, which clears all. -/
def Obligations.CausesKept : Prop :=
  (∀ (c : Cause) (s : State), (s.setCause c).ctl.hzint &&& c.bit = c.bit) ∧
  (∀ (v : Word) (s : State), s.pins.rstn = false → ∃ t, exec (.hzintWrite v) s = .next t ∧
    t.ctl.hzint = s.ctl.hzint &&& ~~~(v.setWidth 5)) ∧
  (∀ s : State, (pinReset s).ctl.hzint = 0 ∧ (commandReset s).ctl.hzint = 0) ∧
  (∀ (c : Instr) (s t : State), exec c s = .next t → c ≠ .pinReset → (∀ v, c ≠ .hzintWrite v) →
    (∀ v, c ≠ .registerWrite 0x0C v 0xF) → (∀ v, c ≠ .reset v) →
    (∀ v, v.getLsbD 2 = true → c ≠ .start v ∧ c ≠ .stop v ∧ c ≠ .nudge v) →
    (∀ v, v.getLsbD 2 = true → c ≠ .registerWrite 0x04 v 0xF) → s.ctl.hzint &&& ~~~ t.ctl.hzint = 0)
end

