-- ==== Sys2Proof/Laws/State.lean ====
section
/-! SUPPORT. One lemma per field per update: what each named update of State leaves as it was, and what the tables hold
after a write to one of their places. -/

set_option Elab.async false

namespace Sys2Proof.Machine

/-! ### `State.setEntry` changes `entries` alone -/

@[simp] theorem State.setEntry_pending (s : State) (n : Fin 64) (e : Entry) : (s.setEntry n e).pending = s.pending := rfl
@[simp] theorem State.setEntry_pins (s : State) (n : Fin 64) (e : Entry) : (s.setEntry n e).pins = s.pins := rfl
@[simp] theorem State.setEntry_tb (s : State) (n : Fin 64) (e : Entry) : (s.setEntry n e).tb = s.tb := rfl
@[simp] theorem State.setEntry_ctl (s : State) (n : Fin 64) (e : Entry) : (s.setEntry n e).ctl = s.ctl := rfl
@[simp] theorem State.setEntry_port (s : State) (n : Fin 64) (e : Entry) : (s.setEntry n e).port = s.port := rfl
@[simp] theorem State.setEntry_job (s : State) (n : Fin 64) (e : Entry) : (s.setEntry n e).job = s.job := rfl
@[simp] theorem State.setEntry_sched (s : State) (n : Fin 64) (e : Entry) : (s.setEntry n e).sched = s.sched := rfl
@[simp] theorem State.setEntry_eng (s : State) (n : Fin 64) (e : Entry) : (s.setEntry n e).eng = s.eng := rfl
@[simp] theorem State.setEntry_rep (s : State) (n : Fin 64) (e : Entry) : (s.setEntry n e).rep = s.rep := rfl
@[simp] theorem State.setEntry_ntc (s : State) (n : Fin 64) (e : Entry) : (s.setEntry n e).ntc = s.ntc := rfl
@[simp] theorem State.setEntry_freeCount (s : State) (n : Fin 64) (e : Entry) : (s.setEntry n e).freeCount = s.freeCount := rfl

/-! ### `State.mapEntries` changes `entries` alone -/

@[simp] theorem State.mapEntries_pending (s : State) (f : Entry → Entry) : (s.mapEntries f).pending = s.pending := rfl
@[simp] theorem State.mapEntries_pins (s : State) (f : Entry → Entry) : (s.mapEntries f).pins = s.pins := rfl
@[simp] theorem State.mapEntries_tb (s : State) (f : Entry → Entry) : (s.mapEntries f).tb = s.tb := rfl
@[simp] theorem State.mapEntries_ctl (s : State) (f : Entry → Entry) : (s.mapEntries f).ctl = s.ctl := rfl
@[simp] theorem State.mapEntries_port (s : State) (f : Entry → Entry) : (s.mapEntries f).port = s.port := rfl
@[simp] theorem State.mapEntries_job (s : State) (f : Entry → Entry) : (s.mapEntries f).job = s.job := rfl
@[simp] theorem State.mapEntries_sched (s : State) (f : Entry → Entry) : (s.mapEntries f).sched = s.sched := rfl
@[simp] theorem State.mapEntries_eng (s : State) (f : Entry → Entry) : (s.mapEntries f).eng = s.eng := rfl
@[simp] theorem State.mapEntries_rep (s : State) (f : Entry → Entry) : (s.mapEntries f).rep = s.rep := rfl
@[simp] theorem State.mapEntries_ntc (s : State) (f : Entry → Entry) : (s.mapEntries f).ntc = s.ntc := rfl
@[simp] theorem State.mapEntries_freeCount (s : State) (f : Entry → Entry) : (s.mapEntries f).freeCount = s.freeCount := rfl

/-! ### `State.setEngine` changes `eng` alone -/

@[simp] theorem State.setEngine_pending (s : State) (l : Fin 4) (e : Engine) : (s.setEngine l e).pending = s.pending := rfl
@[simp] theorem State.setEngine_pins (s : State) (l : Fin 4) (e : Engine) : (s.setEngine l e).pins = s.pins := rfl
@[simp] theorem State.setEngine_tb (s : State) (l : Fin 4) (e : Engine) : (s.setEngine l e).tb = s.tb := rfl
@[simp] theorem State.setEngine_ctl (s : State) (l : Fin 4) (e : Engine) : (s.setEngine l e).ctl = s.ctl := rfl
@[simp] theorem State.setEngine_port (s : State) (l : Fin 4) (e : Engine) : (s.setEngine l e).port = s.port := rfl
@[simp] theorem State.setEngine_job (s : State) (l : Fin 4) (e : Engine) : (s.setEngine l e).job = s.job := rfl
@[simp] theorem State.setEngine_entries (s : State) (l : Fin 4) (e : Engine) : (s.setEngine l e).entries = s.entries := rfl
@[simp] theorem State.setEngine_sched (s : State) (l : Fin 4) (e : Engine) : (s.setEngine l e).sched = s.sched := rfl
@[simp] theorem State.setEngine_rep (s : State) (l : Fin 4) (e : Engine) : (s.setEngine l e).rep = s.rep := rfl
@[simp] theorem State.setEngine_ntc (s : State) (l : Fin 4) (e : Engine) : (s.setEngine l e).ntc = s.ntc := rfl
@[simp] theorem State.setEngine_freeCount (s : State) (l : Fin 4) (e : Engine) : (s.setEngine l e).freeCount = s.freeCount := rfl

/-! ### `State.setSched` changes `sched` alone -/

@[simp] theorem State.setSched_pending (s : State) (l : Fin 4) (q : Sched) : (s.setSched l q).pending = s.pending := rfl
@[simp] theorem State.setSched_pins (s : State) (l : Fin 4) (q : Sched) : (s.setSched l q).pins = s.pins := rfl
@[simp] theorem State.setSched_tb (s : State) (l : Fin 4) (q : Sched) : (s.setSched l q).tb = s.tb := rfl
@[simp] theorem State.setSched_ctl (s : State) (l : Fin 4) (q : Sched) : (s.setSched l q).ctl = s.ctl := rfl
@[simp] theorem State.setSched_port (s : State) (l : Fin 4) (q : Sched) : (s.setSched l q).port = s.port := rfl
@[simp] theorem State.setSched_job (s : State) (l : Fin 4) (q : Sched) : (s.setSched l q).job = s.job := rfl
@[simp] theorem State.setSched_entries (s : State) (l : Fin 4) (q : Sched) : (s.setSched l q).entries = s.entries := rfl
@[simp] theorem State.setSched_eng (s : State) (l : Fin 4) (q : Sched) : (s.setSched l q).eng = s.eng := rfl
@[simp] theorem State.setSched_rep (s : State) (l : Fin 4) (q : Sched) : (s.setSched l q).rep = s.rep := rfl
@[simp] theorem State.setSched_ntc (s : State) (l : Fin 4) (q : Sched) : (s.setSched l q).ntc = s.ntc := rfl
@[simp] theorem State.setSched_freeCount (s : State) (l : Fin 4) (q : Sched) : (s.setSched l q).freeCount = s.freeCount := rfl

/-! ### `State.setSlot` changes `job` alone -/

@[simp] theorem State.setSlot_pending (s : State) (i : Fin 16) (j : Option Job) : (s.setSlot i j).pending = s.pending := rfl
@[simp] theorem State.setSlot_pins (s : State) (i : Fin 16) (j : Option Job) : (s.setSlot i j).pins = s.pins := rfl
@[simp] theorem State.setSlot_tb (s : State) (i : Fin 16) (j : Option Job) : (s.setSlot i j).tb = s.tb := rfl
@[simp] theorem State.setSlot_ctl (s : State) (i : Fin 16) (j : Option Job) : (s.setSlot i j).ctl = s.ctl := rfl
@[simp] theorem State.setSlot_port (s : State) (i : Fin 16) (j : Option Job) : (s.setSlot i j).port = s.port := rfl
@[simp] theorem State.setSlot_entries (s : State) (i : Fin 16) (j : Option Job) : (s.setSlot i j).entries = s.entries := rfl
@[simp] theorem State.setSlot_sched (s : State) (i : Fin 16) (j : Option Job) : (s.setSlot i j).sched = s.sched := rfl
@[simp] theorem State.setSlot_eng (s : State) (i : Fin 16) (j : Option Job) : (s.setSlot i j).eng = s.eng := rfl
@[simp] theorem State.setSlot_rep (s : State) (i : Fin 16) (j : Option Job) : (s.setSlot i j).rep = s.rep := rfl
@[simp] theorem State.setSlot_ntc (s : State) (i : Fin 16) (j : Option Job) : (s.setSlot i j).ntc = s.ntc := rfl
@[simp] theorem State.setSlot_freeCount (s : State) (i : Fin 16) (j : Option Job) : (s.setSlot i j).freeCount = s.freeCount := rfl

/-! ### `State.setReserved` changes `ntc` alone -/

@[simp] theorem State.setReserved_pending (s : State) (l : Fin 4) (b : Bool) : (s.setReserved l b).pending = s.pending := rfl
@[simp] theorem State.setReserved_pins (s : State) (l : Fin 4) (b : Bool) : (s.setReserved l b).pins = s.pins := rfl
@[simp] theorem State.setReserved_tb (s : State) (l : Fin 4) (b : Bool) : (s.setReserved l b).tb = s.tb := rfl
@[simp] theorem State.setReserved_ctl (s : State) (l : Fin 4) (b : Bool) : (s.setReserved l b).ctl = s.ctl := rfl
@[simp] theorem State.setReserved_port (s : State) (l : Fin 4) (b : Bool) : (s.setReserved l b).port = s.port := rfl
@[simp] theorem State.setReserved_job (s : State) (l : Fin 4) (b : Bool) : (s.setReserved l b).job = s.job := rfl
@[simp] theorem State.setReserved_entries (s : State) (l : Fin 4) (b : Bool) : (s.setReserved l b).entries = s.entries := rfl
@[simp] theorem State.setReserved_sched (s : State) (l : Fin 4) (b : Bool) : (s.setReserved l b).sched = s.sched := rfl
@[simp] theorem State.setReserved_eng (s : State) (l : Fin 4) (b : Bool) : (s.setReserved l b).eng = s.eng := rfl
@[simp] theorem State.setReserved_rep (s : State) (l : Fin 4) (b : Bool) : (s.setReserved l b).rep = s.rep := rfl
@[simp] theorem State.setReserved_freeCount (s : State) (l : Fin 4) (b : Bool) : (s.setReserved l b).freeCount = s.freeCount := rfl

/-! ### `State.issue` changes `port` alone -/

@[simp] theorem State.issue_pending (s : State) (r : Request) : (s.issue r).pending = s.pending := rfl
@[simp] theorem State.issue_pins (s : State) (r : Request) : (s.issue r).pins = s.pins := rfl
@[simp] theorem State.issue_tb (s : State) (r : Request) : (s.issue r).tb = s.tb := rfl
@[simp] theorem State.issue_ctl (s : State) (r : Request) : (s.issue r).ctl = s.ctl := rfl
@[simp] theorem State.issue_job (s : State) (r : Request) : (s.issue r).job = s.job := rfl
@[simp] theorem State.issue_entries (s : State) (r : Request) : (s.issue r).entries = s.entries := rfl
@[simp] theorem State.issue_sched (s : State) (r : Request) : (s.issue r).sched = s.sched := rfl
@[simp] theorem State.issue_eng (s : State) (r : Request) : (s.issue r).eng = s.eng := rfl
@[simp] theorem State.issue_rep (s : State) (r : Request) : (s.issue r).rep = s.rep := rfl
@[simp] theorem State.issue_ntc (s : State) (r : Request) : (s.issue r).ntc = s.ntc := rfl
@[simp] theorem State.issue_freeCount (s : State) (r : Request) : (s.issue r).freeCount = s.freeCount := rfl

/-! ### `State.arbitrate` changes `port` alone -/

@[simp] theorem State.arbitrate_pending (s : State) : (s.arbitrate).pending = s.pending := rfl
@[simp] theorem State.arbitrate_pins (s : State) : (s.arbitrate).pins = s.pins := rfl
@[simp] theorem State.arbitrate_tb (s : State) : (s.arbitrate).tb = s.tb := rfl
@[simp] theorem State.arbitrate_ctl (s : State) : (s.arbitrate).ctl = s.ctl := rfl
@[simp] theorem State.arbitrate_job (s : State) : (s.arbitrate).job = s.job := rfl
@[simp] theorem State.arbitrate_entries (s : State) : (s.arbitrate).entries = s.entries := rfl
@[simp] theorem State.arbitrate_sched (s : State) : (s.arbitrate).sched = s.sched := rfl
@[simp] theorem State.arbitrate_eng (s : State) : (s.arbitrate).eng = s.eng := rfl
@[simp] theorem State.arbitrate_rep (s : State) : (s.arbitrate).rep = s.rep := rfl
@[simp] theorem State.arbitrate_ntc (s : State) : (s.arbitrate).ntc = s.ntc := rfl
@[simp] theorem State.arbitrate_freeCount (s : State) : (s.arbitrate).freeCount = s.freeCount := rfl

/-! ### `State.served` changes `port` alone -/

@[simp] theorem State.served_pending (s : State) : (s.served).pending = s.pending := rfl
@[simp] theorem State.served_pins (s : State) : (s.served).pins = s.pins := rfl
@[simp] theorem State.served_tb (s : State) : (s.served).tb = s.tb := rfl
@[simp] theorem State.served_ctl (s : State) : (s.served).ctl = s.ctl := rfl
@[simp] theorem State.served_job (s : State) : (s.served).job = s.job := rfl
@[simp] theorem State.served_entries (s : State) : (s.served).entries = s.entries := rfl
@[simp] theorem State.served_sched (s : State) : (s.served).sched = s.sched := rfl
@[simp] theorem State.served_eng (s : State) : (s.served).eng = s.eng := rfl
@[simp] theorem State.served_rep (s : State) : (s.served).rep = s.rep := rfl
@[simp] theorem State.served_ntc (s : State) : (s.served).ntc = s.ntc := rfl
@[simp] theorem State.served_freeCount (s : State) : (s.served).freeCount = s.freeCount := rfl

/-! ### `State.clearPort` changes `port` alone -/

@[simp] theorem State.clearPort_pending (s : State) : (s.clearPort).pending = s.pending := rfl
@[simp] theorem State.clearPort_pins (s : State) : (s.clearPort).pins = s.pins := rfl
@[simp] theorem State.clearPort_tb (s : State) : (s.clearPort).tb = s.tb := rfl
@[simp] theorem State.clearPort_ctl (s : State) : (s.clearPort).ctl = s.ctl := rfl
@[simp] theorem State.clearPort_job (s : State) : (s.clearPort).job = s.job := rfl
@[simp] theorem State.clearPort_entries (s : State) : (s.clearPort).entries = s.entries := rfl
@[simp] theorem State.clearPort_sched (s : State) : (s.clearPort).sched = s.sched := rfl
@[simp] theorem State.clearPort_eng (s : State) : (s.clearPort).eng = s.eng := rfl
@[simp] theorem State.clearPort_rep (s : State) : (s.clearPort).rep = s.rep := rfl
@[simp] theorem State.clearPort_ntc (s : State) : (s.clearPort).ntc = s.ntc := rfl
@[simp] theorem State.clearPort_freeCount (s : State) : (s.clearPort).freeCount = s.freeCount := rfl

/-! ### `State.setCause` changes `ctl` alone -/

@[simp] theorem State.setCause_pending (s : State) (c : Cause) : (s.setCause c).pending = s.pending := rfl
@[simp] theorem State.setCause_pins (s : State) (c : Cause) : (s.setCause c).pins = s.pins := rfl
@[simp] theorem State.setCause_tb (s : State) (c : Cause) : (s.setCause c).tb = s.tb := rfl
@[simp] theorem State.setCause_port (s : State) (c : Cause) : (s.setCause c).port = s.port := rfl
@[simp] theorem State.setCause_job (s : State) (c : Cause) : (s.setCause c).job = s.job := rfl
@[simp] theorem State.setCause_entries (s : State) (c : Cause) : (s.setCause c).entries = s.entries := rfl
@[simp] theorem State.setCause_sched (s : State) (c : Cause) : (s.setCause c).sched = s.sched := rfl
@[simp] theorem State.setCause_eng (s : State) (c : Cause) : (s.setCause c).eng = s.eng := rfl
@[simp] theorem State.setCause_rep (s : State) (c : Cause) : (s.setCause c).rep = s.rep := rfl
@[simp] theorem State.setCause_ntc (s : State) (c : Cause) : (s.setCause c).ntc = s.ntc := rfl
@[simp] theorem State.setCause_freeCount (s : State) (c : Cause) : (s.setCause c).freeCount = s.freeCount := rfl

/-! ### `State.listWrite` changes `job` alone -/

@[simp] theorem State.listWrite_pending (s : State) (w : JobWrite) : (s.listWrite w).pending = s.pending := rfl
@[simp] theorem State.listWrite_pins (s : State) (w : JobWrite) : (s.listWrite w).pins = s.pins := rfl
@[simp] theorem State.listWrite_tb (s : State) (w : JobWrite) : (s.listWrite w).tb = s.tb := rfl
@[simp] theorem State.listWrite_ctl (s : State) (w : JobWrite) : (s.listWrite w).ctl = s.ctl := rfl
@[simp] theorem State.listWrite_port (s : State) (w : JobWrite) : (s.listWrite w).port = s.port := rfl
@[simp] theorem State.listWrite_entries (s : State) (w : JobWrite) : (s.listWrite w).entries = s.entries := rfl
@[simp] theorem State.listWrite_sched (s : State) (w : JobWrite) : (s.listWrite w).sched = s.sched := rfl
@[simp] theorem State.listWrite_eng (s : State) (w : JobWrite) : (s.listWrite w).eng = s.eng := rfl
@[simp] theorem State.listWrite_rep (s : State) (w : JobWrite) : (s.listWrite w).rep = s.rep := rfl
@[simp] theorem State.listWrite_ntc (s : State) (w : JobWrite) : (s.listWrite w).ntc = s.ntc := rfl
@[simp] theorem State.listWrite_freeCount (s : State) (w : JobWrite) : (s.listWrite w).freeCount = s.freeCount := rfl

/-! ### `State.setFollower` changes `job` alone -/

@[simp] theorem State.setFollower_pending (s : State) (f : Follower) : (s.setFollower f).pending = s.pending := rfl
@[simp] theorem State.setFollower_pins (s : State) (f : Follower) : (s.setFollower f).pins = s.pins := rfl
@[simp] theorem State.setFollower_tb (s : State) (f : Follower) : (s.setFollower f).tb = s.tb := rfl
@[simp] theorem State.setFollower_ctl (s : State) (f : Follower) : (s.setFollower f).ctl = s.ctl := rfl
@[simp] theorem State.setFollower_port (s : State) (f : Follower) : (s.setFollower f).port = s.port := rfl
@[simp] theorem State.setFollower_entries (s : State) (f : Follower) : (s.setFollower f).entries = s.entries := rfl
@[simp] theorem State.setFollower_sched (s : State) (f : Follower) : (s.setFollower f).sched = s.sched := rfl
@[simp] theorem State.setFollower_eng (s : State) (f : Follower) : (s.setFollower f).eng = s.eng := rfl
@[simp] theorem State.setFollower_rep (s : State) (f : Follower) : (s.setFollower f).rep = s.rep := rfl
@[simp] theorem State.setFollower_ntc (s : State) (f : Follower) : (s.setFollower f).ntc = s.ntc := rfl
@[simp] theorem State.setFollower_freeCount (s : State) (f : Follower) : (s.setFollower f).freeCount = s.freeCount := rfl

/-! ### `popWrite` changes `job` alone -/

@[simp] theorem popWrite_pending (s : State) : (popWrite s).pending = s.pending := rfl
@[simp] theorem popWrite_pins (s : State) : (popWrite s).pins = s.pins := rfl
@[simp] theorem popWrite_tb (s : State) : (popWrite s).tb = s.tb := rfl
@[simp] theorem popWrite_ctl (s : State) : (popWrite s).ctl = s.ctl := rfl
@[simp] theorem popWrite_port (s : State) : (popWrite s).port = s.port := rfl
@[simp] theorem popWrite_entries (s : State) : (popWrite s).entries = s.entries := rfl
@[simp] theorem popWrite_sched (s : State) : (popWrite s).sched = s.sched := rfl
@[simp] theorem popWrite_eng (s : State) : (popWrite s).eng = s.eng := rfl
@[simp] theorem popWrite_rep (s : State) : (popWrite s).rep = s.rep := rfl
@[simp] theorem popWrite_ntc (s : State) : (popWrite s).ntc = s.ntc := rfl
@[simp] theorem popWrite_freeCount (s : State) : (popWrite s).freeCount = s.freeCount := rfl

/-! ### The tables after a write -/

/-- What entry m holds after a write to entry n. -/
theorem State.entry_setEntry (s : State) (n m : Fin 64) (e : Entry) :
    (s.setEntry n e).entry m = if n = m then e else s.entry m := by
  simp only [State.entry, State.setEntry, Vector.getElem_set, Fin.ext_iff]

@[simp] theorem State.entry_setEntry_self (s : State) (n : Fin 64) (e : Entry) : (s.setEntry n e).entry n = e := by
  simp [State.entry_setEntry]

@[simp] theorem State.entry_mapEntries (s : State) (f : Entry → Entry) (n : Fin 64) :
    (s.mapEntries f).entry n = f (s.entry n) := by
  simp [State.entry, State.mapEntries]

/-- What line m's engine is after a write to line l's. -/
theorem State.engine_setEngine (s : State) (l m : Fin 4) (e : Engine) :
    (s.setEngine l e).engine m = if l = m then e else s.engine m := by
  simp only [State.engine, State.setEngine, Vector.getElem_set, Fin.ext_iff]

@[simp] theorem State.engine_setEngine_self (s : State) (l : Fin 4) (e : Engine) :
    (s.setEngine l e).engine l = e := by
  simp [State.engine_setEngine]

/-- What line m's Scheduler is after a write to line l's. -/
theorem State.scheduler_setSched (s : State) (l m : Fin 4) (q : Sched) :
    (s.setSched l q).scheduler m = if l = m then q else s.scheduler m := by
  simp only [State.scheduler, State.setSched, Vector.getElem_set, Fin.ext_iff]

@[simp] theorem State.scheduler_setSched_self (s : State) (l : Fin 4) (q : Sched) :
    (s.setSched l q).scheduler l = q := by
  simp [State.scheduler_setSched]

/-- What slot k holds after a write to slot i. -/
theorem State.slot_setSlot (s : State) (i k : Fin 16) (j : Option Job) :
    (s.setSlot i j).slot k = if i = k then j else s.slot k := by
  simp only [State.slot, State.setSlot, Vector.getElem_set, Fin.ext_iff]

@[simp] theorem State.slot_setSlot_self (s : State) (i : Fin 16) (j : Option Job) : (s.setSlot i j).slot i = j := by
  simp [State.slot_setSlot]

/-- Line m's reservation after a write to line l's. -/
theorem State.reserved_setReserved (s : State) (l m : Fin 4) (b : Bool) :
    (s.setReserved l b).reserved m = if l = m then b else s.reserved m := by
  simp only [State.reserved, State.setReserved, Vector.getElem_set, Fin.ext_iff]

/-! ### What the tables show depends on their field alone -/

@[simp] theorem State.entry_setEngine_eq (s : State) (l : Fin 4) (e : Engine) (m : Fin 64) :
    (s.setEngine l e).entry m = s.entry m := rfl
@[simp] theorem State.entry_setSched_eq (s : State) (l : Fin 4) (q : Sched) (m : Fin 64) :
    (s.setSched l q).entry m = s.entry m := rfl
@[simp] theorem State.entry_setSlot_eq (s : State) (i : Fin 16) (j : Option Job) (m : Fin 64) :
    (s.setSlot i j).entry m = s.entry m := rfl
@[simp] theorem State.entry_setReserved_eq (s : State) (l : Fin 4) (b : Bool) (m : Fin 64) :
    (s.setReserved l b).entry m = s.entry m := rfl
@[simp] theorem State.entry_issue_eq (s : State) (r : Request) (m : Fin 64) :
    (s.issue r).entry m = s.entry m := rfl
@[simp] theorem State.entry_arbitrate_eq (s : State) (m : Fin 64) :
    (s.arbitrate).entry m = s.entry m := rfl
@[simp] theorem State.entry_served_eq (s : State) (m : Fin 64) :
    (s.served).entry m = s.entry m := rfl
@[simp] theorem State.entry_clearPort_eq (s : State) (m : Fin 64) :
    (s.clearPort).entry m = s.entry m := rfl
@[simp] theorem State.entry_setCause_eq (s : State) (c : Cause) (m : Fin 64) :
    (s.setCause c).entry m = s.entry m := rfl
@[simp] theorem State.entry_listWrite_eq (s : State) (w : JobWrite) (m : Fin 64) :
    (s.listWrite w).entry m = s.entry m := rfl
@[simp] theorem State.entry_setFollower_eq (s : State) (f : Follower) (m : Fin 64) :
    (s.setFollower f).entry m = s.entry m := rfl
@[simp] theorem State.engine_setEntry_eq (s : State) (n : Fin 64) (e : Entry) (k : Fin 4) :
    (s.setEntry n e).engine k = s.engine k := rfl
@[simp] theorem State.engine_mapEntries_eq (s : State) (f : Entry → Entry) (k : Fin 4) :
    (s.mapEntries f).engine k = s.engine k := rfl
@[simp] theorem State.engine_setSched_eq (s : State) (l : Fin 4) (q : Sched) (k : Fin 4) :
    (s.setSched l q).engine k = s.engine k := rfl
@[simp] theorem State.engine_setSlot_eq (s : State) (i : Fin 16) (j : Option Job) (k : Fin 4) :
    (s.setSlot i j).engine k = s.engine k := rfl
@[simp] theorem State.engine_setReserved_eq (s : State) (l : Fin 4) (b : Bool) (k : Fin 4) :
    (s.setReserved l b).engine k = s.engine k := rfl
@[simp] theorem State.engine_issue_eq (s : State) (r : Request) (k : Fin 4) :
    (s.issue r).engine k = s.engine k := rfl
@[simp] theorem State.engine_arbitrate_eq (s : State) (k : Fin 4) :
    (s.arbitrate).engine k = s.engine k := rfl
@[simp] theorem State.engine_served_eq (s : State) (k : Fin 4) :
    (s.served).engine k = s.engine k := rfl
@[simp] theorem State.engine_clearPort_eq (s : State) (k : Fin 4) :
    (s.clearPort).engine k = s.engine k := rfl
@[simp] theorem State.engine_setCause_eq (s : State) (c : Cause) (k : Fin 4) :
    (s.setCause c).engine k = s.engine k := rfl
@[simp] theorem State.engine_listWrite_eq (s : State) (w : JobWrite) (k : Fin 4) :
    (s.listWrite w).engine k = s.engine k := rfl
@[simp] theorem State.engine_setFollower_eq (s : State) (f : Follower) (k : Fin 4) :
    (s.setFollower f).engine k = s.engine k := rfl
@[simp] theorem State.scheduler_setEntry_eq (s : State) (n : Fin 64) (e : Entry) (k : Fin 4) :
    (s.setEntry n e).scheduler k = s.scheduler k := rfl
@[simp] theorem State.scheduler_mapEntries_eq (s : State) (f : Entry → Entry) (k : Fin 4) :
    (s.mapEntries f).scheduler k = s.scheduler k := rfl
@[simp] theorem State.scheduler_setEngine_eq (s : State) (l : Fin 4) (e : Engine) (k : Fin 4) :
    (s.setEngine l e).scheduler k = s.scheduler k := rfl
@[simp] theorem State.scheduler_setSlot_eq (s : State) (i : Fin 16) (j : Option Job) (k : Fin 4) :
    (s.setSlot i j).scheduler k = s.scheduler k := rfl
@[simp] theorem State.scheduler_setReserved_eq (s : State) (l : Fin 4) (b : Bool) (k : Fin 4) :
    (s.setReserved l b).scheduler k = s.scheduler k := rfl
@[simp] theorem State.scheduler_issue_eq (s : State) (r : Request) (k : Fin 4) :
    (s.issue r).scheduler k = s.scheduler k := rfl
@[simp] theorem State.scheduler_arbitrate_eq (s : State) (k : Fin 4) :
    (s.arbitrate).scheduler k = s.scheduler k := rfl
@[simp] theorem State.scheduler_served_eq (s : State) (k : Fin 4) :
    (s.served).scheduler k = s.scheduler k := rfl
@[simp] theorem State.scheduler_clearPort_eq (s : State) (k : Fin 4) :
    (s.clearPort).scheduler k = s.scheduler k := rfl
@[simp] theorem State.scheduler_setCause_eq (s : State) (c : Cause) (k : Fin 4) :
    (s.setCause c).scheduler k = s.scheduler k := rfl
@[simp] theorem State.scheduler_listWrite_eq (s : State) (w : JobWrite) (k : Fin 4) :
    (s.listWrite w).scheduler k = s.scheduler k := rfl
@[simp] theorem State.scheduler_setFollower_eq (s : State) (f : Follower) (k : Fin 4) :
    (s.setFollower f).scheduler k = s.scheduler k := rfl

@[simp] theorem State.slot_setEntry_eq (s : State) (n : Fin 64) (e : Entry) (k : Fin 16) :
    (s.setEntry n e).slot k = s.slot k := rfl
@[simp] theorem State.slot_mapEntries_eq (s : State) (f : Entry → Entry) (k : Fin 16) :
    (s.mapEntries f).slot k = s.slot k := rfl
@[simp] theorem State.slot_setEngine_eq (s : State) (l : Fin 4) (e : Engine) (k : Fin 16) :
    (s.setEngine l e).slot k = s.slot k := rfl
@[simp] theorem State.slot_setSched_eq (s : State) (l : Fin 4) (q : Sched) (k : Fin 16) :
    (s.setSched l q).slot k = s.slot k := rfl
@[simp] theorem State.slot_setReserved_eq (s : State) (l : Fin 4) (b : Bool) (k : Fin 16) :
    (s.setReserved l b).slot k = s.slot k := rfl
@[simp] theorem State.slot_issue_eq (s : State) (r : Request) (k : Fin 16) :
    (s.issue r).slot k = s.slot k := rfl
@[simp] theorem State.slot_arbitrate_eq (s : State) (k : Fin 16) :
    (s.arbitrate).slot k = s.slot k := rfl
@[simp] theorem State.slot_served_eq (s : State) (k : Fin 16) :
    (s.served).slot k = s.slot k := rfl
@[simp] theorem State.slot_clearPort_eq (s : State) (k : Fin 16) :
    (s.clearPort).slot k = s.slot k := rfl
@[simp] theorem State.slot_setCause_eq (s : State) (c : Cause) (k : Fin 16) :
    (s.setCause c).slot k = s.slot k := rfl
@[simp] theorem State.slot_listWrite_eq (s : State) (w : JobWrite) (k : Fin 16) :
    (s.listWrite w).slot k = s.slot k := rfl
@[simp] theorem State.slot_setFollower_eq (s : State) (f : Follower) (k : Fin 16) :
    (s.setFollower f).slot k = s.slot k := rfl

end Sys2Proof.Machine
end

