-- ==== Sys2Proof/Laws/Frame.lean ====
section
/-! SUPPORT. The algebra of frames (`Frame touched s t`: what an operation leaves unchanged, piece by piece). Every shared
operation has one lemma of this form in the files beside this one, which later proofs cite instead of unfolding the
operation. -/

set_option Elab.async false

namespace Sys2Proof.Machine

theorem Piece.Same.rfl {p : Piece} {s : State} : p.Same s s := by
  cases p <;> simp [Piece.Same]

theorem Piece.Same.trans {p : Piece} {s t u : State} (h : p.Same s t) (k : p.Same t u) : p.Same s u := by
  cases p <;> simp only [Piece.Same] at * <;> grind

theorem Frame.refl (l : List Piece) (s : State) : Frame l s s := ⟨fun _ _ => Piece.Same.rfl⟩

theorem Frame.trans {l : List Piece} {s t u : State} (h : Frame l s t) (k : Frame l t u) : Frame l s u :=
  ⟨fun p hp => (h.keeps p hp).trans (k.keeps p hp)⟩

/-- A frame with fewer pieces touched is a frame with more. -/
theorem Frame.mono {l l' : List Piece} {s t : State} (h : Frame l s t) (hl : l.all (l'.contains ·) = true) :
    Frame l' s t :=
  ⟨fun p hp => h.keeps p (fun hm => hp (by simpa using List.all_eq_true.mp hl p hm))⟩

/-- One frame after another, each weakened to the same list. -/
theorem Frame.then {l l₁ l₂ : List Piece} {s t u : State} (h : Frame l₁ s t) (k : Frame l₂ t u)
    (h₁ : l₁.all (l.contains ·) = true := by decide) (h₂ : l₂.all (l.contains ·) = true := by decide) :
    Frame l s u := (h.mono h₁).trans (k.mono h₂)

/-- A frame of both branches is a frame of the choice. -/
theorem Frame.ite {l : List Piece} {s t u : State} {c : Prop} [Decidable c] (h : Frame l s t) (k : Frame l s u) :
    Frame l s (if c then t else u) := by
  split
  · exact h
  · exact k

theorem Frame.same {l : List Piece} {s t : State} (h : Frame l s t) (p : Piece)
    (hp : l.contains p = false := by decide) : p.Same s t := h.keeps p (by simpa using hp)

/-- A part whose chain and slots are the same is the same Job Unit. -/
theorem Frame.job {l : List Piece} {s t : State} (h : Frame l s t) (hc : l.contains .chain = false := by decide)
    (hs : l.contains .slots = false := by decide) : t.job = s.job := by
  have a := h.same .chain hc
  have b := h.same .slots hs
  simp only [Piece.Same] at a b
  rw [a, b.1, b.2.1, b.2.2]

/-- A part whose causes and other items are the same is the same Control Block. -/
theorem Frame.ctl {l : List Piece} {s t : State} (h : Frame l s t) (hc : l.contains .causes = false := by decide)
    (hs : l.contains .control = false := by decide) : t.ctl = s.ctl := by
  have a := h.same .causes hc
  have b := h.same .control hs
  simp only [Piece.Same] at a b
  rw [b, a]

/-- A part whose cells and editions are the same is the same Report Writer. -/
theorem Frame.rep {l : List Piece} {s t : State} (h : Frame l s t) (hc : l.contains .cells = false := by decide)
    (hs : l.contains .editions = false := by decide) : t.rep = s.rep := by
  have a := h.same .cells hc
  have b := h.same .editions hs
  simp only [Piece.Same] at a b
  rw [b, a.1, a.2]

/-- Whether the part is active does not change when control and pins do not. -/
theorem Frame.active {l : List Piece} {s t : State} (h : Frame l s t) (hc : l.contains .control = false := by decide)
    (hs : l.contains .pins = false := by decide) : t.active = s.active := by
  have a := h.same .control hc
  have b := h.same .pins hs
  simp only [Piece.Same] at a b
  simp only [State.active, b]
  rw [a]

/-- Whether the part is RUNNING does not change when control and pins do not. -/
theorem Frame.running {l : List Piece} {s t : State} (h : Frame l s t)
    (hc : l.contains .control = false := by decide) (hs : l.contains .pins = false := by decide) :
    t.running = s.running := by
  have a := h.same .control hc
  have b := h.same .pins hs
  simp only [Piece.Same] at a b
  simp only [State.running, b]
  rw [a]

/-- The part state does not change when control does not. -/
theorem Frame.partState {l : List Piece} {s t : State} (h : Frame l s t)
    (hc : l.contains .control = false := by decide) : t.ctl.part = s.ctl.part := by
  have a := h.same .control hc
  simp only [Piece.Same] at a
  rw [a]

end Sys2Proof.Machine
end

