-- ==== Sys2Proof/Laws/Blocks.lean ====
section
/-! SUPPORT. The frames of the state's named updates and of the operations of the Control Block, the Report Writer, the
Notice Writer and the Job Unit. -/

set_option Elab.async false

namespace Sys2Proof.Machine

/-! ### Updates of the state -/

theorem State.setEntry_frame (s : State) (n : Fin 64) (e : Entry) : Frame [.entries] s (s.setEntry n e) := by
  refine ⟨fun p hp => ?_⟩
  cases p <;> first | exact rfl | exact ⟨rfl, rfl, rfl⟩ | exact ⟨rfl, rfl⟩ | exact absurd (by decide) hp
theorem State.mapEntries_frame (s : State) (f : Entry → Entry) : Frame [.entries] s (s.mapEntries f) := by
  refine ⟨fun p hp => ?_⟩
  cases p <;> first | exact rfl | exact ⟨rfl, rfl, rfl⟩ | exact ⟨rfl, rfl⟩ | exact absurd (by decide) hp
theorem State.setEngine_frame (s : State) (l : Fin 4) (e : Engine) : Frame [.eng] s (s.setEngine l e) := by
  refine ⟨fun p hp => ?_⟩
  cases p <;> first | exact rfl | exact ⟨rfl, rfl, rfl⟩ | exact ⟨rfl, rfl⟩ | exact absurd (by decide) hp
theorem State.setSched_frame (s : State) (l : Fin 4) (q : Sched) : Frame [.sched] s (s.setSched l q) := by
  refine ⟨fun p hp => ?_⟩
  cases p <;> first | exact rfl | exact ⟨rfl, rfl, rfl⟩ | exact ⟨rfl, rfl⟩ | exact absurd (by decide) hp
theorem State.setSlot_frame (s : State) (i : Fin 16) (j : Option Job) : Frame [.slots] s (s.setSlot i j) := by
  refine ⟨fun p hp => ?_⟩
  cases p <;> first | exact rfl | exact ⟨rfl, rfl, rfl⟩ | exact ⟨rfl, rfl⟩ | exact absurd (by decide) hp
theorem State.setReserved_frame (s : State) (l : Fin 4) (b : Bool) : Frame [.ntc] s (s.setReserved l b) := by
  refine ⟨fun p hp => ?_⟩
  cases p <;> first | exact rfl | exact ⟨rfl, rfl, rfl⟩ | exact ⟨rfl, rfl⟩ | exact absurd (by decide) hp
theorem State.issue_frame (s : State) (r : Request) : Frame [.port] s (s.issue r) := by
  refine ⟨fun p hp => ?_⟩
  cases p <;> first | exact rfl | exact ⟨rfl, rfl, rfl⟩ | exact ⟨rfl, rfl⟩ | exact absurd (by decide) hp
theorem State.arbitrate_frame (s : State) : Frame [.port] s s.arbitrate := by
  refine ⟨fun p hp => ?_⟩
  cases p <;> first | exact rfl | exact ⟨rfl, rfl, rfl⟩ | exact ⟨rfl, rfl⟩ | exact absurd (by decide) hp
theorem State.served_frame (s : State) : Frame [.port] s s.served := by
  refine ⟨fun p hp => ?_⟩
  cases p <;> first | exact rfl | exact ⟨rfl, rfl, rfl⟩ | exact ⟨rfl, rfl⟩ | exact absurd (by decide) hp
theorem State.clearPort_frame (s : State) : Frame [.port] s s.clearPort := by
  refine ⟨fun p hp => ?_⟩
  cases p <;> first | exact rfl | exact ⟨rfl, rfl, rfl⟩ | exact ⟨rfl, rfl⟩ | exact absurd (by decide) hp
theorem State.setCause_frame (s : State) (c : Cause) : Frame [.causes] s (s.setCause c) := by
  refine ⟨fun p hp => ?_⟩
  cases p <;> first | exact rfl | exact ⟨rfl, rfl, rfl⟩ | exact ⟨rfl, rfl⟩ | exact absurd (by decide) hp
theorem State.listWrite_frame (s : State) (w : JobWrite) : Frame [.slots] s (s.listWrite w) := by
  refine ⟨fun p hp => ?_⟩
  cases p <;> first | exact rfl | exact ⟨rfl, rfl, rfl⟩ | exact ⟨rfl, rfl⟩ | exact absurd (by decide) hp
theorem State.setFollower_frame (s : State) (f : Follower) : Frame [.chain] s (s.setFollower f) := by
  refine ⟨fun p hp => ?_⟩
  cases p <;> first | exact rfl | exact ⟨rfl, rfl, rfl⟩ | exact ⟨rfl, rfl⟩ | exact absurd (by decide) hp
theorem passRefclk_frame (s : State) : Frame [.tb] s (passRefclk s) := by
  unfold passRefclk
  split
  · exact ⟨by intro p hp; cases p <;> first | exact rfl | exact ⟨rfl, rfl, rfl⟩ | exact ⟨rfl, rfl⟩ | exact absurd (by decide) hp⟩
  · split
    · exact ⟨by intro p hp; cases p <;> first | exact rfl | exact ⟨rfl, rfl, rfl⟩ | exact ⟨rfl, rfl⟩ | exact absurd (by decide) hp⟩
    · exact ⟨by intro p hp; cases p <;> first | exact rfl | exact ⟨rfl, rfl, rfl⟩ | exact ⟨rfl, rfl⟩ | exact absurd (by decide) hp⟩

/-! ### The Control Block -/

theorem enterHalted_frame (why : HaltReason) (a : Addr) (st : Structure) (d : Direction) (s : State) :
    Frame [.control, .causes, .port, .eng, .chain] s (enterHalted why a st d s) := by
  refine ⟨fun p hp => ?_⟩
  cases p <;> first | exact rfl | exact ⟨rfl, rfl, rfl⟩ | exact ⟨rfl, rfl⟩ | exact absurd (by decide) hp
theorem haltCount_frame (s : State) : Frame [.control, .causes, .port, .eng, .chain] s (haltCount s) :=
  enterHalted_frame ..
theorem haltAlign_frame (place : Addr) (s : State) :
    Frame [.control, .causes, .port, .eng, .chain] s (haltAlign place s) := enterHalted_frame ..
theorem refuse_frame (r : RefusalReason) (s : State) : Frame [.control, .causes] s (refuse r s) := by
  refine ⟨fun p hp => ?_⟩
  cases p <;> first | exact rfl | exact ⟨rfl, rfl, rfl⟩ | exact ⟨rfl, rfl⟩ | exact absurd (by decide) hp
theorem endStarting_frame (s : State) : Frame [.control, .causes, .editions] s (endStarting s) := by
  refine ⟨fun p hp => ?_⟩
  cases p <;> first | exact rfl | exact ⟨rfl, rfl, rfl⟩ | exact ⟨rfl, rfl⟩ | exact absurd (by decide) hp

/-! ### The Report Writer -/

theorem requestCell_frame (n : Fin 64) (s : State) : Frame [.cells] s (requestCell n s) := by
  unfold requestCell
  split
  · exact Frame.refl ..
  · exact ⟨by intro p hp; cases p <;> first | exact rfl | exact ⟨rfl, rfl, rfl⟩ | exact ⟨rfl, rfl⟩ | exact absurd (by decide) hp⟩
theorem requestCells_frame (ns : List (Fin 64)) (s : State) : Frame [.cells] s (requestCells ns s) := by
  induction ns generalizing s with
  | nil => exact Frame.refl ..
  | cons n ns ih => exact (requestCell_frame n s).trans (ih _)
theorem beginUpdate_frame (s : State) : Frame [.cells, .port] s (beginUpdate s) := by
  unfold beginUpdate
  split
  · exact ⟨by intro p hp; cases p <;> first | exact rfl | exact ⟨rfl, rfl, rfl⟩ | exact ⟨rfl, rfl⟩ | exact absurd (by decide) hp⟩
  · exact Frame.refl ..
theorem advanceUpdate_frame (st : CellStage) (s : State) : Frame [.cells, .port] s (advanceUpdate st s) := by
  unfold advanceUpdate
  split
  · exact ⟨by intro p hp; cases p <;> first | exact rfl | exact ⟨rfl, rfl, rfl⟩ | exact ⟨rfl, rfl⟩ | exact absurd (by decide) hp⟩
  · exact Frame.refl ..
theorem endUpdate_frame (s : State) : Frame [.cells, .editions] s (endUpdate s) := by
  unfold endUpdate
  split
  · exact ⟨by intro p hp; cases p <;> first | exact rfl | exact ⟨rfl, rfl, rfl⟩ | exact ⟨rfl, rfl⟩ | exact absurd (by decide) hp⟩
  · exact Frame.refl ..

/-! ### The Notice Writer -/

theorem loseNotice_frame (s : State) : Frame [.ntc] s (loseNotice s) := by
  refine ⟨fun p hp => ?_⟩
  cases p <;> first | exact rfl | exact ⟨rfl, rfl, rfl⟩ | exact ⟨rfl, rfl⟩ | exact absurd (by decide) hp
theorem holdNotice_frame (t : Notice) (s : State) : Frame [.ntc] s (holdNotice t s) := by
  refine ⟨fun p hp => ?_⟩
  cases p <;> first | exact rfl | exact ⟨rfl, rfl, rfl⟩ | exact ⟨rfl, rfl⟩ | exact absurd (by decide) hp
theorem dropNotice_frame (s : State) : Frame [.ntc] s (dropNotice s) := by
  refine ⟨fun p hp => ?_⟩
  cases p <;> first | exact rfl | exact ⟨rfl, rfl, rfl⟩ | exact ⟨rfl, rfl⟩ | exact absurd (by decide) hp
theorem requestNotice_frame (t : Notice) (s : State) : Frame [.ntc] s (requestNotice t s) := by
  unfold requestNotice
  split
  · exact dropNotice_frame s
  · split
    · exact holdNotice_frame t s
    · exact loseNotice_frame s
theorem fillReservation_frame (l : Fin 4) (t : Notice) (s : State) : Frame [.ntc] s (fillReservation l t s) := by
  unfold fillReservation
  split
  · exact (State.setReserved_frame ..).trans (holdNotice_frame ..)
  · exact Frame.refl ..
theorem releaseReservation_frame (l : Fin 4) (s : State) : Frame [.ntc] s (releaseReservation l s) :=
  State.setReserved_frame ..
theorem beginNotice_frame (s : State) : Frame [.ntc, .port] s (beginNotice s) := by
  unfold beginNotice
  split
  · exact ⟨by intro p hp; cases p <;> first | exact rfl | exact ⟨rfl, rfl, rfl⟩ | exact ⟨rfl, rfl⟩ | exact absurd (by decide) hp⟩
  · split
    · exact ⟨by intro p hp; cases p <;> first | exact rfl | exact ⟨rfl, rfl, rfl⟩ | exact ⟨rfl, rfl⟩ | exact absurd (by decide) hp⟩
    · exact Frame.refl ..
theorem noticeWritten_frame (s : State) : Frame [.ntc, .port] s (noticeWritten s) := by
  refine ⟨fun p hp => ?_⟩
  cases p <;> first | exact rfl | exact ⟨rfl, rfl, rfl⟩ | exact ⟨rfl, rfl⟩ | exact absurd (by decide) hp
theorem noticeCounted_frame (s : State) : Frame [.ntc, .causes] s (noticeCounted s) := by
  unfold noticeCounted
  split
  · exact ⟨by intro p hp; cases p <;> first | exact rfl | exact ⟨rfl, rfl, rfl⟩ | exact ⟨rfl, rfl⟩ | exact absurd (by decide) hp⟩
  · exact Frame.refl ..
theorem wantRead_frame (s : State) : Frame [.ntc] s (wantRead s) := by
  unfold wantRead
  split
  · exact Frame.refl ..
  · exact ⟨by intro p hp; cases p <;> first | exact rfl | exact ⟨rfl, rfl, rfl⟩ | exact ⟨rfl, rfl⟩ | exact absurd (by decide) hp⟩
theorem nudgeRead_frame (s : State) : Frame [.ntc] s (nudgeRead s) := by
  unfold nudgeRead
  split
  · exact Frame.refl ..
  · split
    · exact ⟨by intro p hp; cases p <;> first | exact rfl | exact ⟨rfl, rfl, rfl⟩ | exact ⟨rfl, rfl⟩ | exact absurd (by decide) hp⟩
    · exact ⟨by intro p hp; cases p <;> first | exact rfl | exact ⟨rfl, rfl, rfl⟩ | exact ⟨rfl, rfl⟩ | exact absurd (by decide) hp⟩
theorem waitForRoom_frame (s : State) : Frame [.ntc] s (waitForRoom s) := by
  unfold waitForRoom
  split
  · exact Frame.trans (t := { s with ntc := { s.ntc with waitingRoom := true } }) ⟨by intro p hp; cases p <;> first | exact rfl | exact ⟨rfl, rfl, rfl⟩ | exact ⟨rfl, rfl⟩ | exact absurd (by decide) hp⟩ (wantRead_frame _)
  · exact Frame.refl ..
theorem adoptTaken_frame (v : Word) (s : State) : Frame [.ntc] s (adoptTaken v s) := by
  refine ⟨fun p hp => ?_⟩
  cases p <;> first
    | exact absurd (by decide) hp
    | (simp only [Piece.Same, adoptTaken]; split <;> split <;> simp)
theorem issueTakenRead_frame (s : State) : Frame [.ntc, .port] s (issueTakenRead s) := by
  refine ⟨fun p hp => ?_⟩
  cases p <;> first | exact rfl | exact ⟨rfl, rfl, rfl⟩ | exact ⟨rfl, rfl⟩ | exact absurd (by decide) hp
theorem issueLostTotal_frame (s : State) : Frame [.ntc, .port] s (issueLostTotal s) := by
  refine ⟨fun p hp => ?_⟩
  cases p <;> first | exact rfl | exact ⟨rfl, rfl, rfl⟩ | exact ⟨rfl, rfl⟩ | exact absurd (by decide) hp
theorem issueDropped_frame (s : State) : Frame [.ntc, .port] s (issueDropped s) := by
  refine ⟨fun p hp => ?_⟩
  cases p <;> first | exact rfl | exact ⟨rfl, rfl, rfl⟩ | exact ⟨rfl, rfl⟩ | exact absurd (by decide) hp
theorem issueNotice_frame (s : State) : Frame [.ntc, .port] s (issueNotice s) := by
  unfold issueNotice
  repeat' split
  all_goals first
    | exact Frame.refl ..
    | exact issueLostTotal_frame s
    | exact issueDropped_frame s
    | exact issueTakenRead_frame s
    | exact beginNotice_frame s
theorem beginClose_frame (s : State) : Frame [.ntc] s (beginClose s) := by
  refine ⟨fun p hp => ?_⟩
  cases p <;> first | exact rfl | exact ⟨rfl, rfl, rfl⟩ | exact ⟨rfl, rfl⟩ | exact absurd (by decide) hp
theorem discardHeld_frame (s : State) : Frame [.ntc] s (discardHeld s) := by
  refine ⟨fun p hp => ?_⟩
  cases p <;> first | exact rfl | exact ⟨rfl, rfl, rfl⟩ | exact ⟨rfl, rfl⟩ | exact absurd (by decide) hp
theorem closeWhenQuiet_frame (s : State) : Frame [.ntc] s (closeWhenQuiet s) := by
  unfold closeWhenQuiet
  split
  · exact discardHeld_frame s
  · exact Frame.refl ..

/-! ### Slots and completions -/

theorem State.modSlot_frame (s : State) (i : Fin 16) (f : Job → Job) : Frame [.slots] s (s.modSlot i f) := by
  unfold State.modSlot
  split
  · exact State.setSlot_frame ..
  · exact Frame.refl ..
theorem decideJob_frame (i : Fin 16) (r : JobEnd) (s : State) : Frame [.slots] s (decideJob i r s) := by
  unfold decideJob
  split
  · split
    · exact Frame.refl ..
    · exact ⟨by intro p hp; cases p <;> first | exact rfl | exact ⟨rfl, rfl, rfl⟩ | exact ⟨rfl, rfl⟩ | exact absurd (by decide) hp⟩
  · exact Frame.refl ..
theorem leaveSets_frame (i : Fin 16) (s : State) : Frame [.slots] s (leaveSets i s) := by
  refine ⟨fun p hp => ?_⟩
  cases p <;> first | exact rfl | exact ⟨rfl, rfl, rfl⟩ | exact ⟨rfl, rfl⟩ | exact absurd (by decide) hp
theorem completeMarks_frame (f : Nat) (s : State) : Frame [.slots] s (completeMarks f s) := by
  induction f generalizing s with
  | zero => exact Frame.refl ..
  | succ f ih =>
    unfold completeMarks
    split
    · exact ((decideJob_frame ..).trans (leaveSets_frame ..)).trans (ih _)
    · exact Frame.refl ..
theorem completeJob_frame (i : Fin 16) (r : JobEnd) (s : State) : Frame [.slots] s (completeJob i r s) :=
  ((decideJob_frame i r s).trans (leaveSets_frame ..)).trans (completeMarks_frame ..)
theorem completeAll_frame (r : JobResult) (is : List (Fin 16)) (s : State) :
    Frame [.slots] s (completeAll r is s) := by
  induction is generalizing s with
  | nil => exact Frame.refl ..
  | cons i is ih => exact (completeJob_frame i _ s).trans (ih _)
theorem completeWaiting_frame (k : JobKind) (n : Fin 64) (r : JobResult) (s : State) :
    Frame [.slots] s (completeWaiting k n r s) := by
  unfold completeWaiting
  split
  · exact completeJob_frame ..
  · exact Frame.refl ..

/-! ### The write list and the Chain Follower -/

theorem listParking_frame (a : Addr) (s : State) : Frame [.slots] s (listParking a s) := by
  refine ⟨fun p hp => ?_⟩
  cases p <;> first | exact rfl | exact ⟨rfl, rfl, rfl⟩ | exact ⟨rfl, rfl⟩ | exact absurd (by decide) hp
theorem popWrite_frame (s : State) : Frame [.slots] s (popWrite s) := by
  refine ⟨fun p hp => ?_⟩
  cases p <;> first | exact rfl | exact ⟨rfl, rfl, rfl⟩ | exact ⟨rfl, rfl⟩ | exact absurd (by decide) hp
theorem issueJobWrite_frame (s : State) : Frame [.port] s (issueJobWrite s) := by
  unfold issueJobWrite
  repeat' split
  all_goals first
    | exact Frame.refl ..
    | exact State.issue_frame ..
theorem readLink_frame (s : State) : Frame [.chain, .port] s (readLink s) := by
  unfold readLink
  split
  · exact ⟨by intro p hp; cases p <;> first | exact rfl | exact ⟨rfl, rfl, rfl⟩ | exact ⟨rfl, rfl⟩ | exact absurd (by decide) hp⟩
  · exact Frame.refl ..
theorem readRecord_frame (s : State) : Frame [.chain, .port] s (readRecord s) := by
  unfold readRecord
  split
  · exact ⟨by intro p hp; cases p <;> first | exact rfl | exact ⟨rfl, rfl, rfl⟩ | exact ⟨rfl, rfl⟩ | exact absurd (by decide) hp⟩
  · exact Frame.refl ..
theorem readOrPause_frame (s : State) : Frame [.chain, .port] s (readOrPause s) := by
  unfold readOrPause
  split
  · exact readRecord_frame s
  · exact (State.setFollower_frame ..).mono (by decide)
theorem reread_frame (s : State) : Frame [.chain, .port] s (reread s) := by
  unfold reread
  split
  · exact Frame.trans (t := { s with job := { s.job with rereadOf := some .link } }) ⟨by intro p hp; cases p <;> first | exact rfl | exact ⟨rfl, rfl, rfl⟩ | exact ⟨rfl, rfl⟩ | exact absurd (by decide) hp⟩ (readLink_frame _)
  · exact Frame.trans (t := { s with job := { s.job with rereadOf := some .record } }) ⟨by intro p hp; cases p <;> first | exact rfl | exact ⟨rfl, rfl, rfl⟩ | exact ⟨rfl, rfl⟩ | exact absurd (by decide) hp⟩ (readOrPause_frame _)
  · exact Frame.refl ..
theorem parkingWrite_frame (p : Parked) (s : State) : Frame [.slots] s (parkingWrite p s) := by
  unfold parkingWrite
  split
  · exact Frame.refl ..
  · split
    · exact listParking_frame ..
    · exact Frame.refl ..
theorem park_frame (p : Parked) (s : State) : Frame [.chain, .slots, .port] s (park p s) := by
  have h : Frame [.chain, .slots, .port] s
      { parkingWrite p s with job := { (parkingWrite p s).job with follower := p.follower, rereadOf := none } } :=
    ((parkingWrite_frame p s).mono (by decide)).trans ⟨by intro p hp; cases p <;> first | exact rfl | exact ⟨rfl, rfl, rfl⟩ | exact ⟨rfl, rfl⟩ | exact absurd (by decide) hp⟩
  unfold park
  simp only
  split
  · refine h.trans (Frame.then (l₁ := [.chain]) ?_ (reread_frame _))
    exact ⟨by intro p hp; cases p <;> first | exact rfl | exact ⟨rfl, rfl, rfl⟩ | exact ⟨rfl, rfl⟩ | exact absurd (by decide) hp⟩
  · exact h
theorem followLink_frame (place v : Addr) (s : State) :
    Frame [.chain, .slots, .port, .control, .causes, .eng] s (followLink place v s) := by
  unfold followLink
  split
  · exact (park_frame ..).mono (by decide)
  · split
    · exact (haltAlign_frame ..).mono (by decide)
    · refine Frame.then (l₁ := [.chain]) ?_ (readOrPause_frame _)
      exact ⟨by intro p hp; cases p <;> first | exact rfl | exact ⟨rfl, rfl, rfl⟩ | exact ⟨rfl, rfl⟩ | exact absurd (by decide) hp⟩
theorem nudgeFollower_frame (s : State) : Frame [.chain, .port] s (nudgeFollower s) := by
  unfold nudgeFollower
  split
  · exact reread_frame s
  · exact reread_frame s
  · exact Frame.refl ..
  · exact ⟨by intro p hp; cases p <;> first | exact rfl | exact ⟨rfl, rfl, rfl⟩ | exact ⟨rfl, rfl⟩ | exact absurd (by decide) hp⟩
theorem signalJobs_frame (j : Job) (s : State) : Frame [.causes] s (signalJobs j s) := by
  unfold signalJobs
  split
  · exact State.setCause_frame ..
  · exact Frame.refl ..
theorem resumeFollower_frame (a : Addr) (s : State) : Frame [.chain, .port] s (resumeFollower a s) := by
  unfold resumeFollower
  split
  · exact readRecord_frame s
  · split
    · exact reread_frame s
    · exact Frame.refl ..
theorem freeTheSlot_frame (i : Fin 16) (s : State) :
    Frame [.causes, .slots, .chain, .port] s (freeTheSlot i s) := by
  unfold freeTheSlot
  split
  · exact Frame.then (Frame.then (l := [.causes, .slots]) (signalJobs_frame ..) (State.setSlot_frame ..))
      (resumeFollower_frame ..)
  · exact Frame.refl ..

end Sys2Proof.Machine
end

