-- ==== Sys2Proof/Laws/Work.lean ====
section
/-! SUPPORT. The frames of the Station Table, the Line Engines, the Line Schedulers and the job kinds. -/

set_option Elab.async false

namespace Sys2Proof.Machine

/-! ### The Station Table -/

theorem expireQuiet_frame (n : Fin 64) (s : State) : Frame [.entries, .ntc, .cells] s (expireQuiet n s) := by
  unfold expireQuiet
  exact Frame.then (Frame.then (l := [.entries, .ntc]) (State.setEntry_frame ..) (requestNotice_frame ..))
    (requestCell_frame ..)
theorem setLatch_frame (n : Fin 64) (s : State) : Frame [.entries, .sched] s (setLatch n s) := by
  unfold setLatch
  simp only
  split
  · exact Frame.refl ..
  · exact Frame.then (State.setEntry_frame ..) (State.setSched_frame ..)
theorem takeFlag_frame (n : Fin 64) (v : Byte) (s : State) : Frame [.entries, .sched] s (takeFlag n v s) := by
  unfold takeFlag
  split
  · exact setLatch_frame n s
  · exact Frame.refl ..
theorem dropOrders_frame (n : Fin 64) (r : JobResult) (s : State) :
    Frame [.sched, .slots] s (dropOrders n r s) := by
  unfold dropOrders
  exact Frame.then (State.setSched_frame ..) (completeAll_frame ..)
theorem becomeHeld_frame (n : Fin 64) (s : State) : Frame [.entries, .cells] s (becomeHeld n s) := by
  unfold becomeHeld
  exact Frame.then (State.setEntry_frame ..) (requestCell_frame ..)
theorem checkHold_frame (n : Fin 64) (s : State) : Frame [.entries, .cells, .slots] s (checkHold n s) := by
  unfold checkHold
  simp only
  split
  · exact (becomeHeld_frame n s).then (completeWaiting_frame ..)
  · exact Frame.refl ..
theorem orderWrongState_frame (n : Fin 64) (s : State) : Frame [.sched, .slots] s (orderWrongState n s) := by
  unfold orderWrongState
  simp only
  split
  · exact dropOrders_frame ..
  · exact Frame.refl ..
theorem settleHold_frame (n : Fin 64) (s : State) :
    Frame [.entries, .cells, .slots, .sched] s (settleHold n s) :=
  (orderWrongState_frame n s).then (checkHold_frame ..)
theorem becomeVacant_frame (n : Fin 64) (s : State) :
    Frame [.entries, .ntc, .cells] s (becomeVacant n s) := by
  unfold becomeVacant
  exact Frame.then (Frame.then (l := [.entries, .ntc]) (requestNotice_frame ..) (State.setEntry_frame ..))
    (requestCell_frame ..)
theorem leave_frame (n : Fin 64) (s : State) : Frame [.entries, .ntc, .cells, .slots] s (leave n s) :=
  (becomeVacant_frame n s).then (completeWaiting_frame ..)
theorem requestStation_frame (n : Fin 64) (t : Option (NoticeKind × List Byte)) (s : State) :
    Frame [.ntc] s (requestStation n t s) := by
  unfold requestStation
  split
  · exact requestNotice_frame ..
  · exact Frame.refl ..
theorem endFetch_frame (n : Fin 64) (o : CallOutcome) (p : List Byte) (s : State) :
    Frame [.ntc] s (endFetch n o p s) := by
  unfold endFetch
  simp only
  split
  · exact fillReservation_frame ..
  · exact releaseReservation_frame ..
theorem takeGood_frame (n : Fin 64) (k : CallKind) (o : CallOutcome) (v : Byte) (p : List Byte) (s : State) :
    Frame [.entries, .sched, .ntc, .cells] s (takeGood n k o v p s) := by
  unfold takeGood
  refine Frame.then (l₁ := [.entries, .ntc, .cells]) ?_ (takeFlag_frame ..)
  have h := Frame.then (l := [.entries, .ntc, .cells])
    (State.setEntry_frame s n (goodEntry s.tb.now k o v p (s.entry n)))
    (requestStation_frame n (goodNotice k o p (s.entry n)) _)
  have c := h.then (l := [.entries, .ntc, .cells]) (requestCell_frame n _)
  split <;> split
  · exact c.then (endFetch_frame ..)
  · exact h.then (endFetch_frame ..)
  · exact c
  · exact h
theorem takeFailed_frame (n : Fin 64) (k : CallKind) (s : State) :
    Frame [.entries, .ntc, .cells] s (takeFailed n k s) := by
  have h := (State.setEntry_frame s n (failedEntry k (s.entry n))).mono (l' := [.entries, .ntc, .cells]) (by decide)
  have c := Frame.ite (c := k = .poll ∧ (s.entry n).state.called) (h.then (requestCell_frame n _)) h
  exact Frame.ite (c.then (releaseReservation_frame ..)) c
theorem applyOutcome_frame (n : Fin 64) (k : CallKind) (o : CallOutcome) (a : Option (Byte × List Byte))
    (s : State) : Frame [.entries, .sched, .ntc, .cells] s (applyOutcome n k o a s) := by
  unfold applyOutcome
  split
  · exact Frame.refl ..
  · split
    · exact takeGood_frame ..
    · exact (takeFailed_frame ..).mono (by decide)
theorem takeMark_frame (n : Fin 64) (s : State) : Frame [.entries, .sched, .cells, .slots] s (takeMark n s) := by
  unfold takeMark
  simp only
  split
  · exact Frame.refl ..
  · exact Frame.then (Frame.then (l := [.entries, .sched]) (State.setEntry_frame ..) (setLatch_frame ..))
      (settleHold_frame ..)
theorem lineOffStations_frame (l : Fin 4) (s : State) : Frame [.entries, .cells] s (lineOffStations l s) :=
  Frame.then (State.mapEntries_frame ..) (requestCells_frame ..)

/-! ### The Line Engines -/

/-- What the work of an event may touch. -/
abbrev worked : List Piece := [.entries, .sched, .eng, .slots, .cells, .ntc]

theorem advanceDue_frame (n : Fin 64) (b : Bool) (s : State) : Frame [.entries] s (advanceDue n b s) := by
  unfold advanceDue
  simp only
  split
  · exact Frame.refl ..
  · split
    · exact State.setEntry_frame ..
    · exact Frame.refl ..
theorem State.clearFlight_frame (s : State) (l : Fin 4) : Frame [.sched] s (s.clearFlight l) :=
  State.setSched_frame ..
theorem callEnded_frame (l : Fin 4) (o : CallOutcome) (k : Nat) (a : Option (Byte × List Byte)) (s : State) :
    Frame [.entries, .sched, .slots, .cells, .ntc] s (callEnded l o k a s) := by
  have c := (State.clearFlight_frame s l).mono (l' := [.entries, .sched, .slots, .cells, .ntc]) (by decide)
  unfold callEnded
  split
  · simp only
    split
    · exact c.then (leave_frame ..)
    · exact ((c.then (l := [.entries, .sched, .slots, .cells, .ntc]) (applyOutcome_frame ..)).then
        (l := [.entries, .sched, .slots, .cells, .ntc]) (settleHold_frame ..)).then (advanceDue_frame ..)
  · simp only
    split
    · exact (c.then (l := [.entries, .sched, .slots, .cells, .ntc]) (releaseReservation_frame ..)).then
        (leave_frame ..)
    · exact (c.then (l := [.entries, .sched, .slots, .cells, .ntc]) (applyOutcome_frame ..)).then
        (settleHold_frame ..)
  · simp only
    split
    · exact (c.then (l := [.entries, .sched, .slots, .cells, .ntc]) (completeJob_frame ..)).then (leave_frame ..)
    · exact ((c.then (l := [.entries, .sched, .slots, .cells, .ntc]) (applyOutcome_frame ..)).then
        (l := [.entries, .sched, .slots, .cells, .ntc]) (completeJob_frame ..)).then (settleHold_frame ..)
  · exact Frame.refl ..
  · exact Frame.refl ..
  · exact Frame.refl ..
theorem endCall_frame (l : Fin 4) (o : CallOutcome) (s : State) : Frame worked s (endCall l o s) := by
  unfold endCall
  exact Frame.then (State.setEngine_frame ..) (callEnded_frame ..)
theorem windowEnded_frame (l : Fin 4) (s : State) : Frame [.sched] s (windowEnded l s) := by
  unfold windowEnded
  split
  · exact State.setSched_frame ..
  · exact Frame.refl ..
theorem broadcastEnded_frame (l : Fin 4) (s : State) : Frame [.sched, .slots] s (broadcastEnded l s) := by
  unfold broadcastEnded
  split
  · exact (State.clearFlight_frame ..).then (completeJob_frame ..)
  · exact Frame.refl ..
theorem handOver_frame (l : Fin 4) (o : Operation) (r : List SlotRec) (f : InFlight) (s : State) :
    Frame [.eng, .sched] s (handOver l o r f s) := Frame.then (State.setEngine_frame ..) (State.setSched_frame ..)
theorem endAttempt_frame (l : Fin 4) (o : CallOutcome) (b : Nat) (s : State) :
    Frame worked s (endAttempt l o b s) := by
  unfold endAttempt
  simp only
  split
  · exact (State.setEngine_frame ..).mono (by decide)
  · exact Frame.then (State.setEngine_frame ..) (endCall_frame ..)
theorem answerCharacter_frame (l : Fin 4) (b : Nat) (v : Byte) (s : State) :
    Frame worked s (answerCharacter l b v s) := by
  unfold answerCharacter
  simp only
  repeat' split
  all_goals first
    | exact (State.setEngine_frame ..).mono (by decide)
    | exact Frame.then (State.setEngine_frame ..) (endAttempt_frame ..)
theorem strayCharacter_frame (l : Fin 4) (s : State) : Frame [.eng] s (strayCharacter l s) :=
  State.setEngine_frame ..
theorem slotCharacter_frame (l : Fin 4) (k : Nat) (v : Byte) (s : State) :
    Frame worked s (slotCharacter l k v s) := by
  unfold slotCharacter
  simp only
  repeat' split
  all_goals first
    | exact (strayCharacter_frame ..).mono (by decide)
    | exact (State.setEngine_frame ..).mono (by decide)
    | exact Frame.then (State.setEngine_frame ..) (takeMark_frame ..)
theorem takeCharacter_frame (l : Fin 4) (b : Nat) (v : Byte) (s : State) :
    Frame worked s (takeCharacter l b v s) := by
  unfold takeCharacter
  simp only
  repeat' split
  all_goals first
    | exact (strayCharacter_frame ..).mono (by decide)
    | exact answerCharacter_frame ..
    | exact slotCharacter_frame ..
    | exact Frame.refl ..
theorem turnaroundOut_frame (l : Fin 4) (s : State) : Frame worked s (turnaroundOut l s) := by
  unfold turnaroundOut
  simp only
  repeat' split
  all_goals first
    | exact (State.setEngine_frame ..).mono (by decide)
    | exact endAttempt_frame ..
    | exact Frame.refl ..
theorem gapOut_frame (l : Fin 4) (s : State) : Frame worked s (gapOut l s) := by
  unfold gapOut
  simp only
  repeat' split
  all_goals first
    | exact (State.setEngine_frame ..).mono (by decide)
    | exact endAttempt_frame ..
    | exact Frame.refl ..
theorem confirmStart_frame (l : Fin 4) (b : Nat) (s : State) : Frame worked s (confirmStart l b s) := by
  unfold confirmStart
  simp only
  repeat' split
  all_goals first
    | exact (State.setEngine_frame ..).mono (by decide)
    | exact Frame.then (State.setEngine_frame ..) (turnaroundOut_frame ..)
    | exact Frame.then (State.setEngine_frame ..) (gapOut_frame ..)
theorem foundStuck_frame (l : Fin 4) (s : State) : Frame worked s (foundStuck l s) := by
  have h : ∀ e t, Frame worked s (requestNotice t (s.setEngine l e)) := fun e t =>
    Frame.then (State.setEngine_frame ..) (requestNotice_frame ..)
  unfold foundStuck
  simp only
  split
  · exact (h _ _).trans (endCall_frame ..)
  · exact ((h _ _).then (l := worked) (State.setEngine_frame ..)).then (windowEnded_frame ..)
  · exact h _ _
  · exact h _ _

/-! ### The Line Schedulers -/

theorem passWindow_frame (l : Fin 4) (s : State) : Frame [.sched] s (passWindow l s) := by
  unfold passWindow
  split
  · exact State.setSched_frame ..
  · exact Frame.refl ..
theorem startWindow_frame (l : Fin 4) (s : State) : Frame [.eng, .sched] s (startWindow l s) := handOver_frame ..
theorem markBusy_frame (n : Fin 64) (k : CallKind) (s : State) : Frame [.entries] s (markBusy n k s) := by
  unfold markBusy
  simp only
  split
  · exact Frame.refl ..
  · exact State.setEntry_frame ..
theorem startPoll_frame (l : Fin 4) (n : Fin 64) (s : State) :
    Frame [.entries, .eng, .sched] s (startPoll l n s) := by
  unfold startPoll
  exact (Frame.then (l := [.eng, .sched]) (State.setSched_frame ..) (handOver_frame ..)).then (markBusy_frame ..)
theorem startFetch_frame (l : Fin 4) (n : Fin 64) (s : State) :
    Frame [.entries, .eng, .sched, .ntc] s (startFetch l n s) := by
  unfold startFetch
  exact (Frame.then (l := [.eng, .sched, .ntc])
    (Frame.then (l := [.sched, .ntc]) (State.setReserved_frame ..) (State.setSched_frame ..))
    (handOver_frame ..)).then (markBusy_frame ..)
theorem completeLineOff_frame (l : Fin 4) (is : List (Fin 16)) (s : State) :
    Frame [.entries, .sched, .slots, .cells] s (completeLineOff l is s) := by
  induction is generalizing s with
  | nil => exact Frame.refl ..
  | cons i is ih =>
    unfold completeLineOff
    simp only
    have h := Frame.then (l := [.entries, .sched, .slots, .cells])
      (State.setSched_frame s l ((s.scheduler l).keepOrders (· != i))) (completeJob_frame i (.plain .lineOff) _)
    refine Frame.trans ?_ (ih _)
    split
    · exact h.then (settleHold_frame ..)
    · exact h
theorem disableLine_frame (l : Fin 4) (s : State) : Frame worked s (disableLine l s) := by
  unfold disableLine
  exact (Frame.then (l := worked) (Frame.then (l := [.entries, .cells, .eng]) (State.setEngine_frame ..)
    (lineOffStations_frame ..)) (State.setSched_frame ..)).then (completeLineOff_frame ..)
theorem enableLine_frame (l : Fin 4) (s : State) : Frame [.eng, .sched] s (enableLine l s) := by
  unfold enableLine
  exact Frame.then (State.setEngine_frame ..) (State.setSched_frame ..)
theorem applySetup_frame (l : Fin 4) (i : Fin 16) (p : SetupParams) (s : State) :
    Frame worked s (applySetup l i p s) := by
  have h := Frame.then (l := worked) (State.setEngine_frame s l ((s.engine l).applySettings p))
    (State.setSched_frame _ l ((s.scheduler l).applySettings p))
  unfold applySetup
  simp only
  refine Frame.then (l₁ := worked) ?_ (completeJob_frame ..)
  split
  · exact h.then (enableLine_frame ..)
  · exact h.trans (disableLine_frame ..)
theorem pickItem_frame (l : Fin 4) (i : Fin 16) (s : State) : Frame worked s (pickItem l i s) := by
  have h := State.setSched_frame s l ((s.scheduler l).picked i)
  have m := h.then (l := worked) (State.modSlot_frame _ i (fun j => { j with state := .onWire }))
  unfold pickItem
  simp only
  repeat' split
  all_goals first
    | exact h.mono (by decide)
    | exact (m.then (l := worked) (handOver_frame ..)).then (markBusy_frame ..)
    | exact m.then (handOver_frame ..)
    | exact h.then (applySetup_frame ..)
theorem chooseIdle_frame (l : Fin 4) (s t : State) (h : chooseIdle l s = some t) : Frame worked s t := by
  unfold chooseIdle at h
  split at h
  · cases h
    exact (startWindow_frame ..).mono (by decide)
  · split at h
    · cases h
      exact (startFetch_frame ..).mono (by decide)
    · split at h
      · cases h
        exact pickItem_frame ..
      · obtain ⟨n, -, rfl⟩ := Option.map_eq_some_iff.mp h
        exact (startPoll_frame ..).mono (by decide)
theorem chooseOnce_frame (l : Fin 4) (s t : State) (h : chooseOnce l s = some t) : Frame worked s t := by
  unfold chooseOnce at h
  split at h
  · exact chooseIdle_frame l s t h
  · split at h
    · obtain ⟨n, -, rfl⟩ := Option.map_eq_some_iff.mp h
      exact pickItem_frame ..
    · cases h
theorem chooseLine_frame (f : Nat) (l : Fin 4) (s : State) : Frame worked s (chooseLine f l s) := by
  induction f generalizing s with
  | zero => exact Frame.refl ..
  | succ f ih =>
    have h : Frame worked s (if s.mayChoose l then passWindow l s else s) := by
      split
      · exact (passWindow_frame ..).mono (by decide)
      · exact Frame.refl ..
    unfold chooseLine
    simp only
    split
    · next t e => exact (h.trans (chooseOnce_frame _ _ _ e)).trans (ih _)
    · exact h
theorem chooseLines_frame (ls : List (Fin 4)) (s : State) : Frame worked s (chooseLines ls s) := by
  induction ls generalizing s with
  | nil => exact Frame.refl ..
  | cons l ls ih => exact (chooseLine_frame ..).trans (ih _)
theorem chooseAll_frame (s : State) : Frame (.free :: worked) s (chooseAll s) := by
  unfold chooseAll
  split
  · refine Frame.then (l₁ := [.free]) (t := { s with freeCount := s.freeCount + 1 }) ⟨by intro p hp; cases p <;> first | exact rfl | exact ⟨rfl, rfl, rfl⟩ | exact ⟨rfl, rfl⟩ | exact absurd (by decide) hp⟩ (chooseLines_frame ..)
  · exact (chooseLines_frame ..).mono (by decide)

/-! ### What every event ends with -/

theorem tellToClose_frame (s : State) : Frame [.ntc] s (tellToClose s) := by
  unfold tellToClose
  split
  · exact beginClose_frame s
  · exact Frame.refl ..

/-- Unless the part is STOPPING the end of a stop is no question. -/
theorem endStop_of_not_stopping (s : State) (h : s.ctl.part ≠ .stopping) : endStop s = s := by
  unfold endStop
  simp [h]

/-- The part of `drain` before the end of a stop. -/
theorem drain_eq (s : State) : drain s = (endStop (issueNotice (waitForRoom (closeWhenQuiet (tellToClose
    (beginUpdate (issueJobWrite s))))))).arbitrate := rfl
theorem beforeEnd_frame (s : State) : Frame [.port, .cells, .ntc] s
    (issueNotice (waitForRoom (closeWhenQuiet (tellToClose (beginUpdate (issueJobWrite s)))))) :=
  ((((Frame.then (l := [.port, .cells, .ntc]) (issueJobWrite_frame s) (beginUpdate_frame _)).then
    (l := [.port, .cells, .ntc]) (tellToClose_frame _)).then (l := [.port, .cells, .ntc]) (closeWhenQuiet_frame _)).then
    (l := [.port, .cells, .ntc]) (waitForRoom_frame _)).then (issueNotice_frame _)

/-- Outside STOPPING an event ends with issues alone: the port, the pending cells and the Notice Writer. -/
theorem drain_frame (s : State) (h : s.ctl.part ≠ .stopping) : Frame [.port, .cells, .ntc] s (drain s) := by
  rw [drain_eq, endStop_of_not_stopping]
  · exact (beforeEnd_frame s).then (State.arbitrate_frame _)
  · rw [(beforeEnd_frame s).partState]
    exact h
theorem settle_frame (s : State) (h : s.ctl.part ≠ .stopping) :
    Frame [.entries, .sched, .eng, .slots, .cells, .ntc, .port, .free] s (settle s) := by
  unfold settle
  refine (chooseAll_frame s).then (drain_frame _ ?_)
  rw [(chooseAll_frame s).partState]
  exact h

/-! ### The job kinds -/

theorem finish_frame (i : Fin 16) (r : JobResult) (s : State) : Frame [.slots] s (finish i r s) :=
  completeJob_frame ..
theorem setSlotState_frame (i : Fin 16) (x : SlotState) (s : State) : Frame [.slots] s (setSlotState i x s) :=
  State.modSlot_frame ..
theorem enqueue_frame (l : Fin 4) (i : Fin 16) (s : State) : Frame [.sched, .slots] s (enqueue l i s) := by
  unfold enqueue
  exact Frame.then (setSlotState_frame ..) (State.setSched_frame ..)

/-- A completion without sending is a frame of the work of an event. -/
theorem finish_worked (i : Fin 16) (r : JobResult) (s : State) : Frame worked s (finish i r s) :=
  (finish_frame i r s).mono (by decide)
theorem enqueue_worked (l : Fin 4) (i : Fin 16) (s : State) : Frame worked s (enqueue l i s) :=
  (enqueue_frame l i s).mono (by decide)
theorem jobSetupLine_frame (i : Fin 16) (j : Job) (s : State) : Frame worked s (jobSetupLine i j s) := by
  unfold jobSetupLine
  split
  · exact finish_worked ..
  · exact Frame.ite (enqueue_worked ..) (finish_worked ..)
theorem jobLineStatus_frame (i : Fin 16) (j : Job) (s : State) : Frame [.slots, .eng] s (jobLineStatus i j s) := by
  unfold jobLineStatus
  split
  · exact (finish_frame ..).mono (by decide)
  · exact (Frame.ite (State.setEngine_frame ..) (Frame.refl ..)).then (completeJob_frame ..)
theorem jobEnlist_frame (i : Fin 16) (j : Job) (s : State) : Frame worked s (jobEnlist i j s) := by
  unfold jobEnlist
  simp only
  split
  · exact Frame.ite (finish_worked ..) (Frame.ite (finish_worked ..) (Frame.ite (finish_worked ..)
      ((Frame.then (l := worked) (State.setEntry_frame ..) (requestCell_frame ..)).trans (finish_worked ..))))
  · exact finish_worked ..
theorem clearGround_frame (n : Fin 64) (s : State) : Frame worked s (clearGround n s) := by
  have h : ∀ q l g l' e, Frame worked s
      ((((dropOrders n .stationGone s).setSched l q).setEngine l' g).setEntry n e) := fun q l g l' e =>
    (((dropOrders_frame n .stationGone s).then (l := worked) (State.setSched_frame ..)).then (l := worked)
      (State.setEngine_frame ..)).then (State.setEntry_frame ..)
  exact Frame.ite ((h ..).then (completeWaiting_frame ..)) (h ..)
theorem jobDelist_frame (i : Fin 16) (j : Job) (s : State) : Frame worked s (jobDelist i j s) := by
  unfold jobDelist
  split
  · exact finish_worked ..
  · next n _ =>
    exact Frame.ite (finish_worked ..) (Frame.ite
      (((clearGround_frame n s).then (l := worked) (State.setEntry_frame ..)).then (setSlotState_frame ..))
      (((clearGround_frame n s).then (l := worked) (becomeVacant_frame ..)).trans (finish_worked ..)))
theorem jobHold_frame (i : Fin 16) (j : Job) (s : State) : Frame worked s (jobHold i j s) := by
  unfold jobHold
  split
  · exact finish_worked ..
  · next n _ =>
    exact Frame.ite (finish_worked ..) (Frame.ite (finish_worked ..) (Frame.ite
      ((becomeHeld_frame n s).then (finish_worked ..))
      ((Frame.then (l := worked) (State.setEntry_frame ..) (setSlotState_frame ..)).then (settleHold_frame ..))))
theorem jobRelease_frame (i : Fin 16) (j : Job) (s : State) : Frame worked s (jobRelease i j s) := by
  unfold jobRelease
  split
  · exact finish_worked ..
  · exact Frame.ite (finish_worked ..)
      ((Frame.then (l := worked) (State.setEntry_frame ..) (requestCell_frame ..)).trans (finish_worked ..))
theorem noteDueSet_frame (n : Fin 64) (s : State) : Frame [.sched] s (noteDueSet n s) := by
  unfold noteDueSet
  simp only
  split
  · exact Frame.ite (State.setSched_frame ..) (Frame.refl ..)
  · exact Frame.refl ..
theorem jobRetune_frame (i : Fin 16) (j : Job) (s : State) : Frame worked s (jobRetune i j s) := by
  unfold jobRetune
  split
  · exact finish_worked ..
  · next n _ =>
    have h : ∀ e : Entry, Frame worked s (s.setEntry n e) := fun e => (State.setEntry_frame s n e).mono (by decide)
    have d := fun e => Frame.ite (c := (s.entry n).state = .live) ((h e).then (noteDueSet_frame n _)) (h e)
    exact Frame.ite (finish_worked ..) (Frame.ite (finish_worked ..)
      ((Frame.ite ((d _).then (expireQuiet_frame n _)) (d _)).trans (finish_worked ..)))
theorem jobOrder_frame (i : Fin 16) (j : Job) (s : State) : Frame worked s (jobOrder i j s) := by
  unfold jobOrder
  split
  · exact finish_worked ..
  · exact Frame.ite (finish_worked ..) (Frame.ite (finish_worked ..) (Frame.ite (finish_worked ..)
      (enqueue_worked ..)))
theorem jobBroadcast_frame (i : Fin 16) (j : Job) (s : State) : Frame worked s (jobBroadcast i j s) := by
  unfold jobBroadcast
  split
  · exact finish_worked ..
  · exact Frame.ite (finish_worked ..) (enqueue_worked ..)
theorem cancelItem_frame (l : Fin 4) (k : Fin 16) (s : State) : Frame worked s (cancelItem l k s) := by
  have h := (State.setSched_frame s l ((s.scheduler l).keepOrders (· != k))).then (l := worked)
    (finish_worked k .cancelled _)
  unfold cancelItem
  simp only
  split
  · exact h.then (settleHold_frame ..)
  · exact h
theorem jobCancel_frame (i : Fin 16) (j : Job) (s : State) : Frame worked s (jobCancel i j s) := by
  unfold jobCancel
  split
  · exact finish_worked ..
  · refine Frame.ite ?_ (Frame.ite ((finish_worked ..).trans (finish_worked ..)) (finish_worked ..))
    split
    · exact (cancelItem_frame ..).trans (finish_worked ..)
    · exact finish_worked ..
theorem jobMark_frame (i : Fin 16) (s : State) : Frame worked s (jobMark i s) :=
  Frame.ite (finish_worked ..) ((State.modSlot_frame ..).mono (by decide))

/-- Whatever its kind and result, a job's dispatch touches stations, lines, slots, cells and notices alone. -/
theorem dispatchJob_frame (i : Fin 16) (s : State) : Frame worked s (dispatchJob i s) := by
  unfold dispatchJob
  repeat' split
  all_goals first
    | exact Frame.refl ..
    | exact (finish_frame ..).mono (by decide)
    | exact jobSetupLine_frame ..
    | exact (jobLineStatus_frame ..).mono (by decide)
    | exact jobEnlist_frame ..
    | exact jobDelist_frame ..
    | exact jobHold_frame ..
    | exact jobRelease_frame ..
    | exact jobRetune_frame ..
    | exact jobOrder_frame ..
    | exact jobBroadcast_frame ..
    | exact jobCancel_frame ..
    | exact jobMark_frame ..
theorem claimSlot_frame (i : Fin 16) (a : Addr) (r : JobRecord) (s : State) :
    Frame [.slots, .chain] s (claimSlot i a r s) := by
  unfold claimSlot
  simp only
  exact ((State.setSlot_frame ..).then (l := [.slots, .chain]) (State.listWrite_frame ..)).trans ⟨by intro p hp; cases p <;> first | exact rfl | exact ⟨rfl, rfl, rfl⟩ | exact ⟨rfl, rfl⟩ | exact absurd (by decide) hp⟩

/-- The row LINE STATUS takes a record or, in STOPPING, carries out a LINE STATUS that a slot holds (R123, log 33). -/
theorem lineStatusTaken_cases (f : JobFields) (s : State) : lineStatusTaken f s = jobTaken .lineStatus f s ∨
    s.running = false ∧ ∃ i, lineStatusTaken f s = settle (dispatchJob i s) := by
  unfold lineStatusTaken
  split
  · next h _ =>
    simp only [Bool.and_eq_true, Bool.not_eq_true'] at h
    exact .inr ⟨h.2, _, rfl⟩
  · exact .inl rfl

end Sys2Proof.Machine
end

