-- ==== Sys2Proof/Laws/Choices.lean ====
section
/-! SUPPORT. A line's choices come to an end: each pick shortens its order queue or leaves an operation in flight, so 18
of them are enough for a queue of at most 16 items. -/

set_option Elab.async false

namespace Sys2Proof.Machine

/-! ### What keeps an order queue from growing -/

/-- Line l's order queue in t is not longer than in s. -/
def State.QueueShrinks (l : Fin 4) (s t : State) : Prop :=
  (t.scheduler l).orderQueue.length ≤ (s.scheduler l).orderQueue.length

theorem State.QueueShrinks.of_sched {l : Fin 4} {s t : State} (h : t.sched = s.sched) : State.QueueShrinks l s t := by
  simp only [State.QueueShrinks, State.scheduler, h, Nat.le_refl]
theorem State.QueueShrinks.trans {l : Fin 4} {s t u : State} (h : State.QueueShrinks l s t)
    (k : State.QueueShrinks l t u) : State.QueueShrinks l s u := Nat.le_trans k h

theorem setSched_shrinks (l m : Fin 4) (s : State) (q : Sched)
    (h : q.orderQueue.length ≤ (s.scheduler m).orderQueue.length) : State.QueueShrinks l s (s.setSched m q) := by
  simp only [State.QueueShrinks, State.scheduler_setSched]
  split
  · next e => exact e ▸ h
  · exact Nat.le_refl _

theorem dropOrders_shrinks (l : Fin 4) (n : Fin 64) (r : JobResult) (s : State) :
    State.QueueShrinks l s (dropOrders n r s) :=
  State.QueueShrinks.trans (setSched_shrinks l (s.entry n).line s
    ((s.scheduler (s.entry n).line).keepOrders (fun i => !s.isOrderFor n i)) (List.length_filter_le ..))
    (.of_sched ((completeAll_frame ..).same .sched))

theorem settleHold_shrinks (l : Fin 4) (n : Fin 64) (s : State) : State.QueueShrinks l s (settleHold n s) := by
  refine State.QueueShrinks.trans (t := orderWrongState n s) ?_ (.of_sched ((checkHold_frame ..).same .sched))
  unfold orderWrongState
  simp only
  split
  · exact dropOrders_shrinks ..
  · exact .of_sched rfl

theorem completeLineOff_shrinks (l m : Fin 4) (is : List (Fin 16)) (s : State) :
    State.QueueShrinks l s (completeLineOff m is s) := by
  induction is generalizing s with
  | nil => exact .of_sched rfl
  | cons i rest ih =>
    unfold completeLineOff
    simp only
    refine State.QueueShrinks.trans ?_ (ih _)
    have h : State.QueueShrinks l s
        (completeJob i (.plain .lineOff) (s.setSched m ((s.scheduler m).keepOrders (· != i)))) :=
      State.QueueShrinks.trans (setSched_shrinks l m s ((s.scheduler m).keepOrders (· != i))
        (List.length_filter_le ..))
        (.of_sched ((completeJob_frame ..).same .sched))
    split
    · exact h.trans (settleHold_shrinks ..)
    · exact h

theorem applySetup_shrinks (l m : Fin 4) (i : Fin 16) (p : SetupParams) (s : State) :
    State.QueueShrinks l s (applySetup m i p s) := by
  unfold applySetup
  simp only
  refine State.QueueShrinks.trans ?_ (.of_sched ((completeJob_frame ..).same .sched))
  refine State.QueueShrinks.trans (setSched_shrinks l m (s.setEngine m ((s.engine m).applySettings p))
    ((s.scheduler m).applySettings p) (Nat.le_refl _)) ?_
  split
  · exact setSched_shrinks l m _ _ (Nat.le_refl _)
  · refine State.QueueShrinks.trans ?_ (completeLineOff_shrinks ..)
    refine State.QueueShrinks.trans (.of_sched (t := lineOffStations m _) ?_) (setSched_shrinks l m _ _ (Nat.le_refl _))
    exact (lineOffStations_frame ..).same .sched

/-! ### A choice leaves an operation in flight or a shorter queue -/

/-- How many choices line l can still make, at most. -/
def State.choicesLeft (s : State) (l : Fin 4) : Nat :=
  if (s.scheduler l).inFlight.isSome then 0 else (s.scheduler l).orderQueue.length + 1

theorem handOver_inFlight (l : Fin 4) (o : Operation) (r : List SlotRec) (f : InFlight) (s : State) :
    ((handOver l o r f s).scheduler l).inFlight = some f := by
  simp [handOver]

theorem markBusy_scheduler (n : Fin 64) (k : CallKind) (s : State) (l : Fin 4) :
    (markBusy n k s).scheduler l = s.scheduler l := by
  have h : (markBusy n k s).sched = s.sched := (markBusy_frame n k s).same .sched
  simp only [State.scheduler, h]

/-- A pick of a queued item leaves an operation in flight or a shorter queue. -/
theorem pickItem_progress (l : Fin 4) (i : Fin 16) (s : State) (h : i ∈ (s.scheduler l).orderQueue) :
    ((pickItem l i s).scheduler l).inFlight.isSome = true ∨
      ((pickItem l i s).scheduler l).orderQueue.length < (s.scheduler l).orderQueue.length := by
  have hp : ((s.setSched l ((s.scheduler l).picked i)).scheduler l).orderQueue.length <
      (s.scheduler l).orderQueue.length := by
    simp only [State.scheduler_setSched_self, Sched.picked, Sched.keepOrders]
    exact List.length_filter_lt_length_iff_exists.2 ⟨i, h, by simp⟩
  unfold pickItem
  simp only
  split
  · exact .inr hp
  · split
    · exact .inl (by rw [markBusy_scheduler, handOver_inFlight]; rfl)
    · exact .inl (by rw [handOver_inFlight]; rfl)
    · exact .inr (Nat.lt_of_le_of_lt (applySetup_shrinks ..) hp)
    · exact .inr hp

/-- Every choice leaves an operation in flight or a shorter queue. -/
theorem chooseOnce_progress (l : Fin 4) (s t : State) (h : chooseOnce l s = some t) :
    (s.scheduler l).inFlight.isNone = true ∧ ((t.scheduler l).inFlight.isSome = true ∨
      (t.scheduler l).orderQueue.length < (s.scheduler l).orderQueue.length) := by
  unfold chooseOnce at h
  split at h
  · next hm =>
    simp only [State.mayChoose, Bool.and_eq_true] at hm
    refine ⟨hm.1.1.2, ?_⟩
    unfold chooseIdle at h
    split at h
    · cases h
      exact .inl (by rw [startWindow]; simp only [handOver_inFlight, Option.isSome_some])
    · split at h
      · cases h
        exact .inl (by rw [startFetch]; simp only [markBusy_scheduler, handOver_inFlight, Option.isSome_some])
      · split at h
        · next hc =>
          cases h
          exact pickItem_progress l _ s (List.mem_of_find?_eq_some hc)
        · obtain ⟨n, _, rfl⟩ := Option.map_eq_some_iff.1 h
          exact .inl (by rw [startPoll]; simp only [markBusy_scheduler, handOver_inFlight, Option.isSome_some])
  · split at h
    · next hm =>
      simp only [State.maySetup, Bool.and_eq_true] at hm
      obtain ⟨i, hi, rfl⟩ := Option.map_eq_some_iff.1 h
      exact ⟨hm.1.2, pickItem_progress l i s (List.mem_of_find?_eq_some hi)⟩
    · cases h

theorem chooseOnce_choicesLeft (l : Fin 4) (s t : State) (h : chooseOnce l s = some t) :
    t.choicesLeft l < s.choicesLeft l := by
  obtain ⟨hn, hp⟩ := chooseOnce_progress l s t h
  simp only [Option.isNone_iff_eq_none] at hn
  simp only [State.choicesLeft, hn, Option.isSome_none, Bool.false_eq_true, if_false]
  split
  · exact Nat.succ_pos _
  · rcases hp with hp | hp
    · contradiction
    · exact Nat.succ_lt_succ hp

theorem passWindow_choicesLeft (l : Fin 4) (s : State) : (passWindow l s).choicesLeft l = s.choicesLeft l := by
  unfold passWindow
  split
  · simp [State.choicesLeft, Sched.windowAdvanced]
  · rfl

theorem windowPassed_choicesLeft (l : Fin 4) (s : State) : (s.windowPassed l).choicesLeft l = s.choicesLeft l := by
  unfold State.windowPassed
  split
  · exact passWindow_choicesLeft ..
  · rfl

/-- With as many choices as the line can make, `chooseLine` goes on until no candidate applies. -/
theorem chooseLine_chooses (f : Nat) (l : Fin 4) (s : State) (h : s.choicesLeft l < f) :
    LineChooses l s (chooseLine f l s) := by
  induction f generalizing s with
  | zero => cases h
  | succ f ih =>
    unfold chooseLine
    simp only
    change LineChooses l s (match chooseOnce l (s.windowPassed l) with
      | some s2 => chooseLine f l s2
      | none => s.windowPassed l)
    split
    · next t ht =>
      have hl := chooseOnce_choicesLeft l _ t ht
      rw [windowPassed_choicesLeft] at hl
      exact .next s t _ ht (ih t (Nat.lt_of_lt_of_le hl (Nat.le_of_lt_succ h)))
    · next ht => exact .done s ht

end Sys2Proof.Machine
end

