-- ==== Sys2Proof/Laws/Drain.lean ====
section
/-! SUPPORT. What an event ends with, once the Notice Writer is not closing: issues, and never the end of a stop. -/

set_option Elab.async false

namespace Sys2Proof.Machine

/-- A write of the close, once issued, keeps the Notice Writer busy at the port. -/
theorem issueLostTotal_busy (s : State) : (issueLostTotal s).port.busyFor .notice = true := by
  simp [issueLostTotal, State.issue, State.statusRequest, Port.busyFor, Waiting.put, Waiting.get]
theorem issueDropped_busy (s : State) : (issueDropped s).port.busyFor .notice = true := by
  simp [issueDropped, State.issue, State.statusRequest, Port.busyFor, Waiting.put, Waiting.get]

/-- While the Notice Writer is not closing it does not report itself closed. -/
theorem noticeClosed_of_open (s : State) (h : s.ntc.closing = false) : s.noticeClosed = false := by
  simp [State.noticeClosed, h]

/-- While a write of the close is due and the Notice Writer has nothing at the port, issuing leaves it busy. -/
theorem issueNotice_not_closed (s : State) (hd : s.ntc.droppedDue = true) (hc : s.ntc.closing = true) :
    (issueNotice s).noticeClosed = false := by
  unfold issueNotice
  split
  · simp [State.noticeClosed, hd]
  · split
    · simp [State.noticeClosed, hd]
    · split
      · simp [State.noticeClosed, issueLostTotal_busy]
      · simp [State.noticeClosed, issueDropped_busy]

/-- Issuing changes neither closing nor the discard. -/
theorem issueNotice_closing (s : State) : (issueNotice s).ntc.closing = s.ntc.closing ∧
    (issueNotice s).ntc.discarded = s.ntc.discarded := by
  unfold issueNotice
  split
  · simp
  · split
    · split
      · simp
      · split
        · simp [issueLostTotal]
        · split <;> simp [issueDropped]
    · split
      · simp [issueTakenRead]
      · split
        · simp [issueLostTotal]
        · split
          · unfold beginNotice
            split
            · simp
            · split <;> simp
          · simp
theorem waitForRoom_closing (s : State) (h : s.ntc.closing = true) : waitForRoom s = s := by
  simp [waitForRoom, h]
theorem waitForRoom_open (s : State) : (waitForRoom s).ntc.closing = s.ntc.closing ∧
    (waitForRoom s).ntc.discarded = s.ntc.discarded := by
  unfold waitForRoom
  split
  · unfold wantRead
    split <;> simp
  · simp

/-- When the Notice Writer is not closing as an event ends, the event does not end a stop: closing takes at least the
dropped at stop write (R164). -/
theorem drain_not_ended (s : State) (h : s.ntc.closing = false) :
    (issueNotice (waitForRoom (closeWhenQuiet (tellToClose (beginUpdate (issueJobWrite s)))))).noticeClosed = false := by
  have hn : (beginUpdate (issueJobWrite s)).ntc = s.ntc :=
    (Frame.then (l := [.port, .cells]) (issueJobWrite_frame s) (beginUpdate_frame _)).same .ntc
  generalize beginUpdate (issueJobWrite s) = u at hn
  unfold tellToClose
  split
  · unfold closeWhenQuiet
    split
    · apply issueNotice_not_closed
      · rw [waitForRoom_closing] <;> rfl
      · rw [waitForRoom_closing] <;> rfl
    · rw [waitForRoom_closing _ rfl]
      have h : (issueNotice (beginClose u)).ntc.discarded = false := (issueNotice_closing (beginClose u)).2
      simp [State.noticeClosed, h]
  · have hc : (closeWhenQuiet u) = u := by simp [closeWhenQuiet, hn, h]
    rw [hc]
    apply noticeClosed_of_open
    rw [(issueNotice_closing _).1, (waitForRoom_open _).1, hn, h]

/-- An event met while the Notice Writer is not closing ends with issues alone. -/
theorem drain_frame_of_open (s : State) (h : s.ntc.closing = false) : Frame [.port, .cells, .ntc] s (drain s) := by
  have e : ∀ u : State, u.noticeClosed = false → endStop u = u := fun u h => by simp [endStop, h]
  rw [drain_eq, e _ (drain_not_ended s h)]
  exact (beforeEnd_frame s).then (State.arbitrate_frame _)
end Sys2Proof.Machine
end

