-- ==== Sys2Proof/Laws/Follower.lean ====
section
/-! SUPPORT. What the readers of the slots depend on, and what the Chain Follower's operations do, case by case. -/

set_option Elab.async false

namespace Sys2Proof.Machine

/-! ### Readers of the slots -/

theorem State.slot_congr {s t : State} (h : t.job.slots = s.job.slots) (i : Fin 16) : t.slot i = s.slot i := by
  simp only [State.slot, h]
theorem State.slotIs_congr {s t : State} (h : t.job.slots = s.job.slots) (i : Fin 16) (p : Job → Bool) :
    t.slotIs i p = s.slotIs i p := by
  simp only [State.slotIs, State.slot_congr h]
theorem State.freeSlot_congr {s t : State} (h : t.job.slots = s.job.slots) : t.freeSlot = s.freeSlot := by
  simp only [State.freeSlot, State.slot_congr h]
theorem State.holdsRecord_congr {s t : State} (h : t.job.slots = s.job.slots) (a : Addr) :
    t.holdsRecord a = s.holdsRecord a := by
  simp only [State.holdsRecord, State.slotIs_congr h]
theorem State.takingNumber_congr {s t : State} (h : t.job.slots = s.job.slots) (i : Fin 16) :
    t.takingNumber i = s.takingNumber i := by
  simp only [State.takingNumber, State.slot_congr h]
theorem State.oldest_congr {s t : State} (h : t.job.slots = s.job.slots) (l : List (Fin 16)) :
    t.oldest l = s.oldest l := by
  induction l with
  | nil => rfl
  | cons i l ih => simp only [State.oldest, ih, State.takingNumber_congr h]

/-! ### Reads of the chain -/

/-- A read of the link word at the parking place p (R97). -/
theorem readLink_eq (s : State) (p : Addr) (h : s.job.parking = some p) : readLink s =
    { s with job := { s.job with follower := .linkRead, nudgePending := false },
             port := { s.port with waiting :=
               { s.port.waiting with follower := some (readRequest .follower .linkRead (s.linkStructure p) p 8) } } } := by
  simp only [readLink, h]
  rfl

/-- A read of the next record a (R98). -/
theorem readRecord_eq (s : State) (a : Addr) (h : s.job.nextRecord = some a) : readRecord s =
    { s with job := { s.job with follower := .recordRead, nudgePending := false },
             port := { s.port with waiting :=
               { s.port.waiting with follower := some (readRequest .follower .recordRead .chain a 128) } } } := by
  simp only [readRecord, h]
  rfl

/-- With a FREE slot the next record is read. -/
theorem readOrPause_free (s : State) (i : Fin 16) (h : s.freeSlot = some i) : readOrPause s = readRecord s := by
  simp only [readOrPause, h]

/-- With every slot in use the follower pauses (R105). -/
theorem readOrPause_full (s : State) (h : s.freeSlot = none) : readOrPause s = s.setFollower .paused := by
  simp only [readOrPause, h]

/-- A re-read from PARKED_LINK (R102). -/
theorem reread_parkedLink (s : State) (h : s.job.follower = .parkedLink) :
    reread s = readLink { s with job := { s.job with rereadOf := some .link } } := by
  simp only [reread, h]

/-- A re-read from PARKED_RECORD (R102). -/
theorem reread_parkedRecord (s : State) (h : s.job.follower = .parkedRecord) :
    reread s = readOrPause { s with job := { s.job with rereadOf := some .record } } := by
  simp only [reread, h]

/-- Parking without a NUDGE pending: the parking write, and the parked state (R102). -/
theorem park_quiet (p : Parked) (s : State) (h : s.job.nudgePending = false) : park p s =
    { parkingWrite p s with
      job := { (parkingWrite p s).job with follower := p.follower, rereadOf := none } } := by
  have hn : (parkingWrite p s).job.nudgePending = false := by
    have hc := (parkingWrite_frame p s).same .chain
    simp only [Piece.Same] at hc
    rw [hc]
    exact h
  simp [park, hn]

/-- A link of 0 parks the follower (R98). -/
theorem followLink_zero (place : Addr) (s : State) : followLink place 0 s = park .link s := by
  simp [followLink]

/-- A misaligned link halts the part (R98, R99). -/
theorem followLink_misaligned (place v : Addr) (s : State) (h : v ≠ 0) (ha : aligned 128 v = false) :
    followLink place v s = haltAlign place s := by
  unfold followLink
  rw [if_neg h]
  simp [ha]

/-- An aligned link becomes the next record (R98). -/
theorem followLink_aligned (place v : Addr) (s : State) (h : v ≠ 0) (ha : aligned 128 v = true) :
    followLink place v s = readOrPause { s with job := { s.job with nextRecord := some v } } := by
  unfold followLink
  rw [if_neg h]
  simp [ha]

/-- A link that is 0 or aligned halts nothing: the follower's own items, the write list and the port change alone. -/
theorem followLink_frame_of_aligned (place v : Addr) (s : State) (ha : aligned 128 v = true) :
    Frame [.chain, .slots, .port] s (followLink place v s) := by
  by_cases h : v = 0
  · subst h
    rw [followLink_zero]
    exact park_frame ..
  · rw [followLink_aligned place v s h ha]
    refine Frame.then (l₁ := [.chain]) ?_ (readOrPause_frame _)
    exact ⟨by intro p hp; cases p <;> first | exact rfl | exact ⟨rfl, rfl, rfl⟩ | exact ⟨rfl, rfl⟩ | exact absurd (by decide) hp⟩

/-- Following a link changes no slot and no tally: of the Job Slot Table's items the write list alone. -/
theorem followLink_slots (place v : Addr) (s : State) (ha : aligned 128 v = true) :
    (followLink place v s).job.slots = s.job.slots ∧ (followLink place v s).job.doneTally = s.job.doneTally ∧
      (followLink place v s).job.takingCount = s.job.takingCount := by
  have rp : ∀ u : State, (readOrPause u).job.slots = u.job.slots ∧ (readOrPause u).job.doneTally = u.job.doneTally ∧
      (readOrPause u).job.takingCount = u.job.takingCount := by
    intro u
    have f := readOrPause_frame u
    have a := f.same .slots
    refine ⟨a.1, a.2.1, ?_⟩
    simp only [readOrPause, readRecord]
    split
    · split <;> rfl
    · rfl
  have rr : ∀ u : State, (reread u).job.slots = u.job.slots ∧ (reread u).job.doneTally = u.job.doneTally ∧
      (reread u).job.takingCount = u.job.takingCount := by
    intro u
    unfold reread
    split
    · simp only [readLink]
      split <;> exact ⟨rfl, rfl, rfl⟩
    · exact rp _
    · exact ⟨rfl, rfl, rfl⟩
  by_cases h : v = 0
  · subst h
    have pw : (parkingWrite .link s).job.slots = s.job.slots ∧ (parkingWrite .link s).job.doneTally = s.job.doneTally ∧
        (parkingWrite .link s).job.takingCount = s.job.takingCount := by
      unfold parkingWrite
      split
      · exact ⟨rfl, rfl, rfl⟩
      · split <;> exact ⟨rfl, rfl, rfl⟩
    rw [followLink_zero]
    simp only [park]
    split
    · refine ⟨(rr _).1.trans pw.1, (rr _).2.1.trans pw.2.1, (rr _).2.2.trans pw.2.2⟩
    · exact pw
  · rw [followLink_aligned place v s h ha]
    exact rp _

end Sys2Proof.Machine
end

