-- ==== Sys2Proof/Laws/WorkLaw.lean ====
section
/-! SUPPORT. What the work of an event can do to the station entries and to the hold buffer, said once: `WorkLaw Q` lists
the changes that the part makes to them (R3 to R26, R31 to R33, R155 to R157), and every shared operation keeps Q when
these changes do. -/

set_option Elab.async false

namespace Sys2Proof.Machine

/-- Q is kept by each change that the part makes to an entry or to the hold buffer. -/
structure WorkLaw (Q : State → Prop) : Prop where
  shrink : ∀ {l s t}, Frame l s t → l.contains .entries = false → t.ntc.held.length ≤ s.ntc.held.length →
    t.ntc.reserved = s.ntc.reserved → Q s → Q t
  empty : ∀ {s}, s.entries = Vector.replicate 64 Entry.vacant → s.ntc.held = [] →
    s.ntc.reserved = Vector.replicate 4 false → Q s
  notice : ∀ {t s}, Q s → Q (requestNotice t s)
  fill : ∀ {l t s}, Q s → Q (fillReservation l t s)
  release : ∀ {l s}, Q s → Q (releaseReservation l s)
  reserve : ∀ {l s}, Q s → s.canReserve = true → Q (s.setReserved l true)
  vacant : ∀ {n s}, Q s → Q (s.setEntry n Entry.vacant)
  enlist : ∀ {n s} now l p, Q s → Q (s.setEntry n (enlisted now l p))
  good : ∀ {n s} now k o v p, Q s → (s.entry n).state ≠ .vacant →
    Q (s.setEntry n (goodEntry now k o v p (s.entry n)))
  failed : ∀ {n s} k, Q s → (s.entry n).state ≠ .vacant → Q (s.setEntry n (failedEntry k (s.entry n)))
  mark : ∀ {n s} now, Q s → (s.entry n).state ≠ .vacant → Q (s.setEntry n (markEntry now (s.entry n)))
  latch : ∀ {n s}, Q s → (s.entry n).state ≠ .vacant → Q (s.setEntry n { s.entry n with latch := true })
  held : ∀ {n s}, Q s → (s.entry n).state ≠ .vacant ∨ (s.entry n).holdPending = true →
    Q (s.setEntry n { s.entry n with state := .held, holdPending := false, quietDeadline := none })
  mute : ∀ {n s}, Q s → (s.entry n).state = .live →
    Q (s.setEntry n { s.entry n with state := .mute, quietDeadline := none })
  off : ∀ {s} now l, Q s → Q (s.mapEntries (lineOffEntry now l))
  unhold : ∀ {s}, Q s → Q (s.mapEntries (fun e => { e with holdPending := false }))
  clear : ∀ {n s}, Q s → (s.entry n).state ≠ .vacant →
    Q (s.setEntry n { s.entry n with latch := false, holdPending := false })
  leaving : ∀ {n s}, Q s → (s.entry n).state ≠ .vacant →
    Q (s.setEntry n { s.entry n with state := .leaving, quietDeadline := none })
  pend : ∀ {n s}, Q s → (s.entry n).state ≠ .vacant → Q (s.setEntry n { s.entry n with holdPending := true })
  releaseHeld : ∀ {n s} now, Q s → (s.entry n).state = .held →
    Q (s.setEntry n { s.entry n with state := .joining, dueTime := now })
  retune : ∀ {n s} now p, Q s → (s.entry n).state ≠ .vacant → (s.entry n).state ≠ .leaving →
    Q (s.setEntry n (retuned now p (s.entry n)))
  due : ∀ {n s} x, Q s → (s.entry n).state ≠ .vacant → Q (s.setEntry n { s.entry n with dueTime := x })
  busy : ∀ {n s} x, Q s → (s.entry n).state ≠ .vacant →
    Q (s.setEntry n { s.entry n with busy := true, lastPollStart := x })

theorem State.entry_congr {s t : State} (h : t.entries = s.entries) (n : Fin 64) : t.entry n = s.entry n := by
  simp only [State.entry, h]

/-- An entry stays as it is under a frame that leaves the entries alone. -/
theorem Frame.entry {l : List Piece} {s t : State} (f : Frame l s t) (n : Fin 64)
    (hl : l.contains .entries = false := by decide) : t.entry n = s.entry n := by
  have e := f.same .entries hl
  simp only [Piece.Same] at e
  exact State.entry_congr e n

/-- Q is kept by an operation that leaves entries and notices alone. -/
theorem WorkLaw.frame {Q : State → Prop} (L : WorkLaw Q) {l : List Piece} {s t : State} (f : Frame l s t) (h : Q s)
    (he : l.contains .entries = false := by decide) (hn : l.contains .ntc = false := by decide) : Q t := by
  have e := f.same .ntc hn
  simp only [Piece.Same] at e
  exact L.shrink f he (Nat.le_of_eq (by rw [e])) (by rw [e]) h

theorem WorkLaw.ite {Q : State → Prop} {c : Prop} [Decidable c] {s t : State} (h : c → Q s) (k : ¬ c → Q t) :
    Q (if c then s else t) := by
  split
  · next e => exact h e
  · next e => exact k e

theorem EntryState.called_ne_vacant {x : EntryState} (h : x.called = true) : x ≠ .vacant := by
  cases x <;> simp_all [EntryState.called]

theorem State.freeCount_frame (s : State) : Frame [.free] s { s with freeCount := s.freeCount + 1 } := by
  refine ⟨fun p hp => ?_⟩
  cases p <;> first | exact rfl | exact ⟨rfl, rfl, rfl⟩ | exact ⟨rfl, rfl⟩ | exact absurd (by decide) hp

/-! ### The hold buffer only shrinks as requests are issued -/

theorem waitForRoom_buffer (s : State) : (waitForRoom s).ntc.held = s.ntc.held ∧
    (waitForRoom s).ntc.reserved = s.ntc.reserved := by
  unfold waitForRoom wantRead
  (repeat' split) <;> exact ⟨rfl, rfl⟩
theorem issueNotice_buffer (s : State) : (issueNotice s).ntc.held = s.ntc.held ∧
    (issueNotice s).ntc.reserved = s.ntc.reserved := by
  unfold issueNotice issueLostTotal issueDropped issueTakenRead beginNotice
  (repeat' split) <;> exact ⟨rfl, rfl⟩
theorem tellToClose_buffer (s : State) : (tellToClose s).ntc.held = s.ntc.held ∧
    (tellToClose s).ntc.reserved = s.ntc.reserved := by
  unfold tellToClose
  split <;> exact ⟨rfl, rfl⟩
theorem closeWhenQuiet_buffer (s : State) : (closeWhenQuiet s).ntc.held.length ≤ s.ntc.held.length ∧
    (closeWhenQuiet s).ntc.reserved = s.ntc.reserved := by
  unfold closeWhenQuiet
  split
  · exact ⟨by simp [discardHeld], rfl⟩
  · exact ⟨Nat.le_refl _, rfl⟩

/-- Before the end of a stop, the end of an event lets the hold buffer shrink alone. -/
theorem beforeEnd_buffer (s : State) :
    (issueNotice (waitForRoom (closeWhenQuiet (tellToClose (beginUpdate (issueJobWrite s)))))).ntc.held.length ≤
      s.ntc.held.length ∧
    (issueNotice (waitForRoom (closeWhenQuiet (tellToClose (beginUpdate (issueJobWrite s)))))).ntc.reserved =
      s.ntc.reserved := by
  have hn : (beginUpdate (issueJobWrite s)).ntc = s.ntc :=
    (Frame.then (l := [.port, .cells]) (issueJobWrite_frame s) (beginUpdate_frame _)).same .ntc
  generalize beginUpdate (issueJobWrite s) = u at hn
  rw [(issueNotice_buffer _).1, (waitForRoom_buffer _).1, (issueNotice_buffer _).2, (waitForRoom_buffer _).2,
    (closeWhenQuiet_buffer _).2, (tellToClose_buffer _).2, hn]
  refine ⟨Nat.le_trans (closeWhenQuiet_buffer _).1 ?_, rfl⟩
  exact Nat.le_of_eq (by rw [(tellToClose_buffer _).1, hn])

section
variable {Q : State → Prop}

variable (L : WorkLaw Q)
include L

/-! ### Stations -/

theorem WorkLaw.expireQuiet {n : Fin 64} {s : State} (h : Q s) (hl : (s.entry n).state = .live) :
    Q (expireQuiet n s) := by
  unfold Machine.expireQuiet
  exact L.frame (requestCell_frame ..) (L.notice (L.mute h hl))
theorem WorkLaw.setLatch {n : Fin 64} {s : State} (h : Q s) (hv : (s.entry n).state ≠ .vacant) :
    Q (setLatch n s) := by
  unfold Machine.setLatch
  simp only
  split
  · exact h
  · exact L.frame (State.setSched_frame ..) (L.latch h hv)
theorem WorkLaw.takeFlag {n : Fin 64} {v : Byte} {s : State} (h : Q s) : Q (takeFlag n v s) := by
  unfold Machine.takeFlag
  split
  · next c =>
    simp only [Bool.and_eq_true] at c
    exact L.setLatch h (EntryState.called_ne_vacant c.2)
  · exact h
theorem WorkLaw.becomeHeld {n : Fin 64} {s : State} (h : Q s)
    (hv : (s.entry n).state ≠ .vacant ∨ (s.entry n).holdPending = true) : Q (becomeHeld n s) :=
  L.frame (requestCell_frame ..) (L.held h hv)
theorem WorkLaw.checkHold {n : Fin 64} {s : State} (h : Q s) : Q (checkHold n s) := by
  unfold Machine.checkHold
  simp only
  split
  · next c =>
    simp only [Bool.and_eq_true] at c
    exact L.frame (completeWaiting_frame ..) (L.becomeHeld h (.inr c.1.1))
  · exact h
theorem WorkLaw.settleHold {n : Fin 64} {s : State} (h : Q s) : Q (settleHold n s) :=
  L.checkHold (L.frame (orderWrongState_frame n s) h)
theorem WorkLaw.becomeVacant {n : Fin 64} {s : State} (h : Q s) : Q (becomeVacant n s) := by
  unfold Machine.becomeVacant
  exact L.frame (requestCell_frame ..) (L.vacant (L.notice h))
theorem WorkLaw.leave {n : Fin 64} {s : State} (h : Q s) : Q (leave n s) :=
  L.frame (completeWaiting_frame ..) (L.becomeVacant h)
theorem WorkLaw.requestStation {n : Fin 64} {x : Option (NoticeKind × List Byte)} {s : State} (h : Q s) :
    Q (requestStation n x s) := by
  unfold Machine.requestStation
  split
  · exact L.notice h
  · exact h
theorem WorkLaw.endFetch {n : Fin 64} {o : CallOutcome} {p : List Byte} {s : State} (h : Q s) :
    Q (endFetch n o p s) := by
  unfold Machine.endFetch
  simp only
  split
  · exact L.fill h
  · exact L.release h
theorem WorkLaw.takeGood {n : Fin 64} {k : CallKind} {o : CallOutcome} {v : Byte} {p : List Byte} {s : State}
    (h : Q s) (hv : (s.entry n).state ≠ .vacant) : Q (takeGood n k o v p s) := by
  unfold Machine.takeGood
  refine L.takeFlag ?_
  have a := L.requestStation (n := n) (x := goodNotice k o p (s.entry n))
    (L.good s.tb.now k o v p h hv)
  have c := L.frame (requestCell_frame n _) a
  split <;> split
  · exact L.endFetch c
  · exact L.endFetch a
  · exact c
  · exact a
theorem WorkLaw.takeFailed {n : Fin 64} {k : CallKind} {s : State} (h : Q s)
    (hv : (s.entry n).state ≠ .vacant) : Q (takeFailed n k s) := by
  have a := L.failed k h hv
  unfold Machine.takeFailed
  refine WorkLaw.ite (fun _ => L.release ?_) (fun _ => ?_) <;>
    exact WorkLaw.ite (fun _ => L.frame (requestCell_frame ..) a) (fun _ => a)
theorem WorkLaw.applyOutcome {n : Fin 64} {k : CallKind} {o : CallOutcome} {a : Option (Byte × List Byte)}
    {s : State} (h : Q s) : Q (applyOutcome n k o a s) := by
  unfold Machine.applyOutcome
  split
  · exact h
  · next hv =>
    split
    · exact L.takeGood h hv
    · exact L.takeFailed h hv
theorem WorkLaw.takeMark {n : Fin 64} {s : State} (h : Q s) : Q (takeMark n s) := by
  unfold Machine.takeMark
  simp only
  split
  · exact h
  · next hv =>
    have hv' : (s.entry n).state ≠ .vacant := fun e => hv (.inl e)
    have hs : (markEntry s.tb.now (s.entry n)).state = (s.entry n).state := by
      unfold markEntry loadQuiet
      split <;> (try split) <;> rfl
    refine L.settleHold (L.setLatch (L.mark _ h hv') ?_)
    rw [State.entry_setEntry_self, hs]
    exact hv'
theorem WorkLaw.lineOffStations {l : Fin 4} {s : State} (h : Q s) : Q (lineOffStations l s) :=
  L.frame (requestCells_frame ..) (L.off s.tb.now l h)

/-! ### Lines -/

theorem WorkLaw.advanceDue {n : Fin 64} {b : Bool} {s : State} (h : Q s) : Q (advanceDue n b s) := by
  unfold Machine.advanceDue
  simp only
  split
  · exact h
  · split
    · next p hp =>
      refine L.due _ h ?_
      intro e
      simp [State.pollingPeriod, e] at hp
    · exact h
theorem WorkLaw.callEnded {l : Fin 4} {o : CallOutcome} {k : Nat} {a : Option (Byte × List Byte)} {s : State}
    (h : Q s) : Q (callEnded l o k a s) := by
  have c := L.frame (State.clearFlight_frame s l) h
  unfold Machine.callEnded
  split
  · exact WorkLaw.ite (fun _ => L.leave c) (fun _ => L.advanceDue (L.settleHold (L.applyOutcome c)))
  · exact WorkLaw.ite (fun _ => L.leave (L.release c))
      (fun _ => L.settleHold (L.applyOutcome c))
  · exact WorkLaw.ite (fun _ => L.leave (L.frame (completeJob_frame ..) c))
      (fun _ => L.settleHold (L.frame (completeJob_frame ..) (L.applyOutcome c)))
  · exact h
  · exact h
  · exact h
theorem WorkLaw.endCall {l : Fin 4} {o : CallOutcome} {s : State} (h : Q s) : Q (endCall l o s) :=
  L.callEnded (L.frame (State.setEngine_frame ..) h)
theorem WorkLaw.endAttempt {l : Fin 4} {o : CallOutcome} {b : Nat} {s : State} (h : Q s) :
    Q (endAttempt l o b s) := by
  unfold Machine.endAttempt
  simp only
  split
  · exact L.frame (State.setEngine_frame ..) h
  · exact L.endCall (L.frame (State.setEngine_frame ..) h)
theorem WorkLaw.answerCharacter {l : Fin 4} {b : Nat} {v : Byte} {s : State} (h : Q s) :
    Q (answerCharacter l b v s) := by
  have a : ∀ e, Q (s.setEngine l e) := fun e => L.frame (State.setEngine_frame ..) h
  unfold Machine.answerCharacter
  simp only
  repeat' split
  all_goals first
    | with_reducible exact a _
    | with_reducible exact L.endAttempt (a _)
theorem WorkLaw.slotCharacter {l : Fin 4} {k : Nat} {v : Byte} {s : State} (h : Q s) :
    Q (slotCharacter l k v s) := by
  have a : ∀ e, Q (s.setEngine l e) := fun e => L.frame (State.setEngine_frame ..) h
  unfold Machine.slotCharacter
  simp only
  repeat' split
  all_goals first
    | with_reducible exact a _
    | with_reducible exact L.takeMark (a _)
    | exact a _
theorem WorkLaw.takeCharacter {l : Fin 4} {b : Nat} {v : Byte} {s : State} (h : Q s) :
    Q (takeCharacter l b v s) := by
  have a : Q (strayCharacter l s) := L.frame (strayCharacter_frame ..) h
  unfold Machine.takeCharacter
  simp only
  repeat' split
  all_goals first
    | with_reducible exact a
    | with_reducible exact L.answerCharacter h
    | with_reducible exact L.slotCharacter h
    | with_reducible exact h
theorem WorkLaw.turnaroundOut {l : Fin 4} {s : State} (h : Q s) : Q (turnaroundOut l s) := by
  unfold Machine.turnaroundOut
  simp only
  repeat' split
  all_goals first
    | with_reducible exact h
    | with_reducible exact L.frame (State.setEngine_frame ..) h
    | with_reducible exact L.endAttempt h
theorem WorkLaw.gapOut {l : Fin 4} {s : State} (h : Q s) : Q (gapOut l s) := by
  unfold Machine.gapOut
  simp only
  repeat' split
  all_goals first
    | with_reducible exact h
    | with_reducible exact L.frame (State.setEngine_frame ..) h
    | with_reducible exact L.endAttempt h
theorem WorkLaw.confirmStart {l : Fin 4} {b : Nat} {s : State} (h : Q s) :
    Q (confirmStart l b s) := by
  have a : ∀ e, Q (s.setEngine l e) := fun e => L.frame (State.setEngine_frame ..) h
  unfold Machine.confirmStart
  simp only
  repeat' split
  all_goals first
    | with_reducible exact a _
    | with_reducible exact L.turnaroundOut (a _)
    | with_reducible exact L.gapOut (a _)
theorem WorkLaw.foundStuck {l : Fin 4} {s : State} (h : Q s) : Q (foundStuck l s) := by
  have a : ∀ e t, Q (requestNotice t (s.setEngine l e)) := fun e t =>
    L.notice (L.frame (State.setEngine_frame ..) h)
  unfold Machine.foundStuck
  simp only
  split
  · exact L.endCall (a _ _)
  · exact L.frame (windowEnded_frame ..) (L.frame (State.setEngine_frame ..) (a _ _))
  · exact a _ _
  · exact a _ _

/-! ### Choices -/

theorem WorkLaw.markBusy {n : Fin 64} {k : CallKind} {s : State} (h : Q s) : Q (markBusy n k s) := by
  unfold Machine.markBusy
  simp only
  split
  · exact h
  · next hv => exact L.busy _ h hv
theorem WorkLaw.completeLineOff {l : Fin 4} {is : List (Fin 16)} {s : State} (h : Q s) :
    Q (completeLineOff l is s) := by
  induction is generalizing s with
  | nil => exact h
  | cons i is ih =>
    unfold Machine.completeLineOff
    simp only
    have a := L.frame (completeJob_frame i (.plain .lineOff) _)
      (L.frame (State.setSched_frame s l ((s.scheduler l).keepOrders (· != i))) h)
    refine ih ?_
    split
    · exact L.settleHold a
    · exact a
theorem WorkLaw.disableLine {l : Fin 4} {s : State} (h : Q s) : Q (disableLine l s) := by
  unfold Machine.disableLine
  exact L.completeLineOff (L.frame (State.setSched_frame ..)
    (L.lineOffStations (L.frame (State.setEngine_frame ..) h)))
theorem WorkLaw.applySetup {l : Fin 4} {i : Fin 16} {p : SetupParams} {s : State} (h : Q s) :
    Q (applySetup l i p s) := by
  have a : ∀ e q, Q ((s.setEngine l e).setSched l q) := fun e q =>
    L.frame (State.setSched_frame ..) (L.frame (State.setEngine_frame ..) h)
  unfold Machine.applySetup
  simp only
  refine L.frame (completeJob_frame ..) ?_
  split
  · exact L.frame (enableLine_frame ..) (a _ _)
  · exact L.disableLine (a _ _)
theorem WorkLaw.pickItem {l : Fin 4} {i : Fin 16} {s : State} (h : Q s) : Q (pickItem l i s) := by
  have a := L.frame (State.setSched_frame s l ((s.scheduler l).picked i)) h
  have m := L.frame (State.modSlot_frame _ i (fun j => { j with state := .onWire })) a
  unfold Machine.pickItem
  simp only
  repeat' split
  all_goals first
    | with_reducible exact a
    | with_reducible exact L.markBusy (L.frame (handOver_frame ..) m)
    | with_reducible exact L.frame (handOver_frame ..) m
    | with_reducible exact L.applySetup a
theorem WorkLaw.chooseOnce {l : Fin 4} {s t : State} (h : Q s) (e : chooseOnce l s = some t) :
    Q t := by
  unfold Machine.chooseOnce at e
  split at e
  · unfold chooseIdle at e
    split at e
    · cases e
      exact L.frame (startWindow_frame ..) h
    · split at e
      · next hr _ =>
        cases e
        unfold startFetch
        exact L.markBusy (L.frame (handOver_frame ..) (L.frame (State.setSched_frame ..)
          (L.reserve h hr)))
      · split at e
        · cases e
          exact L.pickItem h
        · obtain ⟨n, -, rfl⟩ := Option.map_eq_some_iff.mp e
          unfold startPoll
          exact L.markBusy (L.frame (handOver_frame ..) (L.frame (State.setSched_frame ..) h))
  · split at e
    · obtain ⟨n, -, rfl⟩ := Option.map_eq_some_iff.mp e
      exact L.pickItem h
    · cases e
theorem WorkLaw.chooseLine {f : Nat} {l : Fin 4} {s : State} (h : Q s) : Q (chooseLine f l s) := by
  induction f generalizing s with
  | zero => exact h
  | succ f ih =>
    have a : Q (if s.mayChoose l then passWindow l s else s) :=
      WorkLaw.ite (fun _ => L.frame (passWindow_frame ..) h) (fun _ => h)
    unfold Machine.chooseLine
    simp only
    split
    · next t e => exact ih (L.chooseOnce a e)
    · exact a
theorem WorkLaw.chooseLines {ls : List (Fin 4)} {s : State} (h : Q s) : Q (chooseLines ls s) := by
  induction ls generalizing s with
  | nil => exact h
  | cons l ls ih => exact ih (L.chooseLine h)
theorem WorkLaw.chooseAll {s : State} (h : Q s) : Q (chooseAll s) :=
  WorkLaw.ite (fun _ => L.chooseLines (L.frame (State.freeCount_frame s) h)) (fun _ => L.chooseLines h)

/-! ### The end of an event -/

theorem WorkLaw.drain {s : State} (h : Q s) : Q (drain s) := by
  rw [drain_eq]
  refine L.frame (State.arbitrate_frame _) ?_
  have a := L.shrink (beforeEnd_frame s) (by decide) (beforeEnd_buffer s).1 (beforeEnd_buffer s).2 h
  unfold endStop
  split
  · exact L.empty rfl rfl rfl
  · exact a
theorem WorkLaw.settle {s : State} (h : Q s) : Q (settle s) := L.drain (L.chooseAll h)

/-! ### Jobs -/

theorem WorkLaw.clearGround {n : Fin 64} {s : State} (h : Q s) (hv : (s.entry n).state ≠ .vacant) :
    Q (clearGround n s) := by
  have d := dropOrders_frame n .stationGone s
  have a : ∀ q l g l', Q ((((dropOrders n .stationGone s).setSched l q).setEngine l' g).setEntry n
      { (dropOrders n .stationGone s).entry n with latch := false, holdPending := false }) := by
    intro q l g l'
    have b := L.frame (State.setEngine_frame _ l' g) (L.frame (State.setSched_frame _ l q) (L.frame d h))
    exact L.clear b (by
      rw [State.entry_setEngine_eq, State.entry_setSched_eq, d.entry]
      exact hv)
  unfold Machine.clearGround
  simp only
  split
  · exact L.frame (completeWaiting_frame ..) (a _ _ _ _)
  · exact a _ _ _ _
omit L in
theorem clearGround_state (n : Fin 64) (s : State) : ((clearGround n s).entry n).state = (s.entry n).state := by
  have d := dropOrders_frame n .stationGone s
  have a : ∀ q l g l', (((((dropOrders n .stationGone s).setSched l q).setEngine l' g).setEntry n
      { (dropOrders n .stationGone s).entry n with latch := false, holdPending := false }).entry n).state =
      (s.entry n).state := by
    intro q l g l'
    rw [State.entry_setEntry_self, d.entry]
  unfold Machine.clearGround
  simp only
  split
  · rw [(completeWaiting_frame ..).entry]
    exact a ..
  · exact a ..
theorem WorkLaw.dispatchJob {i : Fin 16} {s : State} (h : Q s) : Q (dispatchJob i s) := by
  have fin : ∀ {r : JobResult} {u : State}, Q u → Q (finish i r u) := fun hu =>
    L.frame (finish_frame ..) hu
  have enq : ∀ {l : Fin 4}, Q (enqueue l i s) := L.frame (enqueue_frame ..) h
  unfold Machine.dispatchJob
  split
  · exact h
  · split
    · exact fin h
    · split
      · exact fin h
      · split
        · unfold jobSetupLine
          split
          · exact fin h
          · exact WorkLaw.ite (fun _ => enq) (fun _ => fin h)
        · unfold jobLineStatus
          split
          · exact fin h
          · exact L.frame (completeJob_frame ..)
              (WorkLaw.ite (fun _ => L.frame (State.setEngine_frame ..) h) (fun _ => h))
        · unfold jobEnlist
          simp only
          split
          · exact WorkLaw.ite (fun _ => fin h) (fun _ => WorkLaw.ite (fun _ => fin h)
              (fun _ => WorkLaw.ite (fun _ => fin h)
                (fun _ => fin (L.frame (requestCell_frame ..) (L.enlist _ _ _ h)))))
          · exact fin h
        · unfold jobDelist
          split
          · exact fin h
          · next n _ =>
            refine WorkLaw.ite (fun _ => fin h) (fun hv => ?_)
            have hv' : (s.entry n).state ≠ .vacant := fun e => hv (.inl e)
            have c := L.clearGround h hv'
            refine WorkLaw.ite (fun _ => L.frame (setSlotState_frame ..) (L.leaving c ?_))
              (fun _ => fin (L.becomeVacant c))
            rw [clearGround_state]
            exact hv'
        · unfold jobHold
          split
          · exact fin h
          · next n _ =>
            refine WorkLaw.ite (fun _ => fin h) (fun hv => ?_)
            have hv' : (s.entry n).state ≠ .vacant := fun e => hv (.inl e)
            exact WorkLaw.ite (fun _ => fin h) (fun _ => WorkLaw.ite
              (fun _ => fin (L.becomeHeld h (.inl hv')))
              (fun _ => L.settleHold (L.frame (setSlotState_frame ..) (L.pend h hv'))))
        · unfold jobRelease
          split
          · exact fin h
          · next n _ =>
            refine WorkLaw.ite (fun _ => fin h) (fun hv => ?_)
            exact fin (L.frame (requestCell_frame ..) (L.releaseHeld _ h (by simpa using hv)))
        · unfold jobRetune
          split
          · exact fin h
          · next n _ =>
            refine WorkLaw.ite (fun _ => fin h) (fun _ => WorkLaw.ite (fun _ => fin h) (fun hv => fin ?_))
            have hv' : (s.entry n).state ≠ .vacant := fun e => hv (.inl e)
            have a := fun p => L.retune s.tb.now p h hv' (fun e => hv (.inr e))
            have d := fun p => WorkLaw.ite (c := (s.entry n).state = .live)
              (fun _ => L.frame (noteDueSet_frame n _) (a p)) (fun _ => a p)
            refine WorkLaw.ite (fun c => L.expireQuiet (d _) ?_) (fun _ => d _)
            have hl : (s.entry n).state = .live := by
              simp only [retuneExpires, Bool.and_eq_true, beq_iff_eq] at c
              exact c.1.1
            rw [if_pos hl, (noteDueSet_frame ..).entry, State.entry_setEntry_self]
            simp only [retuned]
            rw [if_pos hl]
            exact hl
        · unfold jobOrder
          split
          · exact fin h
          · exact WorkLaw.ite (fun _ => fin h) (fun _ => WorkLaw.ite (fun _ => fin h)
              (fun _ => WorkLaw.ite (fun _ => fin h) (fun _ => enq)))
        · unfold jobBroadcast
          split
          · exact fin h
          · exact WorkLaw.ite (fun _ => fin h) (fun _ => enq)
        · unfold jobCancel
          split
          · exact fin h
          · refine WorkLaw.ite (fun _ => ?_)
              (fun _ => WorkLaw.ite (fun _ => fin (L.frame (finish_frame ..) h)) (fun _ => fin h))
            split
            · refine fin ?_
              unfold cancelItem
              simp only
              have a := fun l k => L.frame (finish_frame k .cancelled _)
                (L.frame (State.setSched_frame s l ((s.scheduler l).keepOrders (· != k))) h)
              split
              · exact L.settleHold (a _ _)
              · exact a _ _
            · exact fin h
        · exact WorkLaw.ite (fun _ => fin h) (fun _ => L.frame (State.modSlot_frame ..) h)
theorem WorkLaw.judgeRecord {a : Addr} {r : JobRecord} {s : State} (h : Q s) :
    Q (judgeRecord a r s) := by
  have p := L.frame (park_frame .record s) h
  unfold Machine.judgeRecord
  refine WorkLaw.ite (fun _ => WorkLaw.ite (fun _ => L.frame (haltAlign_frame ..) h)
    (fun _ => WorkLaw.ite (fun _ => p) (fun _ => ?_))) (fun _ => p)
  unfold takeRecord
  split
  · exact L.dispatchJob (L.frame (followLink_frame ..) (L.frame (claimSlot_frame ..) h))
  · exact L.frame (State.setFollower_frame ..) h
theorem WorkLaw.recordReturned {r : JobRecord} {s : State} (h : Q s) : Q (recordReturned r s) := by
  have a := L.frame (State.served_frame s) h
  unfold Machine.recordReturned
  split
  · simp only
    split
    · exact L.settle (L.judgeRecord a)
    · exact L.settle a
  · exact h

end

end Sys2Proof.Machine
end

