-- ==== Sys2Proof/Laws/Steps.lean ====
section
/-! SUPPORT. What a command can do to the station entries and the hold buffer: whatever keeps a `WorkLaw` is kept by every
command. -/

set_option Elab.async false

namespace Sys2Proof.Machine

variable {Q : State → Prop} (L : WorkLaw Q)
include L

/-- Q is kept when entries and notices are the same. -/
theorem WorkLaw.keep {s t : State} (h : Q s) (he : t.entries = s.entries) (hn : t.ntc = s.ntc) : Q t :=
  L.shrink (l := [.pending, .pins, .tb, .causes, .control, .port, .chain, .slots, .sched, .eng, .cells, .editions,
      .free, .ntc])
    ⟨fun p hp => by cases p <;> first | exact he | exact absurd (by decide) hp⟩ (by decide)
    (Nat.le_of_eq (by rw [hn])) (by rw [hn]) h
theorem WorkLaw.nudgeRead {s : State} (h : Q s) : Q (nudgeRead s) := by
  refine L.shrink (nudgeRead_frame s) (by decide) ?_ ?_ h <;> unfold Machine.nudgeRead <;> (repeat' split) <;> simp
theorem WorkLaw.wantRead {s : State} (h : Q s) : Q (wantRead s) := by
  refine L.shrink (wantRead_frame s) (by decide) ?_ ?_ h <;> unfold Machine.wantRead <;> (repeat' split) <;> simp
theorem WorkLaw.noticeWritten {s : State} (h : Q s) : Q (noticeWritten s) :=
  L.shrink (noticeWritten_frame s) (by decide) (Nat.le_refl _) rfl h
theorem WorkLaw.noticeCounted {s : State} (h : Q s) : Q (noticeCounted s) := by
  refine L.shrink (noticeCounted_frame s) (by decide) ?_ ?_ h <;> unfold Machine.noticeCounted <;>
    (repeat' split) <;> simp
theorem WorkLaw.adoptTaken {v : Word} {s : State} (h : Q s) : Q (adoptTaken v s) := by
  refine L.shrink (adoptTaken_frame v s) (by decide) ?_ ?_ h <;> simp only [Machine.adoptTaken] <;>
    (repeat' split) <;> simp

theorem WorkLaw.whenServed {k : RequestKind} {f : State → State} {s : State} (h : Q s)
    (hf : Q s.served → Q (f s.served)) : Q (whenServed k f s) := by
  unfold Machine.whenServed
  split
  · exact hf (L.frame (State.served_frame s) h)
  · exact h
theorem WorkLaw.whenStarting {p : Phase} {k : RequestKind} {f : State → State} {s : State} (h : Q s)
    (hf : Q s.served → Q (f s.served)) : Q (whenStarting p k f s) := by
  have a := L.frame (State.served_frame s) h
  unfold Machine.whenStarting
  split
  · split
    · exact L.frame (endStarting_frame _) a
    · exact hf a
  · exact h
theorem WorkLaw.takeNudge {s : State} (h : Q s) : Q (takeNudge s) :=
  L.drain (L.nudgeRead (L.frame (nudgeFollower_frame s) h))
omit L in
theorem abortJobs_frame (is : List (Fin 16)) (s : State) : Frame [.slots] s (abortJobs is s) := by
  induction is generalizing s with
  | nil => exact Frame.refl ..
  | cons i is ih => exact (decideJob_frame ..).trans (ih _)
theorem WorkLaw.beginStop {s : State} (h : Q s) : Q (beginStop s) := by
  unfold Machine.beginStop
  simp only
  refine L.unhold ?_
  refine L.frame (abortJobs_frame _ _) ?_
  refine L.frame (abortJobs_frame _ _) ?_
  refine L.frame (abortJobs_frame _ _) ?_
  exact L.keep h rfl rfl
theorem WorkLaw.takeCommand {v : Word} {s : State} (h : Q s) : Q (takeCommand v s) := by
  unfold Machine.takeCommand
  split
  · exact h
  · split
    · exact L.empty rfl rfl rfl
    · have a : Q (if (v.getLsbD 3 && s.running) = true then Machine.takeNudge s else s) :=
        WorkLaw.ite (fun _ => L.takeNudge h) (fun _ => h)
      generalize (if (v.getLsbD 3 && s.running) = true then Machine.takeNudge s else s) = u at a
      simp only
      split
      · exact L.frame (refuse_frame ..) a
      · unfold takeStart
        split
        · exact L.keep a rfl rfl
        · exact L.frame (refuse_frame ..) a
      · unfold takeStop
        split
        · exact L.frame (refuse_frame ..) a
        · exact L.frame (refuse_frame ..) a
        · exact L.keep a rfl rfl
        · exact L.drain (L.beginStop a)
        · exact a
      · exact a
theorem WorkLaw.writeRegister {o : BitVec 6} {v : Word} {e : BitVec 4} {s : State} (h : Q s) :
    Q (writeRegister o v e s) := by
  unfold Machine.writeRegister
  split
  · exact h
  · split
    · exact L.takeCommand h
    · exact WorkLaw.ite (fun _ => h) (fun _ => L.keep h rfl rfl)
    · exact WorkLaw.ite (fun _ => h) (fun _ => L.keep h rfl rfl)
    · exact WorkLaw.ite (fun _ => h) (fun _ => L.keep h rfl rfl)
    · exact WorkLaw.ite (fun _ => h) (fun _ => L.keep h rfl rfl)
    · exact h
theorem WorkLaw.anchorRead {a : Anchor} {s : State} (h : Q s) : Q (anchorRead a s) := by
  unfold Machine.anchorRead
  split
  · exact L.keep h rfl rfl
  · exact L.empty rfl rfl rfl
theorem WorkLaw.enterRunning {s : State} (h : Q s) : Q (enterRunning s) := by
  unfold Machine.enterRunning
  split
  · exact L.frame (haltCount_frame _) h
  · exact L.drain (L.frame (readLink_frame _) (L.keep h rfl rfl))

/-- Every command keeps what the work of an event keeps. -/
theorem WorkLaw.exec {c : Instr} {s t : State} (h : Q s) (e : exec c s = .next t) : Q t := by
  have job : ∀ k f, Q (jobTaken k f s) := fun k f => L.recordReturned h
  have eng : ∀ l g, Q (s.setEngine l g) := fun l g => L.frame (State.setEngine_frame ..) h
  cases c <;> (simp only [Machine.exec] at e)
  case start v => cases e; exact L.takeCommand h
  case stop v => cases e; exact L.takeCommand h
  case reset v => cases e; exact L.takeCommand h
  case nudge v => cases e; exact L.takeCommand h
  case pinReset => cases e; exact L.empty rfl rfl rfl
  case rstnRelease => cases e; exact L.keep h rfl rfl
  case hzintWrite v => cases e; exact WorkLaw.ite (fun _ => h) (fun _ => L.keep h rfl rfl)
  case hzmaskWrite v => cases e; exact WorkLaw.ite (fun _ => h) (fun _ => L.keep h rfl rfl)
  case registerWrite o v b => cases e; exact L.writeRegister h
  case anchorReadDone d => cases e; exact L.whenStarting h (fun a => L.anchorRead a)
  case statusBlockWriteDone => cases e; exact L.whenStarting h (fun a => L.keep a rfl rfl)
  case cellInitialisationWriteDone =>
    cases e
    refine L.whenStarting h (fun a => ?_)
    unfold cellInitialised
    split
    · split
      · exact L.keep a rfl rfl
      · exact L.enterRunning (L.keep a rfl rfl)
    · exact a
  case linkReadDone v =>
    cases e
    refine L.whenServed h (fun a => ?_)
    unfold linkReturned
    split
    · exact L.drain (L.frame (followLink_frame ..) a)
    · exact L.drain a
  case recordReadDone d => cases e; exact L.recordReturned h
  case setupLine f => cases e; exact job _ _
  case lineStatus f =>
    cases e
    rcases lineStatusTaken_cases f s with e | ⟨_, i, e⟩ <;> rw [e]
    · exact job _ _
    · exact L.settle (L.dispatchJob h)
  case enlist f => cases e; exact job _ _
  case delist f => cases e; exact job _ _
  case hold f => cases e; exact job _ _
  case release f => cases e; exact job _ _
  case retune f => cases e; exact job _ _
  case order f => cases e; exact job _ _
  case broadcast f => cases e; exact job _ _
  case cancel f => cases e; exact job _ _
  case mark f => cases e; exact job _ _
  case takenWriteDone => cases e; exact L.whenServed h (fun a => L.drain (L.frame (popWrite_frame _) a))
  case resultWriteDone => cases e; exact L.whenServed h (fun a => L.drain (L.frame (popWrite_frame _) a))
  case stateWriteDone => cases e; exact L.whenServed h (fun a => L.drain (L.frame (popWrite_frame _) a))
  case parkingWriteDone => cases e; exact L.whenServed h (fun a => L.drain (L.frame (popWrite_frame _) a))
  case tallyWriteDone =>
    cases e
    refine L.whenServed h (fun a => ?_)
    unfold tallyWritten
    split
    · exact L.drain (L.frame (freeTheSlot_frame ..) (L.frame (popWrite_frame _) a))
    · exact L.drain (L.frame (popWrite_frame _) a)
  case cellOpeningWriteDone => cases e; exact L.whenServed h (fun a => L.drain (L.frame (advanceUpdate_frame ..) a))
  case cellBodyWriteDone => cases e; exact L.whenServed h (fun a => L.drain (L.frame (advanceUpdate_frame ..) a))
  case cellClosingWriteDone => cases e; exact L.whenServed h (fun a => L.drain (L.frame (endUpdate_frame ..) a))
  case noticeRecordWriteDone => cases e; exact L.whenServed h (fun a => L.drain (L.noticeWritten a))
  case noticeCountWriteDone => cases e; exact L.whenServed h (fun a => L.settle (L.noticeCounted a))
  case lostTotalWriteDone => cases e; exact L.whenServed h (fun a => L.drain a)
  case droppedAtStopWriteDone => cases e; exact L.whenServed h (fun a => L.drain a)
  case noticesTakenReadDone v =>
    cases e
    refine L.whenServed h (fun a => ?_)
    unfold takenReturned
    split
    · exact L.drain (L.adoptTaken a)
    · exact L.frame (haltCount_frame _) a
  case memoryErrorResponse =>
    cases e
    unfold busError
    split
    · split
      · exact L.frame (enterHalted_frame ..) h
      · exact h
    · exact h
  case reReadTimerEnd =>
    cases e
    unfold timerEnded
    split
    · split
      · refine L.drain (L.wantRead ?_)
        unfold rereadIfParked
        split
        · exact L.frame (reread_frame _) (L.keep h rfl rfl)
        · exact L.frame (reread_frame _) (L.keep h rfl rfl)
        · exact L.keep h rfl rfl
      · exact h
    · exact h
  case quietTimerExpiry n =>
    cases e
    unfold quietExpiry
    split
    · next c =>
      simp only [Entry.quietExpired, Bool.and_eq_true, beq_iff_eq] at c
      exact L.drain (L.expireQuiet h c.2.1)
    · exact h
  case dueTimeReached n => cases e; exact WorkLaw.ite (fun _ => L.settle h) (fun _ => h)
  case windowDueTimeReached l => cases e; exact WorkLaw.ite (fun _ => L.settle h) (fun _ => h)
  case overdueRefresh x =>
    cases e
    unfold refreshOverdue
    split
    · next n =>
      simp only
      split
      · next c =>
        simp only [Bool.and_eq_true] at c
        refine L.due _ h ?_
        intro e
        simp [e, EntryState.enlistedState] at c
      · exact h
    · simp only
      split
      · split
        · exact L.frame (State.setSched_frame ..) h
        · exact h
      · exact h
  case callSent l =>
    cases e
    unfold callSent
    simp only
    split
    · exact eng _ _
    · exact h
  case characterDelivered l v m =>
    cases e
    unfold deliver
    simp only
    split
    · split
      · exact L.settle (L.takeCharacter (eng _ _))
      · exact h
    · exact h
  case turnaroundLimit l =>
    cases e
    exact WorkLaw.ite (fun _ => L.settle (L.turnaroundOut h)) (fun _ => h)
  case answerGapLimit l =>
    cases e
    exact WorkLaw.ite (fun _ => L.settle (L.gapOut h)) (fun _ => h)
  case restEnd l =>
    cases e
    unfold restEnd
    simp only
    split
    · refine L.settle ?_
      unfold restOver
      simp only
      split
      · exact eng _ _
      · exact L.frame (broadcastEnded_frame ..) (eng _ _)
      · exact eng _ _
      · exact eng _ _
    · exact h
  case windowEnd l =>
    cases e
    unfold windowEnd
    simp only
    split
    · exact L.settle (L.frame (windowEnded_frame ..) (eng _ _))
    · exact h
  case settlingEnd l =>
    cases e
    unfold settlingEnd
    simp only
    split
    · exact L.settle (eng _ _)
    · exact h
  case lineFoundStuck l => cases e; exact WorkLaw.ite (fun _ => L.settle (L.foundStuck h)) (fun _ => h)
  case lineRecovered l =>
    cases e
    unfold lineRecovered
    simp only
    split
    · exact L.settle (L.notice (eng _ _))
    · exact h
  case rxdLevelChange l =>
    cases e
    unfold rxdLevelChange
    simp only
    split
    · exact L.frame (State.setEngine_frame ..) (L.keep h rfl rfl)
    · exact L.keep h rfl rfl
  case startBitConfirmation l =>
    cases e
    unfold startBitConfirmation
    simp only
    split
    · split
      · exact L.settle (L.confirmStart h)
      · exact h
    · exact h

end Sys2Proof.Machine
end

