-- ==== Sys2Proof/Laws/Jobs.lean ====
section
/-! SUPPORT. What the shared operations on jobs do: deciding and completing a job, aborting several, listing a parking write
and taking an entry's ORDERs out of a queue. -/

set_option Elab.async false

namespace Sys2Proof.Machine

/-! ### Deciding a job (R110 to R112) -/

/-- The result of slot i is not yet decided. -/
def State.open (s : State) (i : Fin 16) : Bool := s.slotIs i (fun j => j.state != .completing)

/-- The three writes of a completion whose tally is the done tally with it counted (R111, R112). -/
def completionWrites (tally : Word) (i : Fin 16) : List JobWrite := [.result i, .state i, .tally i tally]

theorem decideJob_of_not_open (i : Fin 16) (r : JobEnd) (s : State) (h : s.open i = false) : decideJob i r s = s := by
  unfold decideJob
  split
  · next j hj =>
    simp only [State.open, State.slotIs, hj, bne_eq_false_iff_eq] at h
    rw [if_pos h]
  · rfl

theorem decideJob_of_slot (i : Fin 16) (r : JobEnd) (s : State) (j : Job) (hj : s.slot i = some j)
    (h : j.state ≠ .completing) : decideJob i r s =
      let t := s.setSlot i (some { j with state := .completing, result := some (r, s.tb.now) })
      { t with job := { t.job with
          doneTally := s.job.doneTally + 1,
          writes := s.job.writes ++ completionWrites (s.job.doneTally + 1) i } } := by
  simp only [decideJob, hj, if_neg h]
  rfl

theorem State.open_iff (s : State) (i : Fin 16) :
    s.open i = true ↔ ∃ j, s.slot i = some j ∧ j.state ≠ .completing := by
  unfold State.open State.slotIs
  split <;> simp_all

/-- What aborting a list of jobs does (R37, R115): each open one of them once, by its first place in the list, with its
three writes at the tail and the next done tally. -/
theorem abortJobs_law (is : List (Fin 16)) : ∀ s : State, ∃ order : List (Fin 16), order.Nodup ∧
    (∀ i, i ∈ order ↔ i ∈ is ∧ s.open i = true) ∧ (is.Nodup → order = is.filter s.open) ∧
    (abortJobs is s).job = { s.job with
      slots := (abortJobs is s).job.slots, doneTally := s.job.doneTally + BitVec.ofNat 32 order.length,
      writes := s.job.writes ++ order.zipIdx.flatMap (fun p =>
        completionWrites (s.job.doneTally + 1 + BitVec.ofNat 32 p.2) p.1) } ∧
    (∀ i, i ∉ order → (abortJobs is s).slot i = s.slot i) ∧
    (∀ i j, i ∈ order → s.slot i = some j → (abortJobs is s).slot i =
      some { j with state := .completing, result := some (.plain .aborted, s.tb.now) }) := by
  induction is with
  | nil => intro s; exact ⟨[], by simp, by simp, by simp, by simp [abortJobs], by simp [abortJobs], by simp⟩
  | cons i is ih =>
    intro s
    cases ho : s.open i with
    | false =>
      have hd := decideJob_of_not_open i (.plain .aborted) s ho
      obtain ⟨order, h1, h2, h3, h4, h5, h6⟩ := ih s
      have e : abortJobs (i :: is) s = abortJobs is s := by simp only [abortJobs, hd]
      rw [e]
      refine ⟨order, h1, fun k => ?_, fun hn => ?_, h4, h5, h6⟩
      · rw [h2]
        constructor
        · exact fun h => ⟨List.mem_cons_of_mem _ h.1, h.2⟩
        · rintro ⟨h, hk⟩
          rcases List.mem_cons.1 h with rfl | h
          · rw [ho] at hk; cases hk
          · exact ⟨h, hk⟩
      · rw [h3 (List.nodup_cons.1 hn).2, List.filter_cons, ho]
        rfl
    | true =>
      obtain ⟨j, hj, hs⟩ := (s.open_iff i).1 ho
      have hd := decideJob_of_slot i (.plain .aborted) s j hj hs
      have e : abortJobs (i :: is) s = abortJobs is (decideJob i (.plain .aborted) s) := rfl
      rw [e]
      generalize hu : decideJob i (.plain .aborted) s = u at hd
      have slot_u : ∀ k, u.slot k = if i = k then
          some { j with state := .completing, result := some (.plain .aborted, s.tb.now) } else s.slot k := by
        intro k
        rw [hd]
        exact State.slot_setSlot ..
      have open_u : ∀ k, u.open k = (s.open k && decide (i ≠ k)) := by
        intro k
        unfold State.open State.slotIs
        rw [slot_u]
        by_cases hk : i = k <;> simp [hk]
      have job_u : u.job = { s.job with
          slots := u.job.slots, doneTally := s.job.doneTally + 1,
          writes := s.job.writes ++ completionWrites (s.job.doneTally + 1) i } := by
        rw [hd]
        rfl
      have tb_u : u.tb = s.tb := by rw [hd]; rfl
      obtain ⟨order, h1, h2, h3, h4, h5, h6⟩ := ih u
      have hi : i ∉ order := fun h => by simpa [open_u] using ((h2 i).1 h).2
      refine ⟨i :: order, List.nodup_cons.2 ⟨hi, h1⟩, fun k => ?_, fun hn => ?_, ?_, fun k hk => ?_,
        fun k jk hk hjk => ?_⟩
      · rw [List.mem_cons, h2, List.mem_cons, open_u]
        by_cases hk : k = i
        · subst hk; simp [ho]
        · simp [hk, Ne.symm hk]
      · have hn' := List.nodup_cons.1 hn
        rw [h3 hn'.2, List.filter_cons, ho, if_pos rfl]
        refine congrArg _ (List.filter_congr fun k hk => ?_)
        have : i ≠ k := fun h => hn'.1 (h ▸ hk)
        simp [open_u, this]
      · rw [h4, job_u]
        simp only [List.length_cons, List.zipIdx_cons, List.flatMap_cons, JobUnit.mk.injEq, true_and, List.append_assoc]
        refine ⟨?_, ?_⟩
        · rw [BitVec.add_assoc, show (1 : Word) = BitVec.ofNat 32 1 from rfl, ← BitVec.ofNat_add, Nat.add_comm]
        · rw [List.zipIdx_succ, List.flatMap_map]
          refine congrArg _ ?_
          rw [show s.job.doneTally + 1 + BitVec.ofNat 32 0 = s.job.doneTally + 1 by simp]
          refine congrArg _ (congrArg (fun f => List.flatMap f order.zipIdx) (funext fun p => ?_))
          rw [BitVec.add_assoc _ 1, show (1 : Word) + BitVec.ofNat 32 p.2 = BitVec.ofNat 32 (p.2 + 1) by
            rw [show (1 : Word) = BitVec.ofNat 32 1 from rfl, ← BitVec.ofNat_add, Nat.add_comm]]
      · have hk' := List.not_mem_of_not_mem_cons hk
        rw [h5 k hk', slot_u, if_neg fun h : i = k => hk (h ▸ List.mem_cons_self)]
      · rcases List.mem_cons.1 hk with rfl | hk
        · rw [h5 _ hi, slot_u, if_pos rfl]
          rw [hj] at hjk; cases hjk; rfl
        · have hne : i ≠ k := fun h => hi (h ▸ hk)
          have := h6 k jk hk (by rw [slot_u, if_neg hne, hjk])
          rw [this, tb_u]

/-! ### The other slots of a completion (R110, R139) -/

theorem State.SlotKept.of_eq {s u : State} {k : Fin 16} (h : u.slot k = s.slot k) : s.SlotKept u k :=
  ⟨fun a => h.trans a, fun j hj => .inl ⟨j.waitSet, by rw [h, hj]⟩⟩

/-- A slot that two changes keep is kept by the two together, when they take no time. -/
theorem State.SlotKept.then {s v u : State} {k : Fin 16} (a : s.SlotKept v k) (b : v.SlotKept u k)
    (hv : v.tb = s.tb) (hu : u.tb = s.tb) : s.SlotKept u k := by
  refine ⟨fun h => b.1 (a.1 h), fun j hj => ?_⟩
  rcases a.2 j hj with ⟨w, hw⟩ | ⟨h1, h2, w, hw⟩
  · rcases b.2 _ hw with ⟨w', hw'⟩ | ⟨g1, g2, w', hw'⟩
    · exact .inl ⟨w', hw'⟩
    · exact .inr ⟨g1, g2, w', hw'⟩
  · rcases b.2 _ hw with ⟨w', hw'⟩ | ⟨g1, _⟩
    · refine .inr ⟨h1, h2, w', ?_⟩
      rw [hw', hu, hv]
    · cases g1

theorem leaveSets_slotKept (i k : Fin 16) (s : State) : s.SlotKept (leaveSets i s) k := by
  have e : (leaveSets i s).slot k =
      (s.slot k).map (fun j => { j with waitSet := j.waitSet.filter (· != i) }) := by
    simp [leaveSets, State.slot]
  exact ⟨fun h => by rw [e, h]; rfl, fun j hj => .inl ⟨_, by rw [e, hj]; rfl⟩⟩

theorem decideJob_tb (i : Fin 16) (r : JobEnd) (s : State) : (decideJob i r s).tb = s.tb := by
  unfold decideJob
  repeat' split
  all_goals rfl

theorem decideJob_slotKept (i k : Fin 16) (r : JobEnd) (s : State) (h : k ≠ i) : s.SlotKept (decideJob i r s) k := by
  apply State.SlotKept.of_eq
  unfold decideJob
  split
  · split
    · rfl
    · exact (State.slot_setSlot ..).trans (if_neg (Ne.symm h))
  · rfl

/-- The slot taken first is one of those looked at. -/
theorem State.oldest_mem (s : State) : ∀ (l : List (Fin 16)) (x : Fin 16), s.oldest l = some x → x ∈ l
  | [], x, h => by cases h
  | y :: ys, x, h => by
    unfold State.oldest at h
    split at h
    · simp only [Option.some.injEq] at h
      simp [h]
    · next hh =>
      split at h <;> simp only [Option.some.injEq] at h
      · subst h
        exact List.mem_cons_of_mem _ (s.oldest_mem ys _ hh)
      · simp [h]

/-- A MARK whose set is empty and that completes keeps its slot in the sense of `SlotKept`. -/
theorem decideJob_markDone (m : Fin 16) (s : State) (h : s.markDone m = true) :
    s.SlotKept (decideJob m (.plain .ok) s) m := by
  unfold State.markDone State.slotIs at h
  split at h
  · next j hj =>
    simp only [Bool.and_eq_true, beq_iff_eq] at h
    have hs : j.state ≠ .completing := by rw [h.1.1]; decide
    refine ⟨fun h => (nomatch hj.symm.trans h), fun j' hj' => ?_⟩
    rw [hj] at hj'
    cases hj'
    refine .inr ⟨h.1.1, h.1.2, j.waitSet, ?_⟩
    rw [decideJob_of_slot m _ s j hj hs]
    exact (State.slot_setSlot ..).trans (if_pos rfl)
  · cases h

theorem completeMarks_slotKept (f : Nat) (k : Fin 16) (s : State) :
    s.SlotKept (completeMarks f s) k ∧ (completeMarks f s).tb = s.tb := by
  induction f generalizing s with
  | zero => exact ⟨State.SlotKept.of_eq rfl, rfl⟩
  | succ f ih =>
    unfold completeMarks
    split
    · next m hm =>
      obtain ⟨a, b⟩ := ih (leaveSets m (decideJob m (.plain .ok) s))
      have t : (leaveSets m (decideJob m (.plain .ok) s)).tb = s.tb := decideJob_tb ..
      refine ⟨State.SlotKept.then (.then ?_ (leaveSets_slotKept m k _) (decideJob_tb ..) t) a t (b.trans t), b.trans t⟩
      by_cases hk : k = m
      · exact hk ▸ decideJob_markDone m s (List.mem_filter.1 (s.oldest_mem _ _ hm)).2
      · exact decideJob_slotKept m k _ s hk
    · exact ⟨State.SlotKept.of_eq rfl, rfl⟩

/-- The completion of a job keeps every other slot, but for the waiting MARKs it lets complete. -/
theorem completeJob_slotKept (i k : Fin 16) (r : JobEnd) (s : State) (h : k ≠ i) :
    s.SlotKept (completeJob i r s) k := by
  obtain ⟨a, b⟩ := completeMarks_slotKept 16 k (leaveSets i (decideJob i r s))
  have t : (leaveSets i (decideJob i r s)).tb = s.tb := decideJob_tb ..
  exact .then (.then (decideJob_slotKept i k r s h) (leaveSets_slotKept i k _) (decideJob_tb ..) t) a t (b.trans t)

/-- The completion of an open job: its slot holds the result. -/
theorem completeJob_completedWith (i : Fin 16) (r : JobEnd) (s : State) (j : Job) (hj : s.slot i = some j)
    (h : j.state ≠ .completing) : (completeJob i r s).completedWith i j r := by
  have t : (leaveSets i (decideJob i r s)).tb = s.tb := decideJob_tb ..
  obtain ⟨a, b⟩ := completeMarks_slotKept 16 i (leaveSets i (decideJob i r s))
  have d : (decideJob i r s).slot i = some { j with state := .completing, result := some (r, s.tb.now) } := by
    rw [decideJob_of_slot i r s j hj h]
    exact (State.slot_setSlot ..).trans (if_pos rfl)
  have k := State.SlotKept.then (leaveSets_slotKept i i (decideJob i r s)) a
    (t.trans (decideJob_tb ..).symm) ((b.trans t).trans (decideJob_tb ..).symm)
  rcases k.2 _ d with ⟨w, hw⟩ | ⟨h1, _⟩
  · exact ⟨w, by rw [show completeJob i r s = completeMarks 16 (leaveSets i (decideJob i r s)) from rfl, hw, b, t]⟩
  · cases h1

/-! ### The write list (R102, R114) -/

/-- Listing a parking write replaces one not yet issued and keeps the write issued. -/
theorem listParking_writes (a : Addr) (s : State) :
    (listParking a s).job.writes = parkedWrites (s.port.busyFor .jobUnit) a s.job.writes := by
  unfold listParking parkedWrites
  cases s.port.busyFor .jobUnit <;> cases s.job.writes <;> simp

/-! ### The ORDERs of an entry (R35) -/

theorem dropOrders_ordersGone (n : Fin 64) (r : JobResult) (s : State) :
    s.OrdersGone (dropOrders n r s) (s.entry n).line n := by
  have h : (dropOrders n r s).sched = (s.setSched (s.entry n).line
      ((s.scheduler (s.entry n).line).keepOrders (fun i => !s.isOrderFor n i))).sched :=
    (completeAll_frame r _ _).same .sched
  have e : ∀ l, (dropOrders n r s).scheduler l = (s.setSched (s.entry n).line
      ((s.scheduler (s.entry n).line).keepOrders (fun i => !s.isOrderFor n i))).scheduler l := fun l => by
    simp only [State.scheduler, h]
  refine ⟨?_, fun m hm => ?_⟩
  · rw [e, State.scheduler_setSched_self]
    simp only [Sched.keepOrders, List.isEmpty_iff, State.isOrderFor]
  · rw [e, State.scheduler_setSched, if_neg (Ne.symm hm)]

end Sys2Proof.Machine
end

