-- ==== Sys2Proof/Laws/Lines.lean ====
section
/-! SUPPORT. Small laws of the Line Engine's operations: the call that a halt cuts off, the pins, the hand-over, the
receiver after a sample, the start-bit check and the character that the receiver sampled. -/

set_option Elab.async false

namespace Sys2Proof.Machine

/-! ### Entering HALTED (R94) -/

@[simp] theorem Engine.halted_lineState (m : Nat) (e : Engine) : (e.halted m).lineState = .off := rfl
@[simp] theorem Engine.halted_op (m : Nat) (e : Engine) : (e.halted m).op = none := rfl
@[simp] theorem Engine.halted_receiver (m : Nat) (e : Engine) : (e.halted m).receiver = .disabled := rfl
@[simp] theorem Engine.halted_counters (m : Nat) (e : Engine) : (e.halted m).counters = e.counters := rfl
@[simp] theorem Engine.halted_rateCode (m : Nat) (e : Engine) : (e.halted m).rateCode = e.rateCode := rfl
@[simp] theorem Engine.halted_turnaround (m : Nat) (e : Engine) : (e.halted m).turnaround = e.turnaround := rfl
@[simp] theorem Engine.halted_retryLimit (m : Nat) (e : Engine) : (e.halted m).retryLimit = e.retryLimit := rfl

theorem Engine.halted_cut_of_sending (m : Nat) (e : Engine) (h : e.lineState = .sending) :
    (e.halted m).cut = some ⟨e.bitEnd m, e.txd m⟩ := if_pos h
theorem Engine.halted_cut_of_not_sending (m : Nat) (e : Engine) (h : e.lineState ≠ .sending) :
    (e.halted m).cut = none := if_neg h

theorem State.engine_enterHalted (why : HaltReason) (a : Addr) (st : Structure) (d : Direction) (s : State)
    (l : Fin 4) : (enterHalted why a st d s).engine l = (s.engine l).halted s.moment := by
  simp [State.engine, enterHalted]

/-! ### The pins (R50, R51) -/

theorem Engine.de_of_sending (m : Nat) (e : Engine) (h : e.lineState = .sending) : e.de m = true := by
  simp only [Engine.de, h]
theorem Engine.de_of_cut (m : Nat) (e : Engine) (c : CallCut) (h : e.lineState = .off) (hc : e.cut = some c) :
    e.de m = decide (m ≤ c.stop + Config.markBeforeRelease) := by
  simp only [Engine.de, h, hc]
theorem Engine.txd_of_cut (m : Nat) (e : Engine) (c : CallCut) (h : e.lineState = .off) (hc : e.cut = some c) :
    e.txd m = (c.level || decide (c.stop ≤ m)) := by
  simp only [Engine.txd, h, hc]
theorem Engine.pins_at_rest (m : Nat) (e : Engine) (h : e.lineState ≠ .sending)
    (hc : e.lineState ≠ .off ∨ e.cut = none) : e.de m = false ∧ e.txd m = true := by
  unfold Engine.de Engine.txd
  constructor <;> split <;> simp_all

/-! ### The hand-over (R71) -/

theorem Engine.copyOperation_call (o : Operation) (r : List SlotRec) (e : Engine) (h : o.isCall = true) :
    e.copyOperation o r =
      { e with op := some o, slots := r, attempt := 0, lastOutcome := none, kept := none } := by
  simp only [Engine.copyOperation, h, if_true]
theorem Engine.copyOperation_other (o : Operation) (r : List SlotRec) (e : Engine) (h : o.isCall = false) :
    e.copyOperation o r = { e with op := some o, slots := r } := by
  simp [Engine.copyOperation, h]

/-! ### The receiver after a sample (R52) -/

@[simp] theorem receiverAfter_nil (mark : Bool) : receiverAfter mark [] = (receiverFor mark, []) := by
  unfold receiverAfter
  rfl
@[simp] theorem receiverAfter_mark_cons (t : Nat) (rest : List Nat) :
    receiverAfter true (t :: rest) = (.confirming t, rest) := rfl
@[simp] theorem receiverAfter_space_cons (t : Nat) (rest : List Nat) :
    receiverAfter false (t :: rest) = receiverAfter true rest := rfl

/-- From a mark on the receiver hunts, or checks the start at one of the changes. -/
theorem receiverAfter_mark (edges : List Nat) :
    (receiverAfter true edges).1 = .hunting ∨ ∃ t, t ∈ edges ∧ (receiverAfter true edges).1 = .confirming t := by
  cases edges with
  | nil => exact .inl rfl
  | cons t rest => exact .inr ⟨t, List.mem_cons_self, rfl⟩

@[simp] theorem Engine.resume_receiver (m : Nat) (mark : Bool) (e : Engine) :
    (e.resume m mark).receiver = (receiverAfter mark (e.edgesSince m)).1 := rfl
@[simp] theorem Engine.resume_edges (m : Nat) (mark : Bool) (e : Engine) :
    (e.resume m mark).edges = (receiverAfter mark (e.edgesSince m)).2 := rfl
@[simp] theorem Engine.resume_lineState (m : Nat) (mark : Bool) (e : Engine) :
    (e.resume m mark).lineState = e.lineState := rfl
@[simp] theorem Engine.resume_op (m : Nat) (mark : Bool) (e : Engine) : (e.resume m mark).op = e.op := rfl
@[simp] theorem Engine.resume_since (m : Nat) (mark : Bool) (e : Engine) : (e.resume m mark).since = e.since := rfl
@[simp] theorem Engine.resume_slots (m : Nat) (mark : Bool) (e : Engine) : (e.resume m mark).slots = e.slots := rfl
@[simp] theorem Engine.resume_windowEnd (m : Nat) (mark : Bool) (e : Engine) :
    (e.resume m mark).windowEnd = e.windowEnd := rfl
@[simp] theorem Engine.resume_limitPassed (m : Nat) (mark : Bool) (e : Engine) :
    (e.resume m mark).limitPassed = e.limitPassed := rfl
@[simp] theorem Engine.resume_turnaroundEnd (m : Nat) (mark : Bool) (e : Engine) :
    (e.resume m mark).turnaroundEnd = e.turnaroundEnd := rfl
@[simp] theorem Engine.resume_gapEnd (m : Nat) (mark : Bool) (e : Engine) : (e.resume m mark).gapEnd = e.gapEnd := rfl
@[simp] theorem Engine.resume_gapOutcome (m : Nat) (mark : Bool) (e : Engine) :
    (e.resume m mark).gapOutcome = e.gapOutcome := rfl
@[simp] theorem Engine.resume_counters (m : Nat) (mark : Bool) (e : Engine) :
    (e.resume m mark).counters = e.counters := rfl

/-! ### The start-bit check (R52, R75, R76) -/

theorem confirmStart_space (l : Fin 4) (start : Nat) (s : State) (h : (s.engine l).sample start 0 = false) :
    confirmStart l start s = s.setEngine l { s.engine l with receiver := .receiving start, limitPassed := false } := by
  simp only [confirmStart, h, Bool.false_eq_true, if_false]
theorem confirmStart_glitch (l : Fin 4) (start : Nat) (s : State) (h : (s.engine l).sample start 0 = true)
    (hl : (s.engine l).limitPassed = false) : confirmStart l start s =
      s.setEngine l ((s.engine l).resume (start + halfBit (s.engine l).rateCode) true) := by
  simp only [confirmStart, h, hl, Bool.false_eq_true, if_false, if_true]

/-! ### The sampled character (R52) -/

/-- What is delivered is the sampled character, at the middle of the stop bit. -/
theorem deliver_sampled (l : Fin 4) (start : Nat) (c : LineChar) (s : State) (ha : s.active = true)
    (hr : (s.engine l).receiver = .receiving start) (hm : start + 21 * halfBit (s.engine l).rateCode ≤ s.moment)
    (hc : (s.engine l).character start = c) : deliver l c s = settle (takeCharacter l start c.value
      (s.setEngine l ((s.engine l).resume (start + 21 * halfBit (s.engine l).rateCode)
        ((s.engine l).sample start 10)))) := by
  simp only [deliver, ha, hr, hm, hc, true_and, if_true]

/-- Nothing else can come: before that moment, or for another character, nothing happens (log 1). -/
theorem deliver_other (l : Fin 4) (start : Nat) (c : LineChar) (s : State)
    (hr : (s.engine l).receiver = .receiving start)
    (h : s.moment < start + 21 * halfBit (s.engine l).rateCode ∨ (s.engine l).character start ≠ c) :
    deliver l c s = s := by
  unfold deliver
  simp only
  split
  · next st _ hst =>
    cases hr.symm.trans hst
    exact if_neg (fun k => h.elim (fun h => Nat.not_le.2 h k.1) (fun h => h k.2))
  · rfl

end Sys2Proof.Machine
end

