-- ==== Sys2Proof/Laws/Parts.lean ====
section
/-! SUPPORT. What a command can do to the Control Block's items, said once: `ControlLaw Q` lists the changes (R166 to R178),
and every command keeps Q when they do, but for resets, clearing writes and entering HALTED, which the caller treats. -/

set_option Elab.async false

namespace Sys2Proof.Machine

/-! ### HALTED and the end of an event -/

theorem Waiting.first_empty (l : List Requester) : Waiting.empty.first l = none := by
  induction l with
  | nil => rfl
  | cons x l ih => cases x <;> simpa [Waiting.first, Waiting.get, Waiting.empty] using ih

/-- Outside RUNNING and STOPPING an event ends with the port's arbitration alone. -/
theorem drain_of_inactive (s : State) (h : s.active = false) : drain s = s.arbitrate := by
  have hp : s.pins.rstn = true ∨ s.ctl.part ≠ .stopping := by
    cases hr : s.pins.rstn
    · right
      intro e
      simp [State.active, hr, e] at h
    · exact .inl rfl
  have a : issueJobWrite s = s := by simp [issueJobWrite, h]
  have b : beginUpdate s = s := by simp [beginUpdate, h]
  have c : tellToClose s = s := by rcases hp with e | e <;> simp [tellToClose, e]
  have d : closeWhenQuiet s = s := by simp [closeWhenQuiet, h]
  have e : waitForRoom s = s := by simp [waitForRoom, h]
  have f : issueNotice s = s := by simp [issueNotice, h]
  have g : endStop s = s := by rcases hp with e | e <;> simp [endStop, e]
  rw [drain_eq, a, b, c, d, e, f, g]
theorem mayChoose_of_not_running (l : Fin 4) (s : State) (h : s.running = false) : s.mayChoose l = false := by
  simp [State.mayChoose, h]
theorem chooseLine_of_not_running (f : Nat) (l : Fin 4) (s : State) (h : s.running = false) :
    chooseLine f l s = s := by
  cases f with
  | zero => rfl
  | succ f => simp [chooseLine, chooseOnce, mayChoose_of_not_running l s h, State.maySetup, h]
theorem chooseLines_of_not_running (ls : List (Fin 4)) (s : State) (h : s.running = false) :
    chooseLines ls s = s := by
  induction ls with
  | nil => rfl
  | cons l ls ih => simp [chooseLines, chooseLine_of_not_running _ l s h, ih]

/-- Outside RUNNING no Scheduler chooses (R40). -/
theorem chooseAll_of_not_running (s : State) (h : s.running = false) : chooseAll s = s := by
  have c : s.contended = false := by
    have w : ∀ l, s.wantsFetch l = false := fun l => by simp [State.wantsFetch, mayChoose_of_not_running l s h]
    have e : s.wantsFetch = fun _ => false := funext w
    have z : (lines.filter s.wantsFetch).length = 0 := by simp [e]
    simp [State.contended, z]
  simp [chooseAll, c, chooseLines_of_not_running lines s h]
theorem enterHalted_active (why : HaltReason) (a : Addr) (st : Structure) (d : Direction) (s : State) :
    (enterHalted why a st d s).active = false := by
  simp [State.active, enterHalted]

/-- Entering HALTED leaves nothing to issue. -/
theorem drain_enterHalted (why : HaltReason) (a : Addr) (st : Structure) (d : Direction) (s : State) :
    drain (enterHalted why a st d s) = enterHalted why a st d s := by
  rw [drain_of_inactive _ (enterHalted_active ..)]
  have h : (enterHalted why a st d s).port.arbitrate = (enterHalted why a st d s).port := by
    have i : (enterHalted why a st d s).port.inService = none := rfl
    have w : (enterHalted why a st d s).port.waiting = Waiting.empty := rfl
    simp only [Port.arbitrate, i, w, Waiting.first_empty]
  simp only [State.arbitrate, h]
theorem settle_enterHalted (why : HaltReason) (a : Addr) (st : Structure) (d : Direction) (s : State) :
    settle (enterHalted why a st d s) = enterHalted why a st d s := by
  rw [settle, chooseAll_of_not_running, drain_enterHalted]
  have h := enterHalted_active why a st d s
  simp [State.running, enterHalted]

/-! ### The law -/

/-- Q is kept by each change that the part makes to the Control Block's items, but for a reset, a write to HZINT and
entering HALTED. -/
structure ControlLaw (Q : Control → Prop) : Prop where
  cause : ∀ c (b : Cause), Q c → Q { c with hzint := c.hzint ||| b.bit }
  refuse : ∀ c r (b : Cause), Q c → Q { c with refusal := r, hzint := c.hzint ||| b.bit }
  stopped : ∀ c (b : Cause), Q c → c.part = .stopping → Q { c with part := .idle, hzint := c.hzint ||| b.bit }
  startStopped : ∀ c (b : Cause), Q c → c.part = .starting →
    Q { c with part := .idle, startStop := false, hzint := c.hzint ||| b.bit }
  refused : ∀ c, Q c → c.part = .starting → Q { c with part := .idle }
  phase : ∀ c p, Q c → Q { c with phase := p }
  count : ∀ c n, Q c → Q { c with sessionCount := n }
  run : ∀ c, Q c → c.part = .starting → Q { c with part := .running }
  start : ∀ c a, Q c → c.part = .idle → Q { c with part := .starting, phase := .anchorRead, startStop := false, anchor := a }
  stop : ∀ c, Q c → c.part = .running → Q { c with part := .stopping }
  startStop : ∀ c, Q c → Q { c with startStop := true }
  mask : ∀ c m, Q c → Q { c with hzmask := m }
  ancl : ∀ c v, Q c → Q { c with ancl := v &&& 0xFFFFFF00 }
  anch : ∀ c v, Q c → Q { c with anch := v }

/-- The command is a pin reset or a write to HZCMD with RESET. -/
def isReset : Instr → Prop
  | .pinReset => True
  | .start v => v.getLsbD 2 = true
  | .stop v => v.getLsbD 2 = true
  | .reset _ => True
  | .nudge v => v.getLsbD 2 = true
  | .registerWrite o v e => o = 0x04 ∧ e = 0xF ∧ v.getLsbD 2 = true
  | _ => False

/-- The command is a write to HZINT. -/
def isClear : Instr → Prop
  | .hzintWrite _ => True
  | .registerWrite o _ e => o = 0x0C ∧ e = 0xF
  | _ => False

/-- A write to HZCMD with RESET is a command reset, or nothing while RSTN is asserted (R167, R175). -/
theorem takeCommand_reset (v : Word) (s : State) (hv : v.getLsbD 2 = true) :
    takeCommand v s = if s.pins.rstn then s else commandReset s := by
  simp only [takeCommand, hv, if_true]

/-- A reset command leaves a pin reset, a command reset or, while RSTN is asserted, the state as it was. -/
theorem exec_of_isReset {c : Instr} {s t : State} (e : exec c s = .next t) (hr : isReset c) :
    t = pinReset s ∨ t = commandReset s ∨ t = s := by
  have cmd : ∀ v : Word, v.getLsbD 2 = true → takeCommand v s = commandReset s ∨ takeCommand v s = s := by
    intro v hv
    rw [takeCommand_reset v s hv]
    split
    · exact .inr rfl
    · exact .inl rfl
  have or2 : ∀ v m : Word, v.getLsbD 2 = true → (v ||| m).getLsbD 2 = true := by
    intro v m hv
    rw [BitVec.getLsbD_or, hv, Bool.true_or]
  cases c <;> simp only [isReset] at hr <;> simp only [exec] at e
  case pinReset => cases e; exact .inl rfl
  case start v => cases e; exact .inr (cmd _ (or2 _ _ hr))
  case stop v => cases e; exact .inr (cmd _ (or2 _ _ hr))
  case reset v => cases e; exact .inr (cmd _ (by rw [BitVec.getLsbD_or]; simp))
  case nudge v => cases e; exact .inr (cmd _ (or2 _ _ hr))
  case registerWrite o v en =>
    obtain ⟨rfl, rfl, hv⟩ := hr
    cases e
    exact .inr (cmd v hv)

/-- A write to HZINT clears causes and changes nothing else (R178). -/
theorem exec_of_isClear {c : Instr} {s t : State} (e : exec c s = .next t) (hr : isClear c) :
    t = s ∨ ∃ m : BitVec 5, t = { s with ctl := { s.ctl with hzint := s.ctl.hzint &&& m } } := by
  have w : ∀ v : Word, writeHzint v s = s ∨ ∃ m : BitVec 5,
      writeHzint v s = { s with ctl := { s.ctl with hzint := s.ctl.hzint &&& m } } := by
    intro v
    unfold writeHzint
    split
    · exact .inl rfl
    · exact .inr ⟨_, rfl⟩
  cases c <;> simp only [isClear] at hr <;> simp only [exec] at e
  case hzintWrite v => cases e; exact w v
  case registerWrite o v en =>
    obtain ⟨rfl, rfl⟩ := hr
    cases e
    exact w v

section
variable {Q : Control → Prop}

/-- The Control Block stays as it is under a frame that leaves it alone. -/
theorem Frame.ctlOk {l : List Piece} {s t : State} (f : Frame l s t) (h : Q s.ctl)
    (hc : l.contains .causes = false := by decide) (hs : l.contains .control = false := by decide) : Q t.ctl := by
  rw [f.ctl hc hs]
  exact h
theorem ctl_ite {c : Prop} [Decidable c] {s t : State} (h : c → Q s.ctl) (k : ¬ c → Q t.ctl) :
    Q (if c then s else t).ctl := by
  split
  · next e => exact h e
  · next e => exact k e

variable (L : ControlLaw Q)
include L

theorem ControlLaw.drain {s : State} (h : Q s.ctl) : Q (drain s).ctl := by
  rw [drain_eq]
  refine (State.arbitrate_frame _).ctlOk ?_
  have a : Q (issueNotice (waitForRoom (closeWhenQuiet (tellToClose (beginUpdate (issueJobWrite s)))))).ctl :=
    (beforeEnd_frame s).ctlOk h
  unfold endStop
  split
  · next c =>
    simp only [Bool.and_eq_true, beq_iff_eq] at c
    exact L.stopped _ .stopped a c.1.1.2
  · exact a
theorem ControlLaw.settle {s : State} (h : Q s.ctl) : Q (settle s).ctl := L.drain ((chooseAll_frame s).ctlOk h)
omit L in
theorem ControlLaw.whenServed {k : RequestKind} {f : State → State} {s : State} (h : Q s.ctl)
    (hf : s.active = true → Q s.served.ctl → Q (f s.served).ctl) : Q (whenServed k f s).ctl := by
  unfold Machine.whenServed
  split
  · next c =>
    simp only [Bool.and_eq_true] at c
    exact hf c.1 h
  · exact h
theorem ControlLaw.whenStarting {p : Phase} {k : RequestKind} {f : State → State} {s : State} (h : Q s.ctl)
    (hf : s.ctl.part = .starting → Q s.served.ctl → Q (f s.served).ctl) : Q (whenStarting p k f s).ctl := by
  unfold Machine.whenStarting
  split
  · next c =>
    simp only [State.startingIn, Bool.and_eq_true, beq_iff_eq] at c
    split
    · exact L.startStopped _ .stopped h c.1.1.2
    · exact hf c.1.1.2 h
  · exact h
theorem ControlLaw.takeCommand {v : Word} {s : State} (h : Q s.ctl)
    (hr : v.getLsbD 2 = true → Q (takeCommand v s).ctl) : Q (takeCommand v s).ctl := by
  cases h2 : v.getLsbD 2
  · unfold Machine.takeCommand
    rw [h2]
    split
    · exact h
    · rw [if_neg (by simp)]
      have a : Q (if (v.getLsbD 3 && s.running) = true then takeNudge s else s).ctl := by
        refine ctl_ite (fun _ => L.drain ?_) (fun _ => h)
        exact (nudgeRead_frame _).ctlOk ((nudgeFollower_frame s).ctlOk h)
      generalize (if (v.getLsbD 3 && s.running) = true then takeNudge s else s) = u at a
      simp only
      split
      · exact L.refuse _ _ .refused a
      · unfold takeStart
        split
        · next hi => exact L.start _ _ a hi
        · exact L.refuse _ _ .refused a
      · unfold takeStop
        split
        · exact L.refuse _ _ .refused a
        · exact L.refuse _ _ .refused a
        · exact L.startStop _ a
        · next hi =>
          refine L.drain ?_
          unfold beginStop
          simp only
          refine (State.mapEntries_frame _ _).ctlOk ?_
          refine (abortJobs_frame _ _).ctlOk ?_
          refine (abortJobs_frame _ _).ctlOk ?_
          refine (abortJobs_frame _ _).ctlOk ?_
          exact L.stop _ a hi
        · exact a
      · exact a
  · exact hr h2

/-- What a command that enters HALTED does: everything it does before keeps Q. -/
theorem ControlLaw.recordReturned {r : JobRecord} {s : State} (h : Q s.ctl)
    (hh : ∀ why a st d u, Q u.ctl → recordReturned r s = enterHalted why a st d u → Q (recordReturned r s).ctl) :
    Q (recordReturned r s).ctl := by
  unfold Machine.recordReturned at hh ⊢
  split
  · next c =>
    rw [if_pos c] at hh
    simp only at hh ⊢
    split
    · next a hr hf hn =>
      rw [hr, hf, hn] at hh
      simp only at hh
      unfold judgeRecord at hh ⊢
      split
      · next hp =>
        rw [if_pos hp] at hh
        split
        · next hl =>
          rw [if_pos hl, haltAlign, settle_enterHalted] at hh
          rw [haltAlign, settle_enterHalted]
          exact hh _ _ _ _ s.served h rfl
        · next hl =>
          split
          · exact L.settle ((park_frame .record _).ctlOk h)
          · refine L.settle ?_
            unfold takeRecord
            split
            · refine (dispatchJob_frame ..).ctlOk ?_
              refine (followLink_frame_of_aligned _ _ _ (by simpa using hl)).ctlOk ?_
              exact (claimSlot_frame ..).ctlOk h
            · exact (State.setFollower_frame ..).ctlOk h
      · exact L.settle ((park_frame .record _).ctlOk h)
    · exact L.settle h
  · exact h

/-- Every command keeps Q of the Control Block, when resets, writes to HZINT and entering HALTED do. -/
theorem ControlLaw.exec {c : Instr} {s t : State} (h : Q s.ctl) (e : exec c s = .next t) (hr : isReset c → Q t.ctl)
    (hz : isClear c → Q t.ctl) (hh : ∀ why a st d u, Q u.ctl → t = enterHalted why a st d u → Q t.ctl) :
    Q t.ctl := by
  have low : ∀ (v : Word) (m : Word), m.getLsbD 2 = false → (v ||| m).getLsbD 2 = true → v.getLsbD 2 = true := by
    intro v m hm hv
    rw [BitVec.getLsbD_or, hm, Bool.or_false] at hv
    exact hv
  have job : ∀ k f, t = jobTaken k f s → Q t.ctl := by
    intro k f ht
    subst ht
    exact L.recordReturned h (fun why a st d u hu hx => hh why a st d u hu hx)
  have eng : ∀ l g, Q (s.setEngine l g).ctl := fun _ _ => h
  cases c <;> (simp only [Machine.exec] at e)
  case start v =>
    cases e
    exact L.takeCommand h (fun hv => hr (low v 1 (by decide) hv))
  case stop v =>
    cases e
    exact L.takeCommand h (fun hv => hr (low v 2 (by decide) hv))
  case reset v => exact hr trivial
  case nudge v =>
    cases e
    exact L.takeCommand h (fun hv => hr (low v 8 (by decide) hv))
  case pinReset => exact hr trivial
  case rstnRelease => cases e; exact h
  case hzintWrite v => exact hz trivial
  case hzmaskWrite v => cases e; exact ctl_ite (fun _ => h) (fun _ => L.mask _ _ h)
  case registerWrite o v b =>
    cases e
    unfold writeRegister at hr hz ⊢
    split
    · exact h
    · next hb =>
      have hb' : b = 0xF := by simpa using hb
      split
      · next ho =>
        have ho' : o = 0x04 := BitVec.eq_of_toNat_eq ho
        subst hb' ho'
        exact L.takeCommand h (fun hv => hr ⟨rfl, rfl, hv⟩)
      · next ho =>
        have ho' : o = 0x0C := BitVec.eq_of_toNat_eq ho
        subst hb' ho'
        exact hz ⟨rfl, rfl⟩
      · exact ctl_ite (fun _ => h) (fun _ => L.mask _ _ h)
      · exact ctl_ite (fun _ => h) (fun _ => L.ancl _ _ h)
      · exact ctl_ite (fun _ => h) (fun _ => L.anch _ _ h)
      · exact h
  case anchorReadDone d =>
    cases e
    refine L.whenStarting h (fun hp a => ?_)
    unfold anchorRead
    split
    · exact L.refused _ (L.refuse _ _ .refused a) hp
    · exact L.phase _ _ (L.count _ _ a)
  case statusBlockWriteDone => cases e; exact L.whenStarting h (fun hp a => L.phase _ _ a)
  case cellInitialisationWriteDone =>
    cases e
    unfold Machine.whenStarting at hh ⊢
    split
    · next c =>
      rw [if_pos c] at hh
      simp only [State.startingIn, Bool.and_eq_true, beq_iff_eq] at c
      have hp : s.served.ctl.part = .starting := c.1.1.2
      split
      · exact L.startStopped _ .stopped h hp
      · next hs =>
        rw [if_neg hs] at hh
        unfold cellInitialised at hh ⊢
        split
        · next n hn =>
          rw [hn] at hh
          simp only at hh
          split
          · exact h
          · next hlt =>
            rw [dif_neg hlt] at hh
            unfold enterRunning at hh ⊢
            split
            · next hx =>
              rw [if_pos hx] at hh
              exact hh _ _ _ _ { s.served with rep := { s.served.rep with initCell := none } } h rfl
            · exact L.drain ((readLink_frame _).ctlOk (L.run _ h hp))
        · exact h
    · exact h
  case linkReadDone v =>
    cases e
    unfold Machine.whenServed at hh ⊢
    split
    · next c =>
      rw [if_pos c] at hh
      unfold linkReturned at hh ⊢
      split
      · next p hr hf hp =>
        rw [hr, hf, hp] at hh
        simp only at hh
        by_cases ha : aligned 128 v = true
        · exact L.drain ((followLink_frame_of_aligned p v _ ha).ctlOk h)
        · have ha' : aligned 128 v = false := by simpa using ha
          have hv : v ≠ 0 := fun e => by subst e; exact ha rfl
          rw [followLink_misaligned p v _ hv ha', haltAlign, drain_enterHalted] at hh ⊢
          exact hh _ _ _ _ s.served h rfl
      · exact L.drain h
    · exact h
  case recordReadDone d =>
    cases e
    exact L.recordReturned h hh
  case setupLine f => cases e; exact job _ _ rfl
  case lineStatus f =>
    cases e
    rcases lineStatusTaken_cases f s with e | ⟨_, i, e⟩
    · exact job _ _ e
    · rw [e]
      exact L.settle ((dispatchJob_frame ..).ctlOk h)
  case enlist f => cases e; exact job _ _ rfl
  case delist f => cases e; exact job _ _ rfl
  case hold f => cases e; exact job _ _ rfl
  case release f => cases e; exact job _ _ rfl
  case retune f => cases e; exact job _ _ rfl
  case order f => cases e; exact job _ _ rfl
  case broadcast f => cases e; exact job _ _ rfl
  case cancel f => cases e; exact job _ _ rfl
  case mark f => cases e; exact job _ _ rfl
  case takenWriteDone => cases e; exact ControlLaw.whenServed h (fun _ a => L.drain a)
  case resultWriteDone => cases e; exact ControlLaw.whenServed h (fun _ a => L.drain a)
  case stateWriteDone => cases e; exact ControlLaw.whenServed h (fun _ a => L.drain a)
  case parkingWriteDone => cases e; exact ControlLaw.whenServed h (fun _ a => L.drain a)
  case tallyWriteDone =>
    cases e
    refine ControlLaw.whenServed h (fun _ a => ?_)
    unfold tallyWritten
    split
    · refine L.drain ?_
      unfold freeTheSlot
      split
      · refine (resumeFollower_frame ..).ctlOk ((State.setSlot_frame ..).ctlOk ?_)
        unfold signalJobs
        split
        · exact L.cause _ .jobs a
        · exact a
      · exact a
    · exact L.drain a
  case cellOpeningWriteDone => cases e; exact ControlLaw.whenServed h (fun _ a => L.drain ((advanceUpdate_frame ..).ctlOk a))
  case cellBodyWriteDone => cases e; exact ControlLaw.whenServed h (fun _ a => L.drain ((advanceUpdate_frame ..).ctlOk a))
  case cellClosingWriteDone => cases e; exact ControlLaw.whenServed h (fun _ a => L.drain ((endUpdate_frame _).ctlOk a))
  case noticeRecordWriteDone => cases e; exact ControlLaw.whenServed h (fun _ a => L.drain a)
  case noticeCountWriteDone =>
    cases e
    refine ControlLaw.whenServed h (fun _ a => L.settle ?_)
    unfold noticeCounted
    split
    · exact L.cause _ .notice a
    · exact a
  case lostTotalWriteDone => cases e; exact ControlLaw.whenServed h (fun _ a => L.drain a)
  case droppedAtStopWriteDone => cases e; exact ControlLaw.whenServed h (fun _ a => L.drain a)
  case noticesTakenReadDone v =>
    cases e
    unfold Machine.whenServed at hh ⊢
    split
    · next c =>
      rw [if_pos c] at hh
      unfold takenReturned at hh ⊢
      split
      · exact L.drain ((adoptTaken_frame ..).ctlOk h)
      · next hx =>
        rw [if_neg hx] at hh
        exact hh _ _ _ _ s.served h rfl
    · exact h
  case memoryErrorResponse =>
    cases e
    unfold busError at hh ⊢
    split
    · next r hr =>
      rw [hr] at hh
      simp only at hh
      split
      · next hw =>
        rw [if_pos hw] at hh
        exact hh _ _ _ _ s h rfl
      · exact h
    · exact h
  case reReadTimerEnd =>
    cases e
    unfold timerEnded
    split
    · split
      · refine L.drain ((wantRead_frame _).ctlOk ?_)
        unfold rereadIfParked
        split
        · exact (reread_frame _).ctlOk h
        · exact (reread_frame _).ctlOk h
        · exact h
      · exact h
    · exact h
  case quietTimerExpiry n => cases e; exact ctl_ite (fun _ => L.drain ((expireQuiet_frame ..).ctlOk h)) (fun _ => h)
  case dueTimeReached n => cases e; exact ctl_ite (fun _ => L.settle h) (fun _ => h)
  case windowDueTimeReached l => cases e; exact ctl_ite (fun _ => L.settle h) (fun _ => h)
  case overdueRefresh x =>
    cases e
    unfold refreshOverdue
    simp only
    (repeat' split) <;> exact h
  case callSent l =>
    cases e
    unfold callSent
    simp only
    split <;> exact h
  case characterDelivered l v m =>
    cases e
    unfold deliver
    simp only
    split
    · split
      · exact L.settle ((takeCharacter_frame ..).ctlOk (eng _ _))
      · exact h
    · exact h
  case turnaroundLimit l => cases e; exact ctl_ite (fun _ => L.settle ((turnaroundOut_frame ..).ctlOk h)) (fun _ => h)
  case answerGapLimit l => cases e; exact ctl_ite (fun _ => L.settle ((gapOut_frame ..).ctlOk h)) (fun _ => h)
  case restEnd l =>
    cases e
    unfold restEnd
    simp only
    split
    · refine L.settle ?_
      unfold restOver
      simp only
      split
      · exact h
      · exact (broadcastEnded_frame ..).ctlOk (eng _ _)
      · exact h
      · exact h
    · exact h
  case windowEnd l =>
    cases e
    unfold windowEnd
    simp only
    split
    · exact L.settle ((windowEnded_frame ..).ctlOk (eng _ _))
    · exact h
  case settlingEnd l =>
    cases e
    unfold settlingEnd
    simp only
    split
    · exact L.settle (eng _ _)
    · exact h
  case lineFoundStuck l => cases e; exact ctl_ite (fun _ => L.settle ((foundStuck_frame ..).ctlOk h)) (fun _ => h)
  case lineRecovered l =>
    cases e
    unfold lineRecovered
    simp only
    split
    · exact L.settle ((requestNotice_frame ..).ctlOk (eng _ _))
    · exact h
  case rxdLevelChange l =>
    cases e
    unfold rxdLevelChange
    simp only
    split <;> exact h
  case startBitConfirmation l =>
    cases e
    unfold startBitConfirmation
    simp only
    split
    · split
      · exact L.settle ((confirmStart_frame ..).ctlOk h)
      · exact h
    · exact h

end

end Sys2Proof.Machine
end

