-- ==== Sys2Proof/Tests/Slice0.lean ====
section
/-! SUPPORT. Tests: the well-formedness checks refuse, each command on one small state, and for every statement with
hypotheses a state and operands that meet them. -/

set_option Elab.async false

namespace Sys2Proof.Tests

open Sys2Proof Sys2Proof.Machine

/-! ### Small states -/

/-- The state a command leaves; the state itself where the command does not go on. -/
def after (c : Instr) (s : State) : State :=
  match exec c s with
  | .next t => t
  | _ => s

/-- A part in this state, otherwise as after a pin reset. -/
def inPart (p : PartState) : State := { State.reset with ctl := { Control.reset with part := p } }

/-- RUNNING. -/
def run : State := inPart .running

/-- A request of this kind. -/
def req (k : RequestKind) : Request :=
  { who := .control, kind := k, struct := .cell, dir := .write, addr := 0x1000, transfers := [] }

/-- A request of this kind is in service. -/
def serving (k : RequestKind) (s : State) : State := { s with port := { s.port with inService := some (req k) } }

/-- STARTING in a phase with a request in service. -/
def startingAt (p : Phase) (k : RequestKind) (stop : Bool) : State :=
  serving k { State.reset with
    ctl := { Control.reset with part := .starting, phase := p, startStop := stop },
    rep := { ReportWriter.reset with tableAddr := some 0x1000 } }

/-- Changes the Job Unit. -/
def withJobUnit (f : JobUnit → JobUnit) (s : State) : State := { s with job := f s.job }

/-- Changes the Notice Writer. -/
def withNtc (f : NoticeWriter → NoticeWriter) (s : State) : State := { s with ntc := f s.ntc }

/-- The Time Base at a time, with line time passed. -/
def atTime (now : Word) (elapsed : Nat) (s : State) : State := { s with tb := ⟨now, 0, elapsed⟩ }

/-- The follower reads the record at 2000h, and its read is in service. -/
def awaits (s : State) : State :=
  serving .recordRead (withJobUnit (fun u => { u with follower := .recordRead, nextRecord := some 0x2000 }) s)

/-- Job fields with a target and the first parameters. -/
def fields (target : Byte) (params : List Byte) : JobFields :=
  { flags := 0, tag := 7, link := 0, target := target, params := padTo 15 params, payloadLength := 0,
    payload := List.replicate 32 0 }

/-- An entry in a state on line 0, address 5. -/
def entryIn (st : EntryState) : Entry :=
  { Entry.vacant with state := st, address := 5, pollPeriod := 100, quietLimit := 200,
                      quietDeadline := if st = .live then some 200 else none }

/-- A job of a kind in a slot state. -/
def jobIn (k : JobKind) (st : SlotState) (target : Byte) : Job :=
  { address := 0x4000, takingNumber := 1, kind := k.code, flags := 1, tag := 7, target := target,
    params := List.replicate 15 0, payloadLength := 0, payload := List.replicate 32 0, state := st, waitSet := [],
    result := none }

/-- Line 0's engine in a state with an operation, IDLE's receiver hunting. -/
def engineIn (st : LineState) (o : Option Operation) : Engine :=
  { Engine.reset with lineState := st, op := o, receiver := .hunting }

/-- RUNNING with entry 3 in a state. -/
def withEntry (st : EntryState) : State := run.setEntry 3 (entryIn st)

/-- RUNNING with line 0's engine in a state with an operation. -/
def withEngine (st : LineState) (o : Option Operation) : State := run.setEngine 0 (engineIn st o)

/-- Line 0's Scheduler has this operation in flight. -/
def flying (f : InFlight) (s : State) : State := s.setSched 0 { s.scheduler 0 with inFlight := some f }

/-- Line 0's order queue. -/
def queued (q : List (Fin 16)) (s : State) : State := s.setSched 0 { s.scheduler 0 with orderQueue := q }

/-- A POLL of entry 3. -/
def poll : Operation := .call .poll 3 5 false []

/-! ### Well-formedness refuses each ill-formed term -/

theorem test_wf_accepts : Instr.wf (.start 1) = true ∧ Instr.wf (.mark (fields 0 [])) = true ∧
    Instr.wf (.recordReadDone (List.replicate 128 0)) = true ∧ Instr.wf (.anchorReadDone (List.replicate 256 0)) = true ∧
    Instr.wf (.registerWrite 0x14 0 0xF) = true := by decide +kernel

theorem test_wf_refuses_command_without_its_bit :
    Instr.wf (.start 2) = false ∧ Instr.wf (.stop 1) = false ∧ Instr.wf (.reset 0) = false ∧
    Instr.wf (.nudge 7) = false := by decide +kernel

theorem test_wf_refuses_offset : Instr.wf (.registerWrite 0x15 0 0xF) = false := by decide +kernel

theorem test_wf_refuses_read_length : Instr.wf (.anchorReadDone (List.replicate 255 0)) = false ∧
    Instr.wf (.recordReadDone (List.replicate 129 0)) = false := by decide +kernel

theorem test_wf_refuses_params :
    JobFields.wf { fields 0 [] with params := [] } = false ∧ JobFields.wf { fields 0 [] with payload := [] } = false :=
  by decide +kernel

theorem test_wf_refuses_job_rows :
    let f := { fields 0 [] with params := [] }
    [Instr.setupLine f, .lineStatus f, .enlist f, .delist f, .hold f, .release f, .retune f, .order f, .broadcast f,
      .cancel f, .mark f].all (fun c => !c.wf) = true := by decide +kernel

/-! ### Layouts against the spec's own examples -/

theorem test_check_words : checkWord [0] = 0xE1F0 ∧ checkWord [] = 0xFFFF ∧
    checkWord [0x31, 0x32, 0x33, 0x34, 0x35, 0x36, 0x37, 0x38, 0x39] = 0x29B1 := by decide +kernel

theorem test_control_characters : controlChar .order true = 0x0A ∧ controlChar .poll true = 0x01 ∧
    controlChar .fetch false = 0x03 := by decide +kernel

theorem test_status_characters : statusOutcome 0x04 = some .good ∧ attentionFlag 0x04 = true ∧
    sequenceEcho 0x04 = false ∧ statusOutcome 0x09 = some .busy ∧ sequenceEcho 0x09 = true ∧
    attentionFlag 0x09 = false ∧ statusOutcome 0x07 = none := by decide +kernel

theorem test_identity : State.reset.readRegister 0 = 0xA4D02441 := by decide +kernel

theorem test_halted_status :
    (after .memoryErrorResponse (serving .cellBody run)).readRegister 0x08 = 0x00024104 := by decide +kernel

/-- The fields of an ENLIST at the offsets of section 10.4: poll period 60000, quiet limit 600000. -/
theorem test_station_params :
    StationParams.ofBytes [2, 0x1E, 0x60, 0xEA, 0xC0, 0x27, 0x09, 0x00, 0x1F] =
      ⟨2, 0x1E, 60000, 600000, 0x1F⟩ := by decide +kernel

theorem test_job_record :
    let r := JobRecord.ofBytes ([1, 0, 0, 0, 8, 1, 0x34, 0x12, 0x80, 0x20, 0, 0, 0, 0, 0, 0, 0x11] ++
      List.replicate 111 0)
    r.stateWord = postedWord ∧ r.kind = JobKind.order.code ∧ r.fields.flags = 1 ∧ r.fields.tag = 0x1234 ∧
      r.fields.link = 0x2080 ∧ r.fields.target = 0x11 ∧ r.fields.wf = true := by decide +kernel

theorem test_cell_body : (cellBody (entryIn .live)).length = 60 ∧
    (cellBody (entryIn .live)).take 3 = [2, 0, 5] := by decide +kernel

/-- Character times at 115200 and 9600 bit/s, in 1/28.8 GHz: 11 bits (R51). -/
theorem test_character_times : charTime 4 * 115200 = 11 * 28800000000 ∧ charTime 0 * 9600 = 11 * 28800000000 := by
  decide +kernel

/-! ### The host's commands and RSTN, one step each -/

theorem test_start : let t := after (.start 1) { State.reset with ctl := { Control.reset with ancl := 0x500 } }
    t.ctl.part = .starting ∧ t.ctl.anchor = 0x500 ∧
      t.port.inService = some (readRequest .control .anchorRead .anchor 0x500 256) := by decide +kernel

theorem test_start_refused : let t := after (.start 1) run
    t.ctl.part = .running ∧ t.ctl.refusal = .notIdle ∧ t.ctl.hzint = 0b10000 := by decide +kernel

theorem test_stop : (after (.stop 2) run).ctl.part = .stopping ∧ (after (.stop 2) run).ntc.closing = true ∧
    (after (.stop 2) (inPart .stopping)).ctl.refusal = .none := by decide +kernel

theorem test_reset : let t := after (.reset 4) { inPart .halted with tb := ⟨9, 9, 9⟩ }
    t.ctl.part = .idle ∧ t.tb = ⟨0, 0, 9⟩ := by decide +kernel

/-- RUNNING, parked on the link word at 118h. -/
def parkedLink : State := withJobUnit (fun u => { u with follower := .parkedLink, parking := some 0x118 }) run

theorem test_nudge : let t := after (.nudge 8) parkedLink
    t.job.follower = .linkRead ∧ t.ntc.readInFlight = true ∧ t.port.pointer = .follower := by decide +kernel

theorem test_pin_reset : let t := after .pinReset run
    t.pins.rstn = true ∧ t.ctl.part = .idle ∧ after (.start 1) t = t := by decide +kernel

theorem test_rstn_release : (after .rstnRelease (after .pinReset run)) = State.reset := by decide +kernel

theorem test_hzint_write : let s := { run with ctl := { run.ctl with hzint := 0b11111 } }
    (after (.hzintWrite 0b00101) s).ctl.hzint = 0b11010 := by decide +kernel

theorem test_hzmask_write : (after (.hzmaskWrite 0xFFFFFFFF) run).readRegister 0x10 = 0x1F := by decide +kernel

theorem test_register_write : (after (.registerWrite 0x14 0x1234 0xF) run).readRegister 0x14 = 0x1200 ∧
    after (.registerWrite 0x14 0x1234 0x3) run = run ∧
    (after (.registerWrite 0x04 2 0xF) run).ctl.part = .stopping := by decide +kernel

theorem test_tick : step { run with tb := ⟨7, 24999, 1⟩ } = .next { run with tb := ⟨8, 0, 2⟩ } := rfl

/-! ### START and memory completions, one step each -/

/-- An anchor with format 0001h, k 6, interval 20, report table 1000h and notice area 2000h. -/
def anchorBytes : List Byte :=
  padTo 256 ([1, 0, 6, 20, 0, 0, 0, 0] ++ leBytes 8 0x1000 ++ leBytes 8 0x2000)

theorem test_anchor_read : let t := after (.anchorReadDone anchorBytes) (startingAt .anchorRead .anchorRead false)
    t.ctl.phase = .statusWrite ∧ t.job.interval = 20 ∧ t.ntc.sizeExp = 6 ∧ t.rep.tableAddr = some 0x1000 ∧
      t.port.inService.map (·.kind) = some .statusWrite := by decide +kernel

theorem test_anchor_refused :
    let t := after (.anchorReadDone (2 :: anchorBytes.tail)) (startingAt .anchorRead .anchorRead false)
    t.ctl.part = .idle ∧ t.ctl.refusal = .badFormat ∧ t.ctl.hzint = 0b10000 := by decide +kernel

theorem test_status_block_write : let t := after .statusBlockWriteDone (startingAt .statusWrite .statusWrite false)
    t.ctl.phase = .cellInit ∧ t.rep.initCell = some 0 ∧ t.port.inService.map (·.addr) = some 0x1000 := by
  decide +kernel

/-- STARTING in CELL_INIT with cell n's write in service. -/
def initAt (n : Fin 64) : State :=
  let s := startingAt .cellInit .cellInit false
  withJobUnit (fun u => { u with parking := some 0x118, interval := 20 })
    { s with rep := { s.rep with initCell := some n } }

theorem test_cell_initialisation :
    let t := after .cellInitialisationWriteDone (initAt 63)
    (after .cellInitialisationWriteDone (initAt 62)).port.inService.map (·.addr) = some 0x1FC0 ∧ t.ctl.part = .running ∧ t.job.timer = some 20 ∧ t.port.inService.map (·.kind) = some .linkRead := by
  decide +kernel

theorem test_cell_initialisation_count :
    (after .cellInitialisationWriteDone (withNtc (fun n => { n with taken := 5, sizeExp := 4 }) (initAt 63))).ctl.haltReason
      = .count := by decide +kernel

/-- The follower reads the link word at 118h. -/
def linkAwaits : State :=
  serving .linkRead (withJobUnit (fun u => { u with follower := .linkRead, parking := some 0x118 }) run)

theorem test_link_read : (after (.linkReadDone 0) linkAwaits).job.follower = .parkedLink ∧
    (after (.linkReadDone 0) linkAwaits).port.inService.map (·.kind) = some .parkingWrite ∧
    (after (.linkReadDone 0x2000) linkAwaits).job.nextRecord = some 0x2000 ∧
    (after (.linkReadDone 0x2040) linkAwaits).readRegister 0x1C = 0x118 := by decide +kernel

/-- Parking replaces a parking write not yet issued, and not the one issued. -/
theorem test_parking_write_replaced :
    let t := fun (busy : Bool) (w : List JobWrite) =>
      let s := withJobUnit (fun u => { u with writes := w }) linkAwaits
      (after (.linkReadDone 0) (if busy then s.issue { req .parkingWrite with who := .jobUnit } else s)).job.writes
    t false [.parking 8, .taken 1] = [.taken 1, .parking 0x118] ∧
      t true [.parking 8, .taken 1] = [.parking 8, .taken 1, .parking 0x118] ∧
      t true [.taken 1, .parking 8] = [.taken 1, .parking 0x118] := by decide +kernel

/-- The bytes of a POSTED record of a kind code with no target. -/
def recordBytes (kind : Byte) : List Byte := padTo 128 [1, 0, 0, 0, kind]

theorem test_record_read : let t := after (.recordReadDone (recordBytes 11)) (awaits run)
    (t.slot 0).map (·.state) = some .completing ∧ t.job.doneTally = 1 ∧
      t.job.writes = [.taken 0x2000, .parking 0x2008, .result 0, .state 0, .tally 0 1] := by decide +kernel

theorem test_record_not_posted : (after (.recordReadDone (padTo 128 [2])) (awaits run)).job.follower = .parkedRecord := by
  decide +kernel

/-- A slot 0 that is COMPLETING, with writes on the list and the head in service. -/
def writing (k : RequestKind) (w : List JobWrite) : State :=
  serving k (withJobUnit (fun u => { u with
    slots := u.slots.set 0 (some { jobIn .order .completing 3 with result := some (.plain .ok, 0) }), writes := w }) run)

theorem test_job_writes :
    (after .takenWriteDone (writing .takenWrite [.taken 1, .result 0])).port.inService.map (·.kind) = some .resultWrite ∧
    (after .resultWriteDone (writing .resultWrite [.result 0, .state 0])).port.inService.map (·.kind) =
      some .stateWrite ∧
    (after .stateWriteDone (writing .stateWrite [.state 0, .tally 0 1])).port.inService.map (·.kind) =
      some .tallyWrite ∧
    (after .parkingWriteDone (writing .parkingWrite [.parking 8])).job.writes = [] := by decide +kernel

theorem test_tally_write : let t := after .tallyWriteDone (writing .tallyWrite [.tally 0 1])
    t.slot 0 = none ∧ t.ctl.hzint = 0b00001 := by decide +kernel

/-- RUNNING with cell 3's update at a stage. -/
def updating (st : CellStage) (k : RequestKind) : State :=
  serving k { run with rep := { run.rep with tableAddr := some 0x1000, update := some ⟨3, List.replicate 60 0, st⟩ } }

theorem test_cell_writes :
    (after .cellOpeningWriteDone (updating .opening .cellOpening)).port.inService.map (·.addr) = some 0x10C4 ∧
    (after .cellBodyWriteDone (updating .body .cellBody)).port.inService.map (·.addr) = some 0x10C0 ∧
    (after .cellClosingWriteDone (updating .closing .cellClosing)).rep.editions[3] = 2 := by decide +kernel

/-- A notice to hold. -/
def aNotice : Notice := recoveredNotice 1 0

/-- RUNNING with a notice held and its write in progress. -/
def noticing (k : RequestKind) : State :=
  serving k (withNtc (fun n => { n with
    area := some 0x2000, sizeExp := 4, held := [aNotice], writing := some ⟨aNotice, 1, false⟩ }) run)

theorem test_notice_writes :
    (after .noticeRecordWriteDone (noticing .noticeRecord)).port.inService.map (·.kind) = some .countWrite ∧
    (after .noticeCountWriteDone (noticing .countWrite)).ntc.held = [] ∧
    (after .noticeCountWriteDone (noticing .countWrite)).ctl.hzint = 0b00010 := by decide +kernel

theorem test_totals_written : (after .lostTotalWriteDone (serving .lostTotalWrite run)).port.inService = none ∧
    (let t := after .droppedAtStopWriteDone (serving .droppedWrite
       (withNtc (fun n => { n with closing := true, discarded := true }) (inPart .stopping)))
     t.port.inService = none ∧ t.ctl.part = .idle) := by decide +kernel

theorem test_notices_taken : let s := serving .noticesTakenRead (withNtc (fun n => { n with
      written := 20, sizeExp := 4, readInFlight := true }) run)
    (after (.noticesTakenReadDone 4) s).ntc.taken = 4 ∧
      (after (.noticesTakenReadDone 3) s).ctl.haltReason = .count := by decide +kernel

theorem test_error_response : let t := after .memoryErrorResponse (serving .takenWrite run)
    t.ctl.part = .halted ∧ t.ctl.haltReason = .bus ∧ t.readRegister 0x1C = 0x1000 ∧ t.port.inService = none := by
  decide +kernel

/-- Line 0's call cut off by a halt in its first start bit (R94). -/
def cutOff : State :=
  after .memoryErrorResponse (serving .cellBody (atTime 9 3000 (withEngine .sending (some (.call .poll 3 5 false [])))))

theorem test_halt_cuts_call : (cutOff.engine 0).lineState = .off ∧ (cutOff.engine 0).cut = some ⟨6000000, false⟩ ∧
    cutOff.txdLevel 0 = false ∧ (atTime 9 5300 cutOff).txdLevel 0 = true := by decide +kernel

theorem test_halt_keeps_de : cutOff.deAsserted 0 = true :=
  (Engine.de_of_cut _ _ ⟨6000000, false⟩ (by decide +kernel) (by decide +kernel)).trans
    (decide_eq_true (Nat.le_trans (by decide +kernel) (Nat.le_add_right ..)))

/-! ### Job rows, one step each -/

/-- The state and result of the job in slot 0. -/
def slot0 (s : State) : Option (SlotState × Option JobResult) :=
  (s.slot 0).map (fun j => (j.state, j.result.map (fun r => r.1.result)))

/-- The job of the awaited record completed at once with this result. -/
def ended (r : JobResult) : Option (SlotState × Option JobResult) := some (.completing, some r)

/-- SETUP LINE parameters: enabled, RATE 4 and WINDOW 20 in the change set. -/
def setupParams : List Byte := [1, 0x21, 4, 0, 0, 0, 0, 0, 20, 0]

theorem test_setup_line : let t := after (.setupLine (fields 0 setupParams)) (awaits run)
    slot0 t = ended .ok ∧ (t.engine 0).lineState = .settling ∧ (t.engine 0).rateCode = 4 ∧
      (t.scheduler 0).windowDue = some 20 := by decide +kernel

theorem test_setup_line_bad : slot0 (after (.setupLine (fields 0 [1, 1, 8])) (awaits run)) = ended .badJob ∧
    slot0 (after (.setupLine (fields 4 [])) (awaits run)) = ended .badJob := by decide +kernel

theorem test_line_status : let t := after (.lineStatus (fields 2 [1])) (awaits run)
    (t.slot 0).bind (fun j => j.result.map (fun r => r.1.payload.length)) = some 29 := by decide +kernel

/-- STOPPING with the record read in flight at the STOP in service. -/
def awaitsStopping : State := withJobUnit (fun u => { u with follower := .off }) (awaits (inPart .stopping))

/-- The LINE STATUS of line 2 that slot 5 holds and that is still to be carried out. -/
def statusToDo : Job := { jobIn .lineStatus .validating 2 with flags := 0, params := (fields 2 [1]).params }

/-- In STOPPING every record is dropped (R107); a LINE STATUS that a slot holds is carried out (R123, log 33). -/
theorem test_line_status_stopping :
    after (.lineStatus (fields 2 [1])) awaitsStopping = settle awaitsStopping.served ∧
    after (.enlist (fields 3 [])) awaitsStopping = settle awaitsStopping.served ∧
    (let t := after (.lineStatus (fields 2 [1])) (awaitsStopping.setSlot 5 (some statusToDo))
     (t.slot 5).bind (fun j => j.result.map (fun r => r.1.payload.length)) = some 29 ∧
      t.job.writes = [.result 5, .state 5, .tally 5 1]) := by decide +kernel

/-- ENLIST parameters: line 0, address 5, poll period 100, quiet limit 200, no options. -/
def enlistParams : List Byte := [0, 5, 100, 0, 200, 0, 0, 0, 0]

theorem test_enlist : let t := after (.enlist (fields 3 enlistParams)) (awaits run)
    slot0 t = ended .ok ∧ t.entry 3 = { Entry.vacant with
      state := .joining, address := 5, pollPeriod := 100, quietLimit := 200 } ∧
      t.rep.update.map (·.cell) = some 3 := by decide +kernel

theorem test_enlist_refused :
    slot0 (after (.enlist (fields 3 enlistParams)) (awaits (withEntry .live))) = ended .entryInUse ∧
    slot0 (after (.enlist (fields 4 enlistParams)) (awaits (withEntry .leaving))) = ended .duplicateAddress := by
  decide +kernel

theorem test_delist : let t := after (.delist (fields 3 [])) (awaits (withEntry .live))
    slot0 t = ended .ok ∧ t.entry 3 = Entry.vacant ∧ t.ntc.held.map (·.kind) = [.left] := by decide +kernel

theorem test_hold : let t := after (.hold (fields 3 [])) (awaits (withEntry .live))
    slot0 t = ended .ok ∧ (t.entry 3).state = .held ∧ (t.entry 3).quietDeadline = none := by decide +kernel

theorem test_hold_behind_fetch :
    let s := (queued [4] ((withEntry .live).setSlot 4 (some (jobIn .order .queued 3)))).setEntry 3
      { entryIn .live with latch := true }
    let t := after (.hold (fields 3 [])) (awaits (s.setSched 0 { s.scheduler 0 with fetchQueue := [2, 3], ordersInRow := 1 }))
    (t.entry 3).state = .held ∧ (t.entry 3).latch = true ∧ (t.scheduler 0).orderQueue = [] ∧
      (t.scheduler 0).fetchQueue = [2, 3] ∧ (t.scheduler 0).ordersInRow = 0 := by decide +kernel

theorem test_release : let t := after (.release (fields 3 [])) (awaits (withEntry .held))
    slot0 t = ended .ok ∧ (t.entry 3).state = .joining := by decide +kernel

theorem test_retune : let t := after (.retune (fields 3 [0, 0, 10, 0, 0, 0, 0, 0, 2])) (awaits (withEntry .live))
    slot0 t = ended .ok ∧ (t.entry 3).pollPeriod = 10 ∧ (t.entry 3).quietDeadline = none ∧
      (t.entry 3).options.notify = true := by decide +kernel

/-- RUNNING with entry 3 LIVE and line 0 IDLE. -/
def ready : State := (withEntry .live).setEngine 0 (engineIn .idle none)

theorem test_order : let t := after (.order (fields 3 [])) (awaits ready)
    slot0 t = some (.onWire, none) ∧ (t.entry 3).busy = true ∧ (t.scheduler 0).inFlight = some (.order 3 0) := by
  decide +kernel

theorem test_order_line_off : slot0 (after (.order (fields 3 [])) (awaits (withEntry .live))) = ended .lineOff := by
  decide +kernel

theorem test_broadcast : let t := after (.broadcast (fields 0 [])) (awaits ready)
    slot0 t = some (.onWire, none) ∧ (t.engine 0).op = some (.broadcast []) := by decide +kernel

/-- The state with a job in slot 5. -/
def with5 (k : JobKind) (st : SlotState) (s : State) : State := s.setSlot 5 (some (jobIn k st 3))

theorem test_cancel : let t := after (.cancel (fields 0 [7, 0])) (awaits (with5 .mark .waiting run))
    slot0 t = ended .ok ∧ (t.slot 5).bind (fun j => j.result.map (fun r => r.1.result)) = some .cancelled := by
  decide +kernel

theorem test_mark : slot0 (after (.mark (fields 0 [])) (awaits run)) = ended .ok ∧
    slot0 (after (.mark (fields 0 [])) (awaits (with5 .order .onWire run))) = some (.waiting, none) := by
  decide +kernel

/-! ### Timers, one step each -/

theorem test_reread_timer : let t := after .reReadTimerEnd
                                       (withJobUnit (fun u => { u with timer := some 0, interval := 20 }) parkedLink)
    t.job.timer = some 20 ∧ t.job.follower = .linkRead ∧ t.ntc.readInFlight = true := by decide +kernel

theorem test_quiet_expiry : let t := after (.quietTimerExpiry 3) (atTime 200 0 (withEntry .live))
    (t.entry 3).state = .mute ∧ t.ntc.held.map (·.kind) = [.muted] ∧
      after (.quietTimerExpiry 3) (atTime 199 0 (withEntry .live)) = atTime 199 0 (withEntry .live) := by
  decide +kernel

theorem test_due_time : let t := after (.dueTimeReached 3) ready
    (t.scheduler 0).inFlight = some (.poll 3 false) ∧ (t.engine 0).lineState = .sending ∧
      (t.engine 0).counters.callsStarted = 1 := by decide +kernel

/-- The ready line with a due window. -/
def windowReady : State :=
  let s := ready.setEntry 3 { entryIn .live with options := ⟨true, false, false, false, false⟩ }
  s.setSched 0 { s.scheduler 0 with windowDue := some 0, windowInterval := 20 }

theorem test_window_due : let t := after (.windowDueTimeReached 0) windowReady
    (t.scheduler 0).inFlight = some (.window [5]) ∧ (t.engine 0).slots = [⟨5, 3, false, false⟩] := by decide +kernel

theorem test_overdue_refresh : let t := after (.overdueRefresh (.entry 3)) (atTime 0x40000000 0 (withEntry .live))
    (t.entry 3).dueTime = 0x40000000 ∧
      after (.overdueRefresh (.entry 3)) (atTime 0x3FFFFFFF 0 (withEntry .live)) =
        atTime 0x3FFFFFFF 0 (withEntry .live) := by decide +kernel

/-! ### Events of a line, one step each -/

/-- Line 0's engine sends this operation, after enough line time. -/
def sending (o : Operation) : State := atTime 9 1000000 (withEngine .sending (some o))

theorem test_call_sent : ((after (.callSent 0) (sending poll)).engine 0).lineState = .awaiting ∧
    ((after (.callSent 0) (sending (.broadcast []))).engine 0).restLength = 4 ∧
    ((after (.callSent 0) (sending .window)).engine 0).lineState = .window := by decide +kernel

/-- Line 0 with a character begun at the start of line time. -/
def receiving (st : LineState) (f : Engine → Engine) : State :=
  atTime 9 1000000 (flying (.poll 3 false) ((withEntry .joining).setEngine 0
    (f { engineIn st (some poll) with receiver := .receiving 0, attempt := 1 })))

/-- Line 0's receiver has heard this character, which began at the start of line time: RXD changed wherever two bits next
to each other differ. -/
def hearing (c : LineChar) (s : State) : State :=
  let e := s.engine 0
  let changes := (List.range 9).filter (fun k => c.level k != c.level (k + 1))
  s.setEngine 0 { e with edges := changes.map (fun k => (k + 1) * bitTime e.rateCode) }

/-- The character of a byte of an answer or a mark. -/
def plain (v : Byte) : LineChar := ⟨v, false⟩

theorem test_sampled_characters : ∀ c ∈ [plain 0, plain 5, plain 0x80, plain 0xFF, ⟨0xA5, true⟩, ⟨0, true⟩],
    ((hearing c (receiving .idle (fun e => e))).engine 0).character 0 = c := by decide +kernel

/-- An OK answer of station 5 with no payload. -/
def answer : List Byte := [5, 0, 0] ++ checkBytes [5, 0, 0]

theorem test_character_completes_answer :
    let s := receiving .receiving (fun e => { e with answerBuf := answer.take 4, taken := 4 })
    let t := after (.characterDelivered 0 (byteAt answer 4) false) (hearing (plain (byteAt answer 4)) s)
    (t.entry 3).state = .live ∧ (t.engine 0).lineState = .resting ∧ t.ntc.held.map (·.kind) = [.joined] := by
  decide +kernel

theorem test_stray_character : let s := hearing (plain 5) (receiving .idle (fun e => e))
    ((after (.characterDelivered 0 5 false) s).engine 0).counters.strayCharacters = 1 ∧
      after (.characterDelivered 0 6 false) s = s ∧ after (.characterDelivered 0 5 true) s = s := by decide +kernel

theorem test_turnaround : let t := after (.turnaroundLimit 0) (receiving .awaiting (fun e => { e with receiver := .hunting }))
    (t.engine 0).lastOutcome = some .silent ∧ (t.engine 0).lineState = .resting ∧
      (t.engine 0).counters.failedAttempts = 1 := by decide +kernel

theorem test_answer_gap : let t := after (.answerGapLimit 0) (receiving .receiving (fun e => { e with receiver := .hunting }))
    (t.engine 0).lastOutcome = some .truncated := by decide +kernel

theorem test_rest_end : ((after (.restEnd 0) (receiving .resting (fun e => e))).engine 0).attempt = 2 ∧
    ((after (.restEnd 0) (receiving .resting (fun e => { e with op := none }))).engine 0).lineState = .idle := by
  decide +kernel

theorem test_window_end : let t := after (.windowEnd 0) (flying (.window [5, 254]) (receiving .window (fun e => e)))
    (t.scheduler 0).rotation = 1 ∧ (t.engine 0).lineState = .resting := by decide +kernel

theorem test_settling_end :
    ((after (.settlingEnd 0) (receiving .settling (fun e => { e with markRun := some 0 }))).engine 0).lineState =
      .idle := by decide +kernel

theorem test_found_stuck :
    let t := after (.lineFoundStuck 0) (receiving .awaiting (fun e => { e with spaceRun := some 0 }))
    (t.engine 0).lineState = .stuck ∧ (t.entry 3).failures = 1 ∧ t.ntc.held.map (·.kind) = [.lineStuck] := by
  decide +kernel

theorem test_recovered : let t := after (.lineRecovered 0) (receiving .stuck (fun e => { e with markRun := some 0 }))
    (t.engine 0).lineState = .idle ∧ t.ntc.held.map (·.kind) = [.lineRecovered] := by decide +kernel

theorem test_level_change : let t := after (.rxdLevelChange 0) (withEngine .idle none)
    t.rxd 0 = false ∧ (t.engine 0).receiver = .confirming 0 ∧ (t.engine 0).spaceRun = some 0 := by decide +kernel

/-- A start bit is sampled half a bit time after the start, whenever the event is taken: at space a character begins; a
glitch of one unit is none, and a change to space after its sample starts the next check. -/
theorem test_start_bit :
    let c := fun (edges : List Nat) => (after (.startBitConfirmation 0)
      (receiving .idle (fun e => { e with receiver := .confirming 0, edges := edges }))).engine 0
    (c []).receiver = .receiving 0 ∧ (c [2000000]).receiver = .receiving 0 ∧ (c [1]).receiver = .hunting ∧
      ((c [1, 2000000, 2000001]).receiver = .confirming 2000000 ∧ (c [1, 2000000, 2000001]).edges = [2000001]) := by
  decide +kernel

/-- After a stop bit sampled at space the receiver waits for mark, and then takes the next change to space as a start. -/
theorem test_late_delivery :
    let s := receiving .idle (fun e => e)
    let c := fun (edges : List Nat) => (after (.characterDelivered 0 0 false)
      (s.setEngine 0 { s.engine 0 with edges := edges })).engine 0
    let stopBit := 21 * halfBit 0
    (c []).receiver = .waitMark ∧ (c [stopBit]).receiver = .hunting ∧
      ((c [stopBit + 1, stopBit + 9]).receiver = .confirming (stopBit + 9) ∧ (c [stopBit + 1, stopBit + 9]).edges = []) := by
  decide +kernel

/-- The receiver is enabled by the level of RXD at the end of the last stop bit; changes after it have their effect. -/
theorem test_late_call_sent :
    let s := sending poll
    let stop := (s.engine 0).since + (s.engine 0).sendTime
    let c := fun (edges : List Nat) => (after (.callSent 0) (s.setEngine 0 { s.engine 0 with edges := edges })).engine 0
    (c [stop - 1, stop]).receiver = .hunting ∧
      ((c [stop + 1, stop + 7]).receiver = .confirming (stop + 1) ∧ (c [stop + 1, stop + 7]).edges = [stop + 7]) ∧
      (c [stop + 1]).receiver = .hunting := by decide +kernel

/-! ### The hypotheses of the statements are met -/

/-- All 16 slots in use, by jobs on the wire at other addresses. -/
def full (s : State) : State :=
  withJobUnit (fun u => { u with slots := Vector.replicate 16 (some (jobIn .order .onWire 3)) }) s

theorem test_hyp_StepTakesFrontCommand : { run with pending := [.pinReset] }.pending = [.pinReset] := rfl

theorem test_hyp_EmptyQueueCountsTime :
    ((after .pinReset run).pending = [] ∧ (after .pinReset run).pins.rstn = true) ∧
    (run.pending = [] ∧ run.pins.rstn = false ∧ run.tb.divider + 1 < 25000) ∧
    ({ run with tb := ⟨0, 24998, 0⟩ }.tb.divider + 1 < 25000) ∧
    ({ run with tb := ⟨0, 24999, 0⟩ }.pins.rstn = false ∧ 25000 ≤ { run with tb := ⟨0, 24999, 0⟩ }.tb.divider + 1) := by
  decide +kernel

theorem test_hyp_CommandTable : run.pins.rstn = false ∧ (inPart .idle).pins.rstn = false ∧
    (4 : Word).getLsbD 2 = true ∧
    ((3 : Word).getLsbD 2 = false ∧ (3 : Word).getLsbD 0 = true ∧ (3 : Word).getLsbD 1 = true) ∧
    ((9 : Word).getLsbD 2 = false ∧ (9 : Word).getLsbD 0 = true ∧ (9 : Word).getLsbD 1 = false ∧
      (9 : Word).getLsbD 3 = true ∧ run.ctl.part ≠ .idle) ∧
    ((2 : Word).getLsbD 2 = false ∧ (2 : Word).getLsbD 0 = false ∧ (2 : Word).getLsbD 1 = true ∧
      (inPart .idle).ctl.part = .idle ∧ (inPart .halted).ctl.part = .halted ∧
      (inPart .starting).ctl.part = .starting ∧ run.ctl.part = .running ∧ (inPart .stopping).ctl.part = .stopping) ∧
    ((8 : Word).getLsbD 2 = false ∧ (8 : Word).getLsbD 0 = false ∧ (8 : Word).getLsbD 1 = false) := by decide +kernel

theorem test_hyp_StartAccepted : State.reset.pins.rstn = false ∧ State.reset.ctl.part = .idle ∧
    (1 : Word).getLsbD 1 = false ∧ (1 : Word).getLsbD 2 = false ∧ State.reset.port.inService = none ∧
    State.reset.port.waiting = Waiting.empty := by decide +kernel

/-- RUNNING with an ORDER queued on line 0 in slot 4 and a MARK waiting in slot 5. -/
def busyRun : State := with5 .mark .waiting (queued [4] (run.setSlot 4 (some (jobIn .order .queued 3))))

theorem test_hyp_StopBeginsStopping : busyRun.running = true ∧ busyRun.ntc.closing = false ∧
    (2 : Word).getLsbD 0 = false ∧ (2 : Word).getLsbD 2 = false ∧ (2 : Word).getLsbD 3 = false ∧
    (busyRun.slot 4 = some (jobIn .order .queued 3) ∧ (jobIn .order .queued 3).state ≠ .completing ∧
      4 ∈ (busyRun.scheduler 0).orderQueue) ∧
    (busyRun.slot 5 = some (jobIn .mark .waiting 3) ∧ (jobIn .mark .waiting 3).state = .waiting) ∧
    (lines.flatMap (fun l => (busyRun.scheduler l).orderQueue)).Nodup ∧
    (full busyRun).slot 3 = some (jobIn .order .onWire 3) := by decide +kernel

/-- A STOP lists the writes of the jobs it aborts, the queued ones first, and leaves a job on the wire. -/
theorem test_stop_lists_aborted : let s := busyRun.setSlot 3 (some (jobIn .order .onWire 3))
    let t := after (.stop 2) s
    t.job.doneTally = 2 ∧ t.slot 3 = s.slot 3 ∧
      t.job.writes = [.result 4, .state 4, .tally 4 1, .result 5, .state 5, .tally 5 2] := by decide +kernel

theorem test_hyp_ResetsTaken : run.pins.rstn = false ∧ (after .pinReset run).pins.rstn = true ∧
    Instr.start 1 ≠ .pinReset ∧ Instr.start 1 ≠ .rstnRelease ∧ ∀ l, Instr.start 1 ≠ .rxdLevelChange l := by
  decide +kernel

/-- RUNNING, parked on the record at 2000h. -/
def parkedRecord (s : State) : State :=
  withJobUnit (fun u => { u with follower := .parkedRecord, nextRecord := some 0x2000 }) s

theorem test_hyp_NudgeTaken : run.pins.rstn = false ∧ (inPart .stopping).ctl.part ≠ .running ∧
    (8 : Word).getLsbD 0 = false ∧ (8 : Word).getLsbD 1 = false ∧ (8 : Word).getLsbD 2 = false ∧
    (parkedLink.ctl.part = .running ∧ parkedLink.job.follower = .parkedLink ∧ parkedLink.job.parking = some 0x118) ∧
    ((parkedRecord run).job.follower = .parkedRecord ∧ (parkedRecord run).job.nextRecord = some 0x2000 ∧
      (parkedRecord run).freeSlot = some 0) ∧
    ((parkedRecord (full run)).job.follower = .parkedRecord ∧ (parkedRecord (full run)).freeSlot = none) ∧
    linkAwaits.job.follower = .linkRead ∧ run.job.follower = .off ∧ run.ntc.closing = false ∧
    run.ntc.readInFlight = false ∧ (withNtc (fun n => { n with readInFlight := true }) run).ntc.readInFlight = true ∧
    (withNtc (fun n => { n with closing := true }) run).ntc.closing = true := by decide +kernel

theorem test_hyp_RegisterAccesses : run.pins.rstn = false ∧ 0x24 ≤ (0x24 : BitVec 6).toNat ∧
    0x24 ≤ (0x3C : BitVec 6).toNat ∧ (0xE : BitVec 4) ≠ 0xF ∧
    (let s := after .memoryErrorResponse (serving .cellBody run)
     s.ctl.part = .halted ∧ s.ctl.refusal = .none ∧ s.ctl.haltReason = .bus ∧ s.ctl.faultStruct = .cell ∧
      s.ctl.faultDir = .write) := by decide +kernel

theorem test_hyp_InterruptOutput : run.pins.rstn = false ∧
    (after (.hzmaskWrite 1) run).ctl.hzmask &&& Cause.jobs.bit ≠ 0 := by decide +kernel

/-- The anchor with another byte at an offset. -/
def anchorWith (off : Nat) (b : Byte) : List Byte := anchorBytes.set off b

theorem test_hyp_AnchorReadTaken :
    let s := startingAt .anchorRead .anchorRead false
    let bad := fun (d : List Byte) => (Anchor.ofBytes d).k.toNat < 4 ∨ 12 < (Anchor.ofBytes d).k.toNat ∨
      (Anchor.ofBytes d).report.toNat % 4096 ≠ 0 ∨ (Anchor.ofBytes d).notices.toNat % 64 ≠ 0
    s.pins.rstn = false ∧ s.ctl.part = .starting ∧ s.ctl.phase = .anchorRead ∧ s.ctl.startStop = false ∧
      s.serving .anchorRead = true ∧ s.port.waiting = Waiting.empty ∧
      (Anchor.ofBytes (anchorWith 0 2)).format ≠ 0x0001 ∧ (Anchor.ofBytes anchorBytes).format = 0x0001 ∧
      bad (anchorWith 2 3) ∧ bad (anchorWith 2 13) ∧ bad (anchorWith 9 1) ∧ bad (anchorWith 0x10 32) ∧
      ¬ bad anchorBytes ∧ ¬ bad (anchorWith 2 4) ∧ ¬ bad (anchorWith 2 12) := by decide +kernel

theorem test_hyp_StoppedInStarting :
    (let s := startingAt .anchorRead .anchorRead true
     s.pins.rstn = false ∧ s.ctl.part = .starting ∧ s.ctl.startStop = true ∧ s.ctl.phase = .anchorRead ∧
      s.serving .anchorRead = true) ∧
    (let s := startingAt .statusWrite .statusWrite true
     s.ctl.startStop = true ∧ s.ctl.phase = .statusWrite ∧ s.serving .statusWrite = true) ∧
    (let s := startingAt .cellInit .cellInit true
     s.ctl.startStop = true ∧ s.ctl.phase = .cellInit ∧ s.serving .cellInit = true) := by decide +kernel

theorem test_hyp_CellsInitialised :
    (let s := startingAt .statusWrite .statusWrite false
     s.pins.rstn = false ∧ s.ctl.part = .starting ∧ s.ctl.startStop = false ∧ s.rep.tableAddr = some 0x1000 ∧
      s.port.waiting = Waiting.empty ∧ s.ctl.phase = .statusWrite ∧ s.serving .statusWrite = true) ∧
    ((initAt 62).ctl.phase = .cellInit ∧ (initAt 62).serving .cellInit = true ∧
      (initAt 62).rep.tableAddr = some 0x1000 ∧ (initAt 62).rep.initCell = some 62) ∧
    (let s := withNtc (fun n => { n with taken := -17, sizeExp := 4 }) (initAt 63)
     s.rep.initCell = some 63 ∧ 2 ^ s.ntc.sizeExp < (s.ntc.written - s.ntc.taken).toNat) ∧
    (let s := withNtc (fun n => { n with taken := -16, sizeExp := 4 }) (initAt 63)
     s.rep.initCell = some 63 ∧ (s.ntc.written - s.ntc.taken).toNat ≤ 2 ^ s.ntc.sizeExp ∧
      s.job.parking = some 0x118) := by decide +kernel

theorem test_hyp_ListedWritesDone :
    (writing .resultWrite [.result 0]).slot 0 =
      some { jobIn .order .completing 3 with result := some (.plain .ok, 0) } ∧ ([] : List Byte).length ≤ 32 ∧
    (writing .takenWrite [.taken 1]).active = true ∧ (writing .takenWrite [.taken 1]).serving .takenWrite = true ∧
    (writing .resultWrite [.result 0]).serving .resultWrite = true ∧
    (writing .stateWrite [.state 0]).serving .stateWrite = true ∧
    (writing .parkingWrite [.parking 8]).serving .parkingWrite = true ∧
    (let s := writing .tallyWrite [.tally 0 1]
     let j := { jobIn .order .completing 3 with result := some (.plain .ok, 0) }
     s.serving .tallyWrite = true ∧ s.job.writes = [.tally 0 1] ∧ s.slot 0 = some j ∧ s.job.follower ≠ .paused ∧
      s.job.follower ≠ .parkedRecord ∧
      (let p := withJobUnit (fun u => { u with follower := .paused, nextRecord := some 0x2000 }) s
       p.job.nextRecord = some 0x2000 ∧ p.job.follower = .paused) ∧
      (let p := withJobUnit (fun u => { u with follower := .parkedRecord, nextRecord := some 0x4000 }) s
       p.job.nextRecord = some 0x4000 ∧ p.job.follower = .parkedRecord ∧ 0x4000 = j.address)) := by decide +kernel

theorem test_hyp_CellUpdateWrites : (entryIn .live).lastPayload.length ≤ 32 ∧
    (let s := requestCell 3 { run with rep := { run.rep with tableAddr := some 0x1000 } }
     s.active = true ∧ s.rep.update = none ∧ s.rep.pendingCells = 3 :: [] ∧ s.rep.tableAddr = some 0x1000) ∧
    (updating .opening .cellOpening).active = true ∧
    (updating .opening .cellOpening).rep.update = some ⟨3, List.replicate 60 0, .opening⟩ ∧
    (updating .opening .cellOpening).rep.tableAddr = some 0x1000 ∧
    (updating .opening .cellOpening).serving .cellOpening = true ∧
    (updating .body .cellBody).rep.update = some ⟨3, List.replicate 60 0, .body⟩ ∧
    (updating .body .cellBody).serving .cellBody = true ∧
    (updating .closing .cellClosing).rep.update = some ⟨3, List.replicate 60 0, .closing⟩ ∧
    (updating .closing .cellClosing).serving .cellClosing = true := by decide +kernel

theorem test_hyp_NoticeWritesDone : (noticing .noticeRecord).active = true ∧
    (noticing .noticeRecord).ntc.writing = some ⟨aNotice, 1, false⟩ ∧
    (noticing .noticeRecord).serving .noticeRecord = true ∧ (noticing .countWrite).serving .countWrite = true ∧
    (let s := serving .lostTotalWrite run
     s.active = true ∧ s.ntc.writing = none ∧ s.serving .lostTotalWrite = true) ∧
    (let s := serving .droppedWrite (withNtc (fun n => { n with closing := true, discarded := true }) (inPart .stopping))
     s.active = true ∧ s.ntc.writing = none ∧ s.ntc.closing = true ∧ s.serving .droppedWrite = true) ∧
    (withNtc (fun n => { n with writing := some ⟨aNotice, 1, true⟩ }) (noticing .countWrite)).ntc.writing =
      some ⟨aNotice, 1, true⟩ := by decide +kernel

theorem test_hyp_NoticesTakenRead :
    let s := serving .noticesTakenRead (withNtc (fun n => { n with written := 20, sizeExp := 4 }) run)
    s.active = true ∧ s.serving .noticesTakenRead = true ∧ 2 ^ s.ntc.sizeExp < (s.ntc.written - 3).toNat ∧
      (s.ntc.written - 4).toNat ≤ 2 ^ s.ntc.sizeExp ∧ 2 ^ s.ntc.sizeExp < (s.ntc.written - 21).toNat := by
  decide +kernel

theorem test_hyp_ErrorResponseHalts :
    (let s := serving .cellInit (inPart .starting)
     s.pins.rstn = false ∧ s.ctl.part = .starting ∧ s.port.inService = some (req .cellInit)) ∧
    (serving .cellBody run).ctl.part = .running ∧ (serving .cellBody (inPart .stopping)).ctl.part = .stopping := by
  decide +kernel

theorem test_hyp_LinkReadTaken : linkAwaits.active = true ∧ linkAwaits.serving .linkRead = true ∧
    (serving .linkRead run).job.follower ≠ .linkRead ∧
    (linkAwaits.ctl.part = .running ∧ linkAwaits.job.follower = .linkRead ∧ linkAwaits.job.parking = some 0x118) ∧
    ((0x2040 : Addr) ≠ 0 ∧ (0x2040 : Addr).toNat % 128 ≠ 0) ∧ (0 : Addr).toNat % 128 = 0 ∧
    linkAwaits.job.nudgePending = false ∧ linkAwaits.job.rereadOf ≠ some .link ∧
    (withJobUnit (fun u => { u with rereadOf := some .link }) linkAwaits).job.rereadOf = some .link ∧
    (withJobUnit (fun u => { u with nudgePending := true }) linkAwaits).job.nudgePending = true ∧
    ((0x2000 : Addr) ≠ 0 ∧ (0x2000 : Addr).toNat % 128 = 0) ∧ linkAwaits.freeSlot = some 0 ∧
    (full linkAwaits).freeSlot = none ∧ (full linkAwaits).job.follower = .linkRead ∧
    (serving .linkRead (inPart .stopping)).active = true := by decide +kernel

/-! ### Hypotheses of the statements about jobs -/

/-- The decidable content of `State.AwaitsRecord` for slot 0 and the record at 2000h. -/
def awaitsOk (s : State) : Bool := s.running && !(awaits s).holdsRecord 0x2000 && (awaits s).freeSlot == some 0

theorem awaitsRecord_of {s : State} (h : awaitsOk s = true) : (awaits s).AwaitsRecord 0 0x2000 := by
  simp only [awaitsOk, Bool.and_eq_true, Bool.not_eq_true', beq_iff_eq] at h
  exact ⟨h.1.1, rfl, rfl, rfl, h.1.2, h.2⟩

/-- What every statement about a taken job assumes: the record is awaited, its link is aligned, its payload length and
its target are in range. -/
def Meets (s : State) (f : JobFields) (target : Nat) : Prop :=
  (awaits s).AwaitsRecord 0 0x2000 ∧ f.link.toNat % 128 = 0 ∧ f.payloadLength.toNat ≤ 32 ∧ f.target.toNat = target

theorem meets_of {s : State} {f : JobFields} {target : Nat}
    (h : (awaitsOk s && f.link.toNat % 128 == 0 && f.payloadLength.toNat ≤ 32 && f.target.toNat == target) = true) :
    Meets s f target := by
  simp only [Bool.and_eq_true, beq_iff_eq, decide_eq_true_eq] at h
  exact ⟨awaitsRecord_of h.1.1.1, h.1.1.2, h.1.2, h.2⟩

theorem test_hyp_awaitsStopping :
    (awaitsStopping.active = true ∧ awaitsStopping.serving .recordRead = true ∧ awaitsStopping.ctl.part = .stopping ∧
      ∀ i, awaitsStopping.slot i = none) ∧
    (let s := awaitsStopping.setSlot 5 (some statusToDo)
     let f := fields 2 [1]
     s.active = true ∧ s.ctl.part = .stopping ∧ s.slot 5 = some statusToDo ∧ statusToDo.state = .validating ∧
      statusToDo.kindOf = some .lineStatus ∧ statusToDo.flags = f.flags ∧ statusToDo.tag = f.tag ∧
      statusToDo.target = f.target ∧ statusToDo.params = f.params ∧ statusToDo.payloadLength = f.payloadLength ∧
      statusToDo.payload = f.payload ∧ (∀ k : Fin 16, k ≠ 5 → s.slot k = none) ∧ f.payloadLength.toNat ≤ 32 ∧
      f.target.toNat = 2) := by decide +kernel

theorem test_hyp_RecordReadJudged : (awaits run).AwaitsRecord 0 0x2000 ∧
    ((awaits run).active = true ∧ (awaits run).serving .recordRead = true ∧ (awaits run).ctl.part = .running ∧
      (awaits run).job.follower = .recordRead ∧ (awaits run).job.nextRecord = some 0x2000 ∧
      (awaits run).job.nudgePending = false) ∧
    (∀ f ∈ [fun s => s, full], let s := withJobUnit (fun u => { u with nudgePending := true }) (awaits (f run))
     s.job.nudgePending = true ∧ s.ctl.part = .running ∧ s.job.follower = .recordRead ∧
      s.job.nextRecord = some 0x2000) ∧
    ((awaits run).freeSlot = some 0 ∧ (awaits (full run)).freeSlot = none) ∧
    (serving .recordRead run).job.follower ≠ .recordRead ∧
    (JobRecord.ofBytes (padTo 128 [2])).stateWord ≠ 1 ∧
    ((awaits (run.setSlot 9 (some { jobIn .order .onWire 3 with address := 0x2000 }))).holdsRecord 0x2000 = true ∧
      (JobRecord.ofBytes (recordBytes 8)).fields.link.toNat % 128 = 0) ∧
    (let r := JobRecord.ofBytes (padTo 128 [1, 0, 0, 0, 8, 0, 0, 0, 0x40])
     r.stateWord = 1 ∧ r.fields.link.toNat % 128 ≠ 0) ∧
    (JobRecord.ofBytes (recordBytes 8)).kind = JobKind.order.code ∧
    (JobRecord.ofBytes (recordBytes 8)).stateWord = 1 ∧ 11 < (JobRecord.ofBytes (recordBytes 12)).kind.toNat ∧
    (JobRecord.ofBytes (recordBytes 0)).kind = 0 :=
  ⟨awaitsRecord_of (by decide +kernel), by decide +kernel⟩

theorem test_hyp_RecordTaken : (awaits run).AwaitsRecord 0 0x2000 ∧ Meets run (fields 0 []) 0 ∧
    ((fields 0 []).link = 0 ∧ (awaits run).job.nudgePending = false) ∧
    (let s := withJobUnit (fun u => { u with nudgePending := true }) run
     awaitsOk s = true ∧ (awaits s).job.nudgePending = true) ∧
    ({ fields 0 [] with link := 0x2080 }.link ≠ 0 ∧ { fields 0 [] with link := 0x2080 }.link.toNat % 128 = 0 ∧
      (1 : Fin 16) ≠ 0 ∧ (awaits run).slot 1 = none) ∧
    (awaits ((full run).setSlot 0 none)).AwaitsRecord 0 0x2000 ∧
    (∀ m : Fin 16, m ≠ 0 → (awaits ((full run).setSlot 0 none)).slot m ≠ none) ∧
    32 < { fields 0 [] with payloadLength := 33 }.payloadLength.toNat ∧ 64 ≤ (fields 64 []).target.toNat ∧
    4 ≤ (fields 4 []).target.toNat :=
  ⟨awaitsRecord_of (by decide +kernel), meets_of (by decide +kernel), by decide +kernel, by decide +kernel,
    by decide +kernel, awaitsRecord_of (by decide +kernel), by decide +kernel⟩

/-- What LineJobsTaken names `ok`. -/
abbrev setupOk (p : List Byte) : Prop :=
  ((byteAt p 1).getLsbD 0 = true → (byteAt p 2).toNat ≤ 7) ∧ ((byteAt p 1).getLsbD 1 = true → 2 ≤ (byteAt p 3).toNat) ∧
    ((byteAt p 1).getLsbD 2 = true → (byteAt p 4).toNat ≤ 7) ∧
    ((byteAt p 1).getLsbD 3 = true → 1 ≤ (byteAt p 5).toNat ∧ (byteAt p 5).toNat ≤ 8) ∧
    ((byteAt p 1).getLsbD 4 = true → 100 ≤ leField p 6 2 ∧ leField p 6 2 ≤ 10000) ∧
    ((byteAt p 1).getLsbD 5 = true → leField p 8 2 = 0 ∨ 20 ≤ leField p 8 2 ∧ leField p 8 2 ≤ 10000)

theorem test_hyp_LineJobsTaken : Meets run (fields 3 setupParams) 3 ∧
    (∀ p ∈ [setupParams, [1, 0x3F, 7, 2, 7, 8, 0x10, 0x27, 0x10, 0x27], [1, 0x3F, 0, 255, 0, 1, 100, 0, 20, 0]],
      setupOk (fields 3 p).params) ∧
    (∀ p ∈ [[1, 1, 8], [1, 2, 0, 1], [1, 4, 0, 0, 8], [1, 8, 0, 0, 0, 9], [1, 16, 0, 0, 0, 0, 99, 0],
      [1, 32, 0, 0, 0, 0, 0, 0, 19, 0]], ¬ setupOk (fields 3 p).params) :=
  ⟨meets_of (by decide +kernel), by decide +kernel, by decide +kernel⟩

/-- What EnlistTaken names `ok`. -/
abbrev enlistOk (p : List Byte) : Prop :=
  (byteAt p 0).toNat ≤ 3 ∧ 1 ≤ (byteAt p 1).toNat ∧ (byteAt p 1).toNat ≤ 254 ∧ 10 ≤ leField p 2 2 ∧
    leField p 2 2 ≤ 60000 ∧ (leField p 4 4 = 0 ∨ 2 * leField p 2 2 ≤ leField p 4 4 ∧ leField p 4 4 ≤ 600000) ∧
    (byteAt p 8).toNat < 32

theorem test_hyp_EnlistTaken : Meets run (fields 63 enlistParams) 63 ∧
    Meets (withEntry .leaving) (fields 4 enlistParams) 4 ∧
    (∀ p ∈ [enlistParams, [3, 254, 10, 0, 20, 0, 0, 0, 31], [0, 1, 0x60, 0xEA, 0xC0, 0x27, 9, 0, 0]],
      enlistOk (fields 3 p).params) ∧
    (∀ p ∈ [[4, 5, 100, 0], [0, 255, 100, 0], [0, 5, 9, 0], [0, 5, 100, 0, 199, 0],
      [0, 5, 100, 0, 0, 0, 0, 0, 32]], ¬ enlistOk (fields 3 p).params) ∧
    (awaits run).entry 63 = Entry.vacant ∧ ((awaits (withEntry .live)).entry 3).state ≠ .vacant ∧
    (let s := awaits (withEntry .leaving)
     (s.entry 4).state = .vacant ∧ (s.entry 3).state ≠ .vacant ∧
      (s.entry 3).line.val = (byteAt enlistParams 0).toNat ∧ (s.entry 3).address = byteAt enlistParams 1) :=
  ⟨meets_of (by decide +kernel), meets_of (by decide +kernel), by decide +kernel, by decide +kernel,
    by decide +kernel⟩

/-- Entry 3 LIVE with an ORDER for it queued on line 0 in slot 4, and entry fields changed by f. -/
def orderQueued (f : Entry → Entry) : State :=
  let s := queued [4] (run.setSlot 4 (some (jobIn .order .queued 3)))
  (s.setEntry 3 (f (entryIn .live))).setSched 0 { s.scheduler 0 with fetchQueue := [3] }

/-- Entry 3 with hold pending and its HOLD waiting in slot 5. -/
def holdWaits (s : State) : State := with5 .hold .waiting (s.setEntry 3 { s.entry 3 with holdPending := true })

theorem test_hyp_DelistTaken : Meets (withEntry .live) (fields 3 []) 3 ∧ Meets run (fields 3 []) 3 ∧
    Meets (orderQueued (fun e => { e with busy := true })) (fields 3 []) 3 ∧
    ((run.entry 3).state = .vacant ∧ ((withEntry .leaving).entry 3).state = .leaving) ∧
    (((withEntry .live).entry 3).state = .live ∧ ((withEntry .live).entry 3).busy = false) ∧
    (let s := orderQueued (fun e => { e with busy := true })
     (s.entry 3).state = .live ∧ (s.entry 3).busy = true ∧ 4 ∈ (s.scheduler (s.entry 3).line).orderQueue ∧
      s.slot 4 = some (jobIn .order .queued 3) ∧ (jobIn .order .queued 3).state = .queued ∧
      (jobIn .order .queued 3).kindOf = some .order ∧ targetEntry (jobIn .order .queued 3).target = some 3) ∧
    Meets (holdWaits (withEntry .live)) (fields 3 []) 3 ∧
    (let s := holdWaits (withEntry .live)
     (s.entry 3).state = .live ∧ (s.entry 3).holdPending = true ∧ s.slot 5 = some (jobIn .hold .waiting 3) ∧
      ∀ k, s.waitsFor .hold 3 k = true ↔ k = 5) :=
  ⟨meets_of (by decide +kernel), meets_of (by decide +kernel), meets_of (by decide +kernel), by decide +kernel,
    by decide +kernel, by decide +kernel, meets_of (by decide +kernel), by decide +kernel⟩

/-- A DELIST ends a waiting HOLD and voids its slot, and leaves the line's other fields. -/
theorem test_delist_of_held_pending :
    let s := awaits (holdWaits (windowReady.setSched 0 { windowReady.scheduler 0 with fetchQueue := [3, 4] }))
    let t := after (.delist (fields 3 [])) (s.setEngine 0 { s.engine 0 with
      lineState := .window, slots := [⟨5, 3, false, false⟩, ⟨6, 4, false, false⟩] })
    (t.slot 5).bind (fun j => j.result.map (fun r => r.1.result)) = some .stationGone ∧ slot0 t = ended .ok ∧
      (t.scheduler 0).fetchQueue = [4] ∧ (t.engine 0).slots = [⟨5, 3, true, false⟩, ⟨6, 4, false, false⟩] := by
  decide +kernel

theorem test_hyp_HoldAndReleaseTaken : Meets (withEntry .mute) (fields 3 []) 3 ∧
    Meets (orderQueued (fun e => e)) (fields 3 []) 3 ∧ Meets (withEntry .held) (fields 3 []) 3 ∧
    Meets (orderQueued (fun e => { e with latch := true })) (fields 3 []) 3 ∧
    ((run.entry 3).state = .vacant ∧ ((withEntry .held).entry 3).state = .held ∧
      ((orderQueued (fun e => { e with holdPending := true })).entry 3).holdPending = true) ∧
    (let s := withEntry .mute
     (s.entry 3).state = .mute ∧ (s.entry 3).holdPending = false ∧ (s.entry 3).busy = false ∧
      (s.scheduler (s.entry 3).line).orderQueue = []) ∧
    (let s := orderQueued (fun e => e)
     (s.entry 3).state = .live ∧ (s.entry 3).holdPending = false ∧ (s.entry 3).latch = false ∧
      4 ∈ (s.scheduler (s.entry 3).line).orderQueue ∧ (4 : Fin 16) ≠ 0 ∧ s.slot 4 = some (jobIn .order .queued 3) ∧
      (jobIn .order .queued 3).kindOf = some .order ∧ targetEntry (jobIn .order .queued 3).target = some 3) ∧
    (let s := orderQueued (fun e => { e with latch := true })
     (s.entry 3).latch = true ∧ (s.entry 3).busy = false ∧ 3 ∈ (s.scheduler (s.entry 3).line).fetchQueue ∧
      (∀ k : Fin 16, (s.slot k).all (fun j => j.kindOf != some .hold) = true) ∧
      (jobIn .order .queued 3).state = .queued) ∧
    ((withEntry .live).entry 3).state ≠ .held :=
  ⟨meets_of (by decide +kernel), meets_of (by decide +kernel), meets_of (by decide +kernel),
    meets_of (by decide +kernel), by decide +kernel⟩

/-- What RetuneTaken names `ok`. -/
abbrev retuneOk (p : List Byte) : Prop :=
  10 ≤ leField p 2 2 ∧ leField p 2 2 ≤ 60000 ∧
    (leField p 4 4 = 0 ∨ 2 * leField p 2 2 ≤ leField p 4 4 ∧ leField p 4 4 ≤ 600000) ∧ (byteAt p 8).toNat < 32

theorem test_hyp_RetuneTaken : Meets (withEntry .live) (fields 3 enlistParams) 3 ∧
    Meets (atTime 200 0 (withEntry .live)) (fields 3 enlistParams) 3 ∧ Meets run (fields 3 enlistParams) 3 ∧
    retuneOk (fields 3 enlistParams).params ∧ retuneOk (fields 3 [0, 0, 10, 0]).params ∧
    ¬ retuneOk (fields 3 [0, 0, 9, 0]).params ∧ ¬ retuneOk (fields 3 [0, 0, 10, 0, 19, 0]).params ∧
    (run.entry 3).state = .vacant ∧ ((withEntry .held).entry 3).state ≠ .live ∧
    (let s := atTime 199 0 (withEntry .live)
     (s.entry 3).state = .live ∧ ¬ (leField enlistParams 4 4 ≤ (s.tb.now - (s.entry 3).lastHeard).toNat)) ∧
    (let s := atTime 200 0 (withEntry .live)
     (s.entry 3).state = .live ∧ leField enlistParams 4 4 ≠ 0 ∧
      leField enlistParams 4 4 ≤ (s.tb.now - (s.entry 3).lastHeard).toNat) ∧
    (let s := flying (.poll 3 false) (withEntry .live)
     awaitsOk s = true ∧ (s.entry 3).state = .live ∧
      (s.scheduler (s.entry 3).line).inFlight = some (.poll 3 false)) ∧
    (∀ d, ((withEntry .live).scheduler 0).inFlight ≠ some (.poll 3 d)) :=
  ⟨meets_of (by decide +kernel), meets_of (by decide +kernel), meets_of (by decide +kernel), by decide +kernel⟩

theorem test_hyp_LineBoundJobsTaken : Meets ready (fields 3 []) 3 ∧ Meets (withEntry .live) (fields 3 []) 3 ∧
    ((ready.entry 3).state = .live ∧ (ready.entry 3).holdPending = false ∧
      (ready.engine (ready.entry 3).line).lineState ≠ .off ∧ (ready.engine 0).lineState ≠ .off) ∧
    ((withEntry .live).engine 0).lineState = .off ∧ (run.entry 3).state = .vacant ∧
    ((withEntry .held).entry 3).state = .held ∧
    ((orderQueued (fun e => { e with holdPending := true })).entry 3).holdPending = true ∧ (fields 3 []).target.toNat = 3 :=
  ⟨meets_of (by decide +kernel), meets_of (by decide +kernel), by decide +kernel⟩

/-- The candidate of CancelTaken, for slot 0's CANCEL with match tag 7. -/
def candidate (s : State) (k : Fin 16) (j : Job) : Prop :=
  k ≠ 0 ∧ s.slot k = some j ∧ j.tag.toNat = 7 ∧ j.kindOf ≠ some .delist ∧ j.kindOf ≠ some .hold

theorem no_candidate {s : State} {k : Fin 16} {j : Job} (h : s.slot k = none) : ¬ candidate s k j := fun c => by
  have := c.2.1
  rw [h] at this
  cases this

theorem test_hyp_CancelTaken_none : Meets run (fields 0 [7, 0]) 0 ∧ leField (fields 0 [7, 0]).params 0 2 = 7 ∧
    ∀ k j, ¬ candidate (awaits run) k j :=
  ⟨meets_of (by decide +kernel), by decide +kernel, fun k j =>
    no_candidate ((by decide +kernel : ∀ k : Fin 16, (awaits run).slot k = none) k)⟩

/-- A state whose one job in use is in slot 5: that job is matched. -/
theorem matched_of {s : State} {j : Job} (h : ∀ k : Fin 16, k ≠ 5 → s.slot k = none) (c : candidate s 5 j) :
    candidate s 5 j ∧ ∀ m jm, candidate s m jm → m ≠ 5 → takenBefore j.takingNumber jm.takingNumber = true :=
  ⟨c, fun m _ hm hne => absurd hm (no_candidate (h m hne))⟩

/-- RUNNING with the ORDER in slot 5 queued on line 0 alone. -/
def oneQueued : State := queued [5] (with5 .order .queued (withEntry .live))

theorem test_hyp_CancelTaken :
    (Meets (with5 .mark .waiting run) (fields 0 [7, 0]) 0 ∧ Meets (with5 .order .onWire run) (fields 0 [7, 0]) 0 ∧
      Meets oneQueued (fields 0 [7, 0]) 0) ∧
    ((∀ k : Fin 16, k ≠ 5 → (awaits (with5 .mark .waiting run)).slot k = none) ∧
      (∀ k : Fin 16, k ≠ 5 → (awaits (with5 .order .onWire run)).slot k = none) ∧
      (∀ k : Fin 16, k ≠ 5 → (awaits oneQueued).slot k = none)) ∧
    candidate (awaits (with5 .mark .waiting run)) 5 (jobIn .mark .waiting 3) ∧
    candidate (awaits (with5 .order .onWire run)) 5 (jobIn .order .onWire 3) ∧
    candidate (awaits oneQueued) 5 (jobIn .order .queued 3) ∧
    ((jobIn .mark .waiting 3).state = .waiting ∧ (jobIn .order .onWire 3).state ≠ .queued ∧
      (jobIn .order .onWire 3).state ≠ .waiting ∧ (jobIn .order .queued 3).state = .queued) ∧
    (∀ m : Fin 4, 5 ∈ ((awaits oneQueued).scheduler m).orderQueue ↔ m = 0) ∧
    (targetEntry (jobIn .order .queued 3).target = some 3 ∧ ((awaits oneQueued).entry 3).holdPending = false) ∧
    (let s := oneQueued.setEntry 3 { entryIn .live with holdPending := true }
     awaitsOk s = true ∧ ((awaits s).entry 3).holdPending = true ∧
      (awaits s).slot 5 = some (jobIn .order .queued 3)) :=
  ⟨⟨meets_of (by decide +kernel), meets_of (by decide +kernel), meets_of (by decide +kernel)⟩, by decide +kernel,
    ⟨by decide +kernel, by decide +kernel, by decide +kernel, by decide +kernel, by decide +kernel⟩,
    ⟨by decide +kernel, by decide +kernel, by decide +kernel, by decide +kernel, by decide +kernel⟩,
    ⟨by decide +kernel, by decide +kernel, by decide +kernel, by decide +kernel, by decide +kernel⟩,
    by decide +kernel, by decide +kernel, by decide +kernel, by decide +kernel⟩

/-- The completions before the DELIST's own, and those before the CANCEL's own (R126, R136). -/
theorem test_own_completion_last :
    (after (.delist (fields 3 [])) (awaits (holdWaits (withEntry .live)))).job.writes.drop 2 =
      [.result 5, .state 5, .tally 5 1, .result 0, .state 0, .tally 0 2] ∧
    (after (.cancel (fields 0 [7, 0])) (awaits (with5 .mark .waiting run))).job.writes.drop 2 =
      [.result 5, .state 5, .tally 5 1, .result 0, .state 0, .tally 0 2] := by decide +kernel

/-- A CANCEL of the last ORDER of an entry with a hold pending: CANCELLED, then the HOLD, then the CANCEL (R36, R23). -/
theorem test_cancel_settles_hold :
    let s := queued [4] ((holdWaits (withEntry .live)).setSlot 4 (some (jobIn .order .queued 3)))
    let t := after (.cancel (fields 0 [7, 0])) (awaits s)
    (t.entry 3).state = .held ∧ (t.scheduler 0).orderQueue = [] ∧
      t.job.writes.drop 2 = [.result 4, .state 4, .tally 4 1, .result 5, .state 5, .tally 5 2, .result 0, .state 0,
        .tally 0 3] := by decide +kernel

theorem test_hyp_MarkTaken : Meets run (fields 0 []) 0 ∧ Meets (with5 .order .onWire run) (fields 0 []) 0 ∧
    (∀ k : Fin 16, (awaits run).slot k = none) ∧
    ((5 : Fin 16) ≠ 0 ∧ (awaits (with5 .order .onWire run)).slot 5 = some (jobIn .order .onWire 3) ∧
      (jobIn .order .onWire 3).state ≠ .completing) :=
  ⟨meets_of (by decide +kernel), meets_of (by decide +kernel), by decide +kernel, by decide +kernel⟩

/-- An ORDER queued in slot 4, and MARKs in slots 5 and 6, the one in slot 6 taken first, that wait for it. -/
def twoMarks : State :=
  let m := fun (number : Word) => some { jobIn .mark .waiting 3 with takingNumber := number, waitSet := [4] }
  (busyRun.setSlot 5 (m 3)).setSlot 6 (m 2)

theorem test_hyp_CompletionTaken :
    let m := fun (number : Word) => { jobIn .mark .waiting 3 with takingNumber := number, waitSet := [4] }
    twoMarks.slot 4 = some (jobIn .order .queued 3) ∧ (jobIn .order .queued 3).state ≠ .completing ∧
      ((5 : Fin 16) ≠ 4 ∧ twoMarks.slot 5 = some (m 3) ∧ (m 3).state = .waiting ∧ (m 3).kindOf = some .mark) ∧
      ((6 : Fin 16) ≠ 4 ∧ twoMarks.slot 6 = some (m 2) ∧ (m 2).state = .waiting ∧ (m 2).kindOf = some .mark) ∧
      (∀ k : Fin 16, k ≠ 4 → k ≠ 5 → k ≠ 6 → twoMarks.slot k = none) ∧
      (∀ k, k ∈ (m 2).waitSet ∨ k ∈ (m 3).waitSet → k = 4) ∧
      ((m 2).takingNumber - 0).toNat < 2 ^ 31 ∧ ((m 3).takingNumber - 0).toNat < 2 ^ 31 := by
  decide +kernel

theorem test_marks_follow : let u := completeJob 4 (.plain .ok) twoMarks
    u.job.doneTally = 3 ∧ u.job.writes = [.result 4, .state 4, .tally 4 1, .result 6, .state 6, .tally 6 2,
      .result 5, .state 5, .tally 5 3] := by decide +kernel

/-! ### Hypotheses of the statements about timers and choices -/

theorem test_hyp_ReReadTimerEnds :
    let t := fun (s : State) => withJobUnit (fun u => { u with timer := some 20, interval := 20 }) s
    (t parkedLink).active = true ∧ (t parkedLink).job.timer = some 20 ∧
      2 ^ 31 ≤ ((atTime 19 0 (t parkedLink)).tb.now - 20).toNat ∧
      ((atTime 20 0 (t parkedLink)).tb.now - 20).toNat < 2 ^ 31 ∧
      ((t parkedLink).job.follower = .parkedLink ∧ (t parkedLink).job.parking = some 0x118) ∧
      ((t (parkedRecord run)).job.follower = .parkedRecord ∧ (t (parkedRecord run)).job.nextRecord = some 0x2000 ∧
        (t (parkedRecord run)).freeSlot = some 0) ∧
      (t (parkedRecord (full run))).freeSlot = none ∧
      ((t run).job.follower ≠ .parkedLink ∧ (t run).job.follower ≠ .parkedRecord) := by decide +kernel

theorem test_hyp_QuietExpiryTaken : let s := withEntry .live
    s.active = true ∧ (s.entry 3).state = .live ∧ (s.entry 3).quietDeadline = some 200 ∧
      2 ^ 31 ≤ ((atTime 199 0 s).tb.now - 200).toNat ∧ ((atTime 200 0 s).tb.now - 200).toNat < 2 ^ 31 := by
  decide +kernel

theorem test_hyp_DueTimesTaken :
    (ready.running = true ∧ (ready.entry 3).state = .live ∧ (ready.tb.now - (ready.entry 3).dueTime).toNat < 2 ^ 31) ∧
    (windowReady.running = true ∧ (windowReady.scheduler 0).windowDue = some 0 ∧
      (windowReady.tb.now - 0).toNat < 2 ^ 31 ∧
      2 ^ 31 ≤ ((atTime 0x80000000 0 windowReady).tb.now - 0).toNat) ∧
    (let d := fun (n : Word) => ((atTime n 0 ready).tb.now - (ready.entry 3).dueTime).toNat
     ready.active = true ∧ 2 ^ 30 ≤ d 0x40000000 ∧ d 0x7FFFFFFF < 2 ^ 31 ∧ d 0x3FFFFFFF < 2 ^ 30) := by
  decide +kernel

/-- The ready line with entry 3's latch set and its index in the fetch queue. -/
def fetchReady : State :=
  let s := ready.setEntry 3 { entryIn .live with latch := true }
  s.setSched 0 { s.scheduler 0 with fetchQueue := [3] }

/-- The ready line with an ORDER queued in slot 5. -/
def orderReady : State := queued [5] (with5 .order .queued ready)

/-- A queued SETUP LINE in slot 5 with these parameters, on line 0. -/
def setupReady (p : List Byte) : State :=
  queued [5] (ready.setSlot 5 (some { jobIn .setupLine .queued 0 with params := padTo 15 p }))

theorem test_hyp_ArbiterChooses :
    (windowReady.mayChoose 0 = true ∧ windowReady.windowApplies 0 = true) ∧
    (fetchReady.mayChoose 0 = true ∧ fetchReady.windowApplies 0 = false ∧ fetchReady.fetchCandidate 0 = some 3 ∧
      fetchReady.ntc.held.length + fetchReady.reservations < 8) ∧
    (let s := withNtc (fun n => { n with held := List.replicate 8 aNotice }) fetchReady
     s.mayChoose 0 = true ∧ ¬ s.ntc.held.length + s.reservations < 8) ∧
    (orderReady.mayChoose 0 = true ∧ orderReady.windowApplies 0 = false ∧ orderReady.fetchCandidate 0 = none ∧
      orderReady.orderCandidate 0 = some 5 ∧ orderReady.slot 5 = some (jobIn .order .queued 3) ∧
      (jobIn .order .queued 3).kindOf = some .order ∧ targetEntry (jobIn .order .queued 3).target = some 3 ∧
      (orderReady.entry 3).state ≠ .vacant ∧
      (orderReady.scheduler 0).ordersInRow < (orderReady.scheduler 0).orderBurst) ∧
    (let s := queued [5] (with5 .broadcast .queued ready)
     s.mayChoose 0 = true ∧ s.windowApplies 0 = false ∧ s.fetchCandidate 0 = none ∧ s.orderCandidate 0 = some 5 ∧
      s.slot 5 = some (jobIn .broadcast .queued 3) ∧ (jobIn .broadcast .queued 3).kindOf = some .broadcast ∧
      (s.scheduler 0).ordersInRow < (s.scheduler 0).orderBurst) ∧
    (let s := setupReady setupParams
     s.mayChoose 0 = true ∧ s.windowApplies 0 = false ∧ s.fetchCandidate 0 = none ∧ s.orderCandidate 0 = some 5 ∧
      (s.slot 5).all (fun j => j.kindOf == some .setupLine) = true ∧ (s.slot 5).isSome = true) ∧
    (let s := orderReady.setSched 0 { orderReady.scheduler 0 with ordersInRow := 4 }
     s.mayChoose 0 = true ∧ (s.scheduler 0).orderBurst ≤ (s.scheduler 0).ordersInRow ∧ s.duePoll 0 = some 3) ∧
    (ready.mayChoose 0 = true ∧ ready.fetchCandidate 0 = none ∧ ready.orderCandidate 0 = none ∧
      ready.duePoll 0 = some 3) ∧ run.duePoll 0 = none := by decide +kernel

theorem test_hyp_ArbiterChooses_rest :
    (let s := (setupReady setupParams).setEngine 0 Engine.reset
     s.maySetup 0 = true ∧ (s.scheduler 0).orderQueue = [] ++ 5 :: [] ∧
      (s.slot 5).any (fun j => j.kindOf == some .setupLine) = true) ∧
    (run.maySetup 0 = true ∧ (run.scheduler 0).orderQueue = []) ∧
    (State.reset.mayChoose 0 = false ∧ State.reset.maySetup 0 = false) ∧
    ((windowReady.scheduler 0).windowDue = some 0 ∧ (windowReady.tb.now - 0).toNat < 2 ^ 31 ∧
      windowReady.slotEligible 0 3 = true) ∧
    (let s := windowReady.setEntry 3 (entryIn .live)
     (s.scheduler 0).windowDue = some 0 ∧ (s.tb.now - 0).toNat < 2 ^ 31 ∧
      (∀ n : Fin 64, s.slotEligible 0 n = false) ∧ ((passWindow 0 s).scheduler 0).windowDue = some 20) := by
  decide +kernel

theorem test_hyp_SetupLineApplied :
    let j := fun (p : List Byte) => { jobIn .setupLine .queued 0 with params := padTo 15 p }
    (setupReady setupParams).slot 5 = some (j setupParams) ∧ (j setupParams).kindOf = some .setupLine ∧
      (j setupParams).state = .queued ∧ (SetupParams.ofBytes (j setupParams).params).enable = true ∧
      (setupReady [0]).slot 5 = some (j [0]) ∧ (SetupParams.ofBytes (j [0]).params).enable = false ∧
      ((setupReady [0]).entry 3).line = 0 ∧ ((setupReady [0]).entry 3).state = .live ∧
      ((setupReady [0]).entry 3).holdPending = false := by decide +kernel

/-- The disable of line 0 with an ORDER and a BROADCAST queued behind it, entry 3 in a state with its latch set. -/
def disableReady (st : EntryState) : State :=
  let s := queued [5, 6, 7] (((setupReady [0]).setSlot 6 (some (jobIn .order .queued 3))).setSlot 7
    (some (jobIn .broadcast .queued 0)))
  (s.setEntry 3 { entryIn st with latch := true }).setSched 0 { s.scheduler 0 with ordersInRow := 3 }

theorem test_hyp_SetupLineApplied_off : ∀ st ∈ [EntryState.joining, .live, .mute, .held],
    let s := disableReady st
    (s.scheduler 0).orderQueue = [5, 6, 7] ∧ s.slot 6 = some (jobIn .order .queued 3) ∧
      s.slot 7 = some (jobIn .broadcast .queued 0) ∧ (jobIn .order .queued 3).kindOf = some .order ∧
      (jobIn .broadcast .queued 0).kindOf = some .broadcast ∧ (s.slot 5).any (fun j => j.kindOf != some .order) = true ∧
      targetEntry (jobIn .order .queued 3).target = some 3 ∧ (s.entry 3).line = 0 ∧ (s.entry 3).state = st ∧
      st ≠ .vacant ∧ (s.entry 3).holdPending = false := by decide +kernel

/-- The disable where entry 3 has a hold pending and its HOLD waits in slot 8. -/
def disableHolds (st : EntryState) : State :=
  let s := (disableReady st).setSlot 8 (some (jobIn .hold .waiting 3))
  s.setEntry 3 { s.entry 3 with holdPending := true }

theorem test_hyp_SetupLineApplied_hold : ∀ st ∈ [EntryState.joining, .live, .mute],
    let s := disableHolds st
    (s.entry 3).holdPending = true ∧ (s.entry 3).busy = false ∧ (s.entry 3).state = st ∧
      6 ∈ (s.scheduler 0).orderQueue ∧ s.slot 6 = some (jobIn .order .queued 3) ∧
      s.slot 8 = some (jobIn .hold .waiting 3) ∧ 8 ∉ (s.scheduler 0).orderQueue ∧
      (∀ k, s.waitsFor .hold 3 k = true ↔ k = 8) ∧
      (let u := pickItem 0 5 s
       u.entry 3 = { s.entry 3 with
         state := .held, quietDeadline := none, dueTime := s.tb.now, latch := false, holdPending := false } ∧
        [6, 7, 8, 5].map (fun i => (u.slot i).bind (fun j => j.result.map (fun r => r.1.result))) =
          [some .lineOff, some .lineOff, some .ok, some .ok]) := by decide +kernel

theorem test_line_off_completes : let u := pickItem 0 5 (disableReady .held)
    (u.scheduler 0).orderQueue = [] ∧ (u.scheduler 0).ordersInRow = 0 ∧ (u.entry 3).state = .held ∧
      (u.entry 3).latch = false ∧
      [6, 7].map (fun i => (u.slot i).bind (fun j => j.result.map (fun r => r.1.result))) =
        [some .lineOff, some .lineOff] := by decide +kernel

/-- A SETUP LINE keeps the line's other queued items; a disable keeps the queued SETUP LINEs alone (R46). -/
theorem test_setup_line_keeps_queue :
    let u := fun (p : List Byte) =>
      let s := (setupReady p).setSlot 9 (some (jobIn .setupLine .queued 0))
      let s1 := s.setSlot 6 (some (jobIn .order .queued 3))
      (pickItem 0 5 (s1.setSched 0 { s1.scheduler 0 with
        orderQueue := [5, 9, 6], fetchQueue := [3], rotation := 7, ordersInRow := 2 })).scheduler 0
    ((u setupParams).orderQueue = [9, 6] ∧ (u setupParams).fetchQueue = [3] ∧ (u setupParams).rotation = 7 ∧
      (u setupParams).ordersInRow = 3) ∧ (u [0]).orderQueue = [9] := by decide +kernel

theorem test_setup_line_off : let u := pickItem 0 5 (setupReady [0])
    (u.engine 0).lineState = .off ∧ (u.entry 3).state = .joining ∧ (u.entry 3).quietDeadline = none := by
  decide +kernel

/-! ### Hypotheses of the statements about lines -/

theorem test_hyp_CallSentTaken_rates :
    [9600, 19200, 38400, 57600, 115200, 230400, 460800, 921600][(7 : Fin 8).val]? = some 921600 ∧
      bitTime 7 * 921600 = 28800000000 ∧ bitTime 0 * 9600 = 28800000000 ∧ bitTime 3 * 57600 = 28800000000 := by decide

theorem test_hyp_CallSentTaken :
    let s := sending poll
    let stop := (s.engine 0).since + (bitTime (s.engine 0).rateCode +
      (s.engine 0).frame.length * charTime (s.engine 0).rateCode)
    s.active = true ∧ (s.engine 0).lineState = .sending ∧ stop ≤ s.moment ∧ (atTime 0 0 s).moment < stop ∧
      (s.engine 0).op = some (.call .poll 3 5 false []) ∧
      ((sending (.broadcast [])).engine 0).op = some (.broadcast []) ∧
      ((sending .window).engine 0).op = some .window := by decide +kernel

/-- The level of TXD at some REFCLK periods of a POLL to station 5 at 9600 bit/s: lead-in, start bit, the data bits 1, 0,
1, 0, 0, 0, 0, 0, the mark bit, the stop bit, the next start bit (a bit is 2604.2 periods). -/
theorem test_txd : ([1000, 4000, 6500, 9000, 12000, 14500, 17000, 19500, 22500, 25000, 27500, 30000, 32500].map
      (fun t => (atTime 9 t (sending poll)).txdLevel 0)) =
    [true, false, true, false, true, false, false, false, false, false, true, true, false] := by decide +kernel

theorem test_hyp_CallSentTaken_pins :
    let bit := bitTime ((sending poll).engine 0).rateCode
    let k := fun (t : Nat) => ((atTime 9 t (sending poll)).moment - ((sending poll).engine 0).since) / bit
    k 1000 = 0 ∧ k 4000 = 1 ∧ ((sending poll).engine 0).frame[(k 4000 - 1) / 11]? = some ⟨5, true⟩ ∧
      ((sending poll).engine 0).frame.length ≤ (k 1000000 - 1) / 11 ∧
      ((ready.engine 0).lineState ≠ .sending ∧ (ready.engine 0).lineState ≠ .off) ∧ (run.engine 0).cut = none ∧
      (let s := atTime 9 3000 (sending poll)
       (s.engine 0).lineState = .sending ∧
        cutOff.moment ≤ (s.engine 0).since + (s.moment - (s.engine 0).since + bit - 1) / bit * bit) := by
  decide +kernel

theorem test_hyp_StrayCharacterTaken :
    let s := receiving .idle (fun e => e)
    s.active = true ∧ (s.engine 0).receiver = .receiving 0 ∧ (s.engine 0).lineState = .idle ∧
      0 + 21 * halfBit (s.engine 0).rateCode ≤ s.moment ∧
      (atTime 0 0 s).moment < 0 + 21 * halfBit (s.engine 0).rateCode ∧
      ((receiving .resting (fun e => e)).engine 0).lineState = .resting ∧
      (let e := (receiving .resting (fun e => e)).engine 0
       e.windowFrom + 2 * e.slots.length * charTime e.rateCode ≤ 0) ∧
      (∀ st ∈ [LineState.settling, .idle, .stuck, .resting],
        ((hearing (plain 5) (receiving st (fun e => e))).engine 0).character 0 = ⟨5, false⟩) ∧
      (s.engine 0).character 0 ≠ ⟨5, false⟩ := by decide +kernel

theorem test_hyp_AnswerCharacterTaken :
    let s := receiving .awaiting (fun e => e)
    let last := (receiving .receiving (fun e => { e with answerBuf := answer.take 4, taken := 4 })).engine 0
    let third := (receiving .receiving (fun e => { e with answerBuf := answer.take 2, taken := 2 })).engine 0
    let drain := fun (n : Nat) =>
      (receiving .receiving (fun e => { e with answerBuf := [5, 0, 33], taken := n, draining := true })).engine 0
    s.active = true ∧ (s.engine 0).receiver = .receiving 0 ∧ 0 + 21 * halfBit (s.engine 0).rateCode ≤ s.moment ∧
      (s.engine 0).lineState = .awaiting ∧ last.lineState = .receiving ∧
      ((s.engine 0).draining = false ∧ (s.engine 0).taken + 1 < 3) ∧
      (third.draining = false ∧ third.taken + 1 = 3 ∧ 32 < (33 : Byte).toNat) ∧
      (third.taken + 1 ≠ 5 + (byteAt (third.answerBuf ++ [32]) 2).toNat ∧ ¬ 32 < (32 : Byte).toNat) ∧
      (last.draining = false ∧ 5 ≤ last.taken + 1 ∧
        last.taken + 1 = 5 + (byteAt (last.answerBuf ++ [0]) 2).toNat ∧ last.op = some (.call .poll 3 5 false [])) ∧
      ((drain 35).draining = true ∧ (drain 35).taken + 1 < 37) ∧ 37 ≤ (drain 36).taken + 1 ∧
      (∀ v ∈ [(0 : Byte), 5, 32, 33],
        ((hearing (plain v) s).engine 0).character 0 = ⟨v, false⟩) := by decide +kernel

theorem test_judged_answers : (3 ≤ [(5 : Byte), 0, 0].length ∧ checkBytes [5, 0, 0] ≠ [0, 0]) ∧
    judgeAnswer .poll 5 false ([5, 0, 0] ++ [0, 0]) = .checkError ∧ judgeAnswer .poll 6 false answer = .wrongStation ∧
    judgeAnswer .poll 5 false ([5, 3, 0] ++ checkBytes [5, 3, 0]) = .badStatus ∧
    judgeAnswer .order 5 true answer = .seqError ∧ judgeAnswer .poll 5 true answer = .good ∧
    judgeAnswer .order 5 true ([5, 9, 0] ++ checkBytes [5, 9, 0]) = .busy ∧
    judgeAnswer .fetch 5 false ([5, 2, 0] ++ checkBytes [5, 2, 0]) = .refused := by decide +kernel

/-- Line 0 in a window of one slot record, with a character begun in slot 0. -/
def inWindow (r : SlotRec) : State := receiving .window (fun e => { e with op := some .window, slots := [r] })

theorem test_hyp_AttentionMarkTaken :
    let e := (inWindow ⟨5, 3, false, false⟩).engine 0
    let k := (0 - e.windowFrom) / (2 * charTime e.rateCode)
    (inWindow ⟨5, 3, false, false⟩).active = true ∧ e.receiver = .receiving 0 ∧ e.lineState = .window ∧
      0 + 21 * halfBit e.rateCode ≤ (inWindow ⟨5, 3, false, false⟩).moment ∧
      e.slots[k]? = some ⟨5, 3, false, false⟩ ∧
      (let w := (inWindow ⟨5, 3, false, true⟩).engine 0
       w.slots[k]? = some ⟨5, 3, false, true⟩) ∧
      (let w := (inWindow ⟨5, 3, true, false⟩).engine 0
       w.slots[k]? = some ⟨5, 3, true, false⟩) ∧
      ((receiving .window (fun e => e)).engine 0).slots[k]? = none ∧ (6 : Byte) ≠ 5 ∧
      ((run.entry 3).state = .vacant ∧ ((withEntry .leaving).entry 3).state = .leaving) ∧
      (((withEntry .held).entry 3).state = .held ∧ ((withEntry .held).entry 3).holdPending = false) ∧
      ((hearing (plain 5) (inWindow ⟨5, 3, false, false⟩)).engine 0).character 0 = ⟨5, false⟩ ∧
      (let w := (receiving .resting (fun e => { e with op := none, slots := [⟨5, 3, false, false⟩] })).engine 0
       w.lineState = .resting ∧ 0 < w.windowFrom + 2 * w.slots.length * charTime w.rateCode ∧
        w.slots[(0 - w.windowFrom) / (2 * charTime w.rateCode)]? = some ⟨5, 3, false, false⟩) ∧
      ((orderQueued (fun e => { e with holdPending := true })).entry 3).state = .live := by
  decide +kernel

theorem test_mark_in_rest : let s := receiving .resting (fun e => { e with op := none, slots := [⟨5, 3, false, false⟩] })
    let t := after (.characterDelivered 0 5 false) (hearing (plain 5) s)
    (t.entry 3).latch = true ∧ (t.engine 0).counters.strayCharacters = 0 := by decide +kernel

/-- A mark at a hold-pending entry whose ORDER waits: the ORDER completes WRONG_STATE and the entry is HELD (R17, R39). -/
theorem test_mark_at_hold_pending :
    let s := orderQueued (fun e => { e with holdPending := true })
    let t := takeMark 3 (s.setSched 0 { s.scheduler 0 with fetchQueue := [] })
    (t.entry 3).state = .held ∧ (t.entry 3).latch = true ∧ (t.scheduler 0).fetchQueue = [3] ∧
      (t.slot 4).bind (fun j => j.result.map (fun r => r.1.result)) = some .wrongState := by decide +kernel

theorem test_attention_mark :
    let t := after (.characterDelivered 0 5 false) (hearing (plain 5) (inWindow ⟨5, 3, false, false⟩))
    (t.entry 3).latch = true ∧ (t.scheduler 0).fetchQueue = [3] ∧ (t.engine 0).counters.garbledMarks = 0 := by
  decide +kernel

theorem test_hyp_AnswerLimitsTaken :
    let a := fun (r : Receiver) => receiving .awaiting (fun e => { e with receiver := r })
    let c := fun (r : Receiver) => receiving .receiving (fun e => { e with receiver := r })
    let turn := ((a .hunting).engine 0).since + ((a .hunting).engine 0).turnaround * charTime ((a .hunting).engine 0).rateCode
    let gap := ((c .hunting).engine 0).since + 3 * charTime ((c .hunting).engine 0).rateCode
    (a .hunting).active = true ∧ ((a .hunting).engine 0).limitPassed = false ∧
      ((a .hunting).engine 0).lineState = .awaiting ∧ turn ≤ (a .hunting).moment ∧
      (atTime 0 0 (a .hunting)).moment < turn ∧ ((a .hunting).engine 0).receiver = .hunting ∧
      (((a (.confirming (turn - 1))).engine 0).receiver = .confirming (turn - 1) ∧ turn - 1 < turn) ∧
      ((a (.confirming turn)).engine 0).receiver = .confirming turn ∧
      ((a (.receiving (turn - 1))).engine 0).receiver = .receiving (turn - 1) ∧
      ((c .hunting).engine 0).lineState = .receiving ∧ gap < (c .hunting).moment ∧
      (atTime 0 0 (c .hunting)).moment ≤ gap ∧
      ((c (.confirming gap)).engine 0).receiver = .confirming gap ∧
      (((c (.confirming (gap + 1))).engine 0).receiver = .confirming (gap + 1) ∧ gap < gap + 1) ∧
      (((a (.receiving turn)).engine 0).receiver = .receiving turn ∧ turn ≤ turn) ∧
      (((c (.receiving (gap + 1))).engine 0).receiver = .receiving (gap + 1) ∧ gap < gap + 1) ∧
      ((c (.receiving gap)).engine 0).receiver = .receiving gap := by decide +kernel

theorem test_hyp_AttemptEnds :
    let e := fun (n : Nat) => (receiving .awaiting (fun e => { e with attempt := n })).engine 0
    (CallOutcome.busy ≠ .good ∧ CallOutcome.busy ≠ .refused ∧ CallOutcome.busy ≠ .lineStuck) ∧
      (e 2).attempt < 1 + (e 2).retryLimit ∧ 1 + (e 3).retryLimit ≤ (e 3).attempt ∧
      ¬ (CallOutcome.good ≠ .good ∧ CallOutcome.good ≠ .refused ∧ CallOutcome.good ≠ .lineStuck) := by decide +kernel

theorem test_hyp_CallEndPassedOn :
    (let s := flying (.order 3 5) (with5 .order .onWire ready)
     (s.scheduler 0).inFlight = some (.order 3 5) ∧ s.slot 5 = some (jobIn .order .onWire 3) ∧
      (jobIn .order .onWire 3).kindOf = some .order ∧ (jobIn .order .onWire 3).state = .onWire ∧
      (s.entry 3).state ≠ .leaving) ∧
    (let s := flying (.poll 3 false) ready
     (s.scheduler 0).inFlight = some (.poll 3 false) ∧ (s.entry 3).state = .live ∧ (s.entry 3).holdPending = false ∧
      (let v := settleHold 3 (applyOutcome 3 .poll .silent none (s.setSched 0 { s.scheduler 0 with inFlight := none }))
       (v.entry 3).state = .live)) ∧
    (let s := flying (.fetch 3) ready
     (s.scheduler 0).inFlight = some (.fetch 3)) ∧
    (let s := flying (.poll 3 true) ready
     (s.scheduler 0).inFlight = some (.poll 3 true)) ∧
    (let v := settleHold 3 (applyOutcome 3 .poll .silent none (flying (.poll 3 false) (holdWaits ready)))
     (v.entry 3).state = .held) ∧
    (let v := settleHold 3 (applyOutcome 3 .poll .silent none (withEntry .mute))
     (v.entry 3).state = .mute) ∧
    (∀ f ∈ [InFlight.poll 3 true, .poll 3 false, .order 3 5, .fetch 3],
      let s := flying f (withEntry .leaving)
      (s.scheduler 0).inFlight = some f ∧ (s.entry 3).state = .leaving) := by decide +kernel

theorem test_hyp_CallEndPassedOn_hold :
    (let s := with5 .delist .waiting (withEntry .leaving)
     s.slot 5 = some (jobIn .delist .waiting 3) ∧ ∀ k, s.waitsFor .delist 3 k = true ↔ k = 5) ∧
    ((withEntry .live).entry 3).holdPending = false ∧ (((holdWaits ready).setEntry 3
      { (holdWaits ready).entry 3 with busy := true }).entry 3).busy = true ∧
    (let s := holdWaits ready
     (s.entry 3).holdPending = true ∧ (s.entry 3).busy = false ∧ (s.scheduler (s.entry 3).line).orderQueue = [] ∧
      s.slot 5 = some (jobIn .hold .waiting 3) ∧ ∀ k, s.waitsFor .hold 3 k = true ↔ k = 5) ∧
    (∀ latch : Bool, let s := holdWaits (orderQueued (fun e => { e with latch := latch }))
     (s.entry 3).holdPending = true ∧ (s.entry 3).busy = false ∧ (s.entry 3).latch = latch ∧
      3 ∈ (s.scheduler (s.entry 3).line).fetchQueue ∧ 4 ∈ (s.scheduler (s.entry 3).line).orderQueue ∧
      s.slot 4 = some (jobIn .order .queued 3) ∧ s.slot 5 = some (jobIn .hold .waiting 3) ∧
      (jobIn .order .queued 3).kindOf = some .order ∧ targetEntry (jobIn .order .queued 3).target = some 3 ∧
      ∀ k, s.waitsFor .hold 3 k = true ↔ k = 5) := by decide +kernel

theorem test_call_end_completes_hold :
    let u := callEnded 0 .silent 3 none (flying (.poll 3 false) (holdWaits ready))
    (u.entry 3).state = .held ∧ (u.entry 3).dueTime = 0 ∧
      (u.slot 5).bind (fun j => j.result.map (fun r => r.1.result)) = some .ok := by decide +kernel

theorem test_leaving_fetch_ends :
    let s := (with5 .delist .waiting (flying (.fetch 3) (withEntry .leaving))).setReserved 0 true
    let u := callEnded 0 .good 1 (some (0, [])) s
    u.entry 3 = Entry.vacant ∧ u.reserved 0 = false ∧ u.ntc.held.map (·.kind) = [.left] ∧
      (u.slot 5).bind (fun j => j.result.map (fun r => r.1.result)) = some .ok := by decide +kernel

theorem test_hyp_CallOutcomeTaken : CallKind.poll ≠ .fetch ∧
    (((withEntry .joining).entry 3).state = .joining ∧ ((withEntry .mute).entry 3).state = .mute ∧
      (8 : Byte).getLsbD 2 = false ∧ (4 : Byte).getLsbD 2 = true ∧ ((withEntry .live).entry 3).latch = false) ∧
    ((withEntry .live).entry 3).state = .live ∧
    (¬ (CallOutcome.silent = .good ∨ CallOutcome.silent = .busy ∨ CallOutcome.silent = .refused) ∧
      ((withEntry .held).entry 3).state ≠ .vacant ∧ ((withEntry .held).entry 3).state ≠ .leaving) ∧
    (∀ st ∈ [EntryState.joining, .live, .mute], let s := (withEntry st).setReserved 0 true
      (s.entry 3).state = st ∧ s.reserved (s.entry 3).line = true) := by
  decide +kernel

theorem test_fetch_sets_latch_again :
    let s := (fetchReady.setSched 0 { fetchReady.scheduler 0 with fetchQueue := [] }).setReserved 0 true
    let u := applyOutcome 3 .fetch .good (some (4, [])) s
    (u.entry 3).latch = true ∧ (u.scheduler 0).fetchQueue = [3] ∧ u.ntc.held.map (·.kind) = [.attention] ∧
      u.reserved 0 = false := by decide +kernel

theorem test_fetch_joins : let s := (withEntry .joining).setReserved 0 true
    (applyOutcome 3 .fetch .good (some (0, [])) s).ntc.held.map (·.kind) = [.joined, .attention] ∧
      (applyOutcome 3 .fetch .busy (some (1, [])) s).ntc.held.map (·.kind) = [.joined] := by decide +kernel

theorem test_hyp_RestAndWindowEnd :
    let s := receiving .resting (fun e => e)
    let finish := (s.engine 0).since + (s.engine 0).restLength * charTime (s.engine 0).rateCode
    let b := with5 .broadcast .onWire (flying (.broadcast 5) (receiving .resting (fun e => { e with op := some (.broadcast []) })))
    let w := flying (.window ([5] ++ [254])) (inWindow ⟨5, 3, false, false⟩)
    let last := (w.engine 0).windowFrom + 2 * (w.engine 0).slots.length * charTime (w.engine 0).rateCode
    s.active = true ∧ (s.engine 0).lineState = .resting ∧ (atTime 0 0 s).moment < finish ∧ finish ≤ s.moment ∧
      (s.engine 0).op = some (.call .poll 3 5 false []) ∧
      ((receiving .resting (fun e => { e with op := none })).engine 0).op = none ∧
      ((b.engine 0).op = some (.broadcast []) ∧ (b.scheduler 0).inFlight = some (.broadcast 5) ∧
        b.slot 5 = some (jobIn .broadcast .onWire 3) ∧ (jobIn .broadcast .onWire 3).state = .onWire) ∧
      ((w.engine 0).lineState = .window ∧ last ≤ w.moment ∧ (atTime 0 0 w).moment < last ∧
        (w.scheduler 0).inFlight = some (.window ([5] ++ [254]))) := by decide +kernel

theorem test_hyp_LineSettlesAndSticks :
    let s := fun (st : LineState) (o : Option Operation) =>
      receiving st (fun e => { e with op := o, markRun := some 0, spaceRun := some 0 })
    let e := (s .settling none).engine 0
    (s .settling none).active = true ∧ e.markRun = some 0 ∧ e.lineState = .settling ∧
      (atTime 0 0 (s .settling none)).moment < 0 + 10 * charTime e.rateCode ∧
      0 + 10 * charTime e.rateCode ≤ (s .settling none).moment ∧ ((s .stuck none).engine 0).lineState = .stuck ∧
      ((s .stuck none).engine 0).markRun = some 0 ∧ e.spaceRun = some 0 ∧ e.op = none ∧
      (atTime 0 0 (s .settling none)).moment < 0 + 20 * charTime e.rateCode ∧
      0 + 20 * charTime e.rateCode ≤ (s .settling none).moment ∧
      (((s .awaiting (some poll)).engine 0).op = some (.call .poll 3 5 false []) ∧
        ((s .awaiting (some poll)).engine 0).lineState = .awaiting) ∧
      (((s .resting (some poll)).engine 0).op = some (.call .poll 3 5 false []) ∧
        ((s .resting (some poll)).engine 0).lineState = .resting) ∧
      (((s .resting (some (.broadcast []))).engine 0).op = some (.broadcast []) ∧
        ((s .resting (some (.broadcast []))).engine 0).lineState = .resting) ∧
      (let w := flying (.window ([5] ++ [254])) (s .window (some .window))
       (w.engine 0).op = some .window ∧ (w.engine 0).lineState = .window ∧ (w.engine 0).spaceRun = some 0 ∧
        (w.scheduler 0).inFlight = some (.window ([5] ++ [254]))) := by decide +kernel

theorem test_stuck_in_window_and_rest :
    let s := fun (st : LineState) (o : Operation) => receiving st (fun e => { e with op := some o, spaceRun := some 0 })
    (let t := after (.lineFoundStuck 0) (flying (.window ([5] ++ [254])) (s .window .window))
     (t.engine 0).lineState = .stuck ∧ (t.scheduler 0).rotation = 1 ∧ (t.scheduler 0).inFlight = none) ∧
    (let t := after (.lineFoundStuck 0) (s .resting poll)
     (t.engine 0).lineState = .stuck ∧ (t.engine 0).counters.failedAttempts = 0 ∧ (t.entry 3).failures = 1) := by
  decide +kernel

theorem test_hyp_LineLevelsTaken :
    let low := fun (s : State) => { s with pins := ⟨false, Vector.replicate 4 false⟩ }
    let c := fun (st : LineState) (l : Bool) (edges : List Nat) =>
      receiving st (fun e => { e with receiver := .confirming 0, limitPassed := l, edges := edges })
    let e := fun (st : LineState) (edges : List Nat) => (c st true edges).engine 0
    let mark := fun (edges : List Nat) => (edges.filter (· ≤ 0 + halfBit 0)).length % 2 = 1
    State.reset.active = false ∧ (run.engine 0).lineState = .off ∧
      (ready.active = true ∧ (ready.engine 0).lineState ≠ .off ∧ ready.rxd 0 = true) ∧ (low ready).rxd 0 = false ∧
      ((c .awaiting false []).active = true ∧ ((c .awaiting false []).engine 0).receiver = .confirming 0 ∧
        (atTime 0 0 (c .awaiting false [])).moment < 0 + halfBit 0 ∧
        0 + halfBit 0 ≤ (c .awaiting false []).moment ∧ ¬ mark [] ∧ mark [1] ∧
        ((c .awaiting false [1]).engine 0).limitPassed = false) ∧
      (∀ st ∈ [LineState.awaiting, .receiving], (e st [1]).limitPassed = true ∧ (e st [1]).lineState = st ∧
        ((e st [1]).resume (0 + halfBit 0) true).receiver = .hunting ∧ mark [1, 2000000] ∧
        ((e st [1, 2000000]).resume (0 + halfBit 0) true).receiver = .confirming 2000000 ∧
        2000000 < (e st []).since + (e st []).turnaround * charTime (e st []).rateCode ∧
        2000000 ≤ (e st []).since + 3 * charTime (e st []).rateCode) ∧
      (let late := 900000000
       mark [1, late] ∧ ((e .awaiting [1, late]).resume (0 + halfBit 0) true).receiver = .confirming late ∧
        (e .awaiting []).since + (e .awaiting []).turnaround * charTime (e .awaiting []).rateCode ≤ late ∧
        (e .receiving []).since + 3 * charTime (e .receiving []).rateCode < late) := by decide +kernel

/-- A glitch after the limit: the attempt ends at it, unless another start in time is being checked. -/
theorem test_glitch_after_limit :
    let t := fun (st : LineState) (d : Bool) (edges : List Nat) => (after (.startBitConfirmation 0)
      (receiving st (fun e => { e with
        receiver := .confirming 0, limitPassed := true, draining := d, edges := edges }))).engine 0
    (t .awaiting false [1]).lastOutcome = some .silent ∧ (t .receiving false [1]).lastOutcome = some .truncated ∧
      (t .receiving true [1]).lastOutcome = some .badLength ∧
      ((t .awaiting false [1, 2000000]).lineState = .awaiting ∧
        (t .awaiting false [1, 2000000]).receiver = .confirming 2000000) ∧
      (t .receiving false [1, 900000000]).lastOutcome = some .truncated := by decide +kernel

theorem test_level_changes_kept :
    let c := fun (r : Receiver) => (after (.rxdLevelChange 0)
      (receiving .awaiting (fun e => { e with receiver := r, edges := [7] }))).engine 0
    (c .hunting).edges = [] ∧ (c .hunting).receiver = .confirming 1152000000 ∧
      (c (.confirming 0)).edges = [7, 1152000000] ∧ (c (.receiving 0)).edges = [7, 1152000000] ∧
      (c .disabled).edges = [7, 1152000000] ∧ (c .waitMark).edges = [] := by decide +kernel

/-! ### Hypotheses of the other statements -/

/-- STOPPING with nothing left to do but the close. -/
def drained : State := inPart .stopping

theorem test_hyp_EventEnds :
    (∀ l, (run.scheduler l).orderQueue.length ≤ 16) ∧ run.ctl.part ≠ .stopping ∧ drained.running = false ∧
    State.reset.active = false ∧ (∀ l, State.reset.mayChoose l = false) ∧ (∀ l, State.reset.maySetup l = false) ∧
    (∀ p ∈ [PartState.running, .stopping],
     let s := withJobUnit (fun u => { u with writes := [.taken 0x2000] }) (inPart p)
     s.active = true ∧ s.port.busyFor .jobUnit = false ∧ s.job.writes = [.taken 0x2000] ∧
      (s.jobRequest (.taken 0x2000)).isSome = true) ∧
    (∀ p ∈ [PartState.running, .stopping],
     let s := requestCell 3 { inPart p with rep := { ReportWriter.reset with tableAddr := some 0x1000 } }
     s.active = true ∧ s.rep.update = none ∧ s.rep.pendingCells = [3] ∧ s.rep.tableAddr = some 0x1000) ∧
    (drained.active = true ∧ drained.ctl.part = .stopping ∧ drained.ntc.closing = false ∧
      (∀ l, (drained.scheduler l).inFlight = none) ∧ drained.port.busyFor .follower = false ∧
      (∀ i, drained.slot i = none) ∧ drained.job.writes = [] ∧ drained.rep.pendingCells = [] ∧
      drained.rep.update = none) ∧
    (let s := withNtc (fun n => { n with closing := true, discarded := true }) drained
     s.active = true ∧ s.ctl.part = .stopping ∧ s.ntc.closing = true ∧ s.ntc.discarded = true ∧
      s.ntc.lostDue = false ∧ s.ntc.droppedDue = false ∧ s.port.busyFor .notice = false ∧ s.rep.pendingCells = [] ∧
      s.rep.update = none ∧ (drain s).ctl.part = .idle ∧ ∀ l, (drain s).scheduler l = Sched.reset) := by decide +kernel

/-- Two lines whose Schedulers ask for the one free place. -/
theorem test_hyp_EventEnds_choices :
    let s := withNtc (fun n => { n with held := List.replicate 7 aNotice }) fetchReady
    let t := ((s.setEntry 4 { entryIn .live with line := 1, latch := true }).setEngine 1
      (engineIn .idle none)).setSched 1 { s.scheduler 1 with fetchQueue := [4] }
    t.contended = true ∧ s.contended = false ∧ 8 < t.ntc.held.length + t.reservations + 2 := by decide +kernel

theorem test_hyp_EventEnds_notices :
    (let s := flying (.poll 3 false) drained
     s.ntc.closing = false ∧ (s.scheduler 0).inFlight ≠ none) ∧
    (let s := withNtc (fun n => { n with area := some 0x2000, sizeExp := 4, held := [aNotice] }) run
     s.active = true ∧ s.ntc.closing = false ∧ s.ntc.writing = none ∧ s.ntc.held ≠ [] ∧
      (s.ntc.written - s.ntc.taken).toNat < 2 ^ s.ntc.sizeExp ∧
      (issueNotice (waitForRoom s)).port.waiting.notice.any (fun r => r.who == .notice) = true) ∧
    (let s := withNtc (fun n => { n with written := 16, sizeExp := 4, held := [aNotice] }) run
     s.active = true ∧ s.ntc.closing = false ∧ s.ntc.writing = none ∧ s.ntc.waitingRoom = false ∧
      ¬ (s.ntc.written - s.ntc.taken).toNat < 2 ^ s.ntc.sizeExp) ∧
    (∀ b : Bool, let s := withNtc (fun n => { n with closing := true, held := [aNotice], lostDue := b }) drained
     s.active = true ∧ s.ntc.closing = true ∧ s.ntc.discarded = false ∧ s.ntc.readInFlight = false ∧
      s.ntc.writing = none ∧ s.port.busyFor .notice = false) ∧
    (∀ b : Bool, let s := withNtc (fun n => { n with
       closing := true, discarded := true, lostDue := b, droppedDue := true }) drained
     s.active = true ∧ s.ntc.closing = true ∧ s.ntc.discarded = true ∧ s.ntc.lostDue = b ∧
      s.ntc.droppedDue = true ∧ s.ntc.writing = none ∧ s.port.busyFor .notice = false) := by decide +kernel

theorem test_stop_discards :
    let t := drain (withNtc (fun n => { n with closing := true, held := [aNotice] }) drained)
    t.ntc.held = [] ∧ t.ntc.dropped = 1 ∧ t.port.inService.map (·.kind) = some .droppedWrite := by decide +kernel

theorem test_hyp_EventEnds_port :
    let order : List Requester := [.follower, .jobUnit, .report, .notice, .control]
    let p : Port := ⟨none, ⟨none, none, none, none, some (req .anchorRead)⟩, .control⟩
    (serving .linkRead run).port.inService = some (req .linkRead) ∧ run.port.waiting = Waiting.empty ∧
      p.inService = none ∧ order[4]? = some p.pointer ∧ 4 < 5 ∧ order[(4 + 1 + 4) % 5]? = some .control ∧
      p.waiting.get .control = some (req .anchorRead) ∧
      (∀ c ∈ [0, 1, 2, 3], ∀ x ∈ (order[(4 + 1 + c) % 5]?).toList, p.waiting.get x = none) := by decide +kernel

theorem test_hyp_WriterRequestsTaken :
    let s := withNtc (fun n => { n with held := List.replicate 7 aNotice }) run
    (withNtc (fun n => { n with closing := true }) run).ntc.closing = true ∧ s.ntc.closing = false ∧
      s.ntc.held.length + s.reservations < 8 ∧
      8 ≤ (s.setReserved 0 true).ntc.held.length + (s.setReserved 0 true).reservations := by decide +kernel

theorem test_hyp_NoticesIssuedInOrder :
    let s := withNtc (fun n => { n with area := some 0x2000, sizeExp := 4, written := 15, held := [aNotice] }) run
    s.active = true ∧ s.port.busyFor .notice = false ∧ s.ntc.writing = none ∧ s.ntc.closing = false ∧
      s.ntc.area = some 0x2000 ∧ s.ntc.readWanted = false ∧ s.ntc.lostDue = false ∧
      (s.ntc.written - s.ntc.taken).toNat < 2 ^ s.ntc.sizeExp ∧ s.ntc.lostAfter ≠ some 0 ∧ s.ntc.held = [aNotice] ∧
      (withNtc (fun n => { n with lostAfter := some 0 }) s).ntc.lostAfter = some 0 ∧
      (withNtc (fun n => { n with lostDue := true }) s).ntc.lostDue = true ∧
      (withNtc (fun n => { n with readWanted := true }) s).ntc.readWanted = true ∧
      (let t := withNtc (fun n => { n with written := 16 }) s
       ¬ (t.ntc.written - t.ntc.taken).toNat < 2 ^ t.ntc.sizeExp) ∧ aNotice.payload.length ≤ 32 := by decide +kernel

theorem test_hyp_CheckWordFormed : (engineIn .sending (some poll)).op = some (.call .poll 3 5 false []) ∧
    (engineIn .sending (some poll)).frame.map (·.value) = [5, 1, 0] ++ checkBytes [1, 0] ∧
    (engineIn .sending (some (.broadcast [9]))).frame.map (·.value) = [0, 4, 1, 9] ++ checkBytes [4, 1, 9] ∧
    (let e := { engineIn .sending (some .window) with slots := [⟨5, 3, false, false⟩] }
     e.frame.map (·.value) = [0, 5, 1, 5] ++ checkBytes [5, 1, 5]) := by decide +kernel

/-- A HALTED part, and a part with stations and held notices: states of the invariants that are not the reset state. -/
def halted : State := after .memoryErrorResponse (serving .cellBody (withEntry .live))

theorem test_hyp_invariants :
    (ready.VacantHoldsVacantValues ∧ ready.DeadlineWhileLive) ∧
    (halted.ctl.part = .halted ∧ halted.port.inService = none ∧ halted.port.waiting = Waiting.empty ∧
      halted.job.timer = none ∧ ∀ l, (halted.engine l).lineState = .off ∧ (halted.engine l).op = none ∧
        (halted.engine l).receiver = .disabled) ∧
    (run.ctl.part ≠ .halted ∧ run.ctl.haltReason = .none ∧ run.ctl.faultStruct = .none ∧ run.ctl.faultDir = .none) ∧
    ((after .cellClosingWriteDone (updating .closing .cellClosing)).EditionsEven ∧
      (after (.registerWrite 0x14 0x1FF 0xF) run).AnchorAligned) ∧
    (withNtc (fun n => { n with held := List.replicate 8 aNotice }) run).BufferBounded ∧
    (∀ n, (inPart .starting).entry n = Entry.vacant) :=
  ⟨⟨by unfold State.VacantHoldsVacantValues; decide +kernel, by unfold State.DeadlineWhileLive; decide +kernel⟩,
    by decide +kernel, by decide +kernel,
    ⟨by unfold State.EditionsEven; decide +kernel, by unfold State.AnchorAligned; decide +kernel⟩,
    by unfold State.BufferBounded; decide +kernel, by decide +kernel⟩

/-- A step from such a state goes on, so the statements about a step's next state are not empty. -/
theorem test_hyp_step : step { ready with pending := [.dueTimeReached 3] } = .next (after (.dueTimeReached 3) ready) :=
  rfl

theorem test_hyp_HaltedKeeps : halted.ctl.part = .halted ∧ halted.pins.rstn = false ∧
    Instr.hzintWrite 8 ≠ .pinReset ∧ (after (.start 1) halted).ctl.refusal = .notIdle := by decide +kernel

theorem test_hyp_CausesKept : run.pins.rstn = false ∧ Instr.start 1 ≠ .pinReset ∧ (1 : Word).getLsbD 2 = false ∧
    exec (.start 1) State.reset = .next (after (.start 1) State.reset) :=
  ⟨by decide +kernel, by decide +kernel, by decide +kernel, rfl⟩
end Sys2Proof.Tests
end

section
/-! PROOFS. The Station Table: what every step keeps of its entries, what no session leaves of them, the reset values, a
quiet expiry and the outcome of a call. -/

namespace Sys2Proof.Machine

/-! ### One step -/

section
variable {Q : State → Prop} (L : WorkLaw Q)
include L

/-- A step keeps what the work of an event keeps. -/
theorem WorkLaw.step {s t : State} (h : Q s) (e : step s = .next t) : Q t := by
  unfold Machine.step at e
  split at e
  · cases e
    exact L.frame (passRefclk_frame s) h
  · next c rest _ =>
    have queued : Q { s with pending := rest } := L.keep h rfl rfl
    exact L.exec queued e

end

/-! ### A law of single entries -/

/-- `WorkLaw` read at one entry: P is kept by each change that the part makes to an entry. -/
structure EntryLaw (P : Entry → Prop) : Prop where
  vacant : P Entry.vacant
  enlist : ∀ now l p, P (enlisted now l p)
  good : ∀ {e} now k o v p, P e → e.state ≠ .vacant → P (goodEntry now k o v p e)
  failed : ∀ {e} k, P e → e.state ≠ .vacant → P (failedEntry k e)
  mark : ∀ {e} now, P e → e.state ≠ .vacant → P (markEntry now e)
  latch : ∀ {e}, P e → e.state ≠ .vacant → P { e with latch := true }
  held : ∀ {e}, P e → e.state ≠ .vacant ∨ e.holdPending = true →
    P { e with state := .held, holdPending := false, quietDeadline := none }
  mute : ∀ {e}, P e → e.state = .live → P { e with state := .mute, quietDeadline := none }
  off : ∀ {e} now l, P e → P (lineOffEntry now l e)
  unhold : ∀ {e}, P e → P { e with holdPending := false }
  clear : ∀ {e}, P e → e.state ≠ .vacant → P { e with latch := false, holdPending := false }
  leaving : ∀ {e}, P e → e.state ≠ .vacant → P { e with state := .leaving, quietDeadline := none }
  pend : ∀ {e}, P e → e.state ≠ .vacant → P { e with holdPending := true }
  releaseHeld : ∀ {e} now, P e → e.state = .held → P { e with state := .joining, dueTime := now }
  retune : ∀ {e} now p, P e → e.state ≠ .vacant → e.state ≠ .leaving → P (retuned now p e)
  due : ∀ {e} x, P e → e.state ≠ .vacant → P { e with dueTime := x }
  busy : ∀ {e} x, P e → e.state ≠ .vacant → P { e with busy := true, lastPollStart := x }

/-- In a table of vacant entries every entry is VACANT with its vacant values. -/
theorem State.entry_of_vacant {s : State} (h : s.entries = Vector.replicate 64 Entry.vacant) (n : Fin 64) :
    s.entry n = Entry.vacant := by
  simp [State.entry, h]

/-- What holds of every entry holds after a write of an entry of which it holds. -/
theorem State.forall_entry_setEntry {P : Entry → Prop} {s : State} {n : Fin 64} {e : Entry}
    (h : ∀ m, P (s.entry m)) (he : P e) (m : Fin 64) : P ((s.setEntry n e).entry m) := by
  rw [State.entry_setEntry]
  split
  · exact he
  · exact h m

/-- What the changes of a single entry keep, the work of an event keeps of all entries. -/
theorem EntryLaw.workLaw {P : Entry → Prop} (L : EntryLaw P) : WorkLaw (fun s => ∀ n, P (s.entry n)) where
  shrink f hl _ _ h n := by
    rw [f.entry n hl]
    exact h n
  empty he _ _ n := by
    rw [State.entry_of_vacant he n]
    exact L.vacant
  notice h n := by
    rw [(requestNotice_frame ..).entry n]
    exact h n
  fill h n := by
    rw [(fillReservation_frame ..).entry n]
    exact h n
  release h n := by
    rw [(releaseReservation_frame ..).entry n]
    exact h n
  reserve h _ := h
  vacant h := State.forall_entry_setEntry h L.vacant
  enlist now l p h := State.forall_entry_setEntry h (L.enlist now l p)
  good now k o v p h hv := State.forall_entry_setEntry h (L.good now k o v p (h _) hv)
  failed k h hv := State.forall_entry_setEntry h (L.failed k (h _) hv)
  mark now h hv := State.forall_entry_setEntry h (L.mark now (h _) hv)
  latch h hv := State.forall_entry_setEntry h (L.latch (h _) hv)
  held h hv := State.forall_entry_setEntry h (L.held (h _) hv)
  mute h hl := State.forall_entry_setEntry h (L.mute (h _) hl)
  off now l h n := by
    rw [State.entry_mapEntries]
    exact L.off now l (h n)
  unhold h n := by
    rw [State.entry_mapEntries]
    exact L.unhold (h n)
  clear h hv := State.forall_entry_setEntry h (L.clear (h _) hv)
  leaving h hv := State.forall_entry_setEntry h (L.leaving (h _) hv)
  pend h hv := State.forall_entry_setEntry h (L.pend (h _) hv)
  releaseHeld now h hh := State.forall_entry_setEntry h (L.releaseHeld now (h _) hh)
  retune now p h hv hl := State.forall_entry_setEntry h (L.retune now p (h _) hv hl)
  due x h hv := State.forall_entry_setEntry h (L.due x (h _) hv)
  busy x h hv := State.forall_entry_setEntry h (L.busy x (h _) hv)

/-! ### Right after a pin reset (R175) -/

theorem reset_entry (n : Fin 64) : State.reset.entry n = Entry.vacant := State.entry_of_vacant rfl n

theorem reset_scheduler (l : Fin 4) : State.reset.scheduler l = Sched.reset := by
  simp [State.scheduler, State.reset]

theorem reset_engine (l : Fin 4) : State.reset.engine l = Engine.reset := by
  simp [State.engine, State.reset]

theorem reset_slot (i : Fin 16) : State.reset.slot i = none := by
  simp [State.slot, State.reset, JobUnit.reset]

theorem reset_reserved (l : Fin 4) : State.reset.reserved l = false := by
  simp [State.reserved, State.reset, NoticeWriter.reset]

theorem reset_reservations : State.reset.reservations = 0 := by
  simp [State.reservations, lines, reset_reserved]

theorem reset_edition (n : Fin 64) : State.reset.rep.editions[n.val] = 0 := by
  simp [State.reset, ReportWriter.reset]

/-- A line after a reset drives mark and does not drive the bus (R50). -/
theorem reset_pins (l : Fin 4) : State.reset.txdLevel l = true ∧ State.reset.deAsserted l = false := by
  obtain ⟨hde, htxd⟩ := Engine.pins_at_rest State.reset.moment Engine.reset (by decide) (.inr rfl)
  exact ⟨by rw [State.txdLevel, reset_engine, htxd], by rw [State.deAsserted, reset_engine, hde]⟩

/-! ### What the changes of an entry make of it -/

/-- Loading the quiet timer moves the deadline alone, and with limit 0 not even that (R13). -/
theorem loadQuiet_eq (now : Word) (e : Entry) : loadQuiet now e =
    { e with quietDeadline := if e.quietLimit = 0 then e.quietDeadline else some (now + e.quietLimit) } := by
  unfold loadQuiet
  split <;> rfl

/-- What every good answer changes in the entry, whatever its state (R5, R18, R19). -/
def answered (now : Word) (k : CallKind) (o : CallOutcome) (status : Byte) (payload : List Byte) (e : Entry) : Entry :=
  { e with
    busy := false, answers := e.answers + 1, lastHeard := now, lastStatus := status, failures := 0,
    latch := e.latch && k != .fetch,
    seqBit := if k = .order ∧ (o = .good ∨ o = .refused) then !e.seqBit else e.seqBit,
    lastPayload := if k = .poll ∧ o = .good ∧ e.state.called then payload else e.lastPayload }

section
variable (now : Word) (k : CallKind) (o : CallOutcome) (v : Byte) (p : List Byte) (e : Entry)

/-- A good answer makes a JOINING or MUTE entry LIVE and loads its quiet timer (R6, R10). -/
theorem goodEntry_of_revived (h : e.state = .joining ∨ e.state = .mute) :
    goodEntry now k o v p e = loadQuiet now { answered now k o v p e with state := .live } := by
  rcases h with h | h <;> simp only [goodEntry, answered, h]

/-- A good answer of a reloading kind reloads the quiet timer of a LIVE entry (R7, R13). -/
theorem goodEntry_of_live (h : e.state = .live) : goodEntry now k o v p e =
    if reloads k e.options then loadQuiet now (answered now k o v p e) else answered now k o v p e := by
  simp only [goodEntry, answered, h]

/-- Of any other entry a good answer changes no more than `answered` says (R8). -/
theorem goodEntry_of_other (h : e.state ≠ .joining) (h' : e.state ≠ .mute) (h'' : e.state ≠ .live) :
    goodEntry now k o v p e = answered now k o v p e := by
  cases hs : e.state <;> simp_all only [goodEntry, answered, ne_eq, not_true_eq_false]

end

/-! ### VACANT entries hold their vacant values (R1) -/

/-- A VACANT entry holds its vacant values. -/
def Entry.VacantOk (e : Entry) : Prop := e.state = .vacant → e = Entry.vacant

theorem Entry.vacantOk_of_ne {e : Entry} (h : e.state ≠ .vacant) : e.VacantOk := fun hv => absurd hv h

theorem goodEntry_ne_vacant {e : Entry} (now : Word) (k : CallKind) (o : CallOutcome) (v : Byte) (p : List Byte)
    (h : e.state ≠ .vacant) : (goodEntry now k o v p e).state ≠ .vacant := by
  cases hs : e.state
  case vacant => exact absurd hs h
  case joining => simp [goodEntry_of_revived _ _ _ _ _ _ (.inl hs), loadQuiet_eq]
  case mute => simp [goodEntry_of_revived _ _ _ _ _ _ (.inr hs), loadQuiet_eq]
  case live =>
    rw [goodEntry_of_live _ _ _ _ _ _ hs]
    split <;> simp [loadQuiet_eq, answered, hs]
  case held => simp [goodEntry_of_other, answered, hs]
  case leaving => simp [goodEntry_of_other, answered, hs]

theorem markEntry_state (now : Word) (e : Entry) : (markEntry now e).state = e.state := by
  unfold markEntry
  split <;> simp [loadQuiet_eq]

theorem retuned_state (now : Word) (p : StationParams) (e : Entry) : (retuned now p e).state = e.state := by
  unfold retuned
  simp only
  split <;> rfl

theorem lineOffEntry_ne_vacant {e : Entry} (now : Word) (l : Fin 4) (h : e.state ≠ .vacant) :
    (lineOffEntry now l e).state ≠ .vacant := by
  unfold lineOffEntry
  split
  · exact h
  · cases hs : e.state <;> simp_all

/-- Turning a line off leaves a VACANT entry as it is: it is on no line (R26). -/
theorem lineOffEntry_of_vacant {e : Entry} (now : Word) (l : Fin 4) (h : e.state = .vacant) :
    lineOffEntry now l e = e := by
  simp [lineOffEntry, h]

theorem Entry.vacantOk_law : EntryLaw Entry.VacantOk where
  vacant _ := rfl
  enlist _ _ _ := Entry.vacantOk_of_ne (by simp [enlisted])
  good now k o v p _ hv := Entry.vacantOk_of_ne (goodEntry_ne_vacant now k o v p hv)
  failed _ _ hv := Entry.vacantOk_of_ne hv
  mark now _ hv := Entry.vacantOk_of_ne (by rwa [markEntry_state])
  latch _ hv := Entry.vacantOk_of_ne hv
  held _ _ := Entry.vacantOk_of_ne (by simp)
  mute _ _ := Entry.vacantOk_of_ne (by simp)
  off {e} now l h := by
    by_cases hv : e.state = .vacant
    · rwa [lineOffEntry_of_vacant now l hv]
    · exact Entry.vacantOk_of_ne (lineOffEntry_ne_vacant now l hv)
  unhold {e} h hv := by
    rw [h hv]
    rfl
  clear _ hv := Entry.vacantOk_of_ne hv
  leaving _ _ := Entry.vacantOk_of_ne (by simp)
  pend _ hv := Entry.vacantOk_of_ne hv
  releaseHeld _ _ _ := Entry.vacantOk_of_ne (by simp)
  retune now p _ hv _ := Entry.vacantOk_of_ne (by rwa [retuned_state])
  due _ _ hv := Entry.vacantOk_of_ne hv
  busy _ _ hv := Entry.vacantOk_of_ne hv

/-- Settles O53: R1 at each entry is kept by every change of an entry, and so by every step. -/
theorem vacantValuesKept : Obligations.VacantValuesKept := by
  intro s t h e
  exact Entry.vacantOk_law.workLaw.step h e

/-! ### The quiet deadline (R12) -/

/-- The entry has a quiet deadline exactly while it is LIVE with a quiet limit. -/
def Entry.DeadlineOk (e : Entry) : Prop := e.quietDeadline.isSome = true ↔ e.state = .live ∧ e.quietLimit ≠ 0

theorem Entry.deadlineOk_of_not_live {e : Entry} (hs : e.state ≠ .live) (hd : e.quietDeadline = none) :
    e.DeadlineOk := by
  simp [Entry.DeadlineOk, hs, hd]

theorem Entry.DeadlineOk.none_of_not_live {e : Entry} (h : e.DeadlineOk) (hs : e.state ≠ .live) :
    e.quietDeadline = none := by
  simpa [Entry.DeadlineOk, hs] using h

theorem Entry.DeadlineOk.none_of_limit {e : Entry} (h : e.DeadlineOk) (hl : e.quietLimit = 0) :
    e.quietDeadline = none := by
  simpa [Entry.DeadlineOk, hl] using h

/-- The rule speaks of state, limit and deadline alone. -/
theorem Entry.DeadlineOk.congr {e f : Entry} (h : e.DeadlineOk) (hs : f.state = e.state)
    (hl : f.quietLimit = e.quietLimit) (hd : f.quietDeadline = e.quietDeadline) : f.DeadlineOk := by
  simpa [Entry.DeadlineOk, hs, hl, hd] using h

/-- Loading the quiet timer of a LIVE entry, which had no deadline where its limit is 0, gives it the deadline of
R12. -/
theorem Entry.deadlineOk_loadQuiet {e : Entry} (now : Word) (hs : e.state = .live)
    (hd : e.quietLimit = 0 → e.quietDeadline = none) : (loadQuiet now e).DeadlineOk := by
  unfold loadQuiet
  split
  · next hl => simp [Entry.DeadlineOk, hl, hd hl]
  · next hl => simpa [Entry.DeadlineOk, hs] using hl

theorem Entry.DeadlineOk.goodEntry {e : Entry} (h : e.DeadlineOk) (now : Word) (k : CallKind) (o : CallOutcome)
    (v : Byte) (p : List Byte) : (goodEntry now k o v p e).DeadlineOk := by
  have revived (hs : e.state = .joining ∨ e.state = .mute) : (Machine.goodEntry now k o v p e).DeadlineOk := by
    rw [goodEntry_of_revived _ _ _ _ _ _ hs]
    exact Entry.deadlineOk_loadQuiet now rfl h.none_of_limit
  have other (hs : e.state ≠ .joining) (hs' : e.state ≠ .mute) (hs'' : e.state ≠ .live) :
      (Machine.goodEntry now k o v p e).DeadlineOk := by
    rw [goodEntry_of_other _ _ _ _ _ _ hs hs' hs'']
    exact h.congr rfl rfl rfl
  cases hs : e.state
  case joining => exact revived (.inl hs)
  case mute => exact revived (.inr hs)
  case live =>
    rw [goodEntry_of_live _ _ _ _ _ _ hs]
    split
    · exact Entry.deadlineOk_loadQuiet now hs h.none_of_limit
    · exact h.congr rfl rfl rfl
  case vacant => exact other (by simp [hs]) (by simp [hs]) (by simp [hs])
  case held => exact other (by simp [hs]) (by simp [hs]) (by simp [hs])
  case leaving => exact other (by simp [hs]) (by simp [hs]) (by simp [hs])

theorem Entry.DeadlineOk.markEntry {e : Entry} (h : e.DeadlineOk) (now : Word) : (markEntry now e).DeadlineOk := by
  unfold Machine.markEntry
  split
  · next c => exact Entry.deadlineOk_loadQuiet now c.1 h.none_of_limit
  · exact h

theorem Entry.DeadlineOk.lineOffEntry {e : Entry} (h : e.DeadlineOk) (now : Word) (l : Fin 4) :
    (lineOffEntry now l e).DeadlineOk := by
  unfold Machine.lineOffEntry
  split
  · exact h
  · split
    · exact h
    · exact Entry.deadlineOk_of_not_live (by simp) rfl
    · exact Entry.deadlineOk_of_not_live (by simp) rfl
    · exact h.congr rfl rfl rfl
    · exact h.congr rfl rfl rfl
    · exact h.congr rfl rfl rfl

theorem Entry.DeadlineOk.retuned {e : Entry} (h : e.DeadlineOk) (now : Word) (p : StationParams) :
    (retuned now p e).DeadlineOk := by
  unfold Machine.retuned
  simp only
  split
  · next hs => by_cases hl : p.quietLimit = 0 <;> simp [Entry.DeadlineOk, hs, hl]
  · next hs => exact Entry.deadlineOk_of_not_live hs (h.none_of_not_live hs)

theorem Entry.deadlineOk_law : EntryLaw Entry.DeadlineOk where
  vacant := Entry.deadlineOk_of_not_live (by simp [Entry.vacant]) rfl
  enlist _ _ _ := Entry.deadlineOk_of_not_live (by simp [enlisted]) rfl
  good now k o v p h _ := h.goodEntry now k o v p
  failed _ h _ := h.congr rfl rfl rfl
  mark now h _ := h.markEntry now
  latch h _ := h.congr rfl rfl rfl
  held _ _ := Entry.deadlineOk_of_not_live (by simp) rfl
  mute _ _ := Entry.deadlineOk_of_not_live (by simp) rfl
  off now l h := h.lineOffEntry now l
  unhold h := h.congr rfl rfl rfl
  clear h _ := h.congr rfl rfl rfl
  leaving _ _ := Entry.deadlineOk_of_not_live (by simp) rfl
  pend h _ := h.congr rfl rfl rfl
  releaseHeld _ h hs := Entry.deadlineOk_of_not_live (by simp) (h.none_of_not_live (by simp [hs]))
  retune now p h _ _ := h.retuned now p
  due _ h _ := h.congr rfl rfl rfl
  busy _ h _ := h.congr rfl rfl rfl

/-- Settles O54: R12 at each entry is kept by every change of an entry, and so by every step. -/
theorem deadlineWhileLiveKept : Obligations.DeadlineWhileLiveKept := by
  intro s t h e
  exact Entry.deadlineOk_law.workLaw.step h e

/-! ### While no session is under way (R29, R68, section 9.1) -/

/-- No session is under way: the part is IDLE or STARTING. -/
def PartState.sessionless (p : PartState) : Prop := p = .idle ∨ p = .starting

namespace State.IdleHoldsVacant
variable {s t : State}

/-- Nothing is claimed of a part that is RUNNING, STOPPING or HALTED. -/
theorem of_session (h : ¬ s.ctl.part.sessionless) : s.IdleHoldsVacant := fun hp => absurd hp h

/-- A state whose entries hold their vacant values and whose lines are OFF, as the resets leave them. -/
theorem of_cleared (he : s.entries = Vector.replicate 64 Entry.vacant) (hl : ∀ l, (s.engine l).lineState = .off) :
    s.IdleHoldsVacant := fun _ => ⟨State.entry_of_vacant he, hl⟩

/-- A change of neither entries nor engines, which begins no time without a session. -/
theorem keep (h : s.IdleHoldsVacant) (hp : t.ctl.part.sessionless → s.ctl.part.sessionless)
    (he : t.entries = s.entries) (hg : t.eng = s.eng) : t.IdleHoldsVacant := by
  intro ht
  obtain ⟨hv, hl⟩ := h (hp ht)
  refine ⟨fun n => ?_, fun l => ?_⟩
  · rw [State.entry_congr he n]
    exact hv n
  · simp only [State.engine, hg]
    exact hl l

theorem frame (h : s.IdleHoldsVacant) {l : List Piece} (f : Frame l s t)
    (hc : l.contains .control = false := by decide) (he : l.contains .entries = false := by decide)
    (hg : l.contains .eng = false := by decide) : t.IdleHoldsVacant :=
  h.keep (by rw [f.partState hc]; exact id) (f.same .entries he) (f.same .eng hg)

theorem of_active (h : s.active = true) : s.IdleHoldsVacant := by
  refine of_session ?_
  rintro (hp | hp) <;> simp [State.active, hp] at h

/-- Work on an active part leaves it active, whatever becomes of entries and lines. -/
theorem of_work {l : List Piece} (h : s.active = true) (f : Frame l s t)
    (hc : l.contains .control = false := by decide) (hs : l.contains .pins = false := by decide) :
    t.IdleHoldsVacant := of_active (by rw [f.active hc hs, h])

theorem enterHalted (why : HaltReason) (a : Addr) (st : Structure) (d : Direction) (s : State) :
    (enterHalted why a st d s).IdleHoldsVacant := by
  refine of_session ?_
  rintro (hp | hp) <;> cases hp

/-- The end of a stop clears entries and lines (R174). -/
theorem stopEnds (s : State) : (stopEnds s).IdleHoldsVacant :=
  of_cleared rfl (fun l => by simp [State.engine, Machine.stopEnds, Engine.turnedOff, Engine.reset])

theorem drain (h : s.IdleHoldsVacant) : (drain s).IdleHoldsVacant := by
  rw [drain_eq]
  refine frame ?_ (State.arbitrate_frame _)
  have issued := h.frame (beforeEnd_frame s)
  unfold endStop
  split
  · exact stopEnds _
  · exact issued

theorem chooseAll (h : s.IdleHoldsVacant) : (chooseAll s).IdleHoldsVacant := by
  by_cases hr : s.running = true
  · refine of_work ?_ (chooseAll_frame s)
    simp only [State.running, Bool.and_eq_true] at hr
    simp [State.active, hr]
  · rw [chooseAll_of_not_running s (by simpa using hr)]
    exact h

theorem settle (h : s.IdleHoldsVacant) : (settle s).IdleHoldsVacant := h.chooseAll.drain

theorem ite {c : Prop} [Decidable c] (h : c → s.IdleHoldsVacant) (k : ¬ c → t.IdleHoldsVacant) :
    (if c then s else t).IdleHoldsVacant := by
  split
  · next e => exact h e
  · next e => exact k e

/-! #### Commands -/

theorem whenServed {k : RequestKind} {f : State → State} (h : s.IdleHoldsVacant)
    (hf : s.served.active = true → (f s.served).IdleHoldsVacant) : (whenServed k f s).IdleHoldsVacant := by
  refine ite (fun c => hf ?_) (fun _ => h)
  rw [Bool.and_eq_true] at c
  rw [(State.served_frame s).active]
  exact c.1

/-- A completion in RUNNING or STOPPING whose work leaves the Control Block alone. -/
theorem served_drain {k : RequestKind} {f : State → State} {l : List Piece} (h : s.IdleHoldsVacant)
    (hf : ∀ u, Frame l u (f u)) (hc : l.contains .control = false := by decide)
    (hs : l.contains .pins = false := by decide) :
    (Machine.whenServed k (fun s => Machine.drain (f s)) s).IdleHoldsVacant :=
  h.whenServed (fun ha => (of_work ha (hf _) hc hs).drain)

/-- An event that is taken in RUNNING or STOPPING alone. -/
theorem guarded {c : Bool} (h : s.IdleHoldsVacant) (k : s.active = true → t.IdleHoldsVacant)
    (hc : c = true → s.active = true := by simp +contextual) : (if c then t else s).IdleHoldsVacant :=
  ite (fun e => k (hc e)) (fun _ => h)

theorem whenStarting {p : Phase} {k : RequestKind} {f : State → State} (h : s.IdleHoldsVacant)
    (hf : s.served.ctl.part = .starting → s.served.IdleHoldsVacant → (f s.served).IdleHoldsVacant) :
    (whenStarting p k f s).IdleHoldsVacant := by
  unfold Machine.whenStarting
  split
  · next c =>
    simp only [State.startingIn, Bool.and_eq_true, beq_iff_eq] at c
    have hp : s.served.ctl.part = .starting := c.1.1.2
    have hs : s.served.IdleHoldsVacant := h.frame (State.served_frame s)
    refine ite (fun _ => ?_) (fun _ => hf hp hs)
    exact hs.keep (fun _ => .inr hp) rfl rfl
  · exact h

theorem followLink (ha : s.active = true) (place v : Addr) : (followLink place v s).IdleHoldsVacant := by
  by_cases hv : aligned 128 v = true
  · exact of_work ha (followLink_frame_of_aligned place v s hv)
  · have nonzero : v ≠ 0 := fun e => hv (by rw [e]; rfl)
    rw [followLink_misaligned place v s nonzero (by simpa using hv)]
    exact enterHalted _ _ _ _ _

theorem judgeRecord (ha : s.active = true) (a : Addr) (r : JobRecord) : (judgeRecord a r s).IdleHoldsVacant := by
  have parked : (park .record s).IdleHoldsVacant := of_work ha (park_frame ..)
  refine ite (fun _ => ite (fun _ => enterHalted _ _ _ _ _) (fun hl => ite (fun _ => parked) (fun _ => ?_)))
    (fun _ => parked)
  unfold takeRecord
  split
  · next i _ =>
    have claimed := (claimSlot_frame i a r s).active
    have followed := (followLink_frame_of_aligned (linkField a) r.fields.link (claimSlot i a r s)
      (by simpa using hl)).active
    exact of_work (followed.trans (claimed.trans ha)) (dispatchJob_frame ..)
  · exact of_work ha (State.setFollower_frame ..)

theorem recordReturned (h : s.IdleHoldsVacant) (r : JobRecord) : (recordReturned r s).IdleHoldsVacant := by
  refine h.guarded (fun ha => ?_)
  have served : s.served.active = true := by rw [(State.served_frame s).active, ha]
  simp only
  split
  · exact (judgeRecord served _ _).settle
  · exact (of_active served).settle

theorem lineStatusTaken (h : s.IdleHoldsVacant) (f : JobFields) : (lineStatusTaken f s).IdleHoldsVacant := by
  unfold Machine.lineStatusTaken
  split
  · next ha _ =>
    rw [Bool.and_eq_true] at ha
    exact (of_work ha.1 (dispatchJob_frame ..)).settle
  · exact h.recordReturned _

theorem refuse (h : s.IdleHoldsVacant) (r : RefusalReason) : (refuse r s).IdleHoldsVacant := h.keep id rfl rfl

theorem beginStop (s : State) : (beginStop s).IdleHoldsVacant := by
  refine of_session ?_
  have part : (Machine.beginStop s).ctl.part = .stopping := by
    unfold Machine.beginStop
    simp only [State.mapEntries_ctl, (abortJobs_frame _ _).ctl]
    rfl
  rintro (hp | hp) <;> simp [part] at hp

theorem takeStart (h : s.IdleHoldsVacant) : (takeStart s).IdleHoldsVacant :=
  ite (fun hi => h.keep (fun _ => .inl hi) rfl rfl) (fun _ => h.refuse _)

theorem takeStop (h : s.IdleHoldsVacant) : (takeStop s).IdleHoldsVacant := by
  unfold Machine.takeStop
  split
  · exact h.refuse _
  · exact h.refuse _
  · exact h.keep id rfl rfl
  · exact (beginStop s).drain
  · exact h

theorem takeNudge (h : s.IdleHoldsVacant) : (takeNudge s).IdleHoldsVacant :=
  ((h.frame (nudgeFollower_frame s)).frame (nudgeRead_frame _)).drain

theorem reset_lines (l : Fin 4) : (State.reset.engine l).lineState = .off := by
  rw [reset_engine]
  rfl

theorem takeCommand (h : s.IdleHoldsVacant) (v : Word) : (takeCommand v s).IdleHoldsVacant := by
  refine ite (fun _ => h) (fun _ => ite (fun _ => of_cleared rfl reset_lines) (fun _ => ?_))
  have nudged : (if v.getLsbD 3 && s.running then Machine.takeNudge s else s).IdleHoldsVacant :=
    ite (fun _ => h.takeNudge) (fun _ => h)
  simp only
  split
  · exact nudged.refuse _
  · exact nudged.takeStart
  · exact nudged.takeStop
  · exact nudged

theorem writeRegister (h : s.IdleHoldsVacant) (o : BitVec 6) (v : Word) (b : BitVec 4) :
    (writeRegister o v b s).IdleHoldsVacant := by
  refine ite (fun _ => h) (fun _ => ?_)
  split
  · exact h.takeCommand v
  · exact ite (fun _ => h) (fun _ => h.keep id rfl rfl)
  · exact ite (fun _ => h) (fun _ => h.keep id rfl rfl)
  · exact ite (fun _ => h) (fun _ => h.keep id rfl rfl)
  · exact ite (fun _ => h) (fun _ => h.keep id rfl rfl)
  · exact h

theorem anchorRead (h : s.IdleHoldsVacant) (hp : s.ctl.part = .starting) (a : Anchor) :
    (anchorRead a s).IdleHoldsVacant := by
  unfold Machine.anchorRead
  split
  · exact h.keep (fun _ => .inr hp) rfl rfl
  · exact of_cleared rfl (fun l => by simp [State.engine, State.issue, State.arbitrate, sessionReset, Engine.reset])

theorem enterRunning (s : State) : (enterRunning s).IdleHoldsVacant := by
  refine ite (fun _ => enterHalted _ _ _ _ _) (fun _ => drain (frame (of_session ?_) (readLink_frame _)))
  rintro (hp | hp) <;> cases hp

theorem cellInitialised (h : s.IdleHoldsVacant) : (cellInitialised s).IdleHoldsVacant := by
  unfold Machine.cellInitialised
  split
  · split
    · exact h.keep id rfl rfl
    · exact enterRunning _
  · exact h

/-- Every command keeps the entries vacant and the lines OFF while no session is under way. -/
theorem exec {c : Instr} (h : s.IdleHoldsVacant) (e : exec c s = .next t) : t.IdleHoldsVacant := by
  have ofEngine {l : Fin 4} {g : Engine} (ha : s.active = true) : (s.setEngine l g).active = true := ha
  cases c <;> simp only [Machine.exec] at e
  case start v => cases e; exact h.takeCommand _
  case stop v => cases e; exact h.takeCommand _
  case reset v => cases e; exact h.takeCommand _
  case nudge v => cases e; exact h.takeCommand _
  case pinReset => cases e; exact of_cleared rfl reset_lines
  case rstnRelease => cases e; exact h.keep id rfl rfl
  case hzintWrite v => cases e; exact ite (fun _ => h) (fun _ => h.keep id rfl rfl)
  case hzmaskWrite v => cases e; exact ite (fun _ => h) (fun _ => h.keep id rfl rfl)
  case registerWrite o v b => cases e; exact h.writeRegister o v b
  case anchorReadDone d => cases e; exact h.whenStarting (fun hp hs => hs.anchorRead hp _)
  case statusBlockWriteDone => cases e; exact h.whenStarting (fun _ hs => hs.keep id rfl rfl)
  case cellInitialisationWriteDone => cases e; exact h.whenStarting (fun _ hs => hs.cellInitialised)
  case linkReadDone v =>
    cases e
    refine h.whenServed (fun ha => ?_)
    unfold linkReturned
    split
    · exact (followLink ha _ v).drain
    · exact (of_active ha).drain
  case recordReadDone d => cases e; exact h.recordReturned _
  case setupLine f => cases e; exact h.recordReturned _
  case lineStatus f => cases e; exact h.lineStatusTaken f
  case enlist f => cases e; exact h.recordReturned _
  case delist f => cases e; exact h.recordReturned _
  case hold f => cases e; exact h.recordReturned _
  case release f => cases e; exact h.recordReturned _
  case retune f => cases e; exact h.recordReturned _
  case order f => cases e; exact h.recordReturned _
  case broadcast f => cases e; exact h.recordReturned _
  case cancel f => cases e; exact h.recordReturned _
  case mark f => cases e; exact h.recordReturned _
  case takenWriteDone => cases e; exact h.served_drain popWrite_frame
  case resultWriteDone => cases e; exact h.served_drain popWrite_frame
  case stateWriteDone => cases e; exact h.served_drain popWrite_frame
  case parkingWriteDone => cases e; exact h.served_drain popWrite_frame
  case tallyWriteDone =>
    cases e
    refine h.whenServed (fun ha => ?_)
    have popped := (popWrite_frame s.served).active.trans ha
    unfold tallyWritten
    split
    · exact (of_work popped (freeTheSlot_frame ..)).drain
    · exact (of_active popped).drain
  case cellOpeningWriteDone => cases e; exact h.served_drain (advanceUpdate_frame .body)
  case cellBodyWriteDone => cases e; exact h.served_drain (advanceUpdate_frame .closing)
  case cellClosingWriteDone => cases e; exact h.served_drain endUpdate_frame
  case noticeRecordWriteDone => cases e; exact h.served_drain noticeWritten_frame
  case noticeCountWriteDone =>
    cases e
    exact h.whenServed (fun ha => (of_work ha (noticeCounted_frame _)).settle)
  case lostTotalWriteDone => cases e; exact h.whenServed (fun ha => (of_active ha).drain)
  case droppedAtStopWriteDone => cases e; exact h.whenServed (fun ha => (of_active ha).drain)
  case noticesTakenReadDone v =>
    cases e
    exact h.whenServed (fun ha => ite (fun _ => (of_work ha (adoptTaken_frame v _)).drain)
      (fun _ => enterHalted _ _ _ _ _))
  case memoryErrorResponse =>
    cases e
    unfold busError
    split
    · exact ite (fun _ => enterHalted _ _ _ _ _) (fun _ => h)
    · exact h
  case reReadTimerEnd =>
    cases e
    unfold timerEnded
    split
    · next t ha _ =>
      refine ite (fun _ => drain (frame ?_ (wantRead_frame _))) (fun _ => h)
      have restarted : { s with job := { s.job with timer := some (t + s.job.interval) } }.IdleHoldsVacant :=
        of_active ha
      unfold rereadIfParked
      split
      · exact restarted.frame (reread_frame _)
      · exact restarted.frame (reread_frame _)
      · exact restarted
    · exact h
  case quietTimerExpiry n =>
    cases e
    exact h.guarded (fun ha => (of_work ha (expireQuiet_frame n s)).drain)
  case dueTimeReached n => cases e; exact ite (fun _ => h.settle) (fun _ => h)
  case windowDueTimeReached l => cases e; exact ite (fun _ => h.settle) (fun _ => h)
  case overdueRefresh x =>
    cases e
    cases x with
    | entry n =>
      exact h.guarded (fun ha => of_work ha (State.setEntry_frame ..))
    | window l =>
      simp only [refreshOverdue]
      split
      · exact h.guarded (fun ha => of_work ha (State.setSched_frame ..))
      · exact h
  case callSent l =>
    cases e
    exact h.guarded (fun ha => of_active (ofEngine ha))
  case characterDelivered l v m =>
    cases e
    unfold deliver
    simp only
    split
    · next ha _ =>
      exact ite (fun _ => (of_work (ofEngine ha) (takeCharacter_frame ..)).settle) (fun _ => h)
    · exact h
  case turnaroundLimit l =>
    cases e
    exact h.guarded (fun ha => (of_work ha (turnaroundOut_frame l s)).settle)
  case answerGapLimit l =>
    cases e
    exact h.guarded (fun ha => (of_work ha (gapOut_frame l s)).settle)
  case restEnd l =>
    cases e
    refine h.guarded (fun ha => settle ?_)
    unfold restOver
    simp only
    split
    · exact of_active (ofEngine ha)
    · exact of_work (ofEngine ha) (broadcastEnded_frame ..)
    · exact of_active (ofEngine ha)
    · exact of_active (ofEngine ha)
  case windowEnd l =>
    cases e
    exact h.guarded (fun ha => (of_work (ofEngine ha) (windowEnded_frame ..)).settle)
  case settlingEnd l =>
    cases e
    exact h.guarded (fun ha => (of_active (ofEngine ha)).settle)
  case lineFoundStuck l =>
    cases e
    exact h.guarded (fun ha => (of_work ha (foundStuck_frame l s)).settle)
  case lineRecovered l =>
    cases e
    exact h.guarded (fun ha => (of_work (ofEngine ha) (requestNotice_frame ..)).settle)
  case rxdLevelChange l =>
    cases e
    unfold rxdLevelChange
    simp only
    split
    · next ha => exact of_active (s := State.setEngine { s with pins := _ } l _) ha
    · exact h.keep id rfl rfl
  case startBitConfirmation l =>
    cases e
    unfold startBitConfirmation
    simp only
    split
    · next ha _ => exact ite (fun _ => (of_work ha (confirmStart_frame ..)).settle) (fun _ => h)
    · exact h

end State.IdleHoldsVacant

/-- Settles O58: an active part stays active until a stop's end clears everything, and an inactive one changes entries
and lines in a reset alone. -/
theorem idleHoldsVacantKept : Obligations.IdleHoldsVacantKept := by
  intro s t h e
  unfold step at e
  split at e
  · cases e
    exact h.frame (passRefclk_frame s)
  · next c rest _ =>
    have queued : { s with pending := rest }.IdleHoldsVacant := h.keep id rfl rfl
    exact queued.exec e

/-! ### Requests to the writers depend on the writers alone -/

/-- A cell is asked for by `requestCell` (R144). -/
theorem requestCell_asks (n : Fin 64) (s : State) : s.AsksCell (requestCell n s) n := by
  unfold requestCell
  split <;> simp_all [State.AsksCell]

theorem State.AsksCell.of_rep {s t u : State} {n : Fin 64} (k : t.AsksCell u n) (h : t.rep = s.rep) :
    s.AsksCell u n := by
  unfold State.AsksCell at k ⊢
  rwa [← h]

theorem State.AsksCell.then_rep {s t u : State} {n : Fin 64} (k : s.AsksCell t n) (h : u.rep = t.rep) :
    s.AsksCell u n := by
  unfold State.AsksCell at k ⊢
  rwa [h]

theorem State.freePlaces_congr {s t : State} (h : t.ntc = s.ntc) : t.freePlaces = s.freePlaces := by
  have hr : t.reserved = s.reserved := funext (fun l => by simp only [State.reserved, h])
  simp only [State.freePlaces, State.reservations, h, hr]

/-- What a notice request makes of the Notice Writer depends on the Notice Writer alone. -/
theorem requestNotice_ntc_congr {s t : State} (x : Notice) (h : t.ntc = s.ntc) :
    (requestNotice x t).ntc = (requestNotice x s).ntc := by
  unfold requestNotice
  rw [State.freePlaces_congr h, h]
  split
  · simp only [dropNotice, h]
  · split
    · simp only [holdNotice, h]
    · simp only [loseNotice, h]

/-- A notice request leaves the reservations as they are. -/
theorem requestNotice_reserved (x : Notice) (s : State) : (requestNotice x s).ntc.reserved = s.ntc.reserved := by
  unfold requestNotice
  split
  · rfl
  · split <;> rfl

/-! ### The quiet expiry (R14) -/

section
variable (n : Fin 64) (s : State)

theorem expireQuiet_entry (m : Fin 64) : (expireQuiet n s).entry m =
    if n = m then { s.entry n with state := .mute, quietDeadline := none } else s.entry m := by
  unfold expireQuiet
  rw [(requestCell_frame ..).entry, (requestNotice_frame ..).entry, State.entry_setEntry]

theorem expireQuiet_asksCell : s.AsksCell (expireQuiet n s) n :=
  (requestCell_asks n _).of_rep ((requestNotice_frame ..).rep)

theorem expireQuiet_asksNotice : s.AsksNotice (expireQuiet n s) (stationNotice .muted n (s.entry n) s.tb.now []) := by
  unfold State.AsksNotice expireQuiet
  rw [(requestCell_frame ..).same .ntc, requestNotice_ntc_congr _ (State.setEntry_ntc ..)]
  rfl

end

/-- A LIVE entry's quiet timer has expired when its deadline is reached. -/
theorem Entry.quietExpired_of_live {e : Entry} {d : Word} (now : Word) (hs : e.state = .live)
    (hd : e.quietDeadline = some d) : e.quietExpired now = decide ((now - d).toNat < 2 ^ 31) := by
  simp [Entry.quietExpired, hs, hd, reached]

/-- Settles O33: the expiry is taken once the deadline is reached, and does what `expireQuiet` does to entry, cell and
notice. -/
theorem quietExpiryTaken : Obligations.QuietExpiryTaken := by
  intro n d s ha hs hd e
  have taken : exec (.quietTimerExpiry n) s =
      .next (if (s.tb.now - d).toNat < 2 ^ 31 then drain (expireQuiet n s) else s) := by
    simp only [exec, execQuietTimerExpiry, quietExpiry, ha, Entry.quietExpired_of_live _ hs hd, Bool.true_and,
      decide_eq_true_eq]
  refine ⟨fun hlate => ?_, fun hdue => ⟨expireQuiet n s, ?_, expireQuiet_frame n s, ?_, fun m hm => ?_,
    expireQuiet_asksCell n s, expireQuiet_asksNotice n s⟩⟩
  · rw [taken, if_neg (Nat.not_lt.mpr hlate)]
  · rw [taken, if_pos hdue]
  · rw [expireQuiet_entry, if_pos rfl]
  · rw [expireQuiet_entry, if_neg hm.symm]

/-! ### The obligations on a pin reset -/

/-- Settles O3: block by block, the values of the reset columns. -/
theorem resetLeavesStatedValues : Obligations.ResetLeavesStatedValues := by
  have control : State.reset.hzstat = 0 ∧ State.reset.irq = false := by decide
  simp only [Obligations.ResetLeavesStatedValues, control, reset_entry, reset_scheduler, reset_engine, reset_slot,
    reset_reserved, reset_edition, reset_pins]
  simp [State.reset, Control.reset, Entry.vacant, Sched.reset, Engine.reset, Counters.zero, JobUnit.reset,
    ReportWriter.reset, NoticeWriter.reset, Port.reset, Waiting.empty]

/-- Settles O4: after a reset every entry is vacant, every line OFF, no request waits and nothing is held. -/
theorem invariantsHoldAtReset : Obligations.InvariantsHoldAtReset := by
  refine ⟨fun _ => ⟨rfl, rfl, rfl⟩, fun n _ => reset_entry n, fun n => ?_, fun n => ?_, ?_, fun h => ?_,
    fun _ => ⟨reset_entry, fun l => by rw [reset_engine]; rfl⟩, rfl⟩
  · rw [reset_entry]
    exact Entry.deadlineOk_law.vacant
  · rw [reset_edition]
    rfl
  · simp only [State.BufferBounded, reset_reservations]
    decide
  · cases h

/-! ### A good answer, before its attention flag -/

/-- GOOD, BUSY and REFUSED are the good outcomes (R78). -/
theorem CallOutcome.isGood_iff (o : CallOutcome) : o.isGood = true ↔ o = .good ∨ o = .busy ∨ o = .refused := by
  cases o <;> simp [CallOutcome.isGood]

/-- JOINING, LIVE and MUTE are the states in which a station is called (R2). -/
theorem EntryState.called_iff (x : EntryState) : x.called = true ↔ x = .joining ∨ x = .live ∨ x = .mute := by
  cases x <;> simp [EntryState.called]

/-- The state of `takeGood` with the answer stored in the entry and its notice and cell asked for, before the end of a
FETCH and before the answer's flag is looked at. -/
def answerStored (n : Fin 64) (k : CallKind) (o : CallOutcome) (status : Byte) (payload : List Byte)
    (s : State) : State :=
  let noticed := requestStation n (goodNotice k o payload (s.entry n))
    (s.setEntry n (goodEntry s.tb.now k o status payload (s.entry n)))
  if goodAsksCell k o payload (s.entry n) then requestCell n noticed else noticed

section
variable (n : Fin 64) (k : CallKind) (o : CallOutcome) (v : Byte) (p : List Byte) (s : State)

theorem takeGood_of_not_fetch (hk : k ≠ .fetch) :
    takeGood n k o v p s = takeFlag n v (answerStored n k o v p s) := by
  simp only [takeGood, if_neg hk, answerStored]

theorem takeGood_fetch :
    takeGood n .fetch o v p s = takeFlag n v (endFetch n o p (answerStored n .fetch o v p s)) := rfl

theorem answerStored_frame : Frame [.entries, .ntc, .cells] s (answerStored n k o v p s) := by
  have noticed := Frame.then (l := [.entries, .ntc, .cells])
    (State.setEntry_frame s n (goodEntry s.tb.now k o v p (s.entry n)))
    (requestStation_frame n (goodNotice k o p (s.entry n)) _)
  exact Frame.ite (noticed.then (requestCell_frame ..)) noticed

theorem answerStored_entry (m : Fin 64) : (answerStored n k o v p s).entry m =
    if n = m then goodEntry s.tb.now k o v p (s.entry n) else s.entry m := by
  unfold answerStored
  simp only
  split <;> simp only [(requestCell_frame ..).entry, (requestStation_frame ..).entry, State.entry_setEntry]

theorem answerStored_others : s.OtherEntriesKept (answerStored n k o v p s) n := fun m hm => by
  rw [answerStored_entry, if_neg hm.symm]

theorem answerStored_asksCell (h : goodAsksCell k o p (s.entry n) = true) :
    s.AsksCell (answerStored n k o v p s) n := by
  unfold answerStored
  rw [h]
  exact (requestCell_asks n _).of_rep (requestStation_frame ..).rep

theorem answerStored_rep (h : goodAsksCell k o p (s.entry n) = false) : (answerStored n k o v p s).rep = s.rep := by
  unfold answerStored
  rw [h]
  exact (requestStation_frame ..).rep

/-- The Notice Writer after a stored answer is that after its notice request. -/
theorem answerStored_ntc : (answerStored n k o v p s).ntc =
    (requestStation n (goodNotice k o p (s.entry n))
      (s.setEntry n (goodEntry s.tb.now k o v p (s.entry n)))).ntc := by
  unfold answerStored
  simp only
  split
  · exact (requestCell_frame ..).same .ntc
  · rfl

theorem answerStored_quiet (h : goodNotice k o p (s.entry n) = none) : (answerStored n k o v p s).ntc = s.ntc := by
  rw [answerStored_ntc, h]
  rfl

end

section
variable (now : Word) (k : CallKind) (o : CallOutcome) (v : Byte) (p : List Byte) (e : Entry)

/-- Beyond `answered` a good answer moves state and deadline alone. -/
theorem goodEntry_answered : ∃ st d, goodEntry now k o v p e =
    { answered now k o v p e with state := st, quietDeadline := d } := by
  by_cases hr : e.state = .joining ∨ e.state = .mute
  · exact ⟨_, _, by rw [goodEntry_of_revived _ _ _ _ _ _ hr, loadQuiet_eq]⟩
  · rw [not_or] at hr
    by_cases hl : e.state = .live
    · rw [goodEntry_of_live _ _ _ _ _ _ hl]
      split
      · exact ⟨_, _, by rw [loadQuiet_eq]⟩
      · exact ⟨_, _, rfl⟩
    · exact ⟨_, _, by rw [goodEntry_of_other _ _ _ _ _ _ hr.1 hr.2 hl]⟩

/-- A station notice after a good answer shows the entry's line and address, and no failures (R5, R28). -/
theorem stationNotice_goodEntry (kind : NoticeKind) (n : Fin 64) (t : Word) (q : List Byte) :
    stationNotice kind n (goodEntry now k o v p e) t q =
      { kind := kind, entry := some n, line := some e.line, address := e.address, time := t, count := 0,
        payload := q } := by
  obtain ⟨st, d, h⟩ := goodEntry_answered now k o v p e
  rw [h]
  rfl

/-- What a good POLL or ORDER answer changes in an entry that is called. -/
theorem answered_of_not_fetch (hk : k ≠ .fetch) (hg : o = .good ∨ o = .busy ∨ o = .refused)
    (hc : e.state.called = true) : answered now k o v p e = { e with
      busy := false, answers := e.answers + 1, lastHeard := now, lastStatus := v, failures := 0,
      seqBit := if k = .order ∧ o ≠ .busy then !e.seqBit else e.seqBit,
      lastPayload := if k = .poll ∧ o = .good then p else e.lastPayload } := by
  rcases hg with rfl | rfl | rfl <;> simp [answered, hk, hc]

/-- What a good FETCH answer changes in an entry: the latch is cleared, no reading is stored (R18). -/
theorem answered_fetch : answered now .fetch o v p e = { e with
    busy := false, latch := false, answers := e.answers + 1, lastHeard := now, lastStatus := v, failures := 0 } := by
  simp [answered]

theorem goodNotice_of_revived (h : e.state = .joining ∨ e.state = .mute) : goodNotice k o p e =
    some (if e.state = .joining then .joined else .restored, if k = .poll ∧ o = .good then p else []) := by
  rcases h with h | h <;> simp [goodNotice, h]

theorem goodNotice_of_live (h : e.state = .live) : goodNotice k o p e =
    if changedReading k o p e && e.options.notify then some (.changed, p) else none := by
  simp only [goodNotice, h]

theorem goodAsksCell_of_revived (h : e.state = .joining ∨ e.state = .mute) : goodAsksCell k o p e = true := by
  rcases h with h | h <;> simp only [goodAsksCell, h]

theorem goodAsksCell_of_live (h : e.state = .live) : goodAsksCell k o p e = true ↔
    changedReading k o p e = true ∨ e.options.refresh = true ∨ e.failures ≠ 0 := by
  simp [goodAsksCell, h, or_assoc]

theorem changedReading_iff : changedReading k o p e = true ↔ k = .poll ∧ o = .good ∧ p ≠ e.lastPayload := by
  simp [changedReading, and_assoc]

end

/-- A notice of a stored answer is asked for with the entry's values after it. -/
theorem answerStored_asksNotice {n : Fin 64} {k : CallKind} {o : CallOutcome} (v : Byte) {p : List Byte} {s : State}
    {kind : NoticeKind} {q : List Byte} (h : goodNotice k o p (s.entry n) = some (kind, q)) :
    s.AsksNotice (answerStored n k o v p s)
      { kind := kind, entry := some n, line := some (s.entry n).line, address := (s.entry n).address,
        time := s.tb.now, count := 0, payload := q } := by
  unfold State.AsksNotice
  rw [answerStored_ntc, h]
  unfold requestStation
  simp only
  rw [State.entry_setEntry_self, stationNotice_goodEntry]
  exact requestNotice_ntc_congr _ rfl

/-! ### The attention flag and the end of a FETCH -/

/-- u is v after an answer of this status: with the attention flag a clear latch of a called entry is set, and its index
joins the tail of its line's fetch queue (R16). -/
def State.Flagged (v u : State) (n : Fin 64) (status : Byte) : Prop :=
  let e := v.entry n
  let sets := status.getLsbD 2 = true ∧ e.latch = false ∧ (e.state = .joining ∨ e.state = .live ∨ e.state = .mute)
  (¬ sets → u = v) ∧
  (sets → u = (v.setEntry n { e with latch := true }).setSched e.line
    { v.scheduler e.line with fetchQueue := (v.scheduler e.line).fetchQueue ++ [n] })

theorem takeFlag_flagged (n : Fin 64) (status : Byte) (v : State) : v.Flagged (takeFlag n status v) n status := by
  unfold State.Flagged takeFlag setLatch attentionFlag
  simp only [Bool.and_eq_true, EntryState.called_iff]
  constructor
  · intro h
    split
    · next c =>
      split
      · rfl
      · next hl => exact absurd ⟨c.1, by simpa using hl, c.2⟩ h
    · rfl
  · rintro ⟨hf, hl, hs⟩
    rw [if_pos ⟨hf, hs⟩, hl]
    rfl

/-- The end of a FETCH whose line l holds a reservation: GOOD fills it with the ATTENTION notice, any other outcome
releases it (R18, R157). -/
theorem endFetch_ntc (n : Fin 64) (o : CallOutcome) (p : List Byte) {s : State} {l : Fin 4}
    (hl : (s.entry n).line = l) (h : s.reserved l = true) : (endFetch n o p s).ntc = { s.ntc with
      reserved := s.ntc.reserved.set l.val false,
      held := if o = .good then s.ntc.held ++ [stationNotice .attention n (s.entry n) s.tb.now p]
        else s.ntc.held } := by
  unfold endFetch
  simp only [hl]
  split
  · simp only [fillReservation, h, if_true]
    rfl
  · rfl

/-! ### A failed call -/

section
variable (n : Fin 64) (k : CallKind) (s : State)

theorem takeFailed_entry (m : Fin 64) : (takeFailed n k s).entry m =
    if n = m then failedEntry k (s.entry n) else s.entry m := by
  unfold takeFailed
  simp only
  split <;> split <;>
    simp only [(releaseReservation_frame ..).entry, (requestCell_frame ..).entry, State.entry_setEntry]

theorem takeFailed_others : s.OtherEntriesKept (takeFailed n k s) n := fun m hm => by
  rw [takeFailed_entry, if_neg hm.symm]

/-- A failed POLL or ORDER touches its entry and, for a POLL, the cell. -/
theorem takeFailed_of_not_fetch (hk : k ≠ .fetch) : takeFailed n k s =
    if k = .poll ∧ (s.entry n).state.called then requestCell n (s.setEntry n (failedEntry k (s.entry n)))
    else s.setEntry n (failedEntry k (s.entry n)) := by
  simp only [takeFailed, if_neg hk]

theorem takeFailed_frame_of_not_fetch (hk : k ≠ .fetch) : Frame [.entries, .cells] s (takeFailed n k s) := by
  rw [takeFailed_of_not_fetch n k s hk]
  exact Frame.ite ((State.setEntry_frame ..).then (requestCell_frame ..)) ((State.setEntry_frame ..).mono (by decide))

/-- A failed FETCH clears the latch and releases the reservation (R18, R157). -/
theorem takeFailed_fetch : takeFailed n .fetch s =
    releaseReservation (s.entry n).line (s.setEntry n (failedEntry .fetch (s.entry n))) := by
  simp [takeFailed]

theorem failedEntry_of_not_fetch (e : Entry) (hk : k ≠ .fetch) : failedEntry k e = { e with
    busy := false,
    failures := if k = .poll then (if e.failures = 0xFFFF then e.failures else e.failures + 1) else e.failures } := by
  simp [failedEntry, saturate16, hk]

theorem failedEntry_fetch (e : Entry) : failedEntry .fetch e = { e with busy := false, latch := false } := by
  simp [failedEntry]

end

/-! ### The outcome of a call -/

theorem applyOutcome_good {n : Fin 64} {k : CallKind} {o : CallOutcome} (v : Byte) (p : List Byte) {s : State}
    (hg : o = .good ∨ o = .busy ∨ o = .refused) (hv : (s.entry n).state ≠ .vacant) :
    applyOutcome n k o (some (v, p)) s = takeGood n k o v p s := by
  simp only [applyOutcome, if_neg hv, (CallOutcome.isGood_iff o).mpr hg, if_true]
  rfl

theorem applyOutcome_good_of_not_fetch {n : Fin 64} {k : CallKind} {o : CallOutcome} (v : Byte) (p : List Byte)
    {s : State} (hk : k ≠ .fetch) (hg : o = .good ∨ o = .busy ∨ o = .refused) (hv : (s.entry n).state ≠ .vacant) :
    applyOutcome n k o (some (v, p)) s = takeFlag n v (answerStored n k o v p s) :=
  (applyOutcome_good v p hg hv).trans (takeGood_of_not_fetch n k o v p s hk)

theorem applyOutcome_good_fetch {n : Fin 64} {o : CallOutcome} (v : Byte) (p : List Byte) {s : State}
    (hg : o = .good ∨ o = .busy ∨ o = .refused) (hv : (s.entry n).state ≠ .vacant) :
    applyOutcome n .fetch o (some (v, p)) s = takeFlag n v (endFetch n o p (answerStored n .fetch o v p s)) :=
  (applyOutcome_good v p hg hv).trans (takeGood_fetch n o v p s)

theorem applyOutcome_failed {n : Fin 64} {k : CallKind} {o : CallOutcome} (a : Option (Byte × List Byte)) {s : State}
    (hg : ¬ (o = .good ∨ o = .busy ∨ o = .refused)) (hv : (s.entry n).state ≠ .vacant) :
    applyOutcome n k o a s = takeFailed n k s := by
  simp only [applyOutcome, if_neg hv, mt (CallOutcome.isGood_iff o).mp hg, Bool.false_eq_true, if_false]

theorem reloads_iff {k : CallKind} (o : Options) (hk : k ≠ .fetch) :
    reloads k o = true ↔ k = .poll ∨ o.reloadOrder = true := by
  cases k <;> simp_all [reloads]

/-- A good FETCH answer makes a called entry LIVE, clears its latch and loads its quiet timer (R6, R7, R10, R18). -/
theorem goodEntry_fetch (now : Word) (o : CallOutcome) (v : Byte) (p : List Byte) {e : Entry}
    (h : e.state = .joining ∨ e.state = .live ∨ e.state = .mute) : goodEntry now .fetch o v p e = { e with
      state := .live, busy := false, latch := false, answers := e.answers + 1, lastHeard := now, lastStatus := v,
      failures := 0,
      quietDeadline := if e.quietLimit = 0 then e.quietDeadline else some (now + e.quietLimit) } := by
  rcases h with h | h | h
  · rw [goodEntry_of_revived _ _ _ _ _ _ (.inl h), loadQuiet_eq, answered_fetch]
  · rw [goodEntry_of_live _ _ _ _ _ _ h, if_pos (by rfl), loadQuiet_eq, answered_fetch, ← h]
  · rw [goodEntry_of_revived _ _ _ _ _ _ (.inr h), loadQuiet_eq, answered_fetch]

theorem goodAsksCell_fetch (o : CallOutcome) (p : List Byte) {e : Entry}
    (h : e.state = .joining ∨ e.state = .live ∨ e.state = .mute) : goodAsksCell .fetch o p e = true ↔
      e.state ≠ .live ∨ e.options.refresh = true ∨ e.failures ≠ 0 := by
  rcases h with h | h | h <;> simp [goodAsksCell, changedReading, h]

theorem answerStored_reserved (n : Fin 64) (k : CallKind) (o : CallOutcome) (v : Byte) (p : List Byte) (s : State) :
    (answerStored n k o v p s).ntc.reserved = s.ntc.reserved := by
  rw [answerStored_ntc]
  unfold requestStation
  split
  · rw [requestNotice_reserved]
    rfl
  · rfl

/-- The Notice Writer at the end of a FETCH that was answered: the line's reservation has ended, for GOOD with the
ATTENTION notice in its place (R18, R157). -/
theorem fetchEnded_ntc (n : Fin 64) (o : CallOutcome) (v : Byte) (p : List Byte) (s : State)
    (h : s.reserved (s.entry n).line = true) :
    let stored := answerStored n .fetch o v p s
    (endFetch n o p stored).ntc = { stored.ntc with
      reserved := s.ntc.reserved.set (s.entry n).line.val false,
      held := if o = .good then stored.ntc.held ++ [{
          kind := .attention, entry := some n, line := some (s.entry n).line, address := (s.entry n).address,
          time := s.tb.now, count := 0, payload := p }]
        else stored.ntc.held } := by
  intro stored
  have entry : stored.entry n = goodEntry s.tb.now .fetch o v p (s.entry n) := by
    rw [answerStored_entry, if_pos rfl]
  have line : (stored.entry n).line = (s.entry n).line := by
    obtain ⟨st, d, hd⟩ := goodEntry_answered s.tb.now .fetch o v p (s.entry n)
    rw [entry, hd]
    rfl
  have reserved : stored.ntc.reserved = s.ntc.reserved := answerStored_reserved ..
  have now : stored.tb = s.tb := (answerStored_frame ..).same .tb
  have held : stored.reserved (s.entry n).line = true := by
    rw [State.reserved, reserved]
    exact h
  rw [endFetch_ntc n o p line held, reserved, now, entry, stationNotice_goodEntry]

/-- The notices of a FETCH's answer: JOINED or RESTORED without a reading, and none for a LIVE entry (R6, R7, R10). -/
theorem goodNotice_fetch (o : CallOutcome) (p : List Byte) (e : Entry) :
    (e.state = .joining → goodNotice .fetch o p e = some (.joined, [])) ∧
    (e.state = .mute → goodNotice .fetch o p e = some (.restored, [])) ∧
    (e.state = .live → goodNotice .fetch o p e = none) := by
  refine ⟨fun h => ?_, fun h => ?_, fun h => ?_⟩ <;> simp [goodNotice, changedReading, h]

/-- Settles O44: a good answer is stored, a FETCH ends, and then the attention flag is looked at; or the call failed. -/
theorem callOutcomeTaken : Obligations.CallOutcomeTaken := by
  unfold Obligations.CallOutcomeTaken
  intro flagged
  constructor
  · intro n k o status payload s hk e good u stored loaded notice reading
    have ends (hg : good) (hc : e.state.called = true) : flagged n status (answerStored n k o status payload s) u := by
      have hu : u = takeFlag n status (answerStored n k o status payload s) :=
        applyOutcome_good_of_not_fetch status payload hk hg (EntryState.called_ne_vacant hc)
      rw [hu]
      exact takeFlag_flagged ..
    refine ⟨fun hg hs => ?revived, fun hg hs => ?live, fun answer hg hv _ => ?failed⟩
    case revived =>
      have called : e.state.called = true := by rcases hs with hs | hs <;> rw [hs] <;> rfl
      refine ⟨answerStored n k o status payload s, ends hg called, answerStored_frame .., answerStored_others _ _ _ _ _ _,
        answerStored_asksCell _ _ _ _ _ _ (goodAsksCell_of_revived _ _ _ _ hs), ?_,
        answerStored_asksNotice status (goodNotice_of_revived _ _ _ _ hs)⟩
      rw [answerStored_entry, if_pos rfl, goodEntry_of_revived _ _ _ _ _ _ hs, loadQuiet_eq,
        answered_of_not_fetch _ _ _ _ _ _ hk hg called]
    case live =>
      have called : e.state.called = true := by rw [hs]; rfl
      have changed_iff := changedReading_iff k o payload e
      have asks_iff := (goodAsksCell_of_live k o payload e hs).trans (or_congr_left changed_iff)
      have noticed := goodNotice_of_live k o payload e hs
      refine ⟨answerStored n k o status payload s, ends hg called, ?_⟩
      intro reloads change asks
      refine ⟨answerStored_frame .., answerStored_others _ _ _ _ _ _, ?_,
        fun ha => answerStored_asksCell _ _ _ _ _ _ (asks_iff.mpr ha),
        fun ha => answerStored_rep _ _ _ _ _ _ (Bool.eq_false_iff.mpr (mt asks_iff.mp ha)),
        fun hc => answerStored_asksNotice status ?_, fun hc => answerStored_quiet _ _ _ _ _ _ ?_⟩
      · have reloads_iff : Machine.reloads k e.options = true ↔ reloads := reloads_iff e.options hk
        rw [answerStored_entry, if_pos rfl, goodEntry_of_live _ _ _ _ _ _ hs, loadQuiet_eq,
          answered_of_not_fetch _ _ _ _ _ _ hk hg called]
        by_cases hr : reloads
        · rw [if_pos (reloads_iff.mpr hr), if_pos hr]
        · rw [if_neg (mt reloads_iff.mp hr), if_neg hr]
      · rw [noticed, changed_iff.mpr hc.1, hc.2]
        rfl
      · rw [noticed, if_neg]
        rwa [Bool.and_eq_true, changed_iff]
    case failed =>
      intro u
      have hu : u = takeFailed n k s := applyOutcome_failed answer hg hv
      rw [hu]
      refine ⟨takeFailed_frame_of_not_fetch n k s hk, takeFailed_others n k s, ?_, fun hp hs => ?_, fun ho => ?_⟩
      · rw [takeFailed_entry, if_pos rfl, failedEntry_of_not_fetch _ _ hk]
      · rw [takeFailed_of_not_fetch n k s hk, if_pos ⟨hp, (EntryState.called_iff _).mpr hs⟩]
        exact (requestCell_asks n _).of_rep rfl
      · rw [takeFailed_of_not_fetch n k s hk, if_neg (by simp [ho])]
        rfl
  · intro n o status payload s e good u notice freed hr
    refine ⟨fun hg hs => ?answered, fun answer hg hv _ => ?failed⟩
    case answered =>
      have hu : u = takeFlag n status (endFetch n o payload (answerStored n .fetch o status payload s)) :=
        applyOutcome_good_fetch status payload hg
          (EntryState.called_ne_vacant ((EntryState.called_iff e.state).mpr hs))
      obtain ⟨joined, restored, quiet⟩ := goodNotice_fetch o payload e
      refine ⟨endFetch n o payload (answerStored n .fetch o status payload s), ?_, ?_⟩
      · rw [hu]
        exact takeFlag_flagged ..
      intro asked
      refine ⟨(answerStored_frame ..).then (endFetch_frame ..), fun m hm => ?_, ?_, fun ha => ?_,
        fun hlive hrefresh hfailures => ?_, ?_⟩
      · rw [(endFetch_frame ..).entry]
        exact answerStored_others _ _ _ _ _ _ m hm
      · rw [(endFetch_frame ..).entry, answerStored_entry, if_pos rfl, goodEntry_fetch _ _ _ _ hs]
      · exact (answerStored_asksCell _ _ _ _ _ _ ((goodAsksCell_fetch o payload hs).mpr ha)).then_rep
          (endFetch_frame ..).rep
      · refine (endFetch_frame ..).rep.trans (answerStored_rep _ _ _ _ _ _ (Bool.eq_false_iff.mpr ?_))
        rw [ne_eq, goodAsksCell_fetch o payload hs]
        simp [hlive, hrefresh, hfailures, e]
      · have stored : (answerStored n .fetch o status payload s).ntc = asked := by
          rcases hs with hs | hs | hs <;> simp only [asked, hs]
          · exact answerStored_asksNotice status (joined hs)
          · exact answerStored_quiet _ _ _ _ _ _ (quiet hs)
          · exact answerStored_asksNotice status (restored hs)
        rw [fetchEnded_ntc n o status payload s hr, stored]
    case failed =>
      intro u
      have hu : u = takeFailed n .fetch s := applyOutcome_failed answer hg hv
      rw [hu]
      refine ⟨?_, takeFailed_others n .fetch s, ?_, ?_⟩
      · rw [takeFailed_fetch]
        exact (State.setEntry_frame ..).then (releaseReservation_frame ..)
      · rw [takeFailed_entry, if_pos rfl, failedEntry_fetch]
      · rw [takeFailed_fetch]
        rfl

end Sys2Proof.Machine
end

section
/-! PROOFS. The lines: the check word and the frames of the calls. -/

namespace Sys2Proof.Machine

/-! ### The check word register (R60) -/

theorem crcByte_eq_repeat (r : Half) (b : Byte) : crcByte r b = Nat.repeat crcShift 8 (r ^^^ (b.setWidth 16 <<< 8)) :=
  rfl

/-- A shift that drops a 0 from the register applies no 1021h. -/
theorem crcShift_of_top_clear {r : Half} (h : r.getLsbD 15 = false) : crcShift r = r <<< 1 :=
  if_neg (Bool.eq_false_iff.mp h)

/-- Up to eight shifts move a byte from the low half of the register towards the high one, unchanged. -/
theorem crcShift_repeat_byte (b : Byte) {i : Nat} (hi : i ≤ 8) :
    Nat.repeat crcShift i (b.setWidth 16) = b.setWidth 16 <<< i := by
  induction i with
  | zero => exact (BitVec.shiftLeft_zero _).symm
  | succ i ih =>
    have top : (b.setWidth 16 <<< i).getLsbD 15 = false := by
      have clear : b.getLsbD (15 - i) = false := BitVec.getLsbD_of_ge _ _ (by omega)
      simp [clear]
    rw [Nat.repeat, ih (by omega), crcShift_of_top_clear top, ← BitVec.shiftLeft_add]

/-- The register's own high byte cancels the high half, and the shifts bring its low byte there. -/
theorem crcByte_own_high (r : Half) :
    crcByte r ((r >>> 8).setWidth 8) = (r.setWidth 8).setWidth 16 <<< 8 := by
  have cancel : r ^^^ (((r >>> 8).setWidth 8).setWidth 16 <<< 8) = (r.setWidth 8).setWidth 16 := by
    ext i hi
    by_cases low : i < 8
    · simp [low, BitVec.getLsbD_eq_getElem hi]
    · have back : 8 + (i - 8) = i := by omega
      have inByte : i - 8 < 8 := by omega
      simp [low, back, inByte, BitVec.getLsbD_eq_getElem hi]
  rw [crcByte_eq_repeat, cancel, crcShift_repeat_byte _ (Nat.le_refl 8)]

/-- A byte that stands alone in the high half leaves 0 when it is taken. -/
theorem crcByte_cancel (b : Byte) : crcByte (b.setWidth 16 <<< 8) b = 0 := by
  rw [crcByte_eq_repeat, BitVec.xor_self]
  decide

theorem checkWord_append (b c : List Byte) : checkWord (b ++ c) = c.foldl crcByte (checkWord b) :=
  List.foldl_append

/-- The receiver's test: over the covered bytes and their check word the register ends at 0. -/
theorem checkWord_append_checkBytes (b : List Byte) : checkWord (b ++ checkBytes b) = 0 :=
  calc checkWord (b ++ checkBytes b)
    _ = crcByte (crcByte (checkWord b) ((checkWord b >>> 8).setWidth 8)) ((checkWord b).setWidth 8) :=
      checkWord_append b (checkBytes b)
    _ = crcByte (((checkWord b).setWidth 8).setWidth 16 <<< 8) ((checkWord b).setWidth 8) := by
      rw [crcByte_own_high]
    _ = 0 := crcByte_cancel _

/-! ### What each operation sends (R54, R55, R64, R65) -/

theorem Engine.frame_call {e : Engine} {k : CallKind} {n : Fin 64} {a : Byte} {q : Bool} {p : List Byte}
    (h : e.op = some (.call k n a q p)) : e.frame = callFrame a (controlChar k q) (if k = .order then p else []) := by
  simp only [Engine.frame, h]

theorem Engine.frame_broadcast {e : Engine} {p : List Byte} (h : e.op = some (.broadcast p)) :
    e.frame = callFrame 0 4 p := by
  simp only [Engine.frame, h]

theorem Engine.frame_window {e : Engine} (h : e.op = some .window) :
    e.frame = callFrame 0 5 (e.slots.map (·.address)) := by
  simp only [Engine.frame, h]

/-- Of the three kinds an ORDER alone sends the sequence bit (R185). -/
theorem controlChar_of_ne_order {k : CallKind} (h : k ≠ .order) (q : Bool) : controlChar k q = k.code :=
  if_neg fun both => h both.1

theorem controlChar_order (q : Bool) : controlChar .order q = if q then 0x0A else 2 := by
  cases q <;> decide

/-- Settles O51: the register takes the high byte of its own value and holds the low one in its high half, which the
low byte then clears; the frames and the control characters are read off the operation and the kind. -/
theorem checkWordFormed : Obligations.CheckWordFormed := by
  unfold Obligations.CheckWordFormed
  intro shift
  refine ⟨rfl, fun b x => checkWord_append b [x], checkWord_append_checkBytes, fun e => ?frames, fun q => ?control⟩
  case frames =>
    exact ⟨fun _ _ _ _ _ => Engine.frame_call, fun _ => Engine.frame_broadcast, Engine.frame_window⟩
  case control =>
    exact ⟨controlChar_of_ne_order (by decide) q, controlChar_of_ne_order (by decide) q, controlChar_order q⟩

end Sys2Proof.Machine
end

section
/-! PROOFS. The Line Engines: line time, the pins and the end of a call. -/

namespace Sys2Proof.Machine

/-! ### A line's engine and Scheduler in the state -/

section
variable (s : State) (l : Fin 4) (e f : Engine)

@[simp] theorem State.setEngine_setEngine : (s.setEngine l e).setEngine l f = s.setEngine l f := by
  simp [State.setEngine]

@[simp] theorem State.setEngine_engine : s.setEngine l (s.engine l) = s := by
  simp [State.setEngine, State.engine]

theorem State.setEngine_of_engine {s : State} {l : Fin 4} {e : Engine} (h : s.engine l = e) : s.setEngine l e = s := by
  rw [← h, State.setEngine_engine]

theorem State.setEngine_others : s.OtherEnginesKept (s.setEngine l e) l := fun m hm => by
  rw [State.engine_setEngine, if_neg hm.symm]

theorem State.setSched_others (q : Sched) : s.OtherSchedsKept (s.setSched l q) l := fun m hm => by
  rw [State.scheduler_setSched, if_neg hm.symm]

end

/-- An engine stays as it is under a frame that leaves the engines alone. -/
theorem Frame.engine {p : List Piece} {s t : State} (h : Frame p s t) (l : Fin 4)
    (hp : p.contains .eng = false := by decide) : t.engine l = s.engine l := by
  have same : t.eng = s.eng := h.same .eng hp
  simp only [State.engine, same]

/-- A Scheduler stays as it is under a frame that leaves the Schedulers alone. -/
theorem Frame.scheduler {p : List Piece} {s t : State} (h : Frame p s t) (l : Fin 4)
    (hp : p.contains .sched = false := by decide) : t.scheduler l = s.scheduler l := by
  have same : t.sched = s.sched := h.same .sched hp
  simp only [State.scheduler, same]

/-! ### Line time (R51, R181) -/

theorem bitTime_mul_rate (c : Fin 8) (r : Nat)
    (h : [9600, 19200, 38400, 57600, 115200, 230400, 460800, 921600][c.val]? = some r) :
    bitTime c * r = 28800000000 := by
  have rates : ∀ c : Fin 8, [9600, 19200, 38400, 57600, 115200, 230400, 460800, 921600][c.val]?.map (bitTime c * ·) =
      some 28800000000 := by decide
  have rate := rates c
  rw [h] at rate
  exact Option.some.inj rate

theorem passRefclk_elapsed (s : State) : (passRefclk s).tb.elapsed = s.tb.elapsed + 1 := by
  unfold passRefclk
  split
  · rfl
  · split <;> rfl

theorem State.moment_eq (s : State) : s.moment = 1152 * s.tb.elapsed := Nat.mul_comm ..

theorem passRefclk_moment (s : State) : (passRefclk s).moment = s.moment + 1152 := by
  rw [State.moment_eq, State.moment_eq, passRefclk_elapsed, Nat.mul_add]

/-! ### The pins of a line that sends, and of one cut off by a halt (R50, R51, R94) -/

section
variable {m : Nat} {e : Engine}

/-- The lead-in of a call is at mark. -/
theorem Engine.txd_of_leadIn (h : e.lineState = .sending) (hk : (m - e.since) / bitTime e.rateCode = 0) :
    e.txd m = true := by
  simp only [Engine.txd, h, hk]

/-- After the lead-in TXD shows the bits of the characters, eleven to each. -/
theorem Engine.txd_of_character {c : LineChar} (h : e.lineState = .sending)
    (hk : (m - e.since) / bitTime e.rateCode ≠ 0)
    (hc : e.frame[((m - e.since) / bitTime e.rateCode - 1) / 11]? = some c) :
    e.txd m = c.level (((m - e.since) / bitTime e.rateCode - 1) % 11) := by
  obtain ⟨b, hb⟩ := Nat.exists_eq_succ_of_ne_zero hk
  rw [hb, Nat.succ_sub_one] at hc
  simp only [Engine.txd, h, hb, List.head?_drop, hc, Nat.succ_sub_one]

/-- Behind the last character TXD is at mark. -/
theorem Engine.txd_of_frame_end (h : e.lineState = .sending) (hk : (m - e.since) / bitTime e.rateCode ≠ 0)
    (hc : e.frame.length ≤ ((m - e.since) / bitTime e.rateCode - 1) / 11) : e.txd m = true := by
  obtain ⟨b, hb⟩ := Nat.exists_eq_succ_of_ne_zero hk
  rw [hb, Nat.succ_sub_one] at hc
  simp only [Engine.txd, h, hb, List.head?_drop, List.getElem?_eq_none hc]

end

/-- A state with the engines of a halt holds line l's engine as the halt left it. -/
theorem State.engine_of_enterHalted {why : HaltReason} {a : Addr} {st : Structure} {d : Direction} {s t : State}
    (h : t.eng = (enterHalted why a st d s).eng) (l : Fin 4) : t.engine l = (s.engine l).halted s.moment := by
  rw [← State.engine_enterHalted why a st d s l]
  simp only [State.engine, h]

/-- The pins of a line that a halt has cut off: the bit in progress ends, then TXD shows mark, then DE is deasserted. -/
theorem Engine.halted_pins_of_sending {e : Engine} (m n : Nat) (h : e.lineState = .sending) :
    (e.halted m).txd n = (e.txd m || decide (e.bitEnd m ≤ n)) ∧
      (e.halted m).de n = decide (n ≤ e.bitEnd m + Config.markBeforeRelease) := by
  have cut := Engine.halted_cut_of_sending m e h
  exact ⟨Engine.txd_of_cut n _ _ rfl cut, Engine.de_of_cut n _ _ rfl cut⟩

/-- A halt leaves the pins of any other line at rest. -/
theorem Engine.halted_pins_of_not_sending {e : Engine} (m n : Nat) (h : e.lineState ≠ .sending) :
    (e.halted m).de n = false ∧ (e.halted m).txd n = true :=
  Engine.pins_at_rest n _ (by simp) (.inr (Engine.halted_cut_of_not_sending m e h))

/-! ### The end of a call (R73) -/

section
variable (stop : Nat) (now : Bool) (e : Engine)

/-- Whatever was sent: operation, attempt number and counters stand, the interval starts, and the receiver and the space
run follow the level at the end of the call and the changes since. -/
theorem Engine.callSent_common :
    let f := e.callSent stop now
    f.op = e.op ∧ f.attempt = e.attempt ∧ f.counters = e.counters ∧ f.since = stop ∧
      f.receiver = (receiverAfter (e.levelAt stop now) (e.edgesSince stop)).1 ∧
      f.edges = (receiverAfter (e.levelAt stop now) (e.edgesSince stop)).2 ∧
      f.spaceRun = if now then none else some ((e.edgesSince stop).getLast?.getD stop) := by
  unfold Engine.callSent
  generalize (if now then none else some ((e.edgesSince stop).getLast?.getD stop)) = run
  split <;> exact ⟨rfl, rfl, rfl, rfl, rfl, rfl, rfl⟩

theorem Engine.callSent_of_call {k : CallKind} {n : Fin 64} {a : Byte} {q : Bool} {p : List Byte}
    (h : e.op = some (.call k n a q p)) :
    (e.callSent stop now).lineState = .awaiting ∧ (e.callSent stop now).answerBuf = [] := by
  simp only [Engine.callSent, h, and_self]

theorem Engine.callSent_of_broadcast {p : List Byte} (h : e.op = some (.broadcast p)) :
    (e.callSent stop now).lineState = .resting ∧ (e.callSent stop now).restLength = 4 := by
  simp only [Engine.callSent, h, Engine.rest, and_self]

theorem Engine.callSent_of_window (h : e.op = some .window) :
    (e.callSent stop now).lineState = .window ∧ (e.callSent stop now).windowFrom = stop := by
  simp only [Engine.callSent, h, and_self]

/-- After a call the line's pins are at rest. -/
theorem Engine.callSent_de (m : Nat) : (e.callSent stop now).de m = false := by
  have quiet : (e.callSent stop now).lineState ≠ .sending ∧ (e.callSent stop now).lineState ≠ .off := by
    rcases h : e.op with _ | (_ | _ | _) <;> simp [Engine.callSent, Engine.rest, h]
  exact (Engine.pins_at_rest m _ quiet.1 (.inl quiet.2)).1

end

theorem exec_callSent {l : Fin 4} {s : State} (ha : s.active = true) (hs : (s.engine l).lineState = .sending) :
    let stop := (s.engine l).since + (s.engine l).sendTime
    exec (.callSent l) s =
      .next (if stop ≤ s.moment then s.setEngine l ((s.engine l).callSent stop (s.rxd l)) else s) := by
  simp only [exec, execCallSent, callSent, ha, hs, beq_self_eq_true, Bool.true_and, decide_eq_true_eq]

/-- Settles O37: line time by rate, the pins by what the engine sends, and the engine at the end of a call. -/
theorem callSentTaken : Obligations.CallSentTaken := by
  unfold Obligations.CallSentTaken
  refine ⟨fun c r h => ⟨bitTime_mul_rate c r h, rfl, rfl⟩, fun s => ⟨s.moment_eq, passRefclk_moment s⟩,
    ?pins, ?taken⟩
  case pins =>
    intro l s e bit k stop
    refine ⟨fun hs => ⟨Engine.de_of_sending _ _ hs, Engine.txd_of_leadIn hs, fun c => Engine.txd_of_character hs,
      Engine.txd_of_frame_end hs⟩, Engine.pins_at_rest _ _, fun why a st d t ht => ?_⟩
    have engine := State.engine_of_enterHalted ht l
    simp only [State.txdLevel, State.deAsserted, engine]
    refine ⟨fun hs => ?_, fun hs => (Engine.halted_pins_of_not_sending _ _ hs).symm⟩
    obtain ⟨txd, de⟩ := Engine.halted_pins_of_sending s.moment t.moment hs
    have bitEnd : e.bitEnd s.moment = stop := rfl
    rw [txd, de, bitEnd]
    exact ⟨rfl, fun h => decide_eq_true (by omega), fun h => decide_eq_false (by omega)⟩
  case taken =>
    intro l s ha hs e stop later enabled
    have taken : exec (.callSent l) s =
        .next (if stop ≤ s.moment then s.setEngine l (e.callSent stop (s.rxd l)) else s) := exec_callSent ha hs
    refine ⟨fun early => by rw [taken, if_neg (Nat.not_le.mpr early)], fun due =>
      ⟨s.setEngine l (e.callSent stop (s.rxd l)), by rw [taken, if_pos due], State.setEngine_frame ..,
        State.setEngine_others s l _, ?_⟩⟩
    have pins : (s.setEngine l (e.callSent stop (s.rxd l))).deAsserted l = false := by
      rw [State.deAsserted, State.engine_setEngine_self, Engine.callSent_de]
    rw [State.engine_setEngine_self]
    obtain ⟨op, attempt, counters, since, receiver, edges, spaceRun⟩ := Engine.callSent_common stop (s.rxd l) e
    exact ⟨op, attempt, counters, since, pins, receiver, edges, spaceRun,
      fun _ _ _ _ _ => Engine.callSent_of_call stop _ e, fun _ => Engine.callSent_of_broadcast stop _ e,
      Engine.callSent_of_window stop _ e⟩

end Sys2Proof.Machine
end

section
/-! PROOFS. The Line Engines: the characters they receive, outside an answer, in an answer and in a window. -/

namespace Sys2Proof.Machine

/-! ### Delivered characters (R86) -/

/-- Outside an answer and a window a character is stray (R86). -/
theorem takeCharacter_of_stray {l : Fin 4} {start : Nat} (v : Byte) {s : State}
    (h : (s.engine l).lineState = .settling ∨ (s.engine l).lineState = .idle ∨ (s.engine l).lineState = .stuck ∨
      (s.engine l).lineState = .resting ∧ (s.engine l).windowEnd ≤ start) :
    takeCharacter l start v s = strayCharacter l s := by
  rcases h with h | h | h | ⟨h, late⟩
  · simp only [takeCharacter, h]
  · simp only [takeCharacter, h]
  · simp only [takeCharacter, h]
  · simp only [takeCharacter, h, if_neg (Nat.not_lt.mpr late)]

theorem takeCharacter_of_answer {l : Fin 4} (start : Nat) (v : Byte) {s : State}
    (h : (s.engine l).lineState = .awaiting ∨ (s.engine l).lineState = .receiving) :
    takeCharacter l start v s = answerCharacter l (start + charTime (s.engine l).rateCode) v s := by
  rcases h with h | h <;> simp only [takeCharacter, h]

/-- In a window, and in the rest behind it for a character that began in the last slot, the slot takes it (R85, R86). -/
theorem takeCharacter_of_window {l : Fin 4} {start : Nat} (v : Byte) {s : State}
    (h : (s.engine l).lineState = .window ∨ (s.engine l).lineState = .resting ∧ start < (s.engine l).windowEnd) :
    takeCharacter l start v s = slotCharacter l ((s.engine l).slotAt start) v s := by
  rcases h with h | ⟨h, early⟩
  · simp only [takeCharacter, h]
  · simp only [takeCharacter, h, if_pos early]

/-- Line l's engine once the character begun at `start` has ended: it looks for the next one. -/
def State.huntsAfter (s : State) (l : Fin 4) (start : Nat) : Engine :=
  (s.engine l).resume (start + 21 * halfBit (s.engine l).rateCode) ((s.engine l).sample start 10)

section
variable {l : Fin 4} {start : Nat} {v : Byte} {m : Bool} {s : State}

/-- The sampled character is taken by an engine that looks for the next one. -/
theorem exec_characterDelivered (ha : s.active = true) (hr : (s.engine l).receiver = .receiving start)
    (hm : start + 21 * halfBit (s.engine l).rateCode ≤ s.moment) (hc : (s.engine l).character start = ⟨v, m⟩) :
    exec (.characterDelivered l v m) s =
      .next (settle (takeCharacter l start v (s.setEngine l (s.huntsAfter l start)))) :=
  congrArg Host.Outcome.next (deliver_sampled l start ⟨v, m⟩ s ha hr hm hc)

theorem exec_characterDelivered_other (hr : (s.engine l).receiver = .receiving start)
    (h : s.moment < start + 21 * halfBit (s.engine l).rateCode ∨ (s.engine l).character start ≠ ⟨v, m⟩) :
    exec (.characterDelivered l v m) s = .next s :=
  congrArg Host.Outcome.next (deliver_other l start ⟨v, m⟩ s hr h)

end

@[simp] theorem strayCharacter_setEngine (l : Fin 4) (s : State) (e : Engine) :
    strayCharacter l (s.setEngine l e) = s.setEngine l e.countStray := by
  simp [strayCharacter]

/-- Settles O38: the sampled character is counted, and no other is delivered. -/
theorem strayCharacterTaken : Obligations.StrayCharacterTaken := by
  intro l v m start s ha hr e
  refine ⟨fun early => exec_characterDelivered_other hr (.inl early),
    fun other => exec_characterDelivered_other hr (.inr other), fun due sampled stray =>
      ⟨s.setEngine l (s.huntsAfter l start).countStray, ?_, State.setEngine_frame ..,
        State.setEngine_others s l _, ?_⟩⟩
  · have strays : takeCharacter l start v (s.setEngine l (s.huntsAfter l start)) =
        strayCharacter l (s.setEngine l (s.huntsAfter l start)) :=
      takeCharacter_of_stray v (by rw [State.engine_setEngine_self]; exact stray)
    rw [exec_characterDelivered ha hr due sampled, strays, strayCharacter_setEngine]
  · rw [State.engine_setEngine_self]
    rfl

/-! ### The characters of an answer (R74, R76) -/

/-- A character joins the answer. -/
def Engine.withAnswer (stop : Nat) (v : Byte) (e : Engine) : Engine :=
  { e with lineState := .receiving, answerBuf := e.answerBuf ++ [v], taken := e.taken + 1, since := stop,
           limitPassed := false }

/-- A character of an answer that is too long is counted and dropped. -/
def Engine.withDrained (stop : Nat) (e : Engine) : Engine :=
  { e with taken := e.taken + 1, since := stop, limitPassed := false }

theorem Engine.callInfo_of_call {e : Engine} {k : CallKind} {n : Fin 64} {a : Byte} {q : Bool} {p : List Byte}
    (h : e.op = some (.call k n a q p)) : e.callInfo = (k, a, q) := by
  simp only [Engine.callInfo, h]

theorem keepAnswer_eq (o : CallOutcome) (buf : List Byte) (kept : Option (Byte × List Byte)) :
    keepAnswer o buf kept = if o = .good ∨ o = .busy ∨ o = .refused then
      some (byteAt buf 1, (buf.drop 3).take (byteAt buf 2).toNat) else kept := by
  simp only [keepAnswer, CallOutcome.isGood_iff]

section
variable (l : Fin 4) (stop : Nat) (v : Byte) (s : State) (e : Engine)

/-- An engine that drains drops the character (R76). -/
theorem answerCharacter_of_drained (h : e.draining = true) (hk : e.taken + 1 < 37) :
    answerCharacter l stop v (s.setEngine l e) = s.setEngine l (e.withDrained stop) := by
  simp [answerCharacter, h, Nat.not_le.mpr hk, Engine.withDrained]

/-- The 37th character ends the attempt (R76). -/
theorem answerCharacter_of_last_drained (h : e.draining = true) (hk : 37 ≤ e.taken + 1) :
    answerCharacter l stop v (s.setEngine l e) =
      endAttempt l .badLength stop (s.setEngine l (e.withDrained stop)) := by
  simp [answerCharacter, h, hk, Engine.withDrained]

/-- A length character above 32 makes the engine drain (R76). -/
theorem answerCharacter_of_overlong (h : e.draining = false) (hk : e.taken + 1 = 3) (hv : 32 < v.toNat) :
    answerCharacter l stop v (s.setEngine l e) = s.setEngine l { e.withAnswer stop v with draining := true } := by
  simp [answerCharacter, h, hk, hv, Engine.withAnswer]

/-- A character that neither completes the answer nor shows a length above 32 joins it (R74). -/
theorem answerCharacter_of_part (h : e.draining = false)
    (hk : e.taken + 1 < 3 ∨ e.taken + 1 ≠ 5 + (byteAt (e.answerBuf ++ [v]) 2).toNat ∧
      ¬ (e.taken + 1 = 3 ∧ 32 < v.toNat)) :
    answerCharacter l stop v (s.setEngine l e) = s.setEngine l (e.withAnswer stop v) := by
  have short : ¬ (e.taken + 1 = 3 ∧ 32 < v.toNat) := by omega
  have incomplete : ¬ (3 ≤ e.taken + 1 ∧ e.taken + 1 = 5 + (byteAt (e.answerBuf ++ [v]) 2).toNat) := by omega
  simp only [answerCharacter, State.engine_setEngine_self, h, Bool.false_eq_true, if_false, if_neg short,
    if_neg incomplete, State.setEngine_setEngine, Engine.withAnswer]

/-- The character that completes the answer has it judged (R77). -/
theorem answerCharacter_of_last {k : CallKind} {n : Fin 64} {a : Byte} {q : Bool} {p : List Byte}
    (h : e.draining = false) (hk : 5 ≤ e.taken + 1)
    (hlast : e.taken + 1 = 5 + (byteAt (e.answerBuf ++ [v]) 2).toNat) (hop : e.op = some (.call k n a q p)) :
    let o := judgeAnswer k a q (e.answerBuf ++ [v])
    answerCharacter l stop v (s.setEngine l e) = endAttempt l o stop (s.setEngine l
      { e.withAnswer stop v with kept := keepAnswer o (e.answerBuf ++ [v]) e.kept }) := by
  have short : ¬ (e.taken + 1 = 3 ∧ 32 < v.toNat) := by omega
  have complete : 3 ≤ e.taken + 1 ∧ e.taken + 1 = 5 + (byteAt (e.answerBuf ++ [v]) 2).toNat := by omega
  simp only [answerCharacter, State.engine_setEngine_self, h, Bool.false_eq_true, if_false, if_neg short,
    if_pos complete, State.setEngine_setEngine, Engine.callInfo_of_call hop, Engine.withAnswer]

end

/-! ### The judging of an answer (R77, R185) -/

theorem byteAt_append {b : List Byte} {i : Nat} (c : List Byte) (h : i < b.length) :
    byteAt (b ++ c) i = byteAt b i := by
  simp only [byteAt, List.headD_eq_head?_getD, List.head?_drop, List.getElem?_append_left h]

section
variable {status : Byte}

theorem statusOutcome_of_code_three (h : status &&& 3 = 3) : statusOutcome status = none := by
  simp only [statusOutcome, h]
  rfl

theorem statusOutcome_of_code_zero (h : status &&& 3 = 0) : statusOutcome status = some .good := by
  simp only [statusOutcome, h]
  rfl

theorem statusOutcome_of_code_one (h : status &&& 3 = 1) : statusOutcome status = some .busy := by
  simp only [statusOutcome, h]
  rfl

theorem statusOutcome_of_code_two (h : status &&& 3 = 2) : statusOutcome status = some .refused := by
  simp only [statusOutcome, h]
  rfl

theorem statusOutcome_of_other_code (h : status &&& 3 ≠ 3) : ∃ o, statusOutcome status = some o := by
  have bound : (status &&& 3).toNat ≤ 3 := Nat.and_le_right
  have code : status &&& 3 = 0 ∨ status &&& 3 = 1 ∨ status &&& 3 = 2 := by
    generalize status &&& 3 = c at *
    bv_omega
  rcases code with zero | one | two
  · exact ⟨_, statusOutcome_of_code_zero zero⟩
  · exact ⟨_, statusOutcome_of_code_one one⟩
  · exact ⟨_, statusOutcome_of_code_two two⟩

end

section
variable {k : CallKind} {a : Byte} {q : Bool} {covered : List Byte} {c1 c2 : Byte}

theorem judgeAnswer_of_bad_check (h : checkBytes covered ≠ [c1, c2]) :
    judgeAnswer k a q (covered ++ [c1, c2]) = .checkError := by
  simp [judgeAnswer, h]

variable (hl : 3 ≤ covered.length) (hc : checkBytes covered = [c1, c2])
include hl hc

theorem judgeAnswer_of_bad_echo (ha : byteAt covered 0 ≠ a) :
    judgeAnswer k a q (covered ++ [c1, c2]) = .wrongStation := by
  have echo := byteAt_append [c1, c2] (show 0 < covered.length by omega)
  simp [judgeAnswer, hc, echo, ha]

theorem judgeAnswer_of_bad_status (ha : byteAt covered 0 = a) (hs : statusOutcome (byteAt covered 1) = none) :
    judgeAnswer k a q (covered ++ [c1, c2]) = .badStatus := by
  have echo := byteAt_append [c1, c2] (show 0 < covered.length by omega)
  have status := byteAt_append [c1, c2] (show 1 < covered.length by omega)
  simp [judgeAnswer, hc, echo, ha, status, hs]

theorem judgeAnswer_of_bad_sequence {o : CallOutcome} (ha : byteAt covered 0 = a)
    (hs : statusOutcome (byteAt covered 1) = some o) (hq : ¬ (k = .order → sequenceEcho (byteAt covered 1) = q)) :
    judgeAnswer k a q (covered ++ [c1, c2]) = .seqError := by
  have echo := byteAt_append [c1, c2] (show 0 < covered.length by omega)
  have status := byteAt_append [c1, c2] (show 1 < covered.length by omega)
  obtain ⟨hk, hq⟩ := Classical.not_imp.mp hq
  simp [judgeAnswer, hc, echo, ha, status, hs, hk, hq]

/-- An answer that passes every other test has the outcome of its status code. -/
theorem judgeAnswer_of_status {o : CallOutcome} (ha : byteAt covered 0 = a)
    (hs : statusOutcome (byteAt covered 1) = some o) (hq : k = .order → sequenceEcho (byteAt covered 1) = q) :
    judgeAnswer k a q (covered ++ [c1, c2]) = o := by
  have echo := byteAt_append [c1, c2] (show 0 < covered.length by omega)
  have status := byteAt_append [c1, c2] (show 1 < covered.length by omega)
  have inSequence : ¬ (k = .order ∧ sequenceEcho (byteAt covered 1) ≠ q) := fun h => h.2 (hq h.1)
  simp [judgeAnswer, hc, echo, ha, status, hs, -not_and, inSequence]

end

/-- Settles O39: each kind of answer character, and the tests of a complete answer in their order. -/
theorem answerCharacterTaken : Obligations.AnswerCharacterTaken := by
  unfold Obligations.AnswerCharacterTaken
  refine ⟨?characters, ?judging⟩
  case characters =>
    intro l v m start s ha hr due sampled hs e stop buf k hunts taken drained
    have answers : exec (.characterDelivered l v m) s =
        .next (settle (answerCharacter l stop v (s.setEngine l hunts))) := by
      rw [exec_characterDelivered ha hr due sampled,
        takeCharacter_of_answer start v (by rw [State.engine_setEngine_self]; exact hs), State.engine_setEngine_self]
      rfl
    rw [answers]
    refine ⟨fun hd hk => ?_, fun hd hk hv => ?_, fun kind n a q p hd hk hlast hop => ?_, fun hd hk => ?_,
      fun hd hk => ?_⟩
    · rw [answerCharacter_of_part l stop v s hunts hd hk]
      rfl
    · rw [answerCharacter_of_overlong l stop v s hunts hd hk hv]
      rfl
    · intro o kept
      rw [answerCharacter_of_last l stop v s hunts hd hk hlast hop, keepAnswer_eq]
      rfl
    · rw [answerCharacter_of_drained l stop v s hunts hd hk]
      rfl
    · rw [answerCharacter_of_last_drained l stop v s hunts hd hk]
      rfl
  case judging =>
    intro k a q covered c1 c2 hl buf status passes echo
    refine ⟨judgeAnswer_of_bad_check, judgeAnswer_of_bad_echo hl,
      fun hc ha hs => judgeAnswer_of_bad_status hl hc ha (statusOutcome_of_code_three hs), fun hc ha hs he => ?_,
      fun hc ha he => ⟨fun hs => judgeAnswer_of_status hl hc ha (statusOutcome_of_code_zero hs) he,
        fun hs => judgeAnswer_of_status hl hc ha (statusOutcome_of_code_one hs) he,
        fun hs => judgeAnswer_of_status hl hc ha (statusOutcome_of_code_two hs) he⟩⟩
    obtain ⟨o, ho⟩ := statusOutcome_of_other_code hs
    exact judgeAnswer_of_bad_sequence hl hc ha ho he

/-! ### The slots of a window (R85) -/

section
variable (l : Fin 4) {k : Nat} {v : Byte} (s : State) (e : Engine)

theorem slotCharacter_of_no_slot (h : e.slots[k]? = none) :
    slotCharacter l k v (s.setEngine l e) = s.setEngine l e.countStray := by
  simp only [slotCharacter, State.engine_setEngine_self, h, strayCharacter_setEngine]

variable {r : SlotRec} (h : e.slots[k]? = some r)
include h

theorem slotCharacter_of_seen (hs : r.seen = true) :
    slotCharacter l k v (s.setEngine l e) = s.setEngine l e.countGarbled := by
  simp [slotCharacter, h, hs]

theorem slotCharacter_of_wrong_address (hs : r.seen = false) (hv : v ≠ r.address) :
    slotCharacter l k v (s.setEngine l e) =
      s.setEngine l { e with slots := e.slots.set k { r with seen := true } }.countGarbled := by
  simp [slotCharacter, h, hs, hv]

theorem slotCharacter_of_void (hs : r.seen = false) (hv : v = r.address) (hvoid : r.void = true) :
    slotCharacter l k v (s.setEngine l e) =
      s.setEngine l { e with slots := e.slots.set k { r with seen := true } } := by
  simp [slotCharacter, h, hs, hv, hvoid]

theorem slotCharacter_of_mark (hs : r.seen = false) (hv : v = r.address) (hvoid : r.void = false) :
    slotCharacter l k v (s.setEngine l e) =
      takeMark r.entry (s.setEngine l { e with slots := e.slots.set k { r with seen := true } }) := by
  simp [slotCharacter, h, hs, hv, hvoid]

end

/-! ### The attention latch (R16, R17) -/

/-- A mark moves the deadline alone, of a LIVE entry with RELOAD_MARK and a quiet limit (R13, R17). -/
theorem markEntry_eq (now : Word) (e : Entry) : markEntry now e = { e with
    quietDeadline := if e.state = .live ∧ e.options.reloadMark = true ∧ e.quietLimit ≠ 0 then
      some (now + e.quietLimit) else e.quietDeadline } := by
  unfold markEntry
  rw [loadQuiet_eq]
  by_cases reloads : e.state = .live ∧ e.options.reloadMark = true
  · by_cases limit : e.quietLimit = 0 <;> simp [reloads, limit]
  · rw [if_neg reloads, if_neg fun h => reloads ⟨h.1, h.2.1⟩]

theorem markEntry_line (now : Word) (e : Entry) : (markEntry now e).line = e.line := by rw [markEntry_eq]

theorem markEntry_latch (now : Word) (e : Entry) : (markEntry now e).latch = e.latch := by rw [markEntry_eq]

section
variable (n : Fin 64) (s : State)

theorem setLatch_of_set (h : (s.entry n).latch = true) : setLatch n s = s := by
  simp [setLatch, h]

theorem setLatch_of_clear (h : (s.entry n).latch = false) : setLatch n s =
    (s.setEntry n { s.entry n with latch := true }).setSched (s.entry n).line
      { s.scheduler (s.entry n).line with fetchQueue := (s.scheduler (s.entry n).line).fetchQueue ++ [n] } := by
  simp [setLatch, h]

theorem setLatch_entry (m : Fin 64) : (setLatch n s).entry m =
    if n = m then { s.entry n with latch := true } else s.entry m := by
  cases h : (s.entry n).latch
  case true =>
    rw [setLatch_of_set n s h, ← h]
    split
    · next e => rw [e]
    · rfl
  case false => rw [setLatch_of_clear n s h, State.entry_setSched_eq, State.entry_setEntry]

theorem setLatch_scheduler : (setLatch n s).scheduler (s.entry n).line = { s.scheduler (s.entry n).line with
    fetchQueue := if (s.entry n).latch then (s.scheduler (s.entry n).line).fetchQueue
      else (s.scheduler (s.entry n).line).fetchQueue ++ [n] } := by
  cases h : (s.entry n).latch
  case true => rw [setLatch_of_set n s h]; rfl
  case false => rw [setLatch_of_clear n s h, State.scheduler_setSched_self]; rfl

theorem setLatch_otherScheds : s.OtherSchedsKept (setLatch n s) (s.entry n).line := fun m hm => by
  cases h : (s.entry n).latch
  case true => rw [setLatch_of_set n s h]
  case false => rw [setLatch_of_clear n s h, State.scheduler_setSched, if_neg hm.symm, State.scheduler_setEntry_eq]

end

/-! ### What a reported mark does (R17, R39) -/

/-- The state of `takeMark` with the latch set, before R39 is looked at. -/
def marked (n : Fin 64) (s : State) : State := setLatch n (s.setEntry n (markEntry s.tb.now (s.entry n)))

section
variable (n : Fin 64) (s : State)

theorem takeMark_of_ignored (h : (s.entry n).state = .vacant ∨ (s.entry n).state = .leaving) : takeMark n s = s :=
  if_pos h

theorem takeMark_of_taken (hv : (s.entry n).state ≠ .vacant) (hl : (s.entry n).state ≠ .leaving) :
    takeMark n s = settleHold n (marked n s) :=
  if_neg (not_or.mpr ⟨hv, hl⟩)

/-- Without a pending hold there is nothing to settle (R23, R39). -/
theorem settleHold_of_not_pending (h : (s.entry n).holdPending = false) : settleHold n s = s := by
  have orders : orderWrongState n s = s := by simp [orderWrongState, h]
  simp [settleHold, orders, checkHold, h]

theorem marked_frame : Frame [.entries, .sched] s (marked n s) :=
  Frame.then (State.setEntry_frame ..) (setLatch_frame ..)

theorem marked_entry (m : Fin 64) : (marked n s).entry m =
    if n = m then { markEntry s.tb.now (s.entry n) with latch := true } else s.entry m := by
  unfold marked
  rw [setLatch_entry, State.entry_setEntry_self, State.entry_setEntry]
  split <;> rfl

theorem marked_scheduler : (marked n s).scheduler (s.entry n).line = { s.scheduler (s.entry n).line with
    fetchQueue := if (s.entry n).latch then (s.scheduler (s.entry n).line).fetchQueue
      else (s.scheduler (s.entry n).line).fetchQueue ++ [n] } := by
  have h := setLatch_scheduler n (s.setEntry n (markEntry s.tb.now (s.entry n)))
  rwa [State.entry_setEntry_self, markEntry_line, markEntry_latch] at h

theorem marked_otherScheds : s.OtherSchedsKept (marked n s) (s.entry n).line := by
  have h := setLatch_otherScheds n (s.setEntry n (markEntry s.tb.now (s.entry n)))
  rwa [State.entry_setEntry_self, markEntry_line] at h

end

/-- Settles O40: the character in its slot, and what a mark does to its entry before R39 is looked at. -/
theorem attentionMarkTaken : Obligations.AttentionMarkTaken := by
  unfold Obligations.AttentionMarkTaken
  refine ⟨?characters, ?marks⟩
  case characters =>
    intro l v m start s ha hr due sampled hs e k hunts garbled
    have places : exec (.characterDelivered l v m) s =
        .next (settle (slotCharacter l k v (s.setEngine l hunts))) := by
      rw [exec_characterDelivered ha hr due sampled,
        takeCharacter_of_window v (by rw [State.engine_setEngine_self]; exact hs), State.engine_setEngine_self]
      rfl
    rw [places]
    refine ⟨fun hk => ?_, fun r hk => ?_⟩
    · rw [slotCharacter_of_no_slot l s hunts hk]
      rfl
    · intro seen
      refine ⟨fun hr => ?_, fun hr hv => ?_, fun hr hv hvoid => ?_, fun hr hv hvoid => ?_⟩
      · rw [slotCharacter_of_seen l s hunts hk hr]
        rfl
      · rw [slotCharacter_of_wrong_address l s hunts hk hr hv]
        rfl
      · rw [slotCharacter_of_void l s hunts hk hr hv hvoid]
        rfl
      · rw [slotCharacter_of_mark l s hunts hk hr hv hvoid]
        rfl
  case marks =>
    intro n s e
    refine ⟨takeMark_of_ignored n s, fun hv hl => ⟨marked n s, takeMark_of_taken n s hv hl, fun hp => ?_,
      marked_frame n s, fun m hm => ?_, marked_otherScheds n s, ?_, marked_scheduler n s⟩⟩
    · rw [takeMark_of_taken n s hv hl, settleHold_of_not_pending]
      rw [marked_entry, if_pos rfl, markEntry_eq]
      exact hp
    · rw [marked_entry, if_neg hm.symm]
    · rw [marked_entry, if_pos rfl, markEntry_eq]

end Sys2Proof.Machine
end

section
/-! PROOFS. The Line Engines: the two limits of an attempt, its end, the start-bit check and the level of RXD. -/

namespace Sys2Proof.Machine

/-! ### The turnaround and the gap limit (R75, R76) -/

/-- No start before `limit` is being confirmed or taken. -/
def Receiver.idleBefore (limit : Nat) : Receiver → Prop
  | .confirming start => limit ≤ start
  | .receiving start => limit ≤ start
  | _ => True

/-- Line l's engine is told that its limit has run out while it checks a start. -/
def State.limitWaits (s : State) (l : Fin 4) : State := s.setEngine l { s.engine l with limitPassed := true }

section
variable {l : Fin 4} {s : State} {start : Nat}

theorem turnaroundOut_of_silence (h : (s.engine l).receiver.idleBefore (s.engine l).turnaroundEnd) :
    turnaroundOut l s = endAttempt l .silent (s.engine l).turnaroundEnd s := by
  cases hr : (s.engine l).receiver
  case confirming start =>
    rw [hr] at h
    simp only [turnaroundOut, hr, if_neg (Nat.not_lt.mpr h)]
  case receiving start =>
    rw [hr] at h
    simp only [turnaroundOut, hr, if_neg (Nat.not_lt.mpr h)]
  all_goals simp only [turnaroundOut, hr]

theorem turnaroundOut_of_confirming (hr : (s.engine l).receiver = .confirming start)
    (h : start < (s.engine l).turnaroundEnd) : turnaroundOut l s = s.limitWaits l := by
  simp only [turnaroundOut, hr, if_pos h, State.limitWaits]

theorem turnaroundOut_of_receiving (hr : (s.engine l).receiver = .receiving start)
    (h : start < (s.engine l).turnaroundEnd) : turnaroundOut l s = s := by
  simp only [turnaroundOut, hr, if_pos h]

/-- A start at the very end of the gap is in time (R76). -/
theorem gapOut_of_gap (h : (s.engine l).receiver.idleBefore ((s.engine l).gapEnd + 1)) :
    gapOut l s = endAttempt l (s.engine l).gapOutcome (s.engine l).gapEnd s := by
  cases hr : (s.engine l).receiver
  case confirming start =>
    rw [hr] at h
    simp only [gapOut, hr, if_neg (Nat.not_le.mpr h)]
  case receiving start =>
    rw [hr] at h
    simp only [gapOut, hr, if_neg (Nat.not_le.mpr h)]
  all_goals simp only [gapOut, hr]

theorem gapOut_of_confirming (hr : (s.engine l).receiver = .confirming start) (h : start ≤ (s.engine l).gapEnd) :
    gapOut l s = s.limitWaits l := by
  simp only [gapOut, hr, if_pos h, State.limitWaits]

theorem gapOut_of_receiving (hr : (s.engine l).receiver = .receiving start) (h : start ≤ (s.engine l).gapEnd) :
    gapOut l s = s := by
  simp only [gapOut, hr, if_pos h]

variable (ha : s.active = true) (hp : (s.engine l).limitPassed = false)
include ha hp

theorem exec_turnaroundLimit (hs : (s.engine l).lineState = .awaiting) : exec (.turnaroundLimit l) s =
    .next (if (s.engine l).turnaroundEnd ≤ s.moment then settle (turnaroundOut l s) else s) := by
  simp only [exec, execTurnaroundLimit, turnaroundLimit, ha, hs, hp, beq_self_eq_true, Bool.true_and, Bool.not_false,
    decide_eq_true_eq]

theorem exec_answerGapLimit (hs : (s.engine l).lineState = .receiving) : exec (.answerGapLimit l) s =
    .next (if (s.engine l).gapEnd < s.moment then settle (gapOut l s) else s) := by
  simp only [exec, execAnswerGapLimit, answerGapLimit, ha, hs, hp, beq_self_eq_true, Bool.true_and, Bool.not_false,
    decide_eq_true_eq]

end

/-- A receiver that hunts or waits for mark has no start in hand. -/
theorem Receiver.idleBefore_of_searching {r : Receiver} (limit : Nat) (h : r = .hunting ∨ r = .waitMark) :
    r.idleBefore limit := by
  rcases h with rfl | rfl <;> exact trivial

/-- Settles O41: each limit once it is reached, by what the receiver has in hand. -/
theorem answerLimitsTaken : Obligations.AnswerLimitsTaken := by
  intro l s ha hp e turn gap waits cut
  refine ⟨fun hs => ?turnaround, fun hs => ?gap⟩
  case turnaround =>
    have taken : exec (.turnaroundLimit l) s = .next (if turn ≤ s.moment then settle (turnaroundOut l s) else s) :=
      exec_turnaroundLimit ha hp hs
    have silent (h : e.receiver.idleBefore turn) : turnaroundOut l s = endAttempt l .silent turn s :=
      turnaroundOut_of_silence h
    refine ⟨fun early => by rw [taken, if_neg (Nat.not_le.mpr early)], fun due => ?_⟩
    rw [taken, if_pos due]
    refine ⟨fun hr => ?_, fun st hr => ⟨fun inTime => ?_, fun late => ?_⟩,
      fun st hr => ⟨fun inTime => ?_, fun late => ?_⟩⟩
    · rw [silent (Receiver.idleBefore_of_searching turn hr)]
    · rw [turnaroundOut_of_confirming hr inTime]
      rfl
    · rw [silent (by rw [hr]; exact late)]
    · rw [turnaroundOut_of_receiving hr inTime]
    · rw [silent (by rw [hr]; exact late)]
  case gap =>
    have taken : exec (.answerGapLimit l) s = .next (if gap < s.moment then settle (gapOut l s) else s) :=
      exec_answerGapLimit ha hp hs
    have ends (h : e.receiver.idleBefore (gap + 1)) : gapOut l s = endAttempt l cut gap s := gapOut_of_gap h
    refine ⟨fun early => by rw [taken, if_neg (Nat.not_lt.mpr early)], fun due => ?_⟩
    rw [taken, if_pos due]
    refine ⟨fun hr => ?_, fun st hr => ⟨fun inTime => ?_, fun late => ?_⟩,
      fun st hr => ⟨fun inTime => ?_, fun late => ?_⟩⟩
    · rw [ends (Receiver.idleBefore_of_searching (gap + 1) hr)]
    · rw [gapOut_of_confirming hr inTime]
      rfl
    · rw [ends (by rw [hr]; exact late)]
    · rw [gapOut_of_receiving hr inTime]
    · rw [ends (by rw [hr]; exact late)]

/-! ### The end of an attempt (R78, R79, R80) -/

theorem CallOutcome.retried_iff (o : CallOutcome) :
    o.retried = true ↔ o ≠ .good ∧ o ≠ .refused ∧ o ≠ .lineStuck := by
  cases o <;> simp [CallOutcome.retried]

/-- An ended attempt counts as failed unless its answer was good, and a CHECK_ERROR counts as one (R77, R78). -/
theorem Engine.countOutcome_eq (e : Engine) (o : CallOutcome) : e.countOutcome o = { e with
    counters := { e.counters with
      failedAttempts := if o = .good ∨ o = .busy ∨ o = .refused then e.counters.failedAttempts
        else e.counters.failedAttempts + 1,
      checkErrors := if o = .checkError then e.counters.checkErrors + 1 else e.counters.checkErrors } } := by
  cases o <;> rfl

/-- The engine that reports the end of its call has the operation done. -/
theorem endCall_setEngine (l : Fin 4) (o : CallOutcome) (s : State) (e : Engine) : endCall l o (s.setEngine l e) =
    callEnded l o e.attempt (if o = .good ∨ o = .busy ∨ o = .refused then e.kept else none)
      (s.setEngine l { e with op := none }) := by
  simp only [endCall, State.engine_setEngine_self, State.setEngine_setEngine, CallOutcome.isGood_iff]

/-- Line l's engine at rest after an attempt with this outcome (R79). -/
def State.restedAfter (s : State) (l : Fin 4) (o : CallOutcome) (start : Nat) : Engine :=
  { ((s.engine l).countOutcome o).rest 2 start with lastOutcome := some o }

section
variable {l : Fin 4} {o : CallOutcome} (start : Nat) {s : State}

/-- A retried outcome with attempts left lets the call go on. -/
theorem endAttempt_of_retry (h : o ≠ .good ∧ o ≠ .refused ∧ o ≠ .lineStuck)
    (hk : (s.engine l).attempt < 1 + (s.engine l).retryLimit) :
    endAttempt l o start s = s.setEngine l (s.restedAfter l o start) :=
  if_pos (by simp [o.retried_iff.mpr h, hk])

/-- Otherwise the call ends with the outcome. -/
theorem endAttempt_of_end
    (h : ¬ (o ≠ .good ∧ o ≠ .refused ∧ o ≠ .lineStuck) ∨ 1 + (s.engine l).retryLimit ≤ (s.engine l).attempt) :
    endAttempt l o start s = callEnded l o (s.restedAfter l o start).attempt
      (if o = .good ∨ o = .busy ∨ o = .refused then (s.restedAfter l o start).kept else none)
      (s.setEngine l { s.restedAfter l o start with op := none }) := by
  have ends : ¬ (o.retried && decide ((s.engine l).attempt < 1 + (s.engine l).retryLimit)) = true := by
    rw [Bool.and_eq_true, o.retried_iff, decide_eq_true_eq]
    exact fun ⟨retried, left⟩ => h.elim (· retried) (Nat.not_le.mpr left)
  calc endAttempt l o start s
    _ = endCall l o (s.setEngine l (s.restedAfter l o start)) := if_neg ends
    _ = _ := endCall_setEngine ..

end

/-- Settles O42: the counted outcome, and then the rest or the end of the call. -/
theorem attemptEnds : Obligations.AttemptEnds := by
  intro l o start s e retried c counted rests answer
  have rested : s.restedAfter l o start = rests := by
    unfold State.restedAfter
    rw [Engine.countOutcome_eq]
    rfl
  refine ⟨fun hr left => ?_, fun h => ?_⟩
  · rw [endAttempt_of_retry start hr left, rested]
  · rw [endAttempt_of_end start h, rested]

/-! ### The sampled character (R52) -/

/-- The number whose bits, least significant first, are these. -/
def bitsNat (bits : List Bool) : Nat := bits.foldr (fun b v => b.toNat + 2 * v) 0

theorem bitsNat_cons (b : Bool) (bits : List Bool) : bitsNat (b :: bits) = b.toNat + 2 * bitsNat bits := rfl

theorem bitsNat_testBit (bits : List Bool) (i : Nat) : (bitsNat bits).testBit i = bits.getD i false := by
  induction bits generalizing i with
  | nil => simp [bitsNat]
  | cons b bits ih =>
    rw [bitsNat_cons]
    cases i with
    | zero => cases b <;> simp
    | succ i =>
      have rest : (b.toNat + 2 * bitsNat bits) / 2 = bitsNat bits := by
        have bound := b.toNat_le
        omega
      rw [Nat.testBit_succ, rest, ih, List.getD_cons_succ]

/-- The value of the character has the samples behind the start bit as its bits. -/
theorem Engine.character_value (e : Engine) (start : Nat) : (e.character start).value =
    BitVec.ofNat 8 (bitsNat ((List.range 8).map fun i => e.sample start (i + 1))) := by
  rw [bitsNat, List.foldr_map]
  rfl

theorem Engine.sample_iff (e : Engine) (start k : Nat) : e.sample start k = true ↔
    (e.edges.filter (· ≤ start + (2 * k + 1) * halfBit e.rateCode)).length % 2 = 1 := by
  simp only [Engine.sample, Engine.rxLevel, beq_iff_eq]

/-- Data bit i of the character is the sample of bit i + 1, the start bit being bit 0. -/
theorem Engine.character_getLsbD (e : Engine) (start : Nat) {i : Nat} (hi : i < 8) :
    (e.character start).value.getLsbD i = e.sample start (i + 1) := by
  rw [Engine.character_value, BitVec.getLsbD_ofNat, bitsNat_testBit]
  simp [hi]

/-! ### The level of RXD (R72) -/

/-- The state with RXD of line l at the other level. -/
def State.rxdTurned (s : State) (l : Fin 4) : State :=
  { s with pins := { s.pins with rxd := s.pins.rxd.set l.val (!s.rxd l) } }

theorem State.rxdTurned_frame (s : State) (l : Fin 4) : Frame [.pins] s (s.rxdTurned l) where
  keeps p hp := by cases p <;> simp_all [Piece.Same, State.rxdTurned]

theorem exec_rxdLevelChange (l : Fin 4) (s : State) : exec (.rxdLevelChange l) s = .next (if s.active then
    (s.rxdTurned l).setEngine l ((s.engine l).levelChange s.moment (!s.rxd l)) else s.rxdTurned l) := rfl

section
variable (m : Nat) (e : Engine)

/-- An engine in OFF does not look at RXD. -/
theorem Engine.levelChange_of_off (mark : Bool) (h : e.lineState = .off) : e.levelChange m mark = e := if_pos h

/-- A change to mark starts the mark run, and a receiver that waited for mark hunts. -/
theorem Engine.levelChange_mark (h : e.lineState ≠ .off) : e.levelChange m true = { e with
    markRun := some m, spaceRun := none, edges := e.edgesAfter m,
    receiver := if e.receiver = .waitMark then .hunting else e.receiver } := by
  unfold Engine.levelChange
  rw [if_neg h]
  rcases hr : e.receiver <;> simp

/-- A change to space starts the space run, and a hunting receiver checks the start. -/
theorem Engine.levelChange_space (h : e.lineState ≠ .off) : e.levelChange m false = { e with
    markRun := none, spaceRun := if e.lineState = .sending then none else some m, edges := e.edgesAfter m,
    receiver := if e.receiver = .hunting then .confirming m else e.receiver } := by
  unfold Engine.levelChange
  rw [if_neg h]
  rcases hr : e.receiver <;> simp

end

/-! ### The start-bit check (R52, R75, R76) -/

theorem exec_startBitConfirmation {l : Fin 4} {start : Nat} {s : State} (ha : s.active = true)
    (hr : (s.engine l).receiver = .confirming start) : exec (.startBitConfirmation l) s =
      .next (if start + halfBit (s.engine l).rateCode ≤ s.moment then settle (confirmStart l start s) else s) := by
  simp only [exec, execStartBitConfirmation, startBitConfirmation, ha, hr]

/-- After a glitch the receiver has no start in hand but the one it may be checking now. -/
theorem Engine.resume_idleBefore {e : Engine} {m limit : Nat}
    (h : ∀ t, (e.resume m true).receiver = .confirming t → limit ≤ t) :
    (e.resume m true).receiver.idleBefore limit := by
  rcases receiverAfter_mark (e.edgesSince m) with hunts | ⟨t, _, confirms⟩
  · rw [Engine.resume_receiver, hunts]
    exact trivial
  · have late := h t confirms
    rw [Engine.resume_receiver, confirms]
    exact late

/-- An engine that knows its limit has run out waits as it stands. -/
theorem State.limitWaits_of_limitPassed {s : State} {l : Fin 4} (h : (s.engine l).limitPassed = true) :
    s.limitWaits l = s := by
  have same : { s.engine l with limitPassed := true } = s.engine l := by rw [← h]
  rw [State.limitWaits, same, State.setEngine_engine]

/-- Line l's engine after a glitch: it looks for a start from the sample of the start bit on. -/
def State.glitched (s : State) (l : Fin 4) (start : Nat) : Engine :=
  (s.engine l).resume (start + halfBit (s.engine l).rateCode) true

section
variable {l : Fin 4} {start : Nat} {s : State}
variable (h : (s.engine l).sample start 0 = true) (hl : (s.engine l).limitPassed = true)
include h hl

/-- A glitch in AWAITING after the turnaround limit has that limit looked at again (R75). -/
theorem confirmStart_glitch_awaiting (hs : (s.engine l).lineState = .awaiting) :
    confirmStart l start s = turnaroundOut l (s.setEngine l (s.glitched l start)) := by
  simp only [confirmStart, h, hl, hs, if_true, State.glitched]

/-- A glitch in RECEIVING after the gap limit has that limit looked at again (R76). -/
theorem confirmStart_glitch_receiving (hs : (s.engine l).lineState = .receiving) :
    confirmStart l start s = gapOut l (s.setEngine l (s.glitched l start)) := by
  simp only [confirmStart, h, hl, hs, if_true, State.glitched]

theorem confirmStart_glitch_awaiting_waits (hs : (s.engine l).lineState = .awaiting) {t : Nat}
    (ht : (s.glitched l start).receiver = .confirming t) (inTime : t < (s.engine l).turnaroundEnd) :
    confirmStart l start s = s.setEngine l (s.glitched l start) := by
  rw [confirmStart_glitch_awaiting h hl hs, turnaroundOut_of_confirming (start := t)]
  · exact State.limitWaits_of_limitPassed ((State.engine_setEngine_self ..).symm ▸ hl)
  all_goals rwa [State.engine_setEngine_self]

theorem confirmStart_glitch_receiving_waits (hs : (s.engine l).lineState = .receiving) {t : Nat}
    (ht : (s.glitched l start).receiver = .confirming t) (inTime : t ≤ (s.engine l).gapEnd) :
    confirmStart l start s = s.setEngine l (s.glitched l start) := by
  rw [confirmStart_glitch_receiving h hl hs, gapOut_of_confirming (start := t)]
  · exact State.limitWaits_of_limitPassed ((State.engine_setEngine_self ..).symm ▸ hl)
  all_goals rwa [State.engine_setEngine_self]

theorem confirmStart_glitch_awaiting_ends (hs : (s.engine l).lineState = .awaiting)
    (late : ∀ t, (s.glitched l start).receiver = .confirming t → (s.engine l).turnaroundEnd ≤ t) :
    confirmStart l start s =
      endAttempt l .silent (s.engine l).turnaroundEnd (s.setEngine l (s.glitched l start)) := by
  rw [confirmStart_glitch_awaiting h hl hs, turnaroundOut_of_silence] <;> rw [State.engine_setEngine_self]
  · rfl
  · exact Engine.resume_idleBefore late

theorem confirmStart_glitch_receiving_ends (hs : (s.engine l).lineState = .receiving)
    (late : ∀ t, (s.glitched l start).receiver = .confirming t → (s.engine l).gapEnd < t) :
    confirmStart l start s =
      endAttempt l (s.engine l).gapOutcome (s.engine l).gapEnd (s.setEngine l (s.glitched l start)) := by
  rw [confirmStart_glitch_receiving h hl hs, gapOut_of_gap] <;> rw [State.engine_setEngine_self]
  · rfl
  · exact Engine.resume_idleBefore late

end

/-- Settles O47: the samples bit by bit, the receiver from a moment on, a level change by its new level, and the start
bit by its sample and the limit that has run out. -/
theorem lineLevelsTaken : Obligations.LineLevelsTaken := by
  unfold Obligations.LineLevelsTaken
  refine ⟨?samples, fun t rest => ⟨rfl, rfl, rfl, rfl⟩, fun e moment mark => rfl, ?events⟩
  case samples =>
    intro e start level
    refine ⟨fun i hi => ?_, e.sample_iff start 9, e.sample_iff start⟩
    rw [Engine.character_getLsbD e start hi, Engine.sample_iff]
  case events =>
    intro l s e pins edges
    refine ⟨fun h => ?unseen, fun ha hs => ?seen, fun st ha hr => ?confirmation⟩
    case unseen =>
      rw [exec_rxdLevelChange]
      rcases h with inactive | off
      · rw [inactive]
        rfl
      · have same : (s.rxdTurned l).setEngine l (s.engine l) = s.rxdTurned l := (s.rxdTurned l).setEngine_engine l
        rw [Engine.levelChange_of_off _ _ _ off, same, ite_self]
        rfl
    case seen =>
      have kept : e.edgesAfter s.moment = edges := by
        unfold Engine.edgesAfter
        simp only [edges]
        rcases e.receiver <;> rfl
      refine ⟨(s.rxdTurned l).setEngine l (e.levelChange s.moment (!s.rxd l)), ?_,
        (s.rxdTurned_frame l).then (State.setEngine_frame ..), rfl,
        (s.rxdTurned l).setEngine_others l _, fun space => ?_, fun mark => ?_⟩
      · rw [exec_rxdLevelChange, if_pos ha]
      · rw [State.engine_setEngine_self, space, Bool.not_false, Engine.levelChange_mark _ _ hs, kept]
      · rw [State.engine_setEngine_self, mark, Bool.not_true, Engine.levelChange_space _ _ hs, kept]
    case confirmation =>
      intro sampled mark hunts turn gap cut waits
      have taken : exec (.startBitConfirmation l) s =
          .next (if sampled ≤ s.moment then settle (confirmStart l st s) else s) := exec_startBitConfirmation ha hr
      have mark_iff : e.sample st 0 = true ↔ mark := by
        rw [Engine.sample_iff, Nat.mul_zero, Nat.zero_add, Nat.one_mul]
      refine ⟨fun early => by rw [taken, if_neg (Nat.not_le.mpr early)], fun due hm => ?_, fun due hm hl => ?_,
        fun due hm hl => ⟨fun hs => ⟨fun t ht inTime => ?_, fun late => ?_⟩,
          fun hs => ⟨fun t ht inTime => ?_, fun late => ?_⟩⟩⟩
      all_goals rw [taken, if_pos due]
      · rw [confirmStart_space l st s (Bool.eq_false_iff.mpr (mt mark_iff.mp hm))]
      · rw [confirmStart_glitch l st s (mark_iff.mpr hm) hl]
      · rw [confirmStart_glitch_awaiting_waits (mark_iff.mpr hm) hl hs ht inTime]
        rfl
      · rw [confirmStart_glitch_awaiting_ends (mark_iff.mpr hm) hl hs late]
        rfl
      · rw [confirmStart_glitch_receiving_waits (mark_iff.mpr hm) hl hs ht inTime]
        rfl
      · rw [confirmStart_glitch_receiving_ends (mark_iff.mpr hm) hl hs late]
        rfl

end Sys2Proof.Machine
end

section
/-! PROOFS. The Line Engines: the ends of rests and windows, and lines that settle, stick and recover. -/

namespace Sys2Proof.Machine

/-! ### The end of a window at its Scheduler (R47, R49) -/

theorem advanced_eq (now due period : Word) : advanced now due period =
    if (now - (due + period)).toNat < 2 ^ 31 then now + period else due + period := by
  simp only [advanced, reached, decide_eq_true_eq]

theorem nextAddress_append (ws : List Byte) (w pointer : Byte) :
    nextAddress (ws ++ [w]) pointer = if w = 254 then 1 else w + 1 := by
  simp [nextAddress]

/-- A Scheduler whose window up to the address w has ended: the rotation pointer and the due time go on. -/
def Sched.windowOver (now : Word) (w : Byte) (q : Sched) : Sched :=
  { q with
    inFlight := none, rotation := if w = 254 then 1 else w + 1,
    windowDue := q.windowDue.map (fun t => if (now - (t + q.windowInterval)).toNat < 2 ^ 31
      then now + q.windowInterval else t + q.windowInterval) }

theorem windowEnded_of_window {l : Fin 4} {s : State} {ws : List Byte} {w : Byte}
    (h : (s.scheduler l).inFlight = some (.window (ws ++ [w]))) :
    windowEnded l s = s.setSched l ((s.scheduler l).windowOver s.tb.now w) := by
  simp only [windowEnded, h, nextAddress_append, Sched.windowAdvanced, advanced_eq, Sched.windowOver]

/-! ### The end of a rest (R81, R82) -/

section
variable {l : Fin 4} {s : State}

theorem exec_restEnd (ha : s.active = true) (hs : (s.engine l).lineState = .resting) : exec (.restEnd l) s =
    .next (if (s.engine l).since + (s.engine l).restLength * charTime (s.engine l).rateCode ≤ s.moment then
      settle (restOver l s) else s) := by
  simp only [exec, execRestEnd, restEnd, ha, hs, beq_self_eq_true, Bool.true_and, decide_eq_true_eq]

/-- A call that goes on sends its next attempt (R81). -/
theorem restOver_of_call {k : CallKind} {n : Fin 64} {a : Byte} {q : Bool} {p : List Byte}
    (h : (s.engine l).op = some (.call k n a q p)) : restOver l s = s.setEngine l { s.engine l with
      lineState := .sending, since := s.moment, receiver := .disabled, edges := [], spaceRun := none,
      limitPassed := false, attempt := (s.engine l).attempt + 1 } := by
  simp [restOver, h, Engine.startSending, Engine.hasCall, Operation.isCall]

theorem restOver_of_none (h : (s.engine l).op = none) : restOver l s = s.setEngine l (s.engine l).toIdle := by
  simp only [restOver, h]

/-- The report of a BROADCAST completes its job OK with attempts used 1 (R82). -/
theorem restOver_of_broadcast {p : List Byte} {i : Fin 16} (h : (s.engine l).op = some (.broadcast p))
    (hf : (s.scheduler l).inFlight = some (.broadcast i)) : restOver l s =
      completeJob i ⟨.ok, 1, 0, []⟩ ((s.setEngine l { (s.engine l).toIdle with op := none }).clearFlight l) := by
  simp only [restOver, h, broadcastEnded, State.scheduler_setEngine_eq, hf]

end

/-! ### The end of a window (R87) -/

theorem exec_windowEnd {l : Fin 4} {s : State} (ha : s.active = true) (hs : (s.engine l).lineState = .window) :
    let last := (s.engine l).windowEnd
    exec (.windowEnd l) s = .next (if last ≤ s.moment then
      settle (windowEnded l (s.setEngine l { (s.engine l).rest 2 last with op := none })) else s) := by
  simp only [exec, execWindowEnd, windowEnd, ha, hs, beq_self_eq_true, Bool.true_and, decide_eq_true_eq]

/-- Settles O45: a rest ends by the operation in hand, and a window with its Scheduler going on. -/
theorem restAndWindowEnd : Obligations.RestAndWindowEnd := by
  intro l s ha e finish last idle
  have rested (hs : e.lineState = .resting) :
      exec (.restEnd l) s = .next (if finish ≤ s.moment then settle (restOver l s) else s) := exec_restEnd ha hs
  have windowed (hs : e.lineState = .window) : exec (.windowEnd l) s = .next (if last ≤ s.moment then
      settle (windowEnded l (s.setEngine l { e.rest 2 last with op := none })) else s) := exec_windowEnd ha hs
  refine ⟨fun hs early => by rw [rested hs, if_neg (Nat.not_le.mpr early)], fun hs due => ?rest,
    fun hs early => by rw [windowed hs, if_neg (Nat.not_le.mpr early)], fun ws w hs due hf => ?window⟩
  case rest =>
    rw [rested hs, if_pos due]
    refine ⟨fun k n a q p hop => by rw [restOver_of_call hop], fun hop => by rw [restOver_of_none hop]; rfl,
      fun p i j hop hf hj hwire => ⟨restOver l s, rfl, ?_⟩⟩
    rw [restOver_of_broadcast hop hf]
    generalize hu : (s.setEngine l { (s.engine l).toIdle with op := none }).clearFlight l = u
    have frame : Frame [.eng, .sched] s u := by
      rw [← hu]
      exact (State.setEngine_frame ..).then (State.clearFlight_frame ..)
    have engine : u.engine l = { idle with op := none } := by
      rw [← hu, (State.clearFlight_frame ..).engine, State.engine_setEngine_self]
      rfl
    have flight : (u.scheduler l).inFlight = none := by
      rw [← hu, State.clearFlight, State.scheduler_setSched_self]
    have job : u.job = s.job := frame.job
    have slot (k : Fin 16) : u.slot k = s.slot k := by simp only [State.slot, job]
    refine ⟨frame.then (completeJob_frame ..), ?_, ?_, ?_, fun k hk => ?_⟩
    · rw [(completeJob_frame ..).engine, engine]
    · rw [(completeJob_frame ..).scheduler, flight]
    · refine completeJob_completedWith i _ u j ((slot i).trans hj) ?_
      rw [hwire]
      decide
    · have now : u.tb = s.tb := frame.same .tb
      have completed : (completeJob i ⟨.ok, 1, 0, []⟩ u).tb = u.tb := (completeJob_frame ..).same .tb
      exact (State.SlotKept.of_eq (slot k)).then (completeJob_slotKept i k _ u hk) now (completed.trans now)
  case window =>
    intro q
    rw [windowed hs, if_pos due]
    have ended := windowEnded_of_window (s := s.setEngine l { e.rest 2 last with op := none }) hf
    refine ⟨_, rfl, (State.setEngine_frame ..).then (windowEnded_frame ..), ?_⟩
    rw [ended]
    refine ⟨State.setEngine_others s l _, ?_, ?_⟩
    · exact State.setSched_others _ l _
    · rw [State.engine_setSched_eq, State.engine_setEngine_self, State.scheduler_setSched_self]
      exact ⟨rfl, rfl, rfl, rfl, rfl, rfl⟩

/-! ### The runs of a line's level (R70, R88, R90) -/

section
variable {l : Fin 4} {s : State} (ha : s.active = true)
include ha

theorem exec_settlingEnd {r : Nat} (hr : (s.engine l).markRun = some r) (hs : (s.engine l).lineState = .settling) :
    exec (.settlingEnd l) s = .next (if r + 10 * charTime (s.engine l).rateCode ≤ s.moment then
      settle (s.setEngine l (s.engine l).toIdle) else s) := by
  simp only [exec, execSettlingEnd, settlingEnd, ha, hs, hr, Engine.runReaches, beq_self_eq_true, Bool.true_and,
    decide_eq_true_eq]

theorem exec_lineRecovered {r : Nat} (hr : (s.engine l).markRun = some r) (hs : (s.engine l).lineState = .stuck) :
    exec (.lineRecovered l) s = .next (if r + 10 * charTime (s.engine l).rateCode ≤ s.moment then
      settle (requestNotice (recoveredNotice l s.tb.now) (s.setEngine l (s.engine l).toIdle)) else s) := by
  simp only [exec, execLineRecovered, lineRecovered, ha, hs, hr, Engine.runReaches, beq_self_eq_true, Bool.true_and,
    decide_eq_true_eq]

theorem exec_lineFoundStuck : exec (.lineFoundStuck l) s =
    .next (if (s.engine l).canStick = true ∧ s.stuckDue l = true then settle (foundStuck l s) else s) := by
  simp only [exec, execLineFoundStuck, lineFoundStuck, ha, Bool.true_and, Bool.and_eq_true]

end

theorem State.stuckDue_iff {l : Fin 4} {s : State} {r : Nat} (h : (s.engine l).spaceRun = some r) :
    s.stuckDue l = true ↔ r + 20 * charTime (s.engine l).rateCode ≤ s.moment := by
  simp only [State.stuckDue, h, Engine.runReaches, decide_eq_true_eq]

/-- During the rest of a BROADCAST no line is found stuck (R82, log 15). -/
theorem Engine.canStick_of_broadcast {e : Engine} {p : List Byte} (h : e.op = some (.broadcast p))
    (hs : e.lineState = .resting) : e.canStick = false := by
  simp only [Engine.canStick, h, hs]

theorem Engine.canStick_of_not_broadcast {e : Engine} (h : ∀ p, e.op ≠ some (.broadcast p))
    (hs : e.lineState = .settling ∨ e.lineState = .idle ∨ e.lineState = .awaiting ∨ e.lineState = .receiving ∨
      e.lineState = .resting ∨ e.lineState = .window) : e.canStick = true := by
  unfold Engine.canStick
  split
  · next p _ hop => exact absurd hop (h p)
  all_goals simp_all

/-! ### A line that is found stuck (R88) -/

/-- An engine that was found stuck, its operation gone: stuck events counts, the mark run starts at mark. -/
def Engine.stuckWithout (moment : Nat) (mark : Bool) (e : Engine) : Engine :=
  { e with
    lineState := .stuck, op := none, slots := [], limitPassed := false, draining := false, answerBuf := [], taken := 0,
    markRun := if mark then some moment else none,
    counters := { e.counters with stuckEvents := e.counters.stuckEvents + 1 } }

/-- No attempt was in progress: nothing but the stuck event counts. -/
theorem Engine.goStuck_of_no_attempt (moment : Nat) (mark : Bool) {e : Engine}
    (hs : e.lineState ≠ .awaiting ∧ e.lineState ≠ .receiving) :
    { e.goStuck moment mark with op := none } = e.stuckWithout moment mark := by
  have none : e.inAttempt = false := by simp [Engine.inAttempt, hs]
  simp only [Engine.goStuck, none]
  rfl

/-- The attempt in progress counts as failed. -/
theorem Engine.goStuck_of_attempt (moment : Nat) (mark : Bool) {e : Engine}
    (hs : e.lineState = .awaiting ∨ e.lineState = .receiving) :
    { e.goStuck moment mark with op := none } = { e.stuckWithout moment mark with
      lastOutcome := some .lineStuck,
      counters := { (e.stuckWithout moment mark).counters with
        failedAttempts := e.counters.failedAttempts + 1 } } := by
  have attempt : e.inAttempt = true := by rcases hs with hs | hs <;> rw [Engine.inAttempt, hs] <;> rfl
  simp only [Engine.goStuck, attempt]
  rfl

theorem Engine.goStuck_op (moment : Nat) (mark : Bool) (e : Engine) : (e.goStuck moment mark).op = e.op := by
  unfold Engine.goStuck
  simp only
  split <;> rfl

theorem Engine.goStuck_attempt (moment : Nat) (mark : Bool) (e : Engine) :
    (e.goStuck moment mark).attempt = e.attempt := by
  unfold Engine.goStuck
  simp only
  split <;> rfl

section
variable (s : State) (l : Fin 4)

/-- Line l is STUCK with its LINE_STUCK notice asked for, the operation in hand gone and its end not yet reported. -/
def State.stuckFound : State :=
  (requestNotice (stuckNotice l s.tb.now (s.engine l).callCut)
    (s.setEngine l ((s.engine l).goStuck s.moment (s.rxd l)))).setEngine l
      { (s.engine l).goStuck s.moment (s.rxd l) with op := none }

theorem State.stuckFound_frame : Frame [.eng, .ntc] s (s.stuckFound l) :=
  Frame.then (Frame.then (l := [.eng, .ntc]) (State.setEngine_frame ..) (requestNotice_frame ..))
    (State.setEngine_frame ..)

theorem State.stuckFound_engine :
    (s.stuckFound l).engine l = { (s.engine l).goStuck s.moment (s.rxd l) with op := none } :=
  State.engine_setEngine_self ..

theorem State.stuckFound_others : s.OtherEnginesKept (s.stuckFound l) l := fun m hm => by
  rw [State.stuckFound, State.setEngine_others _ l _ m hm, (requestNotice_frame ..).engine,
    State.setEngine_others s l _ m hm]

theorem State.stuckFound_asksNotice :
    s.AsksNotice (s.stuckFound l) (stuckNotice l s.tb.now (s.engine l).callCut) :=
  requestNotice_ntc_congr _ rfl

variable {s l}

/-- In the state in which `foundStuck` reports the end, the engine is the stuck one with its operation. -/
theorem stuckNoticed_engine (x : Notice) (e : Engine) : (requestNotice x (s.setEngine l e)).engine l = e := by
  rw [(requestNotice_frame ..).engine, State.engine_setEngine_self]

theorem foundStuck_of_none (h : (s.engine l).op = none) : foundStuck l s = s.stuckFound l := by
  have gone : { (s.engine l).goStuck s.moment (s.rxd l) with op := none } =
      (s.engine l).goStuck s.moment (s.rxd l) := by
    rw [← h, ← Engine.goStuck_op s.moment (s.rxd l)]
  simp only [foundStuck, h, State.stuckFound, gone]
  exact (State.setEngine_of_engine (stuckNoticed_engine ..)).symm

/-- A call in hand ends LINE_STUCK, without an answer. -/
theorem foundStuck_of_call {k : CallKind} {n : Fin 64} {a : Byte} {q : Bool} {p : List Byte}
    (h : (s.engine l).op = some (.call k n a q p)) :
    foundStuck l s = callEnded l .lineStuck (s.engine l).attempt none (s.stuckFound l) := by
  simp only [foundStuck, h, endCall, stuckNoticed_engine, Engine.goStuck_attempt, State.stuckFound]
  rfl

/-- A window in hand ends. -/
theorem foundStuck_of_window (h : (s.engine l).op = some .window) :
    foundStuck l s = windowEnded l (s.stuckFound l) := by
  simp only [foundStuck, h, stuckNoticed_engine, State.stuckFound]

end

theorem Engine.callCut_of_call {e : Engine} {k : CallKind} {n : Fin 64} {a : Byte} {q : Bool} {p : List Byte}
    (h : e.op = some (.call k n a q p)) : e.callCut = some (n, a) := by
  simp only [Engine.callCut, h]

theorem Engine.callCut_of_none {e : Engine} (h : e.op = none) : e.callCut = none := by
  simp only [Engine.callCut, h]

theorem Engine.callCut_of_window {e : Engine} (h : e.op = some .window) : e.callCut = none := by
  simp only [Engine.callCut, h]

/-- Settles O46: each run once it is long enough, a stuck line by the operation in hand and the attempt in progress. -/
theorem lineSettlesAndSticks : Obligations.LineSettlesAndSticks := by
  intro l r s ha e idle stuck cut
  have sticks (due : s.stuckDue l = true) (hop : ∀ p, e.op ≠ some (.broadcast p))
      (hs : e.lineState = .settling ∨ e.lineState = .idle ∨ e.lineState = .awaiting ∨ e.lineState = .receiving ∨
        e.lineState = .resting ∨ e.lineState = .window) :
      exec (.lineFoundStuck l) s = .next (settle (foundStuck l s)) := by
    rw [exec_lineFoundStuck ha, if_pos ⟨Engine.canStick_of_not_broadcast hop hs, due⟩]
  have engine (hs : e.lineState ≠ .awaiting ∧ e.lineState ≠ .receiving) : (s.stuckFound l).engine l = stuck := by
    rw [State.stuckFound_engine, Engine.goStuck_of_no_attempt _ _ hs]
    rfl
  refine ⟨fun hr => ?marks, fun p hop hs => ?broadcast, fun hr => ⟨fun early => ?early, fun due => ?due⟩⟩
  case marks =>
    refine ⟨fun hs early => ?_, fun hs due => ?_, fun hs early => ?_, fun hs due => ?_⟩
    · rw [exec_settlingEnd ha hr hs, if_neg (Nat.not_le.mpr early)]
    · rw [exec_settlingEnd ha hr hs, if_pos due]
      rfl
    · rw [exec_lineRecovered ha hr hs, if_neg (Nat.not_le.mpr early)]
    · rw [exec_lineRecovered ha hr hs, if_pos due]
      rfl
  case broadcast =>
    have never := Engine.canStick_of_broadcast hop hs
    rw [exec_lineFoundStuck ha, if_neg fun h => Bool.false_ne_true (never.symm.trans h.1)]
  case early =>
    rw [exec_lineFoundStuck ha, if_neg fun h => Nat.not_le.mpr early ((State.stuckDue_iff hr).mp h.2)]
  case due =>
    replace due := (State.stuckDue_iff hr).mpr due
    have notice := s.stuckFound_asksNotice l
    refine ⟨fun hop hs => ?none, fun k n a q p hop hs => ?attempt, fun k n a q p hop hs => ?between,
      fun ws w hop hs hf => ?window⟩
    case none =>
      have states : (e.lineState = .settling ∨ e.lineState = .idle ∨ e.lineState = .awaiting ∨
          e.lineState = .receiving ∨ e.lineState = .resting ∨ e.lineState = .window) ∧
          e.lineState ≠ .awaiting ∧ e.lineState ≠ .receiving := by
        rcases hs with hs | hs | hs <;> simp [hs]
      refine ⟨s.stuckFound l, ?_, s.stuckFound_frame l, s.stuckFound_others l, engine states.2, ?_⟩
      · rw [sticks due (by simp [hop]) states.1, foundStuck_of_none hop]
      · rwa [Engine.callCut_of_none hop] at notice
    case attempt =>
      refine ⟨s.stuckFound l, ?_, s.stuckFound_frame l, s.stuckFound_others l, ?_, ?_⟩
      · rw [sticks due (by simp [hop]) (by rcases hs with hs | hs <;> simp [hs]), foundStuck_of_call hop]
      · rw [State.stuckFound_engine, Engine.goStuck_of_attempt _ _ hs]
        rfl
      · rwa [Engine.callCut_of_call hop] at notice
    case between =>
      refine ⟨s.stuckFound l, ?_, s.stuckFound_frame l, s.stuckFound_others l, engine (by simp [hs]), ?_⟩
      · rw [sticks due (by simp [hop]) (by simp [hs]), foundStuck_of_call hop]
      · rwa [Engine.callCut_of_call hop] at notice
    case window =>
      intro q
      have scheduler : (s.stuckFound l).scheduler l = q := (s.stuckFound_frame l).scheduler l
      have now : (s.stuckFound l).tb = s.tb := (s.stuckFound_frame l).same .tb
      have ended : windowEnded l (s.stuckFound l) = (s.stuckFound l).setSched l (q.windowOver s.tb.now w) := by
        rw [windowEnded_of_window (by rwa [scheduler]), scheduler, now]
      refine ⟨windowEnded l (s.stuckFound l), ?_, (s.stuckFound_frame l).then (windowEnded_frame ..), ?_⟩
      · rw [sticks due (by simp [hop]) (by simp [hs]), foundStuck_of_window hop]
      rw [ended]
      refine ⟨s.stuckFound_others l, fun m hm => ?_, engine (by simp [hs]), State.scheduler_setSched_self .., ?_⟩
      · rw [State.setSched_others _ l _ m hm, (s.stuckFound_frame l).scheduler]
      · rwa [Engine.callCut_of_window hop] at notice

end Sys2Proof.Machine
end

section
/-! PROOFS. The Chain Follower and the write list: parking, links, the end of a listed write, the re-read interval. -/

set_option Elab.async false

namespace Sys2Proof.Machine

/-! ### When the part works -/

theorem State.running_iff_part {s : State} (h : s.active = true) : s.running = true ↔ s.ctl.part = .running := by
  simp only [State.active, Bool.and_eq_true] at h
  simp only [State.running, h.1, Bool.true_and, beq_iff_eq]

theorem State.active_of_running {s : State} (h : s.running = true) : s.active = true := by
  simp only [State.running, Bool.and_eq_true] at h
  simp only [State.active, h.1, h.2, Bool.true_or, Bool.and_true]

theorem State.running_of_stopping {s : State} (h : s.ctl.part = .stopping) : s.running = false := by
  simp [State.running, h]

/-- Only RUNNING and a follower in the state of the read wait for its result (R107). -/
theorem State.not_waiting {s : State} {f : Follower} (h : s.job.follower ≠ f ∨ s.ctl.part = .stopping) :
    ¬ (s.running = true ∧ s.job.follower = f) := by
  rintro ⟨running, waits⟩
  rcases h with other | stopping
  · exact other waits
  · rw [State.running_of_stopping stopping] at running
    cases running

/-- The requester takes the result of its request in service (R182). -/
theorem whenServed_of_serving {s : State} {k : RequestKind} (ha : s.active = true) (hs : s.serving k = true)
    (f : State → State) : whenServed k f s = f s.served := by
  simp only [whenServed, ha, hs, Bool.and_self, if_true]

/-! ### Slots in use -/

theorem State.freeSlot_isSome {s : State} {i : Fin 16} (h : s.slot i = none) : ∃ k, s.freeSlot = some k := by
  apply Option.isSome_iff_exists.mp
  exact List.find?_isSome.mpr ⟨i, List.mem_finRange i, by rw [h]; rfl⟩

theorem State.freeSlot_eq_none {s : State} (h : ∀ i, s.slot i ≠ none) : s.freeSlot = none :=
  List.find?_eq_none.mpr fun i _ => by simpa using h i

/-! ### Reads of the chain (R97, R98, R105) -/

/-- The read of the link word at place a, as the follower hands it to the Memory Port. -/
def State.linkRequest (s : State) (a : Addr) : Request := readRequest .follower .linkRead (s.linkStructure a) a 8

/-- The read of the record at a, as the follower hands it to the Memory Port. -/
def recordRequest (a : Addr) : Request := readRequest .follower .recordRead .chain a 128

/-- With a slot FREE the next record is read. -/
theorem readOrPause_reads {s : State} {i : Fin 16} {a : Addr} (hf : s.freeSlot = some i)
    (hn : s.job.nextRecord = some a) : readOrPause s =
      { s with job := { s.job with follower := .recordRead, nudgePending := false } }.issue (recordRequest a) :=
  (readOrPause_free s i hf).trans (readRecord_eq s a hn)

section
variable {s : State} {a : Addr}

/-- A re-read from PARKED_LINK reads the link word at the parking place. -/
theorem reread_link_reads (h : s.job.follower = .parkedLink) (ha : s.job.parking = some a) : reread s =
    { s with job := { s.job with follower := .linkRead, rereadOf := some .link, nudgePending := false }
      }.issue (s.linkRequest a) :=
  (reread_parkedLink s h).trans (readLink_eq _ a ha)

/-- A re-read from PARKED_RECORD with a slot FREE reads the next record. -/
theorem reread_record_reads {i : Fin 16} (h : s.job.follower = .parkedRecord) (hf : s.freeSlot = some i)
    (ha : s.job.nextRecord = some a) : reread s =
      { s with job := { s.job with follower := .recordRead, rereadOf := some .record, nudgePending := false }
        }.issue (recordRequest a) :=
  (reread_parkedRecord s h).trans (readOrPause_reads hf ha)

/-- A re-read from PARKED_RECORD with no slot FREE pauses. -/
theorem reread_record_pauses (h : s.job.follower = .parkedRecord) (hf : s.freeSlot = none) : reread s =
    { s with job := { s.job with follower := .paused, rereadOf := some .record } } :=
  (reread_parkedRecord s h).trans (readOrPause_full _ hf)

end

/-! ### Parking (R102, R104) -/

/-- The write list once the follower has entered the parked state p: a parking write listed, or none where a re-read
returns to the state it left. -/
def State.writesParked (s : State) (p : Parked) : List JobWrite := (parkingWrite p s).job.writes

theorem State.writesParked_of_reread {s : State} {p : Parked} (h : s.job.rereadOf = some p) :
    s.writesParked p = s.job.writes := by
  simp only [State.writesParked, parkingWrite, if_pos h]

theorem State.writesParked_of_parking {s : State} {p : Parked} {a : Addr} (h : s.job.rereadOf ≠ some p)
    (ha : s.job.parking = some a) : s.writesParked p = parkedWrites (s.port.busyFor .jobUnit) a s.job.writes := by
  simp only [State.writesParked, parkingWrite, if_neg h, ha, listParking_writes]

/-- The parking write changes the write list alone. -/
theorem parkingWrite_eq (p : Parked) (s : State) :
    parkingWrite p s = { s with job := { s.job with writes := s.writesParked p } } := by
  unfold State.writesParked parkingWrite
  repeat' split
  all_goals rfl

theorem park_of_quiet (p : Parked) {s : State} (h : s.job.nudgePending = false) : park p s = { s with
    job := { s.job with writes := s.writesParked p, follower := p.follower, rereadOf := none } } := by
  rw [park_quiet p s h, parkingWrite_eq]

/-- A NUDGE that is pending makes the parked follower re-read at once. -/
theorem park_of_nudged (p : Parked) {s : State} (h : s.job.nudgePending = true) : park p s = reread { s with
    job := { s.job with
      writes := s.writesParked p, follower := p.follower, rereadOf := none, nudgePending := false } } := by
  simp only [park, parkingWrite_eq, h, if_true]

theorem park_link_of_nudged {s : State} {a : Addr} (h : s.job.nudgePending = true) (ha : s.job.parking = some a) :
    park .link s = { s with job := { s.job with
      writes := s.writesParked .link, follower := .linkRead, rereadOf := some .link, nudgePending := false }
      }.issue (s.linkRequest a) := by
  rw [park_of_nudged .link h]
  exact reread_link_reads rfl ha

theorem park_record_of_nudged {s : State} {i : Fin 16} {a : Addr} (h : s.job.nudgePending = true)
    (ha : s.job.nextRecord = some a) (hf : s.freeSlot = some i) : park .record s = { s with job := { s.job with
      writes := s.writesParked .record, follower := .recordRead, rereadOf := some .record, nudgePending := false }
      }.issue (recordRequest a) := by
  rw [park_of_nudged .record h]
  exact reread_record_reads rfl hf ha

theorem park_record_of_nudged_full {s : State} (h : s.job.nudgePending = true) (hf : s.freeSlot = none) :
    park .record s = { s with job := { s.job with
      writes := s.writesParked .record, follower := .paused, rereadOf := some .record, nudgePending := false } } := by
  rw [park_of_nudged .record h]
  exact reread_record_pauses rfl hf

/-! ### What a link value makes of the follower (R98) -/

theorem aligned_iff (n : Nat) (a : Addr) : aligned n a = true ↔ a.toNat % n = 0 := beq_iff_eq

section
variable {place v p : Addr} {s : State}

theorem followLink_reads {i : Fin 16} (hv : v ≠ 0) (ha : aligned 128 v = true) (hf : s.freeSlot = some i) :
    followLink place v s = { s with job := { s.job with
      nextRecord := some v, follower := .recordRead, nudgePending := false } }.issue (recordRequest v) := by
  rw [followLink_aligned place v s hv ha]
  exact readOrPause_reads hf rfl

theorem followLink_pauses (hv : v ≠ 0) (ha : aligned 128 v = true) (hf : s.freeSlot = none) :
    followLink place v s = { s with job := { s.job with nextRecord := some v, follower := .paused } } := by
  rw [followLink_aligned place v s hv ha]
  exact readOrPause_full _ hf

/-- Following a link that halts nothing leaves the parking place and the re-read timer as they are. -/
theorem followLink_parking_timer (ha : aligned 128 v = true) (hp : s.job.parking = some p) :
    (followLink place v s).job.parking = some p ∧ (followLink place v s).job.timer = s.job.timer := by
  by_cases hv : v = 0
  · subst hv
    rw [followLink_zero]
    cases hn : s.job.nudgePending with
    | false => rw [park_of_quiet .link hn]; exact ⟨hp, rfl⟩
    | true => rw [park_link_of_nudged hn hp]; exact ⟨hp, rfl⟩
  · cases hf : s.freeSlot with
    | none => rw [followLink_pauses hv ha hf]; exact ⟨hp, rfl⟩
    | some i => rw [followLink_reads hv ha hf]; exact ⟨hp, rfl⟩

end

/-! ### A link read has returned (R98, R107) -/

section
variable {v p : Addr} {s : State} (ha : s.active = true) (hs : s.serving .linkRead = true)
include ha hs

theorem exec_linkReadDone : exec (.linkReadDone v) s = .next (linkReturned v s.served) :=
  congrArg _ (whenServed_of_serving ha hs _)

theorem exec_linkReadDone_waited (hr : s.ctl.part = .running) (hf : s.job.follower = .linkRead)
    (hp : s.job.parking = some p) : exec (.linkReadDone v) s = .next (drain (followLink p v s.served)) := by
  have running : s.served.running = true := (State.running_iff_part ha).mpr hr
  rw [exec_linkReadDone ha hs]
  simp only [linkReturned, running, State.served_job, hf, hp]

theorem exec_linkReadDone_dropped (h : s.job.follower ≠ .linkRead ∨ s.ctl.part = .stopping) :
    exec (.linkReadDone v) s = .next (drain s.served) := by
  rw [exec_linkReadDone ha hs]
  unfold linkReturned
  split
  · next hr hf _ => exact absurd ⟨hr, hf⟩ (State.not_waiting h)
  · rfl

end

/-- Settles O20: parking, halting, reading and pausing, each by what `followLink` makes of the value. -/
theorem linkReadTaken : Obligations.LinkReadTaken := by
  intro v p s ha hs
  refine ⟨exec_linkReadDone_dropped ha hs, ?_⟩
  intro hr hf hp listed
  have taken := exec_linkReadDone_waited (v := v) ha hs hr hf hp
  have kept (h : s.job.rereadOf = some .link) : s.served.writesParked .link = s.job.writes :=
    State.writesParked_of_reread h
  have lists (h : s.job.rereadOf ≠ some .link) : s.served.writesParked .link = listed :=
    State.writesParked_of_parking h hp
  refine ⟨fun h0 hm => ?misaligned, fun hm => ?aligned⟩
  case misaligned =>
    have hal : aligned 128 v = false := by simpa [← aligned_iff] using hm
    rw [taken, followLink_misaligned p v _ h0 hal, haltAlign, drain_enterHalted]
    rfl
  case aligned =>
    have hal := (aligned_iff 128 v).mpr hm
    obtain ⟨slots, tally, -⟩ := followLink_slots p v s.served hal
    obtain ⟨parking, timer⟩ := followLink_parking_timer (s := s.served) (place := p) hal hp
    refine ⟨_, taken, s.served_frame.then (followLink_frame_of_aligned p v _ hal), slots, tally, parking, timer,
      ?quiet, ?nudged, ?reads, ?pauses⟩
    case quiet =>
      rintro rfl hn
      rw [followLink_zero, park_of_quiet (s := s.served) .link hn]
      exact ⟨rfl, rfl, kept, lists⟩
    case nudged =>
      rintro rfl hn
      rw [followLink_zero, park_link_of_nudged (s := s.served) hn hp]
      exact ⟨rfl, rfl, rfl, kept, lists⟩
    case reads =>
      intro i h0 hi
      rw [followLink_reads (s := s.served) h0 hal hi]
      exact ⟨rfl, rfl, rfl, rfl, rfl⟩
    case pauses =>
      intro h0 hi
      rw [followLink_pauses (s := s.served) h0 hal hi]
      exact ⟨rfl, rfl, rfl, rfl⟩

/-! ### What the writes of the write list write (sections 10.2 and 10.3) -/

theorem padTo_of_length_le {n : Nat} {b : List Byte} (h : b.length ≤ n) :
    padTo n b = b ++ List.replicate (n - b.length) 0 := by
  induction b generalizing n with
  | nil =>
    induction n with
    | zero => rfl
    | succ n ih => rw [padTo, ih (Nat.zero_le n)]; rfl
  | cons x b ih =>
    cases n with
    | zero => cases h
    | succ n =>
      rw [padTo, ih (Nat.le_of_succ_le_succ h), List.length_cons, Nat.add_sub_add_right]
      rfl

theorem ofNat_byte_div (v : Word) (k : Nat) : BitVec.ofNat 8 (v.toNat / 2 ^ k) = (v >>> k).setWidth 8 := by
  apply BitVec.eq_of_toNat_eq
  rw [BitVec.toNat_ofNat, BitVec.toNat_setWidth, BitVec.toNat_ushiftRight, Nat.shiftRight_eq_div_pow]

/-- The four bytes of a word, least significant first (R183). -/
theorem leBytes_word (v : Word) : leBytes 4 v.toNat =
    [v.setWidth 8, (v >>> 8).setWidth 8, (v >>> 16).setWidth 8, (v >>> 24).setWidth 8] := by
  have byte0 : BitVec.ofNat 8 v.toNat = v.setWidth 8 := rfl
  simp only [← ofNat_byte_div, leBytes, Nat.div_div_eq_div_mul, byte0, Nat.reducePow, Nat.reduceMul]

theorem jobRequest_result {s : State} {i : Fin 16} {j : Job} {e : JobEnd} {t : Word} (hj : s.slot i = some j)
    (hr : j.result = some (e, t)) : s.jobRequest (.result i) =
      some (writeRequest .jobUnit .resultWrite .job (j.address + 0x48) (resultBytes e t)) := by
  simp only [State.jobRequest, hj, hr]

theorem jobRequest_state {s : State} {i : Fin 16} {j : Job} (hj : s.slot i = some j) : s.jobRequest (.state i) =
    some (writeRequest .jobUnit .stateWrite .job j.address [3, 0, 0, 0]) := by
  simp only [State.jobRequest, hj]
  rfl

theorem resultBytes_of_length_le {e : JobEnd} (t : Word) (h : e.payload.length ≤ 32) : resultBytes e t =
    [e.result.code, BitVec.ofNat 8 e.attempts, e.status, BitVec.ofNat 8 e.payload.length] ++ leBytes 4 t.toNat ++
      e.payload ++ List.replicate (32 - e.payload.length) 0 := by
  rw [resultBytes, padTo_of_length_le h, List.append_assoc _ e.payload]

/-! ### The end of a tally write (R113) -/

theorem signalJobs_job (j : Job) (s : State) : (signalJobs j s).job = s.job := by
  unfold signalJobs
  split <;> rfl

theorem signalJobs_hzint (j : Job) (s : State) : (signalJobs j s).ctl.hzint =
    if j.flags.getLsbD 0 then s.ctl.hzint ||| 0b00001 else s.ctl.hzint := by
  unfold signalJobs Job.signal
  split <;> rfl

/-- The slot of a job is FREE and JOBS is set for SIGNAL, the follower not yet told. -/
def State.slotFreed (s : State) (i : Fin 16) (j : Job) : State := (signalJobs j s).setSlot i none

theorem freeTheSlot_of_slot {s : State} {i : Fin 16} {j : Job} (hj : s.slot i = some j) :
    freeTheSlot i s = resumeFollower j.address (s.slotFreed i j) := by
  simp only [freeTheSlot, hj, State.slotFreed]

section
variable (s : State) (i : Fin 16) (j : Job)

theorem State.slotFreed_job : (s.slotFreed i j).job = { s.job with slots := s.job.slots.set i.val none } := by
  simp only [State.slotFreed, State.setSlot, signalJobs_job]

theorem State.slotFreed_port : (s.slotFreed i j).port = s.port := (signalJobs_frame j s).same .port

theorem State.slotFreed_slot (k : Fin 16) : (s.slotFreed i j).slot k = if i = k then none else s.slot k := by
  rw [State.slotFreed, State.slot_setSlot, State.slot_congr (congrArg JobUnit.slots (signalJobs_job j s))]

end

section
variable {s : State} {i : Fin 16} {a b : Addr}

/-- A follower that waits for the freed slot or the freed record reads the next record a. -/
theorem resumeFollower_reads (hi : s.slot i = none) (hn : s.job.nextRecord = some a)
    (h : s.job.follower = .paused ∨ s.job.follower = .parkedRecord ∧ a = b) :
    (resumeFollower b s).job.follower = .recordRead ∧
      (resumeFollower b s).port.waiting.follower = some (recordRequest a) := by
  obtain ⟨k, free⟩ := State.freeSlot_isSome hi
  rcases h with paused | ⟨parked, rfl⟩
  · rw [resumeFollower, if_pos paused, readRecord_eq s a hn]
    exact ⟨rfl, rfl⟩
  · have notPaused : s.job.follower ≠ .paused := by rw [parked]; decide
    rw [resumeFollower, if_neg notPaused, if_pos ⟨parked, hn⟩, reread_record_reads parked free hn]
    exact ⟨rfl, rfl⟩

theorem resumeFollower_of_other (hp : s.job.follower ≠ .paused)
    (hr : ¬ (s.job.follower = .parkedRecord ∧ s.job.nextRecord = some b)) : resumeFollower b s = s := by
  rw [resumeFollower, if_neg hp, if_neg hr]

end

theorem exec_tallyWriteDone {s : State} {i : Fin 16} {v : Word} {rest : List JobWrite} (ha : s.active = true)
    (hs : s.serving .tallyWrite = true) (hw : s.job.writes = .tally i v :: rest) :
    exec .tallyWriteDone s = .next (drain (freeTheSlot i (popWrite s.served))) := by
  have written : tallyWritten s.served = drain (freeTheSlot i (popWrite s.served)) := by
    simp only [tallyWritten, State.served_job, hw]
  rw [← written]
  exact congrArg _ (whenServed_of_serving ha hs _)

/-- Settles O15: the bytes of each write, the four that only leave the list, and the freeing of a slot. -/
theorem listedWritesDone : Obligations.ListedWritesDone := by
  refine ⟨fun s a => rfl, fun s i j r t hj => ⟨jobRequest_state hj, fun hr hl => ?result⟩, rfl, leBytes_word,
    fun s i v a => ⟨rfl, rfl⟩, ?ends⟩
  case result => rw [jobRequest_result hj hr, resultBytes_of_length_le t hl]
  intro s ha popped
  refine ⟨?taken, ?results, ?state, ?parking, ?tally⟩
  case taken => exact fun hs => congrArg _ (whenServed_of_serving ha hs _)
  case results => exact fun hs => congrArg _ (whenServed_of_serving ha hs _)
  case state => exact fun hs => congrArg _ (whenServed_of_serving ha hs _)
  case parking => exact fun hs => congrArg _ (whenServed_of_serving ha hs _)
  case tally =>
    intro i v rest j hs hw hj
    have freed : freeTheSlot i (popWrite s.served) = resumeFollower j.address ((popWrite s.served).slotFreed i j) :=
      freeTheSlot_of_slot hj
    have job := (popWrite s.served).slotFreed_job i j
    have port : ((popWrite s.served).slotFreed i j).port = s.served.port := State.slotFreed_port ..
    have hzint : ((popWrite s.served).slotFreed i j).ctl.hzint =
        if j.flags.getLsbD 0 then s.ctl.hzint ||| 0b00001 else s.ctl.hzint := signalJobs_hzint ..
    have slot (k : Fin 16) : ((popWrite s.served).slotFreed i j).slot k = if i = k then none else s.slot k :=
      State.slotFreed_slot ..
    have frame : Frame [.slots, .causes, .chain, .port] s (freeTheSlot i (popWrite s.served)) :=
      ((s.served_frame.then (l := [.slots, .port]) (popWrite_frame _)).then (freeTheSlot_frame ..))
    refine ⟨_, exec_tallyWriteDone ha hs hw, frame, ?_⟩
    rw [freed]
    generalize (popWrite s.served).slotFreed i j = t at *
    have resumed := resumeFollower_frame j.address t
    obtain ⟨slots, tally, writes⟩ := resumed.same .slots
    refine ⟨?_, fun k hk => ?_, ?_, ?_, ?_, fun a hn hf => ?reads, fun hp hr => ?stays⟩
    · rw [State.slot_congr slots, slot, if_pos rfl]
    · rw [State.slot_congr slots, slot, if_neg hk.symm]
    · rw [writes, job]
      simp [popWrite, hw]
    · rw [tally, job]
      rfl
    · exact Eq.trans (resumed.same .causes) hzint
    case reads =>
      exact resumeFollower_reads ((slot i).trans (if_pos rfl)) (by rw [job]; exact hn) (by rw [job]; exact hf)
    case stays =>
      rw [resumeFollower_of_other (by rw [job]; exact hp) (by rw [job]; exact hr), job, port]
      exact ⟨rfl, rfl⟩

/-! ### An end of the re-read interval (R103, R161) -/

theorem wantRead_ntc (s : State) : (wantRead s).ntc = { s.ntc with
    readWanted := s.ntc.readWanted || (!s.ntc.readInFlight && !s.ntc.closing) } := by
  unfold wantRead
  split
  · next busy =>
    have wantsNone : (!s.ntc.readInFlight && !s.ntc.closing) = false := by
      rw [← Bool.not_or, busy]
      rfl
    rw [wantsNone, Bool.or_false]
  · next free =>
    have wants : (!s.ntc.readInFlight && !s.ntc.closing) = true := by
      rw [← Bool.not_or, Bool.eq_false_iff.mpr free]
      rfl
    rw [wants, Bool.or_true]

/-- The re-read timer that ended at t has started again, one interval later. -/
def State.timerRestarted (s : State) (t : Word) : State :=
  { s with job := { s.job with timer := some (t + s.job.interval) } }

theorem State.timerRestarted_frame (s : State) (t : Word) : Frame [.chain] s (s.timerRestarted t) where
  keeps p hp := by
    cases p
    case chain => exact absurd (by decide) hp
    all_goals simp [Piece.Same, State.timerRestarted]

theorem rereadIfParked_of_parked {s : State} (h : s.job.follower = .parkedLink ∨ s.job.follower = .parkedRecord) :
    rereadIfParked s = reread s := by
  unfold rereadIfParked
  rcases h with h | h <;> rw [h]

theorem rereadIfParked_of_other {s : State} (hl : s.job.follower ≠ .parkedLink)
    (hr : s.job.follower ≠ .parkedRecord) : rereadIfParked s = s := by
  unfold rereadIfParked
  split
  · next h => exact absurd h hl
  · next h => exact absurd h hr
  · rfl

theorem rereadIfParked_frame (s : State) : Frame [.chain, .port] s (rereadIfParked s) := by
  unfold rereadIfParked
  split
  · exact reread_frame s
  · exact reread_frame s
  · exact Frame.refl ..

theorem rereadIfParked_timer (s : State) : (rereadIfParked s).job.timer = s.job.timer := by
  have reread : (reread s).job.timer = s.job.timer := by
    unfold Machine.reread readOrPause readLink readRecord
    repeat' split
    all_goals rfl
  unfold rereadIfParked
  split
  · exact reread
  · exact reread
  · rfl

theorem exec_reReadTimerEnd {s : State} {t : Word} (ha : s.active = true) (ht : s.job.timer = some t) :
    exec .reReadTimerEnd s = .next (if (s.tb.now - t).toNat < 2 ^ 31 then
      drain (wantRead (rereadIfParked (s.timerRestarted t))) else s) := by
  simp only [exec, execReReadTimerEnd, timerEnded, ha, ht, reached, decide_eq_true_eq, State.timerRestarted]

/-- Settles O32: the timer starts again, the follower re-reads by its state, and the Notice Writer wants a read. -/
theorem reReadTimerEnds : Obligations.ReReadTimerEnds := by
  intro t s ha ht
  refine ⟨fun early => ?early, fun due => ?due⟩
  case early => rw [exec_reReadTimerEnd ha ht, if_neg (Nat.not_lt.mpr early)]
  case due =>
    have reread := rereadIfParked_frame (s.timerRestarted t)
    have frame : Frame [.chain, .port, .ntc] s (rereadIfParked (s.timerRestarted t)) :=
      (s.timerRestarted_frame t).then reread
    have wants := wantRead_frame (rereadIfParked (s.timerRestarted t))
    refine ⟨_, by rw [exec_reReadTimerEnd ha ht, if_pos due], frame.trans (wants.mono (by decide)), ?_⟩
    rw [wants.job, wants.same .port, wantRead_ntc, reread.same .ntc]
    refine ⟨?timer, rfl, fun p hl hp => ?link, fun a i hr hn hi => ?record, fun hr hi => ?full, fun hl hr => ?other⟩
    case timer => exact rereadIfParked_timer _
    case link =>
      rw [rereadIfParked_of_parked (s := s.timerRestarted t) (.inl hl),
        reread_link_reads (s := s.timerRestarted t) hl hp]
      exact ⟨rfl, rfl⟩
    case record =>
      rw [rereadIfParked_of_parked (s := s.timerRestarted t) (.inr hr),
        reread_record_reads (s := s.timerRestarted t) hr hi hn]
      exact ⟨rfl, rfl⟩
    case full =>
      rw [rereadIfParked_of_parked (s := s.timerRestarted t) (.inr hr),
        reread_record_pauses (s := s.timerRestarted t) hr hi]
      exact ⟨rfl, rfl⟩
    case other =>
      rw [rereadIfParked_of_other (s := s.timerRestarted t) hl hr]
      exact ⟨rfl, rfl⟩

end Sys2Proof.Machine
end

section
/-! PROOFS. The job records: how a record that has returned is judged, and what the taking of one does. -/

set_option Elab.async false

namespace Sys2Proof.Machine

/-! ### The codes of the kinds (section 10.3) -/

theorem JobKind.ofCode_code (k : JobKind) : JobKind.ofCode k.code = some k := by cases k <;> rfl

theorem JobKind.ofCode_of_unknown {c : Byte} (h : 11 < c.toNat ∨ c = 0) : JobKind.ofCode c = none := by
  have range : 11 < c.toNat ∨ c.toNat = 0 := h.imp_right (congrArg BitVec.toNat)
  unfold JobKind.ofCode
  split
  case h_12 => rfl
  all_goals omega

/-! ### A record read has returned (R100, R107) -/

/-- The record that a job row carries: POSTED, of this kind, with these fields (log 3). -/
def JobKind.posted (k : JobKind) (f : JobFields) : JobRecord :=
  { stateWord := postedWord, kind := k.code, fields := f }

/-- No slot holds a LINE STATUS that is still to be carried out when none is VALIDATING. -/
theorem State.lineStatusToDo_eq_none {s : State} (h : ∀ i j, s.slot i = some j → j.state ≠ .validating)
    (f : JobFields) : s.lineStatusToDo f = none := by
  refine List.find?_eq_none.mpr fun i _ => ?_
  unfold State.slotIs
  split
  · next j hj => simp [h i j hj]
  · exact Bool.false_ne_true

/-- A job row is the return of its record, but for a LINE STATUS that a slot holds when the part is not RUNNING
(log 3, log 33). -/
theorem exec_command (k : JobKind) (f : JobFields) {s : State}
    (h : s.running = true ∨ k ≠ .lineStatus ∨ ∀ i j, s.slot i = some j → j.state ≠ .validating) :
    exec (k.command f) s = .next (recordReturned (k.posted f) s) := by
  cases k
  case lineStatus =>
    have returned : lineStatusTaken f s = recordReturned (JobKind.lineStatus.posted f) s := by
      unfold lineStatusTaken
      rcases h with running | other | idle
      · rw [running, Bool.not_true, Bool.and_false]
        rfl
      · exact absurd rfl other
      · rw [State.lineStatusToDo_eq_none idle]
        split
        · next h => cases h
        · rfl
    exact congrArg _ returned
  all_goals rfl

section
variable {s : State} {r : JobRecord} {a : Addr} (ha : s.active = true) (hs : s.serving .recordRead = true)
include ha hs

theorem recordReturned_dropped (h : s.job.follower ≠ .recordRead ∨ s.ctl.part = .stopping) :
    recordReturned r s = settle s.served := by
  simp only [recordReturned, ha, hs, Bool.and_self, if_true]
  split
  · next hr hf _ => exact absurd ⟨hr, hf⟩ (State.not_waiting h)
  · rfl

theorem recordReturned_judged (hr : s.ctl.part = .running) (hf : s.job.follower = .recordRead)
    (hn : s.job.nextRecord = some a) : recordReturned r s = settle (judgeRecord a r s.served) := by
  have running : s.served.running = true := (State.running_iff_part ha).mpr hr
  simp only [recordReturned, ha, hs, Bool.and_self, if_true, running, State.served_job, hf, hn]

end

/-! ### The judging of a record (R99, R100) -/

section
variable {a : Addr} {r : JobRecord} {s : State}

theorem judgeRecord_parks
    (h : r.stateWord ≠ 1 ∨ s.holdsRecord a = true ∧ aligned 128 r.fields.link = true) :
    judgeRecord a r s = park .record s := by
  unfold judgeRecord
  rcases h with notPosted | ⟨held, link⟩
  · exact if_neg notPosted
  · rw [link, held]
    exact ite_self _

theorem judgeRecord_halts (hp : r.stateWord = 1) (hl : aligned 128 r.fields.link = false) :
    judgeRecord a r s = haltAlign (linkField a) s := by
  rw [judgeRecord, hl]
  exact if_pos hp

end

/-! ### The taking of a record (R101) -/

/-- The record r at a has been taken into slot i and the follower has gone on by its link; the job is not yet
validated. -/
def State.recordTaken (s : State) (i : Fin 16) (a : Addr) (r : JobRecord) : State :=
  followLink (linkField a) r.fields.link (claimSlot i a r s)

theorem judgeRecord_takes {a : Addr} {r : JobRecord} {s : State} {i : Fin 16} (hp : r.stateWord = 1)
    (hl : aligned 128 r.fields.link = true) (hh : s.holdsRecord a = false) (hf : s.freeSlot = some i) :
    judgeRecord a r s = dispatchJob i (s.recordTaken i a r) := by
  simp only [judgeRecord, hl, hh, takeRecord, hf]
  exact if_pos hp

theorem claimSlot_slot (i k : Fin 16) (a : Addr) (r : JobRecord) (s : State) : (claimSlot i a r s).slot k =
    if i = k then some (jobOf a (s.job.takingCount + 1) r) else s.slot k :=
  State.slot_setSlot ..

/-- A parking write takes no other write off the list (R102, R114). -/
theorem mem_parkedWrites {w : JobWrite} {ws : List JobWrite} (issued : Bool) (a : Addr) (hm : w ∈ ws)
    (hw : w.isParking = false) : w ∈ parkedWrites issued a ws := by
  unfold parkedWrites
  split
  · rcases List.mem_cons.mp hm with rfl | later <;> simp [*]
  · simp [hm, hw]

section
variable {i : Fin 16} {a : Addr} {r : JobRecord} {s : State}

theorem claimSlot_writesParked :
    (claimSlot i a r s).writesParked .link =
      parkedWrites (s.port.busyFor .jobUnit) (linkField a) (s.job.writes ++ [.taken a]) :=
  State.writesParked_of_parking (s := claimSlot i a r s) nofun rfl

/-- The other slots in use decide whether the follower reads on. -/
theorem claimSlot_freeSlot_of_full (h : ∀ m, m ≠ i → s.slot m ≠ none) : (claimSlot i a r s).freeSlot = none := by
  refine State.freeSlot_eq_none fun m => ?_
  rw [claimSlot_slot]
  split
  · exact Option.some_ne_none _
  · next other => exact h m (Ne.symm other)

theorem claimSlot_freeSlot_of_free {m : Fin 16} (hm : m ≠ i) (h : s.slot m = none) :
    ∃ k, (claimSlot i a r s).freeSlot = some k :=
  State.freeSlot_isSome ((claimSlot_slot ..).trans ((if_neg hm.symm).trans h))

theorem recordTaken_parks (h0 : r.fields.link = 0) (hn : s.job.nudgePending = false) :
    (s.recordTaken i a r).job.follower = .parkedLink ∧ (s.recordTaken i a r).job.nextRecord = none ∧
      (s.recordTaken i a r).job.writes =
        parkedWrites (s.port.busyFor .jobUnit) (linkField a) (s.job.writes ++ [.taken a]) := by
  rw [State.recordTaken, h0, followLink_zero, park_of_quiet (s := claimSlot i a r s) .link hn]
  exact ⟨rfl, rfl, claimSlot_writesParked⟩

theorem recordTaken_rereads (h0 : r.fields.link = 0) (hn : s.job.nudgePending = true) :
    (s.recordTaken i a r).job.follower = .linkRead ∧ (s.recordTaken i a r).job.nudgePending = false ∧
      (s.recordTaken i a r).job.nextRecord = none ∧
      (s.recordTaken i a r).job.writes =
        parkedWrites (s.port.busyFor .jobUnit) (linkField a) (s.job.writes ++ [.taken a]) ∧
      (s.recordTaken i a r).port.waiting.follower = some (s.linkRequest (linkField a)) := by
  rw [State.recordTaken, h0, followLink_zero, park_link_of_nudged (s := claimSlot i a r s) hn rfl]
  exact ⟨rfl, rfl, rfl, claimSlot_writesParked, rfl⟩

variable (hl : aligned 128 r.fields.link = true)
include hl

theorem recordTaken_reads {m : Fin 16} (h0 : r.fields.link ≠ 0) (hm : m ≠ i) (h : s.slot m = none) :
    (s.recordTaken i a r).job.follower = .recordRead ∧
      (s.recordTaken i a r).job.nextRecord = some r.fields.link ∧
      (s.recordTaken i a r).job.writes = s.job.writes ++ [.taken a] ∧
      (s.recordTaken i a r).port.waiting.follower = some (recordRequest r.fields.link) := by
  obtain ⟨k, free⟩ := claimSlot_freeSlot_of_free (a := a) (r := r) hm h
  rw [State.recordTaken, followLink_reads h0 hl free]
  exact ⟨rfl, rfl, rfl, rfl⟩

theorem recordTaken_pauses (h0 : r.fields.link ≠ 0) (h : ∀ m, m ≠ i → s.slot m ≠ none) :
    (s.recordTaken i a r).job.follower = .paused ∧
      (s.recordTaken i a r).job.nextRecord = some r.fields.link ∧
      (s.recordTaken i a r).job.writes = s.job.writes ++ [.taken a] := by
  rw [State.recordTaken, followLink_pauses h0 hl (claimSlot_freeSlot_of_full h)]
  exact ⟨rfl, rfl, rfl⟩

/-- Whatever the follower does, the TAKEN write stands on the list. -/
theorem recordTaken_lists_taken : JobWrite.taken a ∈ (s.recordTaken i a r).job.writes := by
  have listed : JobWrite.taken a ∈ s.job.writes ++ [.taken a] := List.mem_append_right _ (List.mem_singleton.mpr rfl)
  by_cases h0 : r.fields.link = 0
  · cases hn : s.job.nudgePending with
    | false =>
      obtain ⟨-, -, writes⟩ := recordTaken_parks (i := i) (a := a) h0 hn
      exact writes ▸ mem_parkedWrites _ _ listed rfl
    | true =>
      obtain ⟨-, -, -, writes, -⟩ := recordTaken_rereads (i := i) (a := a) h0 hn
      exact writes ▸ mem_parkedWrites _ _ listed rfl
  · by_cases free : ∃ m, m ≠ i ∧ s.slot m = none
    · obtain ⟨m, hm, free⟩ := free
      obtain ⟨-, -, writes, -⟩ := recordTaken_reads (a := a) hl h0 hm free
      exact writes ▸ listed
    · have full (m : Fin 16) (hm : m ≠ i) : s.slot m ≠ none := fun h => free ⟨m, hm, h⟩
      obtain ⟨-, -, writes⟩ := recordTaken_pauses (a := a) hl h0 full
      exact writes ▸ listed

theorem recordTaken_frame : Frame [.chain, .slots, .port] s (s.recordTaken i a r) :=
  (claimSlot_frame i a r s).then (followLink_frame_of_aligned _ _ _ hl)

theorem recordTaken_slot (k : Fin 16) : (s.recordTaken i a r).slot k =
    if i = k then some (jobOf a (s.job.takingCount + 1) r) else s.slot k := by
  obtain ⟨slots, -, -⟩ := followLink_slots (linkField a) r.fields.link (claimSlot i a r s) hl
  exact (State.slot_congr slots k).trans (claimSlot_slot ..)

/-- The taking count, the done tally and the parking place. -/
theorem recordTaken_counts : (s.recordTaken i a r).job.takingCount = s.job.takingCount + 1 ∧
    (s.recordTaken i a r).job.doneTally = s.job.doneTally ∧
    (s.recordTaken i a r).job.parking = some (linkField a) := by
  obtain ⟨-, tally, count⟩ := followLink_slots (linkField a) r.fields.link (claimSlot i a r s) hl
  obtain ⟨parking, -⟩ := followLink_parking_timer (place := linkField a) (s := claimSlot i a r s) hl rfl
  exact ⟨count, tally, parking⟩

/-- A taken job that completes at once without being sent. -/
theorem finish_recordTaken (x : JobResult) :
    Frame [.chain, .slots, .port] s (finish i x (s.recordTaken i a r)) ∧
      (finish i x (s.recordTaken i a r)).completedWith i (jobOf a (s.job.takingCount + 1) r) ⟨x, 0, 0, []⟩ ∧
      s.OthersKept (finish i x (s.recordTaken i a r)) i := by
  refine ⟨(recordTaken_frame hl).then (finish_frame ..), ?_, fun k hk => ?_⟩
  · exact completeJob_completedWith i (.plain x) _ _ ((recordTaken_slot hl i).trans (if_pos rfl)) nofun
  · have kept : s.SlotKept (s.recordTaken i a r) k :=
      .of_eq ((recordTaken_slot hl k).trans (if_neg hk.symm))
    have time : (s.recordTaken i a r).tb = s.tb := (recordTaken_frame hl).same .tb
    have finished := finish_frame i x (s.recordTaken i a r)
    exact kept.then (completeJob_slotKept i k _ _ hk) time (Eq.trans (finished.same .tb) time)

end

/-! ### The common checks (R118) -/

section
variable {i : Fin 16} {j : Job} {s : State} (hj : s.slot i = some j)
include hj

theorem dispatchJob_of_unknown_kind (hk : j.kindOf = none) : dispatchJob i s = finish i .badJob s := by
  simp only [dispatchJob, hj, hk]

variable {k : JobKind} (hk : j.kindOf = some k)
include hk

theorem dispatchJob_of_overlong (hl : 32 < j.payloadLength.toNat) : dispatchJob i s = finish i .badJob s := by
  simp only [dispatchJob, hj, hk, if_pos hl]

theorem dispatchJob_of_no_entry (ht : targetEntry j.target = none)
    (h : k = .enlist ∨ k = .delist ∨ k = .hold ∨ k = .release ∨ k = .retune ∨ k = .order) :
    dispatchJob i s = finish i .badJob s := by
  simp only [dispatchJob, hj, hk]
  rcases h with rfl | rfl | rfl | rfl | rfl | rfl
  · simp only [jobEnlist, ht, ite_self]
  · simp only [jobDelist, ht, ite_self]
  · simp only [jobHold, ht, ite_self]
  · simp only [jobRelease, ht, ite_self]
  · simp only [jobRetune, ht, ite_self]
  · simp only [jobOrder, ht, ite_self]

theorem dispatchJob_of_no_line (ht : targetLine j.target = none)
    (h : k = .setupLine ∨ k = .lineStatus ∨ k = .broadcast) : dispatchJob i s = finish i .badJob s := by
  simp only [dispatchJob, hj, hk]
  rcases h with rfl | rfl | rfl
  · simp only [jobSetupLine, ht, ite_self]
  · simp only [jobLineStatus, ht, ite_self]
  · simp only [jobBroadcast, ht, ite_self]

end

/-! ### A job row takes the record it carries (R101, R119, log 3) -/

section
variable {s : State} {i : Fin 16} {a : Addr} (w : s.AwaitsRecord i a)
include w

theorem State.AwaitsRecord.recordReturned {r : JobRecord} (hp : r.stateWord = 1)
    (hl : aligned 128 r.fields.link = true) :
    recordReturned r s = settle (dispatchJob i (s.served.recordTaken i a r)) := by
  have active := State.active_of_running w.running
  have part := (State.running_iff_part active).mp w.running
  rw [recordReturned_judged active w.serving part w.follower w.next,
    judgeRecord_takes (s := s.served) hp hl w.notHeld w.free]

theorem State.AwaitsRecord.exec_command (k : JobKind) {f : JobFields} (hl : aligned 128 f.link = true) :
    exec (k.command f) s = .next (settle (dispatchJob i (s.takenState i a k f))) := by
  rw [Machine.exec_command k f (.inl w.running), w.recordReturned (r := k.posted f) rfl hl]
  rfl

/-- A taken job whose validation ends it at once with x. -/
theorem State.AwaitsRecord.endsAtOnce {k : JobKind} {f : JobFields} {x : JobResult} (hl : aligned 128 f.link = true)
    (hd : dispatchJob i (s.takenState i a k f) = finish i x (s.takenState i a k f)) :
    s.EndsAtOnce (k.command f) i (s.takenJob a k f) x := by
  obtain ⟨frame, completed, others⟩ :=
    finish_recordTaken (s := s.served) (i := i) (a := a) (r := k.posted f) hl x
  exact ⟨_, (w.exec_command k hl).trans (by rw [hd]; rfl), s.served_frame.then frame, completed, others⟩

end

/-! ### The obligations on records -/

/-- Settles O21: layout and codes, the results that nothing waits for, and the judgement case by case. -/
theorem recordReadJudged : Obligations.RecordReadJudged := by
  refine ⟨fun b => rfl, rfl, ?_⟩
  intro data a s ha hs r listed
  refine ⟨fun h => ?dropped, fun k f hst h => ?droppedRow, fun hr hf hn => ?judged⟩
  case dropped => exact congrArg _ (recordReturned_dropped ha hs h)
  case droppedRow => rw [exec_command k f (.inr h), recordReturned_dropped ha hs (.inr hst)]
  case judged =>
    have judged : exec (.recordReadDone data) s = .next (settle (judgeRecord a r s.served)) :=
      congrArg _ (recordReturned_judged ha hs hr hf hn)
    have kept (h : s.job.rereadOf = some .record) : s.served.writesParked .record = s.job.writes :=
      State.writesParked_of_reread h
    have lists (p : Addr) (h : s.job.rereadOf ≠ some .record) (hp : s.job.parking = some p) :
        s.served.writesParked .record = listed p := State.writesParked_of_parking h hp
    have parks (h : r.stateWord ≠ 1 ∨ s.holdsRecord a = true ∧ r.fields.link.toNat % 128 = 0) :
        exec (.recordReadDone data) s = .next (settle (park .record s.served)) := by
      rw [judged, judgeRecord_parks (s := s.served) (by rwa [aligned_iff])]
    have frame : Frame [.chain, .slots, .port] s (park .record s.served) := s.served_frame.then (park_frame ..)
    refine ⟨fun hp hq => ⟨_, parks hp, frame, ?quiet⟩, fun hp hq => ⟨_, parks hp, frame, ?nudged⟩,
      fun hp hm => ?misaligned, fun k hp hk => ?known, fun i hp hk w hm => ?unknown⟩
    case quiet =>
      rw [park_of_quiet (s := s.served) .record hq]
      exact ⟨rfl, hn, rfl, rfl, kept, lists⟩
    case nudged =>
      cases hfree : s.freeSlot with
      | some i =>
        rw [park_record_of_nudged (s := s.served) hq hn hfree]
        exact ⟨rfl, hn, rfl, kept, lists, fun _ _ => ⟨rfl, rfl⟩, nofun⟩
      | none =>
        rw [park_record_of_nudged_full (s := s.served) hq hfree]
        exact ⟨rfl, hn, rfl, kept, lists, nofun, fun _ => ⟨rfl, rfl⟩⟩
    case misaligned =>
      have hal : aligned 128 r.fields.link = false := by simpa [← aligned_iff] using hm
      rw [judged, judgeRecord_halts hp hal, haltAlign, settle_enterHalted]
      rfl
    case known =>
      have posted : k.posted r.fields = r := by rw [JobKind.posted, ← hk, postedWord, ← hp]
      rw [exec_command k r.fields (.inl ((State.running_iff_part ha).mpr hr)), posted]
      rfl
    case unknown =>
      have hal := (aligned_iff 128 r.fields.link).mpr hm
      obtain ⟨taken, completed, -⟩ := finish_recordTaken (s := s.served) (i := i) (a := a) hal .badJob
      have bad := dispatchJob_of_unknown_kind ((recordTaken_slot (s := s.served) (i := i) (a := a) hal i).trans
        (if_pos rfl)) (JobKind.ofCode_of_unknown hk)
      have returned : exec (.recordReadDone data) s =
          .next (settle (dispatchJob i (s.served.recordTaken i a r))) := congrArg _ (w.recordReturned hp hal)
      exact ⟨_, _, by rw [returned, bad], rfl, rfl, completed, s.served_frame.then taken⟩

/-- Settles O22: the taking by what the follower makes of the link, and the common checks by what they look at. -/
theorem recordTaken : Obligations.RecordTaken := by
  refine ⟨?taking, ?checks⟩
  case taking =>
    intro k f i a s w hm u listed
    have hl := (aligned_iff 128 f.link).mpr hm
    have slot (m : Fin 16) : u.slot m = if i = m then some (s.takenJob a k f) else s.slot m :=
      recordTaken_slot (s := s.served) (r := k.posted f) hl m
    obtain ⟨count, tally, parking⟩ := recordTaken_counts (s := s.served) (i := i) (a := a) (r := k.posted f) hl
    refine ⟨w.exec_command k hl, s.served_frame.then (recordTaken_frame (r := k.posted f) hl),
      (slot i).trans (if_pos rfl), fun m hm => (slot m).trans (if_neg hm.symm), count, parking, tally,
      recordTaken_lists_taken (s := s.served) (r := k.posted f) hl, fun h0 hn => ?parks, fun h0 hn => ?rereads,
      fun h0 hm => ?reads, fun h0 hm => ?pauses⟩
    case parks => exact recordTaken_parks (s := s.served) (r := k.posted f) h0 hn
    case rereads => exact recordTaken_rereads (s := s.served) (r := k.posted f) h0 hn
    case reads =>
      obtain ⟨m, hm, free⟩ := hm
      exact recordTaken_reads (s := s.served) (r := k.posted f) hl h0 hm free
    case pauses => exact recordTaken_pauses (s := s.served) (r := k.posted f) hl h0 hm
  case checks =>
    intro k f i a s w hm bad
    have hl := (aligned_iff 128 f.link).mpr hm
    have slot : (s.takenState i a k f).slot i = some (s.takenJob a k f) :=
      (recordTaken_slot (s := s.served) (r := k.posted f) hl i).trans (if_pos rfl)
    have kind : (s.takenJob a k f).kindOf = some k := k.ofCode_code
    apply w.endsAtOnce hl
    rcases bad with long | ⟨hk, noEntry⟩ | ⟨hk, noLine⟩
    · exact dispatchJob_of_overlong slot kind long
    · exact dispatchJob_of_no_entry slot kind (dif_neg (Nat.not_lt.mpr noEntry)) hk
    · exact dispatchJob_of_no_line slot kind (dif_neg (Nat.not_lt.mpr noLine)) hk

end Sys2Proof.Machine
end

section
/-! PROOFS. What completions make of the slots: of their own, of the others, and of the ORDERs of an entry. -/

set_option Elab.async false

namespace Sys2Proof.Machine

/-! ### One completion (R110, R139) -/

section
variable {s u : State} {i k : Fin 16} {j : Job} {r x : JobEnd}

/-- A decided result stands in a slot that is kept. -/
theorem State.completedWith.kept (h : s.completedWith k j r) (kept : s.SlotKept u k) (time : u.tb = s.tb) :
    u.completedWith k j r := by
  obtain ⟨w, hw⟩ := h
  rcases kept.2 _ hw with ⟨w', hw'⟩ | ⟨waiting, -, -⟩
  · exact ⟨w', by rw [hw', time]⟩
  · cases waiting

theorem State.completedWith.not_open (h : s.completedWith k j r) : s.open k = false := by
  obtain ⟨w, hw⟩ := h
  simp [State.open, State.slotIs, hw]

/-- A completion keeps every slot but its own, and its own too where no result is left to decide. -/
theorem completeJob_slotKept_of (h : k ≠ i ∨ s.open i = false) : s.SlotKept (completeJob i x s) k := by
  by_cases other : k = i
  · have decided := h.resolve_left (not_not_intro other)
    obtain ⟨marks, time⟩ := completeMarks_slotKept 16 k (leaveSets i s)
    rw [completeJob, decideJob_of_not_open i x s decided]
    exact (leaveSets_slotKept i k s).then marks rfl time
  · exact completeJob_slotKept i k x s other

/-- A decided result stands in every completion, one of its own slot included. -/
theorem State.completedWith.completeJob (h : s.completedWith k j r) : (completeJob i x s).completedWith k j r := by
  refine h.kept (completeJob_slotKept_of ?_) ((completeJob_frame ..).same .tb)
  by_cases other : k = i
  · exact .inr (other ▸ h.not_open)
  · exact .inl other

/-- A kept slot stays kept in the completion of another. -/
theorem State.SlotKept.completeJob (kept : s.SlotKept u k) (time : u.tb = s.tb) (hk : k ≠ i) :
    s.SlotKept (completeJob i x u) k :=
  kept.then (completeJob_slotKept i k x u hk) time (Eq.trans ((completeJob_frame ..).same .tb) time)

theorem decideJob_slot_other (h : k ≠ i) : (decideJob i x s).slot k = s.slot k := by
  unfold decideJob
  split
  · split
    · rfl
    · exact (State.slot_setSlot ..).trans (if_neg h.symm)
  · rfl

/-- A job without a waiting set stands as it is when another leaves the sets. -/
theorem leaveSets_slot_of_nil (hj : s.slot k = some j) (hw : j.waitSet = []) : (leaveSets i s).slot k = some j := by
  have left : (leaveSets i s).slot k =
      (s.slot k).map (fun j => { j with waitSet := j.waitSet.filter (· != i) }) := by
    simp [leaveSets, State.slot]
  rw [left, hj, Option.map_some, hw, List.filter_nil, ← hw]

/-- A job that neither waits nor has a waiting set stands as it is while MARKs complete. -/
theorem completeMarks_slot_of_idle (f : Nat) (hj : s.slot k = some j) (hw : j.waitSet = [])
    (hs : j.state ≠ .waiting) : (completeMarks f s).slot k = some j := by
  induction f generalizing s with
  | zero => exact hj
  | succ f ih =>
    unfold completeMarks
    split
    · next m hm =>
      have other : k ≠ m := by
        rintro rfl
        have done : s.markDone k = true := (List.mem_filter.mp (s.oldest_mem _ _ hm)).2
        simp [State.markDone, State.slotIs, hj, hs] at done
      exact ih (leaveSets_slot_of_nil ((decideJob_slot_other other).trans hj) hw)
    · exact hj

/-- A job that neither waits nor has a waiting set stands as it is in another's completion. -/
theorem completeJob_slot_of_idle (hk : k ≠ i) (hj : s.slot k = some j) (hw : j.waitSet = [])
    (hs : j.state ≠ .waiting) : (completeJob i x s).slot k = some j :=
  completeMarks_slot_of_idle 16 (leaveSets_slot_of_nil ((decideJob_slot_other hk).trans hj) hw) hw hs

end

/-! ### The job that waits for an entry -/

section
variable {s u : State} {K : JobKind} {n : Fin 64} {i k : Fin 16} {r : JobResult}

theorem State.waitsFor_iff : s.waitsFor K n k = true ↔
    ∃ j, s.slot k = some j ∧ j.state = .waiting ∧ j.kindOf = some K ∧ targetEntry j.target = some n := by
  unfold State.waitsFor State.slotIs
  split <;> simp_all [and_assoc]

theorem State.isOrderFor_iff : s.isOrderFor n k = true ↔
    ∃ j, s.slot k = some j ∧ j.kindOf = some .order ∧ targetEntry j.target = some n := by
  unfold State.isOrderFor State.slotIs
  split <;> simp_all

theorem State.waitsFor_congr (h : u.slot k = s.slot k) : u.waitsFor K n k = s.waitsFor K n k := by
  simp only [State.waitsFor, State.slotIs, h]

theorem State.isOrderFor_congr (h : u.slot k = s.slot k) : u.isOrderFor n k = s.isOrderFor n k := by
  simp only [State.isOrderFor, State.slotIs, h]

theorem State.completedWith.not_waitsFor {j : Job} {x : JobEnd} (h : s.completedWith k j x) :
    s.waitsFor K n k ≠ true := by
  obtain ⟨w, hw⟩ := h
  simp [State.waitsFor, State.slotIs, hw]

/-- A job waits in a kept slot only if it waited before. -/
theorem State.SlotKept.waitsFor_before (kept : s.SlotKept u k) (h : u.waitsFor K n k = true) :
    s.waitsFor K n k = true := by
  obtain ⟨j', hj', waiting, kind, target⟩ := State.waitsFor_iff.mp h
  cases hj : s.slot k with
  | none => rw [kept.1 hj] at hj'; cases hj'
  | some j =>
    rcases kept.2 j hj with ⟨w, hw⟩ | ⟨-, -, w, hw⟩
    · rw [hw] at hj'
      cases hj'
      exact State.waitsFor_iff.mpr ⟨j, hj, waiting, kind, target⟩
    · rw [hw] at hj'
      cases hj'
      cases waiting

/-- A job other than a MARK that waits goes on waiting in a kept slot. -/
theorem State.SlotKept.waitsFor_after (kept : s.SlotKept u k) (hK : K ≠ .mark) (h : s.waitsFor K n k = true) :
    u.waitsFor K n k = true := by
  obtain ⟨j, hj, waiting, kind, target⟩ := State.waitsFor_iff.mp h
  rcases kept.2 j hj with ⟨w, hw⟩ | ⟨-, mark, -⟩
  · exact State.waitsFor_iff.mpr ⟨_, hw, waiting, kind, target⟩
  · exact absurd (Option.some.inj (kind.symm.trans mark)) hK

theorem State.SlotKept.isOrderFor (kept : s.SlotKept u k) : u.isOrderFor n k = s.isOrderFor n k := by
  unfold State.isOrderFor State.slotIs
  cases hj : s.slot k with
  | none => rw [kept.1 hj]
  | some j =>
    rcases kept.2 j hj with ⟨w, hw⟩ | ⟨-, -, w, hw⟩
    · rw [hw]
      rfl
    · rw [hw]
      rfl

/-- A completion leaves it what a slot holds an ORDER for. -/
theorem completeJob_isOrderFor {x : JobEnd} : (completeJob i x s).isOrderFor n k = s.isOrderFor n k := by
  by_cases kept : k ≠ i ∨ s.open i = false
  · exact (completeJob_slotKept_of kept).isOrderFor
  · obtain ⟨own, undecided⟩ := not_or.mp kept
    obtain ⟨j, hj, hs⟩ := (s.open_iff i).mp (Bool.not_eq_false _ ▸ undecided)
    obtain ⟨w, hw⟩ := completeJob_completedWith i x s j hj hs
    rw [Decidable.not_not.mp own]
    simp only [State.isOrderFor, State.slotIs, hj, hw]
    rfl

/-- No completion makes a job wait. -/
theorem completeJob_waitsFor {x : JobEnd} (h : (completeJob i x s).waitsFor K n k = true) :
    s.waitsFor K n k = true := by
  by_cases kept : k ≠ i ∨ s.open i = false
  · exact (completeJob_slotKept_of kept).waitsFor_before h
  · obtain ⟨own, undecided⟩ := not_or.mp kept
    obtain ⟨j, hj, hs⟩ := (s.open_iff i).mp (Bool.not_eq_false _ ▸ undecided)
    have completed := completeJob_completedWith i x s j hj hs
    exact absurd (Decidable.not_not.mp own ▸ h) completed.not_waitsFor

/-- The one item that satisfies p is the first one found. -/
theorem find_of_unique {α : Type} {l : List α} {p : α → Bool} {x : α} (mem : x ∈ l) (h : p x = true)
    (one : ∀ y, p y = true → y = x) : l.find? p = some x := by
  cases hf : l.find? p with
  | none => exact absurd h (List.find?_eq_none.mp hf x mem)
  | some y => rw [one y (List.find?_some hf)]

/-- The one job that waits for the entry completes. -/
theorem completeWaiting_of_unique (h : s.waitsFor K n k = true) (one : ∀ m, s.waitsFor K n m = true → m = k) :
    completeWaiting K n r s = completeJob k (.plain r) s := by
  have found : slotIndices.find? (s.waitsFor K n) = some k := find_of_unique (List.mem_finRange k) h one
  simp only [completeWaiting, found]

/-- What completes is a job that waited, or nothing. -/
theorem completeWaiting_cases (K : JobKind) (n : Fin 64) (r : JobResult) (s : State) :
    completeWaiting K n r s = s ∨
      ∃ m, s.waitsFor K n m = true ∧ completeWaiting K n r s = completeJob m (.plain r) s := by
  cases hf : slotIndices.find? (s.waitsFor K n) with
  | none => exact .inl (by simp only [completeWaiting, hf])
  | some m => exact .inr ⟨m, List.find?_some hf, by simp only [completeWaiting, hf]⟩

theorem completeWaiting_slotKept (h : s.waitsFor K n k ≠ true) : s.SlotKept (completeWaiting K n r s) k := by
  rcases completeWaiting_cases K n r s with same | ⟨m, waits, completes⟩
  · exact .of_eq (by rw [same])
  · exact completes ▸ completeJob_slotKept m k _ s (fun hk => h (hk ▸ waits))

theorem completeWaiting_completedWith {j : Job} {x : JobEnd} (h : s.completedWith k j x) :
    (completeWaiting K n r s).completedWith k j x :=
  h.kept (completeWaiting_slotKept h.not_waitsFor) ((completeWaiting_frame ..).same .tb)

theorem completeWaiting_slot_of_idle {j : Job} (hj : s.slot k = some j) (hw : j.waitSet = [])
    (hs : j.state ≠ .waiting) : (completeWaiting K n r s).slot k = some j := by
  rcases completeWaiting_cases K n r s with same | ⟨m, waits, completes⟩
  · rw [same, hj]
  · have other : k ≠ m := by
      rintro rfl
      simp [State.waitsFor, State.slotIs, hj, hs] at waits
    exact completes ▸ completeJob_slot_of_idle other hj hw hs

end

/-! ### Several completions, and the ORDERs of an entry (R35) -/

section
variable {r : JobResult} {k : Fin 16}

theorem completeAll_slotKept (is : List (Fin 16)) (s : State) (h : k ∉ is) : s.SlotKept (completeAll r is s) k := by
  induction is generalizing s with
  | nil => exact .of_eq rfl
  | cons i is ih =>
    obtain ⟨other, rest⟩ := not_or.mp (mt List.mem_cons.mpr h)
    exact (completeJob_slotKept i k _ s other).then (ih _ rest) ((completeJob_frame ..).same .tb)
      ((completeAll_frame r (i :: is) s).same .tb)

theorem completeAll_keeps_completed (is : List (Fin 16)) {s : State} {j : Job} {x : JobEnd}
    (h : s.completedWith k j x) : (completeAll r is s).completedWith k j x := by
  induction is generalizing s with
  | nil => exact h
  | cons i is ih => exact ih h.completeJob

/-- Each of the jobs completes, be it listed once or more often, unless it waits or is decided. -/
theorem completeAll_completedWith (is : List (Fin 16)) {s : State} {j : Job} (h : k ∈ is) (hj : s.slot k = some j)
    (hc : j.state ≠ .completing) (hw : j.state ≠ .waiting) :
    (completeAll r is s).completedWith k j (.plain r) := by
  induction is generalizing s j with
  | nil => cases h
  | cons i is ih =>
    by_cases own : k = i
    · subst own
      exact completeAll_keeps_completed is (completeJob_completedWith k _ s j hj hc)
    · rcases (completeJob_slotKept i k (.plain r) s own).2 j hj with ⟨w, hw'⟩ | ⟨waiting, -, -⟩
      · have later := ih (List.mem_of_ne_of_mem own h) hw' hc hw
        exact later
      · exact absurd waiting hw

theorem completeAll_slot_of_idle (is : List (Fin 16)) {s : State} {j : Job} (h : k ∉ is) (hj : s.slot k = some j)
    (hw : j.waitSet = []) (hs : j.state ≠ .waiting) : (completeAll r is s).slot k = some j := by
  induction is generalizing s with
  | nil => exact hj
  | cons i is ih =>
    obtain ⟨other, rest⟩ := not_or.mp (mt List.mem_cons.mpr h)
    exact ih rest (completeJob_slot_of_idle other hj hw hs)

theorem completeAll_waitsFor (is : List (Fin 16)) {s : State} {K : JobKind} {n : Fin 64}
    (h : (completeAll r is s).waitsFor K n k = true) : s.waitsFor K n k = true := by
  induction is generalizing s with
  | nil => exact h
  | cons i is ih => exact completeJob_waitsFor (ih h)

theorem completeAll_isOrderFor (is : List (Fin 16)) {s : State} {n : Fin 64} :
    (completeAll r is s).isOrderFor n k = s.isOrderFor n k := by
  induction is generalizing s with
  | nil => rfl
  | cons i is ih => exact ih.trans completeJob_isOrderFor

variable {n : Fin 64} {s : State}

/-- Slot k holds an ORDER for entry n that stands in the entry's line's queue. -/
def State.orderQueued (s : State) (n : Fin 64) (k : Fin 16) : Prop :=
  k ∈ (s.scheduler (s.entry n).line).orderQueue ∧ s.isOrderFor n k = true

/-- The entry's ORDERs, in queue order. -/
def State.entryOrders (s : State) (n : Fin 64) : List (Fin 16) :=
  (s.scheduler (s.entry n).line).orderQueue.filter (s.isOrderFor n)

theorem State.mem_entryOrders : k ∈ s.entryOrders n ↔ s.orderQueued n k := List.mem_filter

theorem State.hasOrder_iff : s.hasOrder n = true ↔ ∃ k, s.orderQueued n k := List.any_eq_true

theorem dropOrders_eq : dropOrders n r s = completeAll r (s.entryOrders n)
    (s.setSched (s.entry n).line ((s.scheduler (s.entry n).line).keepOrders (fun k => !s.isOrderFor n k))) := rfl

theorem dropOrders_slotKept (h : ¬ s.orderQueued n k) : s.SlotKept (dropOrders n r s) k :=
  completeAll_slotKept _ (s.setSched ..) (mt State.mem_entryOrders.mp h)

theorem dropOrders_completedWith {j : Job} (h : s.orderQueued n k) (hj : s.slot k = some j)
    (hc : j.state ≠ .completing) (hw : j.state ≠ .waiting) : (dropOrders n r s).completedWith k j (.plain r) :=
  completeAll_completedWith (s := s.setSched ..) _ (State.mem_entryOrders.mpr h) hj hc hw

theorem dropOrders_slot_of_idle {j : Job} (h : ¬ s.orderQueued n k) (hj : s.slot k = some j) (hw : j.waitSet = [])
    (hs : j.state ≠ .waiting) : (dropOrders n r s).slot k = some j :=
  completeAll_slot_of_idle (s := s.setSched ..) _ (mt State.mem_entryOrders.mp h) hj hw hs

theorem dropOrders_waitsFor {K : JobKind} {m : Fin 64} (h : (dropOrders n r s).waitsFor K m k = true) :
    s.waitsFor K m k = true := 
  completeAll_waitsFor (s := s.setSched ..) _ h

theorem dropOrders_queue : ((dropOrders n r s).scheduler (s.entry n).line).orderQueue =
    (s.scheduler (s.entry n).line).orderQueue.filter (fun k => !s.isOrderFor n k) := by
  rw [(dropOrders_ordersGone n r s).1]
  rfl

/-- No ORDER of the entry is left. -/
theorem dropOrders_hasOrder : (dropOrders n r s).hasOrder n = false := by
  refine Bool.eq_false_iff.mpr fun left => ?_
  obtain ⟨k, queued, order⟩ := State.hasOrder_iff.mp left
  rw [(dropOrders_frame n r s).entry, dropOrders_queue, List.mem_filter] at queued
  rw [dropOrders_eq, completeAll_isOrderFor] at order
  rw [show s.isOrderFor n k = true from order] at queued
  cases queued.2

end

end Sys2Proof.Machine
end

section
/-! PROOFS. The job kinds: what a job that has been taken meets; MARK, ORDER, BROADCAST, SETUP LINE and LINE STATUS. -/

set_option Elab.async false

namespace Sys2Proof.Machine

/-! ### A job that has been taken (R101, R119) -/

/-- In v, which differs from s in the chain, the write list and the port alone, slot i holds the job j that is to be
validated; the other slots and the done tally stand as in s. -/
structure State.JobTaken (s v : State) (i : Fin 16) (j : Job) : Prop where
  frame : Frame [.chain, .slots, .port] s v
  slot : v.slot i = some j
  validating : j.state = .validating
  others : ∀ k, k ≠ i → v.slot k = s.slot k
  tally : v.job.doneTally = s.job.doneTally

/-- A job that a slot holds and that is still to be validated. -/
theorem State.JobTaken.refl {s : State} {i : Fin 16} {j : Job} (hj : s.slot i = some j) (h : j.state = .validating) :
    s.JobTaken s i j := ⟨Frame.refl .., hj, h, fun _ _ => rfl, rfl⟩

/-- The state in which a taken job is validated (R101). -/
theorem State.jobTaken (s : State) (i : Fin 16) (a : Addr) (k : JobKind) {f : JobFields}
    (hm : f.link.toNat % 128 = 0) : s.JobTaken (s.takenState i a k f) i (s.takenJob a k f) := by
  have hl := (aligned_iff 128 f.link).mpr hm
  have slot := recordTaken_slot (s := s.served) (i := i) (a := a) (r := k.posted f) hl
  obtain ⟨-, tally, -⟩ := recordTaken_counts (s := s.served) (i := i) (a := a) (r := k.posted f) hl
  exact ⟨s.served_frame.then (recordTaken_frame (r := k.posted f) hl), (slot i).trans (if_pos rfl), rfl,
    fun m hm => (slot m).trans (if_neg hm.symm), tally⟩

/-- The checks and the work of a kind, beyond the common checks. -/
def JobKind.carriedOut (k : JobKind) (i : Fin 16) (j : Job) : State → State :=
  match k with
  | .setupLine => jobSetupLine i j
  | .lineStatus => jobLineStatus i j
  | .enlist => jobEnlist i j
  | .delist => jobDelist i j
  | .hold => jobHold i j
  | .release => jobRelease i j
  | .retune => jobRetune i j
  | .order => jobOrder i j
  | .broadcast => jobBroadcast i j
  | .cancel => jobCancel i j
  | .mark => jobMark i

/-- A job of a known kind and no overlong payload is handed to its kind (R118). -/
theorem dispatchJob_carriedOut {i : Fin 16} {j : Job} {k : JobKind} {s : State} (hj : s.slot i = some j)
    (hk : j.kindOf = some k) (hl : j.payloadLength.toNat ≤ 32) : dispatchJob i s = k.carriedOut i j s := by
  simp only [dispatchJob, hj, hk, if_neg (Nat.not_lt.mpr hl)]
  cases k <;> rfl

/-- A slot in use is another than a FREE one. -/
theorem State.ne_of_slot_free {s : State} {i k : Fin 16} {j : Job} (free : s.slot i = none) (hj : s.slot k = some j) :
    k ≠ i := by
  rintro rfl
  cases free.symm.trans hj

theorem targetEntry_of {t : Byte} {n : Fin 64} (h : t.toNat = n.val) : targetEntry t = some n := by
  simp [targetEntry, h]

theorem targetLine_of {t : Byte} {l : Fin 4} (h : t.toNat = l.val) : targetLine t = some l := by
  simp [targetLine, h]

section
variable {s : State} {i : Fin 16} {a : Addr} (w : s.AwaitsRecord i a) (k : JobKind) {f : JobFields}
include w

theorem State.AwaitsRecord.slot_free : s.slot i = none := by
  simpa using List.find?_some w.free

variable (hm : f.link.toNat % 128 = 0)
include hm

variable (hp : f.payloadLength.toNat ≤ 32)
include hp

/-- A job row takes its record, and its kind does the rest (R119). -/
theorem State.AwaitsRecord.taken : ∃ v, s.JobTaken v i (s.takenJob a k f) ∧
    exec (k.command f) s = .next (settle (k.carriedOut i (s.takenJob a k f) v)) :=
  ⟨_, s.jobTaken i a k hm, by
    rw [w.exec_command k ((aligned_iff 128 f.link).mpr hm),
      dispatchJob_carriedOut (s.jobTaken i a k hm).slot k.ofCode_code hp]⟩

end

section
variable {s v t : State} {i : Fin 16} {j : Job} (T : s.JobTaken v i j)
include T

theorem State.JobTaken.entry (n : Fin 64) : v.entry n = s.entry n := T.frame.entry n
theorem State.JobTaken.engine (l : Fin 4) : v.engine l = s.engine l := T.frame.engine l
theorem State.JobTaken.scheduler (l : Fin 4) : v.scheduler l = s.scheduler l := T.frame.scheduler l
theorem State.JobTaken.tb : v.tb = s.tb := T.frame.same .tb
theorem State.JobTaken.sched : v.sched = s.sched := T.frame.same .sched
theorem State.JobTaken.ntc : v.ntc = s.ntc := T.frame.same .ntc
theorem State.JobTaken.rep : v.rep = s.rep := T.frame.rep

theorem State.JobTaken.slotKept {k : Fin 16} (hk : k ≠ i) : s.SlotKept v k := .of_eq (T.others k hk)

/-- The taken job completes after work that leaves the slots alone. -/
theorem State.JobTaken.completes {l : List Piece} (h : Frame l v t) (x : JobEnd)
    (hs : l.contains .slots = false := by decide) (ht : l.contains .tb = false := by decide) :
    (completeJob i x t).completedWith i j x ∧ s.OthersKept (completeJob i x t) i := by
  have time : t.tb = s.tb := Eq.trans (h.same .tb ht) T.tb
  have slot (k : Fin 16) : t.slot k = v.slot k := State.slot_congr (h.same .slots hs).1 k
  refine ⟨completeJob_completedWith i x t j ((slot i).trans T.slot) (T.validating ▸ nofun), fun k hk => ?_⟩
  have kept : s.SlotKept t k := .of_eq ((slot k).trans (T.others k hk))
  exact kept.completeJob time hk

/-- The taken job completes at once, and nothing else is done. -/
theorem State.JobTaken.ends {c : Instr} {x : JobResult} (he : exec c s = .next (settle (finish i x v))) :
    s.EndsAtOnce c i j x :=
  have done := T.completes (Frame.refl [] v) (.plain x)
  ⟨_, he, T.frame.then (finish_frame ..), done.1, done.2⟩

/-- The taken job joins an order queue (R34). -/
theorem State.JobTaken.queuesOn {c : Instr} {l : Fin 4} (he : exec c s = .next (settle (enqueue l i v))) :
    s.QueuesOn c i j l := by
  have queued : setSlotState i .queued v = v.setSlot i (some { j with state := .queued }) := by
    simp only [setSlotState, State.modSlot, T.slot]
  have joined : enqueue l i v = (v.setSlot i (some { j with state := .queued })).setSched l
      { s.scheduler l with orderQueue := (s.scheduler l).orderQueue ++ [i] } := by
    rw [enqueue, queued, State.scheduler_setSlot_eq, T.scheduler]
  refine ⟨_, he, T.frame.then (enqueue_frame ..), ?_⟩
  rw [joined]
  refine ⟨State.slot_setSlot_self .., fun k hk => ?_, T.tally, State.scheduler_setSched_self .., fun m hm => ?_⟩
  · exact (State.slot_setSlot ..).trans ((if_neg hk.symm).trans (T.others k hk))
  · exact (State.setSched_others _ _ _ m hm).trans (T.scheduler m)

end

/-! ### MARK (R138) -/

/-- The undecided slots beside the taken one are those that were in use and undecided before. -/
theorem State.JobTaken.mem_undecided {s v : State} {i k : Fin 16} {j : Job} (T : s.JobTaken v i j) :
    k ∈ v.undecided i ↔ k ≠ i ∧ ∃ jk, s.slot k = some jk ∧ jk.state ≠ .completing := by
  rw [State.undecided, List.mem_filter, Bool.and_eq_true, bne_iff_ne]
  refine ⟨fun ⟨_, other, h⟩ => ⟨other, ?_⟩, fun ⟨other, h⟩ => ⟨List.mem_finRange k, other, ?_⟩⟩
  · obtain ⟨jk, hj, hs⟩ := (v.open_iff k).mp h
    exact ⟨jk, T.others k other ▸ hj, hs⟩
  · obtain ⟨jk, hj, hs⟩ := h
    exact (v.open_iff k).mpr ⟨jk, (T.others k other).trans hj, hs⟩

/-- Settles O30, by whether the waiting set is empty. -/
theorem markTaken : Obligations.MarkTaken := by
  intro f i a s w hm hp j undecided
  obtain ⟨v, T, run⟩ := w.taken .mark hm hp
  refine ⟨fun none => ?ends, fun ⟨m, hu⟩ => ?waits⟩
  case ends =>
    have empty : v.undecided i = [] := List.eq_nil_iff_forall_not_mem.mpr fun k hk => none k (T.mem_undecided.mp hk)
    refine T.ends (run.trans ?_)
    simp only [JobKind.carriedOut, jobMark, empty, List.isEmpty_nil, if_true]
  case waits =>
    have full : (v.undecided i).isEmpty = false :=
      List.isEmpty_eq_false_iff_exists_mem.mpr ⟨m, T.mem_undecided.mpr hu⟩
    have waits : JobKind.mark.carriedOut i j v =
        v.setSlot i (some { j with state := .waiting, waitSet := v.undecided i }) := by
      simp only [JobKind.carriedOut, jobMark, full, State.modSlot, T.slot, j]
      rfl
    refine ⟨_, v.undecided i, run.trans (by rw [waits]), T.frame.then (State.setSlot_frame ..),
      State.slot_setSlot_self .., fun k => T.mem_undecided, fun k hk => ?_⟩
    exact (State.slot_setSlot ..).trans ((if_neg hk.symm).trans (T.others k hk))

/-! ### ORDER and BROADCAST (R132, R134) -/

theorem State.lineOff_iff (s : State) (l : Fin 4) : s.lineOff l = true ↔ (s.engine l).lineState = .off := beq_iff_eq

/-- Settles O28: the checks one after the other, then the queue. -/
theorem lineBoundJobsTaken : Obligations.LineBoundJobsTaken := by
  intro f n l i a s w hm hp e jo jb
  refine ⟨fun target => ?order, fun target => ?broadcast⟩
  case order =>
    obtain ⟨v, T, run⟩ := w.taken .order hm hp
    have found : targetEntry jo.target = some n := targetEntry_of target
    have checks : JobKind.order.carriedOut i jo v =
        if e.state = .vacant ∨ e.state = .leaving then finish i .notEnlisted v
        else if e.state = .held ∨ e.holdPending then finish i .wrongState v
        else if (s.engine e.line).lineState = .off then finish i .lineOff v
        else enqueue e.line i v := by
      simp only [JobKind.carriedOut, jobOrder, found, State.lineOff_iff, T.entry, T.engine, e]
    rw [checks] at run
    refine ⟨fun gone => T.ends ?_, fun held => T.ends ?_, fun called free =>
      ⟨fun off => T.ends ?_, fun on => T.queuesOn ?_⟩⟩
    · rwa [if_pos gone] at run
    · rwa [if_neg (by grind), if_pos (by grind)] at run
    · rwa [if_neg (by grind), if_neg (by grind), if_pos off] at run
    · rwa [if_neg (by grind), if_neg (by grind), if_neg on] at run
  case broadcast =>
    obtain ⟨v, T, run⟩ := w.taken .broadcast hm hp
    have found : targetLine jb.target = some l := targetLine_of target
    have checks : JobKind.broadcast.carriedOut i jb v =
        if (s.engine l).lineState = .off then finish i .lineOff v else enqueue l i v := by
      simp only [JobKind.carriedOut, jobBroadcast, found, State.lineOff_iff, T.engine]
    rw [checks] at run
    refine ⟨fun off => T.ends ?_, fun on => T.queuesOn ?_⟩
    · rwa [if_pos off] at run
    · rwa [if_neg on] at run

/-! ### SETUP LINE and LINE STATUS (R120, R123) -/

/-- A setting that the change set names lies in its range. -/
theorem inRange_changed (c : Byte) (b v lo hi : Nat) :
    inRange (changed c b v) lo hi = true ↔ (c.getLsbD b = true → lo ≤ v ∧ v ≤ hi) := by
  unfold inRange changed
  cases c.getLsbD b <;> simp

/-- A setting that the change set names is 0 or lies in its range. -/
theorem zero_or_inRange_changed (c : Byte) (b v lo hi : Nat) :
    (changed c b v == some 0 || inRange (changed c b v) lo hi) = true ↔
      (c.getLsbD b = true → v = 0 ∨ lo ≤ v ∧ v ≤ hi) := by
  rw [Bool.or_eq_true, inRange_changed]
  unfold changed
  cases c.getLsbD b <;> simp

theorem SetupParams.valid_iff (p : List Byte) : (SetupParams.ofBytes p).valid = true ↔
    ((byteAt p 1).getLsbD 0 = true → (byteAt p 2).toNat ≤ 7) ∧
    ((byteAt p 1).getLsbD 1 = true → 2 ≤ (byteAt p 3).toNat) ∧
    ((byteAt p 1).getLsbD 2 = true → (byteAt p 4).toNat ≤ 7) ∧
    ((byteAt p 1).getLsbD 3 = true → 1 ≤ (byteAt p 5).toNat ∧ (byteAt p 5).toNat ≤ 8) ∧
    ((byteAt p 1).getLsbD 4 = true → 100 ≤ leField p 6 2 ∧ leField p 6 2 ≤ 10000) ∧
    ((byteAt p 1).getLsbD 5 = true → leField p 8 2 = 0 ∨ 20 ≤ leField p 8 2 ∧ leField p 8 2 ≤ 10000) := by
  have byte : (byteAt p 3).toNat ≤ 255 := Nat.le_of_lt_succ (byteAt p 3).isLt
  simp only [SetupParams.valid, SetupParams.ofBytes, Bool.and_eq_true, zero_or_inRange_changed, inRange_changed,
    Nat.zero_le, true_and, byte, and_true, and_assoc]

/-- A LINE STATUS of line l answers with the counters and the line state as they stand (R123). -/
theorem State.JobTaken.statusAnswered {s v : State} {i : Fin 16} {j : Job} {l : Fin 4} (T : s.JobTaken v i j)
    (ht : targetLine j.target = some l) :
    (jobLineStatus i j v).completedWith i j ⟨.ok, 0, 0, snapshot (s.engine l)⟩ ∧
      (jobLineStatus i j v).engine l =
        (if (byteAt j.params 0).getLsbD 0 then { s.engine l with counters := ⟨0, 0, 0, 0, 0, 0, 0⟩ }
         else s.engine l) ∧
      s.OtherEnginesKept (jobLineStatus i j v) l ∧ s.OthersKept (jobLineStatus i j v) i := by
  have answer : jobLineStatus i j v = completeJob i ⟨.ok, 0, 0, snapshot (s.engine l)⟩
      (if (byteAt j.params 0).getLsbD 0 then v.setEngine l { s.engine l with counters := Counters.zero } else v) := by
    simp only [jobLineStatus, ht, T.engine]
  rw [answer]
  obtain ⟨completed, others⟩ := T.completes
    (Frame.ite (c := (byteAt j.params 0).getLsbD 0) (State.setEngine_frame v l _) (Frame.refl ..)) _
  refine ⟨completed, ?_, fun m hm => ?_, others⟩
  · rw [(completeJob_frame ..).engine]
    split
    · exact State.engine_setEngine_self ..
    · exact T.engine l
  · rw [(completeJob_frame ..).engine]
    split
    · exact (State.setEngine_others _ _ _ m hm).trans (T.engine m)
    · exact T.engine m

/-- In STOPPING the one LINE STATUS that is still VALIDATING is carried out (log 33). -/
theorem exec_lineStatus_stopping {s : State} {f : JobFields} {i : Fin 16} (ha : s.active = true)
    (hs : s.ctl.part = .stopping) (h : s.lineStatusToDo f = some i) :
    exec (.lineStatus f) s = .next (settle (dispatchJob i s)) := by
  have carried : lineStatusTaken f s = settle (dispatchJob i s) := by
    simp only [lineStatusTaken, ha, State.running_of_stopping hs, h, Bool.not_false, Bool.and_self]
  exact congrArg _ carried

/-- Settles O23: the range checks of a SETUP LINE, and the LINE STATUS of a record taken or of a slot. -/
theorem lineJobsTaken : Obligations.LineJobsTaken := by
  refine ⟨rfl, ?setup, ?taken, ?stopping⟩
  case setup =>
    intro f l i a s w hm hp target j p named ok
    obtain ⟨v, T, run⟩ := w.taken .setupLine hm hp
    have found : targetLine j.target = some l := targetLine_of target
    have checks : JobKind.setupLine.carriedOut i j v = if ok then enqueue l i v else finish i .badJob v := by
      simp only [JobKind.carriedOut, jobSetupLine, found, SetupParams.valid_iff]
      rfl
    rw [checks] at run
    refine ⟨fun good => T.queuesOn ?_, fun bad => T.ends ?_⟩
    · rwa [if_pos good] at run
    · rwa [if_neg bad] at run
  case taken =>
    intro f l i a s w hm hp target
    obtain ⟨v, T, run⟩ := w.taken .lineStatus hm hp
    exact ⟨_, run, T.frame.then (jobLineStatus_frame ..), T.statusAnswered (targetLine_of target)⟩
  case stopping =>
    intro f l i j s ha hs hj validating kind flags tag target params length payload one hp hl
    have toDo : s.lineStatusToDo f = some i := by
      refine find_of_unique (List.mem_finRange i) ?_ fun m hm => ?_
      · simp [State.slotIs, hj, validating, kind, Job.hasFields, flags, tag, target, params, length, payload]
      · unfold State.slotIs at hm
        split at hm
        · next jm hjm => exact one m jm hjm (by simp_all)
        · cases hm
    have carried : dispatchJob i s = jobLineStatus i j s := dispatchJob_carriedOut hj kind (length ▸ hp)
    refine ⟨_, (exec_lineStatus_stopping ha hs toDo).trans (by rw [carried]), jobLineStatus_frame .., ?_⟩
    exact (State.JobTaken.refl hj validating).statusAnswered (targetLine_of (target ▸ hl))

end Sys2Proof.Machine
end

section
/-! PROOFS. The job kinds that set an entry's values: ENLIST and RETUNE, and any entry that a job sets and whose cell it
asks for. -/

set_option Elab.async false

namespace Sys2Proof.Machine

/-! ### The parameters of ENLIST and RETUNE (section 10.4, R124) -/

theorem leNat_lt (b : List Byte) : leNat b < 256 ^ b.length := by
  induction b with
  | nil => exact Nat.one_pos
  | cons x xs ih =>
    have byte : x.toNat < 256 := x.isLt
    simp only [leNat, List.length_cons, Nat.pow_succ]
    omega

theorem leField_lt (b : List Byte) (off n : Nat) : leField b off n < 256 ^ n :=
  Nat.lt_of_lt_of_le (leNat_lt _) (Nat.pow_le_pow_right (by decide) (List.length_take_le ..))

section
variable (p : List Byte)

theorem StationParams.pollPeriod_toNat : (StationParams.ofBytes p).pollPeriod.toNat = leField p 2 2 := by
  have := leField_lt p 2 2
  exact Nat.mod_eq_of_lt (by omega)

theorem StationParams.quietLimit_toNat : (StationParams.ofBytes p).quietLimit.toNat = leField p 4 4 :=
  Nat.mod_eq_of_lt (leField_lt p 4 4)

theorem StationParams.quietLimit_eq_zero : (StationParams.ofBytes p).quietLimit = 0 ↔ leField p 4 4 = 0 := by
  rw [← StationParams.quietLimit_toNat, BitVec.toNat_eq]
  rfl

theorem StationParams.placeValid_iff : (StationParams.ofBytes p).placeValid = true ↔
    (byteAt p 0).toNat ≤ 3 ∧ 1 ≤ (byteAt p 1).toNat ∧ (byteAt p 1).toNat ≤ 254 := by
  simp only [StationParams.placeValid, Bool.and_eq_true, decide_eq_true_eq]
  rfl

theorem StationParams.tuningValid_iff : (StationParams.ofBytes p).tuningValid = true ↔
    10 ≤ leField p 2 2 ∧ leField p 2 2 ≤ 60000 ∧
      (leField p 4 4 = 0 ∨ 2 * leField p 2 2 ≤ leField p 4 4 ∧ leField p 4 4 ≤ 600000) ∧ (byteAt p 8).toNat < 32 := by
  simp only [StationParams.tuningValid, StationParams.pollPeriod_toNat, StationParams.quietLimit_toNat,
    Bool.and_eq_true, Bool.or_eq_true, decide_eq_true_eq, beq_iff_eq, StationParams.quietLimit_eq_zero, and_assoc]
  rfl

end

/-! ### An entry is set and its cell asked for -/

section
variable {s v : State} {i : Fin 16} {j : Job} (T : s.JobTaken v i j) {c : Instr} {n : Fin 64} {e : Entry}
include T

/-- The taken job sets entry n, asks for its cell and completes OK. -/
theorem State.JobTaken.setsEntry (he : exec c s = .next (settle (finish i .ok (requestCell n (v.setEntry n e))))) :
    ∃ u, exec c s = .next (settle u) ∧ Frame [.chain, .slots, .port, .entries, .cells] s u ∧
      u.completedWith i j ⟨.ok, 0, 0, []⟩ ∧ s.OthersKept u i ∧ s.OtherEntriesKept u n ∧ s.AsksCell u n ∧
      u.entry n = e := by
  have set : Frame [.entries, .cells] v (requestCell n (v.setEntry n e)) :=
    Frame.then (State.setEntry_frame ..) (requestCell_frame ..)
  have entry (m : Fin 64) : (finish i .ok (requestCell n (v.setEntry n e))).entry m =
      if n = m then e else s.entry m := by
    rw [(finish_frame ..).entry, (requestCell_frame ..).entry, State.entry_setEntry, T.entry]
  obtain ⟨completed, others⟩ := T.completes set (.plain .ok)
  refine ⟨_, he, (T.frame.then (l := [.chain, .slots, .port, .entries, .cells]) set).then (finish_frame ..),
    completed, others, fun m hm => (entry m).trans (if_neg hm.symm), ?_, (entry n).trans (if_pos rfl)⟩
  exact ((requestCell_asks n (v.setEntry n e)).of_rep T.rep).then_rep (finish_frame ..).rep

end

/-! ### ENLIST (R124, R125, R3) -/

theorem State.addressHeld_iff (s : State) (l : Fin 4) (a : Byte) : s.addressHeld l a = true ↔
    ∃ m, (s.entry m).state ≠ .vacant ∧ (s.entry m).line = l ∧ (s.entry m).address = a := by
  simp [State.addressHeld, entryIndices, and_assoc]

section
variable {i : Fin 16} {j : Job} {s : State} {n : Fin 64} (ht : targetEntry j.target = some n)
include ht

theorem jobEnlist_of_line {l : Fin 4} (hl : targetLine (byteAt j.params 0) = some l) : jobEnlist i j s =
    if ¬ ((StationParams.ofBytes j.params).placeValid = true ∧ (StationParams.ofBytes j.params).tuningValid = true) then
      finish i .badJob s
    else if (s.entry n).state ≠ .vacant then finish i .entryInUse s
    else if s.addressHeld l (byteAt j.params 1) = true then finish i .duplicateAddress s
    else finish i .ok (requestCell n (s.setEntry n (enlisted s.tb.now l (StationParams.ofBytes j.params)))) := by
  have line : targetLine (StationParams.ofBytes j.params).line = some l := hl
  simp only [jobEnlist, ht, line, Bool.not_eq_true', ← Bool.not_eq_true, Bool.and_eq_true]
  rfl

theorem jobEnlist_of_no_line (h : targetLine (byteAt j.params 0) = none) : jobEnlist i j s = finish i .badJob s := by
  have line : targetLine (StationParams.ofBytes j.params).line = none := h
  simp only [jobEnlist, ht, line]

end

/-- Settles O24: the checks in their order, then the entry. -/
theorem enlistTaken : Obligations.EnlistTaken := by
  refine ⟨fun b => rfl, ?_⟩
  intro f n i a s w hm hp target j p poll quiet ok inUse held
  obtain ⟨v, T, run⟩ := w.taken .enlist hm hp
  have found : targetEntry j.target = some n := targetEntry_of target
  by_cases line : (byteAt p 0).toNat < 4
  case neg =>
    have bad : ¬ ok := fun ⟨h, _⟩ => line (Nat.lt_succ_of_le h)
    refine ⟨fun _ => T.ends (run.trans ?_), fun h => absurd h bad, fun h => absurd h bad, fun h => absurd h bad⟩
    rw [JobKind.carriedOut, jobEnlist_of_no_line found (dif_neg line)]
  case pos =>
    let l : Fin 4 := ⟨(byteAt p 0).toNat, line⟩
    have checks : JobKind.enlist.carriedOut i j v =
        if ¬ ok then finish i .badJob v
        else if inUse then finish i .entryInUse v
        else if v.addressHeld l (byteAt p 1) = true then finish i .duplicateAddress v
        else finish i .ok (requestCell n (v.setEntry n (enlisted s.tb.now l (StationParams.ofBytes p)))) := by
      rw [JobKind.carriedOut, jobEnlist_of_line found (dif_pos line)]
      simp only [StationParams.placeValid_iff, StationParams.tuningValid_iff, T.entry, T.tb, and_assoc]
      rfl
    have heldIff : v.addressHeld l (byteAt p 1) = true ↔ held := by
      simp only [State.addressHeld_iff, T.entry, Fin.ext_iff]
      rfl
    rw [checks] at run
    refine ⟨fun bad => T.ends ?_, fun good used => T.ends ?_, fun good unused twice => T.ends ?_,
      fun good unused once => ?_⟩
    · rwa [if_pos bad] at run
    · rwa [if_neg (not_not_intro good), if_pos used] at run
    · rwa [if_neg (not_not_intro good), if_neg unused, if_pos (heldIff.mpr twice)] at run
    · rw [if_neg (not_not_intro good), if_neg unused, if_neg (mt heldIff.mp once)] at run
      obtain ⟨u, exec, frame, completed, others, entries, cell, entry⟩ := T.setsEntry run
      exact ⟨u, exec, frame, completed, others, entries, cell, by rw [entry]; rfl, by rw [entry]; rfl⟩

/-! ### RETUNE (R131, R25) -/

/-- A poll of the entry on the wire is marked (R32). -/
theorem noteDueSet_of_poll {n : Fin 64} {s : State} {d : Bool}
    (h : (s.scheduler (s.entry n).line).inFlight = some (.poll n d)) : noteDueSet n s =
      s.setSched (s.entry n).line { s.scheduler (s.entry n).line with inFlight := some (.poll n true) } := by
  simp only [noteDueSet, h, if_true]

theorem noteDueSet_of_none {n : Fin 64} {s : State}
    (h : ∀ d, (s.scheduler (s.entry n).line).inFlight ≠ some (.poll n d)) : noteDueSet n s = s := by
  simp only [noteDueSet]
  split
  · next m d hd => exact if_neg fun same : m = n => h d (same ▸ hd)
  · rfl

theorem retuned_of_live (now : Word) (p : List Byte) {e : Entry} (h : e.state = .live) :
    retuned now (StationParams.ofBytes p) e = { e with
      pollPeriod := BitVec.ofNat 32 (leField p 2 2), quietLimit := BitVec.ofNat 32 (leField p 4 4),
      options := Options.ofByte (byteAt p 8),
      dueTime := if leField p 2 2 ≤ (now - e.lastPollStart).toNat then now
        else e.lastPollStart + BitVec.ofNat 32 (leField p 2 2),
      quietDeadline := if leField p 4 4 = 0 then none else some (e.lastHeard + BitVec.ofNat 32 (leField p 4 4)) } := by
  simp only [retuned, if_pos h, StationParams.pollPeriod_toNat, StationParams.quietLimit_eq_zero]
  rfl

theorem retuned_of_other (now : Word) (p : List Byte) {e : Entry} (h : e.state ≠ .live) :
    retuned now (StationParams.ofBytes p) e = { e with
      pollPeriod := BitVec.ofNat 32 (leField p 2 2), quietLimit := BitVec.ofNat 32 (leField p 4 4),
      options := Options.ofByte (byteAt p 8) } := by
  simp only [retuned, if_neg h]
  rfl

theorem retuneExpires_iff (now : Word) (p : List Byte) (e : Entry) :
    retuneExpires now (StationParams.ofBytes p) e = true ↔
      e.state = .live ∧ leField p 4 4 ≠ 0 ∧ leField p 4 4 ≤ (now - e.lastHeard).toNat := by
  simp only [retuneExpires, Bool.and_eq_true, beq_iff_eq, bne_iff_ne, ne_eq, decide_eq_true_eq,
    StationParams.quietLimit_eq_zero, StationParams.quietLimit_toNat, and_assoc]

/-- The Schedulers of u are those of s, but for the mark on a poll of entry n on the wire (R32). -/
def State.PollMarked (s u : State) (n : Fin 64) : Prop :=
  s.OtherSchedsKept u (s.entry n).line ∧
  (∀ d, (s.scheduler (s.entry n).line).inFlight = some (.poll n d) → u.scheduler (s.entry n).line =
    { s.scheduler (s.entry n).line with inFlight := some (.poll n true) }) ∧
  ((∀ d, (s.scheduler (s.entry n).line).inFlight ≠ some (.poll n d)) → u.sched = s.sched)

theorem noteDueSet_pollMarked (n : Fin 64) (s : State) : s.PollMarked (noteDueSet n s) n := by
  by_cases poll : ∃ d, (s.scheduler (s.entry n).line).inFlight = some (.poll n d)
  · obtain ⟨d, hd⟩ := poll
    rw [noteDueSet_of_poll hd]
    exact ⟨State.setSched_others _ _ _, fun _ _ => State.scheduler_setSched_self .., fun none => absurd hd (none d)⟩
  · have none := not_exists.mp poll
    rw [noteDueSet_of_none none]
    exact ⟨fun _ _ => rfl, fun d hd => absurd hd (none d), fun _ => rfl⟩

/-- The mark depends on the Schedulers and the entry's line alone. -/
theorem State.PollMarked.congr {s s' u u' : State} {n : Fin 64} (h : s'.PollMarked u' n) (hs : s'.sched = s.sched)
    (hl : (s'.entry n).line = (s.entry n).line) (hu : u.sched = u'.sched) : s.PollMarked u n := by
  unfold State.PollMarked State.OtherSchedsKept State.scheduler at *
  rwa [← hs, ← hl, hu]

/-- Entry n set to x, a LIVE entry's poll on the wire marked (R25, R32). -/
def State.retuneSet (s : State) (n : Fin 64) (x : Entry) : State :=
  if (s.entry n).state = .live then noteDueSet n (s.setEntry n x) else s.setEntry n x

theorem State.retuneSet_frame (s : State) (n : Fin 64) (x : Entry) : Frame [.entries, .sched] s (s.retuneSet n x) :=
  Frame.ite ((State.setEntry_frame ..).then (noteDueSet_frame ..)) ((State.setEntry_frame ..).mono (by decide))

theorem State.retuneSet_entry (s : State) (n m : Fin 64) (x : Entry) :
    (s.retuneSet n x).entry m = if n = m then x else s.entry m := by
  unfold State.retuneSet
  split
  · rw [(noteDueSet_frame ..).entry, State.entry_setEntry]
  · exact State.entry_setEntry ..

theorem jobRetune_of_entry {i : Fin 16} {j : Job} {s : State} {n : Fin 64} (ht : targetEntry j.target = some n) :
    jobRetune i j s =
      let p := StationParams.ofBytes j.params
      let set := s.retuneSet n (retuned s.tb.now p (s.entry n))
      if ¬ p.tuningValid = true then finish i .badJob s
      else if (s.entry n).state = .vacant ∨ (s.entry n).state = .leaving then finish i .notEnlisted s
      else finish i .ok (if retuneExpires s.tb.now p (s.entry n) then expireQuiet n set else set) := by
  simp only [jobRetune, ht, Bool.not_eq_true', Bool.not_eq_true, State.retuneSet]

/-- The Schedulers after a RETUNE of a taken job, which its later work leaves as they are. -/
theorem State.JobTaken.retuneSet_scheds {s v u : State} {i : Fin 16} {j : Job} {n : Fin 64} {x : Entry}
    (T : s.JobTaken v i j) (hx : x.line = (s.entry n).line) (hu : u.sched = (v.retuneSet n x).sched) :
    s.OtherSchedsKept u (s.entry n).line ∧
    (∀ d, (s.entry n).state = .live → (s.scheduler (s.entry n).line).inFlight = some (.poll n d) →
      u.scheduler (s.entry n).line = { s.scheduler (s.entry n).line with inFlight := some (.poll n true) }) ∧
    ((s.entry n).state ≠ .live ∨ (∀ d, (s.scheduler (s.entry n).line).inFlight ≠ some (.poll n d)) →
      u.sched = s.sched) := by
  rw [State.retuneSet, T.entry] at hu
  by_cases live : (s.entry n).state = .live
  · rw [if_pos live] at hu
    obtain ⟨others, marked, unmarked⟩ := (noteDueSet_pollMarked n (v.setEntry n x)).congr T.sched
      (by rw [State.entry_setEntry_self, hx]) hu
    exact ⟨others, fun d _ => marked d, fun h => unmarked (h.resolve_left (not_not_intro live))⟩
  · rw [if_neg live] at hu
    have same : u.sched = s.sched := hu.trans T.sched
    exact ⟨fun m _ => by simp only [State.scheduler, same], fun _ h => absurd h live, fun _ => same⟩

/-- Settles O27: the checks, then the entry by whether it is LIVE and whether its new deadline is past. -/
theorem retuneTaken : Obligations.RetuneTaken := by
  intro f n i a s w hm hp target j e poll quiet ok set due past
  obtain ⟨v, T, run⟩ := w.taken .retune hm hp
  have found : targetEntry j.target = some n := targetEntry_of target
  let x := retuned s.tb.now (StationParams.ofBytes f.params) e
  let t := if e.state = .live ∧ past then expireQuiet n (v.retuneSet n x) else v.retuneSet n x
  have checks : JobKind.retune.carriedOut i j v =
      if ¬ ok then finish i .badJob v
      else if e.state = .vacant ∨ e.state = .leaving then finish i .notEnlisted v
      else finish i .ok t := by
    rw [JobKind.carriedOut, jobRetune_of_entry found]
    simp only [StationParams.tuningValid_iff, retuneExpires_iff, T.entry, T.tb]
    rfl
  rw [checks] at run
  refine ⟨fun bad => T.ends ?_, fun good gone => T.ends ?_, fun good here away => ⟨finish i .ok t, ?_⟩⟩
  · rwa [if_pos bad] at run
  · rwa [if_neg (not_not_intro good), if_pos gone] at run
  rw [if_neg (not_not_intro good), if_neg (not_or.mpr ⟨here, away⟩)] at run
  have set := v.retuneSet_frame n x
  have own : (v.retuneSet n x).entry n = x := (v.retuneSet_entry n n x).trans (if_pos rfl)
  have expiry := expireQuiet_frame n (v.retuneSet n x)
  have work : Frame [.entries, .sched, .ntc, .cells] v t := Frame.ite (set.then expiry) (set.mono (by decide))
  have done := finish_frame i .ok t
  obtain ⟨completed, others⟩ := T.completes work (.plain .ok)
  have entries : s.OtherEntriesKept (finish i .ok t) n := fun m hm => by
    have noted : (v.retuneSet n x).entry m = s.entry m := by rw [v.retuneSet_entry, if_neg hm.symm, T.entry]
    rw [done.entry]
    unfold t
    split
    · rw [expireQuiet_entry, if_neg hm.symm, noted]
    · exact noted
  have line : x.line = e.line := by
    unfold x retuned
    split <;> rfl
  have scheds : t.sched = (v.retuneSet n x).sched := by
    unfold t
    split
    · exact expiry.same .sched
    · rfl
  obtain ⟨otherScheds, marked, unmarked⟩ := T.retuneSet_scheds line (Eq.trans (done.same .sched) scheds)
  have untouched (same : t = v.retuneSet n x) : (finish i .ok t).entry n = x ∧ (finish i .ok t).ntc = s.ntc ∧
      (finish i .ok t).rep = s.rep := by
    rw [← same] at own set
    exact ⟨(done.entry n).trans own, Eq.trans (done.same .ntc) (Eq.trans (set.same .ntc) T.ntc),
      done.rep.trans (set.rep.trans T.rep)⟩
  refine ⟨run, (T.frame.then (l := [.chain, .slots, .port, .entries, .sched, .ntc, .cells]) work).then done,
    completed, others, entries, otherScheds, marked, unmarked, fun dead => ?dead, fun live now => ?live,
    fun live late => ?late⟩
  case dead =>
    obtain ⟨entry, ntc, rep⟩ := untouched (if_neg fun h => dead h.1)
    exact ⟨entry.trans (retuned_of_other _ _ dead), ntc, rep⟩
  case live =>
    obtain ⟨entry, ntc, rep⟩ := untouched (if_neg fun h => now h.2)
    exact ⟨ntc, rep, entry.trans (retuned_of_live _ _ live)⟩
  case late =>
    have expired : t = expireQuiet n (v.retuneSet n x) := if_pos ⟨live, late⟩
    have muted := retuned_of_live s.tb.now f.params live
    refine ⟨?_, ?_, ?_⟩
    · have cell := (expireQuiet_asksCell n (v.retuneSet n x)).of_rep (set.rep.trans T.rep)
      exact (expired ▸ cell).then_rep done.rep
    · have notice := expireQuiet_asksNotice n (v.retuneSet n x)
      rw [State.AsksNotice, own, requestNotice_ntc_congr _ (Eq.trans (set.same .ntc) T.ntc),
        show (v.retuneSet n x).tb = s.tb from Eq.trans (set.same .tb) T.tb] at notice
      rw [State.AsksNotice, show (finish i .ok t).ntc = t.ntc from done.same .ntc, expired, notice]
      simp only [stationNotice, x, muted, e]
    · rw [done.entry, expired, expireQuiet_entry, if_pos rfl, own]
      simp only [x, muted]
      rfl

end Sys2Proof.Machine
end

section
/-! PROOFS. CANCEL: the job it matches, the item that leaves its queue, and the completions in their order. -/

set_option Elab.async false

namespace Sys2Proof.Machine

/-! ### The slot taken first (R108, R135) -/

/-- Of two taking numbers at most one comes before the other (R108). -/
theorem takenBefore_asymm {a b : Word} (h : takenBefore a b = true) : takenBefore b a = false := by
  simp only [takenBefore, reached, Bool.and_eq_true, bne_iff_ne, ne_eq, decide_eq_true_eq, BitVec.toNat_eq,
    BitVec.toNat_sub] at h
  simp only [takenBefore, reached, Bool.and_eq_false_iff, decide_eq_false_iff_not, BitVec.toNat_sub]
  omega

/-- A slot taken before every other one in the list is the one taken first. -/
theorem State.oldest_of_first {s : State} {k : Fin 16} {l : List (Fin 16)} (hk : k ∈ l)
    (first : ∀ m, m ∈ l → m ≠ k → takenBefore (s.takingNumber k) (s.takingNumber m) = true) :
    s.oldest l = some k := by
  induction l with
  | nil => cases hk
  | cons i rest ih =>
    have firstOf (m : Fin 16) (hm : m ∈ rest) := first m (List.mem_cons_of_mem i hm)
    unfold State.oldest
    by_cases own : i = k
    · subst own
      split
      · rfl
      · next m hm =>
        by_cases same : m = i
        · simp [same]
        · rw [takenBefore_asymm (firstOf m (s.oldest_mem _ _ hm) same)]
          rfl
    · have later : k ∈ rest := List.mem_of_ne_of_mem (Ne.symm own) hk
      rw [ih later firstOf]
      exact if_pos (first i List.mem_cons_self own)

/-- The slots that a taken CANCEL may match are those of the jobs that were there before it. -/
theorem State.JobTaken.mem_cancelCandidates {s v : State} {i k : Fin 16} {j : Job} (T : s.JobTaken v i j)
    (p : List Byte) : k ∈ v.cancelCandidates i (matchTag p) ↔ ∃ jk, k ≠ i ∧ s.slot k = some jk ∧
      jk.tag.toNat = leField p 0 2 ∧ jk.kindOf ≠ some .delist ∧ jk.kindOf ≠ some .hold := by
  have tag (x : Half) : x = matchTag p ↔ x.toNat = leField p 0 2 := by
    rw [BitVec.toNat_eq, matchTag, BitVec.toNat_ofNat, Nat.mod_eq_of_lt (show _ < 2 ^ 16 from leField_lt p 0 2)]
  rw [State.cancelCandidates, List.mem_filter, Bool.and_eq_true, bne_iff_ne]
  by_cases own : k = i
  · simp [own]
  · unfold State.slotIs
    rw [T.others k own]
    cases s.slot k <;> simp [slotIndices, own, tag, and_assoc]

/-! ### An item leaves its queue (R35, R36) -/

/-- Slot k's item has left line l's queue and its job is CANCELLED. -/
def State.itemCancelled (s : State) (l : Fin 4) (k : Fin 16) : State :=
  finish k .cancelled (s.setSched l ((s.scheduler l).keepOrders (· != k)))

/-- For an ORDER the hold of its entry is then checked. -/
theorem cancelItem_of_order {l : Fin 4} {k : Fin 16} {jk : Job} {n : Fin 64} {s : State} (hj : s.slot k = some jk)
    (kind : jk.kindOf = some .order) (target : targetEntry jk.target = some n) :
    cancelItem l k s = settleHold n (s.itemCancelled l k) := by
  simp only [cancelItem, hj, kind, target, if_true]
  rfl

/-- Without a hold pending there is no more to a cancelled item. -/
theorem cancelItem_of_no_hold {l : Fin 4} {k : Fin 16} {jk : Job} {s : State} (hj : s.slot k = some jk)
    (h : ∀ n, jk.kindOf = some .order → targetEntry jk.target = some n → (s.entry n).holdPending = false) :
    cancelItem l k s = s.itemCancelled l k := by
  by_cases order : jk.kindOf = some .order
  · cases target : targetEntry jk.target with
    | none =>
      simp only [cancelItem, hj, order, target, if_true]
      rfl
    | some n =>
      have pending : ((s.itemCancelled l k).entry n).holdPending = false := by
        rw [State.itemCancelled, (finish_frame ..).entry]
        exact h n order target
      rw [cancelItem_of_order hj order target, settleHold_of_not_pending _ _ pending]
  · simp only [cancelItem, hj, if_neg order]
    rfl

theorem State.queueOf_of_unique {s : State} {k : Fin 16} {l : Fin 4}
    (h : ∀ m, k ∈ (s.scheduler m).orderQueue ↔ m = l) : s.queueOf k = some l :=
  find_of_unique ((by decide : ∀ l : Fin 4, l ∈ lines) l) (by simp [h]) (by simp [h])

/-! ### What a CANCEL does (R135, R136) -/

section
variable {i k : Fin 16} {j : Job} {s : State}

theorem jobCancel_of_none (h : s.cancelCandidates i (matchTag j.params) = []) :
    jobCancel i j s = finish i .notFound s := by
  simp only [jobCancel, h, State.oldest]

variable {jk : Job} (first : s.oldest (s.cancelCandidates i (matchTag j.params)) = some k) (hj : s.slot k = some jk)
include first hj

theorem jobCancel_of_queued {l : Fin 4} (h : jk.state = .queued) (hq : s.queueOf k = some l) :
    jobCancel i j s = finish i .ok (cancelItem l k s) := by
  simp [jobCancel, first, State.slotIs, hj, h, hq]

theorem jobCancel_of_waiting (h : jk.state = .waiting) :
    jobCancel i j s = finish i .ok (finish k .cancelled s) := by
  simp [jobCancel, first, State.slotIs, hj, h]

theorem jobCancel_of_other (hq : jk.state ≠ .queued) (hw : jk.state ≠ .waiting) :
    jobCancel i j s = finish i .tooLate s := by
  simp [jobCancel, first, State.slotIs, hj, hq, hw]

end

section
variable {s v t : State} {i k : Fin 16} {j jk : Job} (T : s.JobTaken v i j) (hw : j.waitSet = []) (hk : k ≠ i)
  (hj : s.slot k = some jk) (hc : jk.state ≠ .completing) (h : Frame [.sched] v t)
include T hw hk hj hc h

/-- The matched job completes CANCELLED; the CANCEL's own stands, and every other slot is kept. -/
theorem State.JobTaken.cancels : (finish k .cancelled t).slot i = some j ∧
    (finish k .cancelled t).completedWith k jk ⟨.cancelled, 0, 0, []⟩ ∧
    ∀ m, m ≠ i → m ≠ k → s.SlotKept (finish k .cancelled t) m := by
  have slot (m : Fin 16) : t.slot m = v.slot m := State.slot_congr (h.same .slots).1 m
  have time : t.tb = s.tb := Eq.trans (h.same .tb) T.tb
  refine ⟨completeJob_slot_of_idle hk.symm ((slot i).trans T.slot) hw (T.validating ▸ nofun), ?_, fun m hi hm => ?_⟩
  · exact completeJob_completedWith k (.plain .cancelled) t jk ((slot k).trans ((T.others k hk).trans hj)) hc
  · have kept : s.SlotKept t m := .of_eq ((slot m).trans (T.others m hi))
    exact kept.completeJob time hm

/-- Then the CANCEL's own OK leaves that completion and the other slots as they are (R136). -/
theorem State.JobTaken.cancels_then_ends :
    (finish i .ok (finish k .cancelled t)).completedWith i j ⟨.ok, 0, 0, []⟩ ∧
    (finish i .ok (finish k .cancelled t)).completedWith k jk ⟨.cancelled, 0, 0, []⟩ ∧
    ∀ m, m ≠ i → m ≠ k → s.SlotKept (finish i .ok (finish k .cancelled t)) m := by
  obtain ⟨own, cancelled, others⟩ := T.cancels hw hk hj hc h
  have time : (finish k .cancelled t).tb = s.tb :=
    Eq.trans ((finish_frame ..).same .tb) (Eq.trans (h.same .tb) T.tb)
  exact ⟨completeJob_completedWith i (.plain .ok) _ j own (T.validating ▸ nofun), cancelled.completeJob,
    fun m hi hm => (others m hi hm).completeJob time hi⟩

end

/-- The Schedulers after an item has left its queue. -/
theorem State.itemCancelled_scheds (s : State) (l : Fin 4) (k : Fin 16) :
    (s.itemCancelled l k).scheduler l = { s.scheduler l with
      orderQueue := (s.scheduler l).orderQueue.filter (· != k),
      ordersInRow := if (s.scheduler l).orderQueue.filter (· != k) = [] then 0 else (s.scheduler l).ordersInRow } ∧
    s.OtherSchedsKept (s.itemCancelled l k) l := by
  refine ⟨?_, fun m hm => ?_⟩
  · rw [State.itemCancelled, (finish_frame ..).scheduler, State.scheduler_setSched_self]
    simp only [Sched.keepOrders, List.isEmpty_iff]
  · rw [State.itemCancelled, (finish_frame ..).scheduler]
    exact State.setSched_others _ _ _ m hm

/-- Settles O29: no match, and by the state of the matched job. -/
theorem cancelTaken : Obligations.CancelTaken := by
  intro f i a s w hm hp j candidate matched othersKept
  obtain ⟨v, T, run⟩ := w.taken .cancel hm hp
  refine ⟨fun none => ?none, fun k jk hmatch => ?some⟩
  case none =>
    have empty : v.cancelCandidates i (matchTag j.params) = [] := List.eq_nil_iff_forall_not_mem.mpr fun k hk => by
      obtain ⟨jk, hjk⟩ := (T.mem_cancelCandidates f.params).mp hk
      exact none k jk hjk
    exact T.ends (run.trans (by rw [JobKind.carriedOut, jobCancel_of_none empty]))
  case some =>
    obtain ⟨cand, before⟩ := hmatch
    obtain ⟨hk, hj, -⟩ := id cand
    have hjv : v.slot k = some jk := (T.others k hk).trans hj
    have first : v.oldest (v.cancelCandidates i (matchTag j.params)) = some k := by
      refine State.oldest_of_first ((T.mem_cancelCandidates f.params).mpr ⟨jk, cand⟩) fun m hm other => ?_
      obtain ⟨jm, own, slot, also⟩ := (T.mem_cancelCandidates f.params).mp hm
      have slotNow : v.slot m = some jm := (T.others m own).trans slot
      simpa only [State.takingNumber, hjv, slotNow] using before m jm ⟨own, slot, also⟩ other
    refine ⟨fun notQueued notWaiting => T.ends (run.trans ?_), fun waiting => ⟨finish k .cancelled v, ?_⟩, ?queued⟩
    · rw [JobKind.carriedOut, jobCancel_of_other first hjv notQueued notWaiting]
    · have frame := Frame.refl [.sched] v
      have hc : jk.state ≠ .completing := waiting ▸ nofun
      obtain ⟨own, cancelled, others⟩ := T.cancels rfl hk hj hc frame
      refine ⟨run.trans ?_, (T.frame.then (l := [.chain, .slots, .port]) (finish_frame ..)).then (finish_frame ..), own,
        cancelled, others, T.cancels_then_ends rfl hk hj hc frame⟩
      rw [JobKind.carriedOut, jobCancel_of_waiting first hjv waiting]
      rfl
    case queued =>
      intro l queued unique q rest left
      have hc : jk.state ≠ .completing := queued ▸ nofun
      have found : v.queueOf k = some l := State.queueOf_of_unique fun m => by rw [T.scheduler]; exact unique m
      have leaves := State.setSched_frame v l ((v.scheduler l).keepOrders (· != k))
      have cancels := jobCancel_of_queued first hjv queued found
      obtain ⟨own, cancelled, others⟩ := T.cancels rfl hk hj hc leaves
      have framed : Frame [.chain, .slots, .port, .sched] s (v.itemCancelled l k) :=
        (T.frame.then (l := [.chain, .slots, .port, .sched]) leaves).then (finish_frame ..)
      obtain ⟨leftIs, otherScheds⟩ := v.itemCancelled_scheds l k
      rw [T.scheduler] at leftIs
      have schedsKept : s.OtherSchedsKept (v.itemCancelled l k) l := fun m hm =>
        (otherScheds m hm).trans (T.scheduler m)
      refine ⟨fun n order target pending => ⟨v.itemCancelled l k, run.trans ?_, framed, own, cancelled, others, leftIs,
        schedsKept⟩, fun free => ⟨v.itemCancelled l k, run.trans ?_, framed.then (finish_frame ..), own, cancelled,
        others, ?_⟩⟩
      · rw [JobKind.carriedOut, cancels, cancelItem_of_order hjv order target]
        rfl
      · rw [JobKind.carriedOut, cancels, cancelItem_of_no_hold hjv fun n order target => by
          rw [T.entry]; exact free n order target]
        rfl
      · obtain ⟨ended, stays, rest⟩ := T.cancels_then_ends rfl hk hj hc leaves
        have done := completeJob_frame i (.plain .ok) (v.itemCancelled l k)
        exact ⟨ended, stays, rest, (done.scheduler l).trans leftIs,
          fun m hm => (done.scheduler m).trans (schedsKept m hm)⟩

end Sys2Proof.Machine
end

section
/-! PROOFS. HOLD and RELEASE: an entry that is HELD at once, a hold that waits, and the ORDERs that R39 drops. -/

set_option Elab.async false

namespace Sys2Proof.Machine

/-! ### The ORDERs that a taken job finds queued -/

section
variable {s v : State} {i k : Fin 16} {j : Job} {n : Fin 64} (T : s.JobTaken v i j) (free : s.slot i = none)
  (kind : j.kindOf ≠ some .order)
include T free kind

theorem State.JobTaken.isOrderFor : v.isOrderFor n k = s.isOrderFor n k := by
  by_cases own : k = i
  · simp [State.isOrderFor, State.slotIs, own, T.slot, free, kind]
  · exact State.isOrderFor_congr (T.others k own)

theorem State.JobTaken.orderQueued : v.orderQueued n k ↔ s.orderQueued n k := by
  rw [State.orderQueued, T.isOrderFor free kind, T.entry, T.scheduler]
  rfl

end

/-- An ORDER for the entry is queued beside a FREE slot. -/
theorem State.orderQueued_iff {s : State} {i : Fin 16} {n : Fin 64} (free : s.slot i = none) :
    (∃ k, s.orderQueued n k) ↔ ∃ k jk, k ∈ (s.scheduler (s.entry n).line).orderQueue ∧ k ≠ i ∧
      s.slot k = some jk ∧ jk.kindOf = some .order ∧ targetEntry jk.target = some n := by
  refine exists_congr fun k => ?_
  rw [State.orderQueued, State.isOrderFor_iff]
  exact ⟨fun ⟨queued, jk, slot, order⟩ => ⟨jk, queued, State.ne_of_slot_free free slot, slot, order⟩,
    fun ⟨jk, queued, _, order⟩ => ⟨queued, jk, order⟩⟩

/-! ### What holds are checked for (R23, R39) -/

section
variable {n : Fin 64} {s : State}

theorem orderWrongState_of_free (h : (s.entry n).latch = false ∨ (s.entry n).busy = true) :
    orderWrongState n s = s := by
  rcases h with h | h <;> simp [orderWrongState, h]

theorem orderWrongState_of_locked (hp : (s.entry n).holdPending = true) (hl : (s.entry n).latch = true)
    (hf : n ∈ (s.scheduler (s.entry n).line).fetchQueue) (hb : (s.entry n).busy = false) (ho : s.hasOrder n = true) :
    orderWrongState n s = dropOrders n .wrongState s := by
  simp [orderWrongState, hp, hl, hf, hb, ho]

theorem checkHold_of_waiting (h : (s.entry n).busy = true ∨ s.hasOrder n = true) : checkHold n s = s := by
  rcases h with h | h <;> simp [checkHold, h]

theorem checkHold_of_clear (hp : (s.entry n).holdPending = true) (hb : (s.entry n).busy = false)
    (ho : s.hasOrder n = false) : checkHold n s = completeWaiting .hold n .ok (becomeHeld n s) := by
  simp [checkHold, hp, hb, ho]

theorem becomeHeld_entry (m : Fin 64) : (becomeHeld n s).entry m = if n = m then
    { s.entry n with state := .held, holdPending := false, quietDeadline := none } else s.entry m := by
  rw [becomeHeld, (requestCell_frame ..).entry, State.entry_setEntry]

theorem becomeHeld_asksCell : s.AsksCell (becomeHeld n s) n := requestCell_asks n _

/-- HELD with no hold pending before: the flag need not be written. -/
theorem Entry.held_of_not_pending {e : Entry} (h : e.holdPending = false) :
    { e with state := .held, holdPending := false, quietDeadline := none } =
      { e with state := .held, quietDeadline := none } := by
  rw [← h]

end

/-- What the going of the ORDERs says depends on the Schedulers and on which slots hold them. -/
theorem State.OrdersGone.congr {s s' u u' : State} {l : Fin 4} {n : Fin 64} (h : s'.OrdersGone u' l n)
    (hs : s'.sched = s.sched) (ho : ∀ k, s'.isOrderFor n k = s.isOrderFor n k) (hu : u.sched = u'.sched) :
    s.OrdersGone u l n := by
  have orders : (fun k => !s'.slotIs k (fun j => j.kindOf == some .order && targetEntry j.target == some n)) =
      fun k => !s.slotIs k (fun j => j.kindOf == some .order && targetEntry j.target == some n) :=
    funext fun k => congrArg _ (ho k)
  simp only [State.OrdersGone, State.scheduler, orders, hs, ← hu] at h
  exact h

/-! ### HOLD (R22, R128) -/

/-- Entry n has hold pending and its HOLD, the job j, waits in slot i. -/
def State.holdPends (s : State) (i : Fin 16) (j : Job) (n : Fin 64) : State :=
  (s.setEntry n { s.entry n with holdPending := true }).setSlot i (some { j with state := .waiting })

theorem jobHold_of_entry {i : Fin 16} {j : Job} {s : State} {n : Fin 64} (hj : s.slot i = some j)
    (ht : targetEntry j.target = some n) : jobHold i j s =
      if (s.entry n).state = .vacant ∨ (s.entry n).state = .leaving then finish i .notEnlisted s
      else if (s.entry n).state = .held ∨ (s.entry n).holdPending = true then finish i .wrongState s
      else if ¬ ((s.entry n).busy = true ∨ s.hasOrder n = true) then finish i .ok (becomeHeld n s)
      else settleHold n (s.holdPends i j n) := by
  have waits : setSlotState i .waiting (s.setEntry n { s.entry n with holdPending := true }) = s.holdPends i j n := by
    simp only [setSlotState, State.modSlot, State.slot_setEntry_eq, hj]
    rfl
  simp only [jobHold, ht, waits]
  cases s.hasOrder n <;> cases (s.entry n).busy <;> simp

section
variable {s v : State} {i : Fin 16} {j : Job} {n : Fin 64} (T : s.JobTaken v i j)

section
include T

theorem State.JobTaken.holdPends_frame : Frame [.chain, .slots, .port, .entries] s (v.holdPends i j n) :=
  (T.frame.then (l := [.chain, .slots, .port, .entries]) (State.setEntry_frame ..)).then (State.setSlot_frame ..)

theorem State.JobTaken.holdPends_slot (k : Fin 16) :
    (v.holdPends i j n).slot k = if k = i then some { j with state := .waiting } else s.slot k := by
  rw [State.holdPends, State.slot_setSlot, State.slot_setEntry_eq]
  by_cases own : k = i
  · rw [if_pos own, if_pos own.symm]
  · rw [if_neg own, if_neg (Ne.symm own), T.others k own]

theorem State.JobTaken.holdPends_entry (m : Fin 64) : (v.holdPends i j n).entry m =
    if n = m then { s.entry n with holdPending := true } else s.entry m := by
  rw [State.holdPends, State.entry_setSlot_eq, State.entry_setEntry, T.entry, T.entry]

end

variable (free : s.slot i = none) (kind : j.kindOf = some .hold) (target : targetEntry j.target = some n)
include T free kind

theorem State.JobTaken.holdPends_isOrderFor (k : Fin 16) :
    (v.holdPends i j n).isOrderFor n k = s.isOrderFor n k := by
  have notOrder : Job.kindOf { j with state := .waiting } ≠ some .order := by
    rw [show Job.kindOf { j with state := .waiting } = some .hold from kind]
    decide
  unfold State.isOrderFor State.slotIs
  rw [T.holdPends_slot]
  by_cases own : k = i
  · simp [own, free, notOrder]
  · rw [if_neg own]

theorem State.JobTaken.holdPends_orderQueued (k : Fin 16) :
    (v.holdPends i j n).orderQueued n k ↔ s.orderQueued n k := by
  rw [State.orderQueued, T.holdPends_isOrderFor free kind, T.holdPends_entry, if_pos rfl,
    T.holdPends_frame.scheduler]
  rfl

theorem State.JobTaken.holdPends_hasOrder :
    (v.holdPends i j n).hasOrder n = true ↔ ∃ k, s.orderQueued n k := by
  rw [State.hasOrder_iff]
  exact exists_congr (T.holdPends_orderQueued free kind)

/-- The entry's ORDERs dropped by R39, before the hold is checked again. -/
theorem State.JobTaken.dropped_own (r : JobResult) :
    (v.holdPends i j n).SlotKept (dropOrders n r (v.holdPends i j n)) i :=
  dropOrders_slotKept fun h => by
    rw [T.holdPends_orderQueued free kind, State.orderQueued, State.isOrderFor, State.slotIs, free] at h
    cases h.2

include target in
/-- The deadlock of R39: the ORDERs go, then the entry is HELD and its one HOLD completes OK. -/
theorem State.JobTaken.settleHold_locked (latch : (s.entry n).latch = true) (idle : (s.entry n).busy = false)
    (fetch : n ∈ (s.scheduler (s.entry n).line).fetchQueue) (order : ∃ k, s.orderQueued n k)
    (one : ∀ k jk, s.slot k = some jk → jk.kindOf = some .hold → targetEntry jk.target ≠ some n) :
    settleHold n (v.holdPends i j n) =
      completeJob i (.plain .ok) (becomeHeld n (dropOrders n .wrongState (v.holdPends i j n))) := by
  have entry := (T.holdPends_entry (n := n) n).trans (if_pos rfl)
  have waits : (v.holdPends i j n).waitsFor .hold n i = true :=
    State.waitsFor_iff.mpr ⟨_, (T.holdPends_slot i).trans (if_pos rfl), rfl, kind, target⟩
  have locked : orderWrongState n (v.holdPends i j n) = dropOrders n .wrongState (v.holdPends i j n) :=
    orderWrongState_of_locked (by rw [entry]) (by rw [entry, ← latch]) (by rwa [entry, T.holdPends_frame.scheduler])
      (by rw [entry, ← idle]) ((T.holdPends_hasOrder free kind).mpr order)
  have dropped := (dropOrders_frame n .wrongState (v.holdPends i j n)).entry n
  rw [settleHold, locked,
    checkHold_of_clear (by rw [dropped, entry]) (by rw [dropped, entry, ← idle]) dropOrders_hasOrder]
  have slots (k : Fin 16) : (becomeHeld n (dropOrders n .wrongState (v.holdPends i j n))).slot k =
      (dropOrders n .wrongState (v.holdPends i j n)).slot k := State.slot_congr ((becomeHeld_frame ..).same .slots).1 k
  refine completeWaiting_of_unique ?_ fun m hm => ?_
  · rw [State.waitsFor_congr (slots i)]
    exact (T.dropped_own free kind _).waitsFor_after nofun waits
  · rw [State.waitsFor_congr (slots m)] at hm
    obtain ⟨jm, slot, -, hold, entryIs⟩ := State.waitsFor_iff.mp (dropOrders_waitsFor hm)
    by_cases own : m = i
    · exact own
    · exact absurd entryIs (one m jm (by rwa [T.holdPends_slot, if_neg own] at slot) hold)

end

/-- What a locked HOLD leaves (R39, R23). -/
theorem State.JobTaken.holdLocked {s v : State} {i : Fin 16} {j : Job} {n : Fin 64} (T : s.JobTaken v i j)
    (free : s.slot i = none) (kind : j.kindOf = some .hold) (pending : (s.entry n).holdPending = false) :
    let u := completeJob i (.plain .ok) (becomeHeld n (dropOrders n .wrongState (v.holdPends i j n)))
    Frame [.chain, .slots, .port, .entries, .sched, .cells] s u ∧ u.completedWith i j ⟨.ok, 0, 0, []⟩ ∧
      s.OtherEntriesKept u n ∧ s.AsksCell u n ∧
      u.entry n = { s.entry n with state := .held, quietDeadline := none } ∧
      s.OrdersGone u (s.entry n).line n ∧
      ∀ k jk, k ∈ (s.scheduler (s.entry n).line).orderQueue → s.slot k = some jk → jk.state = .queued →
        jk.kindOf = some .order → targetEntry jk.target = some n →
        u.completedWith k jk ⟨.wrongState, 0, 0, []⟩ ∧ k ∉ (u.scheduler (s.entry n).line).orderQueue := by
  intro u
  have y := T.holdPends_frame (n := n)
  have dropped := dropOrders_frame n .wrongState (v.holdPends i j n)
  have held := becomeHeld_frame n (dropOrders n .wrongState (v.holdPends i j n))
  have done := completeJob_frame i (.plain .ok) (becomeHeld n (dropOrders n .wrongState (v.holdPends i j n)))
  have pendEntry (m : Fin 64) := T.holdPends_entry (n := n) m
  have slots (k : Fin 16) : (becomeHeld n (dropOrders n .wrongState (v.holdPends i j n))).slot k =
      (dropOrders n .wrongState (v.holdPends i j n)).slot k := State.slot_congr (held.same .slots).1 k
  have entry (m : Fin 64) : u.entry m = if n = m then { s.entry n with state := .held, quietDeadline := none }
      else s.entry m := by
    rw [done.entry, becomeHeld_entry, dropped.entry, dropped.entry, pendEntry, pendEntry, if_pos rfl]
    split
    · exact Entry.held_of_not_pending pending
    · rfl
  have gone : s.OrdersGone u (s.entry n).line n := by
    have drops := dropOrders_ordersGone n .wrongState (v.holdPends i j n)
    rw [pendEntry, if_pos rfl] at drops
    exact drops.congr (y.same .sched) (T.holdPends_isOrderFor free kind)
      (Eq.trans (done.same .sched) (held.same .sched))
  refine ⟨((y.then (l := [.chain, .slots, .port, .entries, .sched, .cells]) dropped).then
    (l := [.chain, .slots, .port, .entries, .sched, .cells]) held).then done, ?_,
    fun m hm => (entry m).trans (if_neg hm.symm), ?_, (entry n).trans (if_pos rfl), gone,
    fun k jk queued slot state order target => ⟨?_, ?_⟩⟩
  · rcases (T.dropped_own free kind .wrongState).2 _ ((T.holdPends_slot i).trans (if_pos rfl)) with
      ⟨w, hw⟩ | ⟨-, mark, -⟩
    · have completed := completeJob_completedWith i (.plain .ok) _ _ ((slots i).trans hw) nofun
      exact completed
    · exact absurd (kind.symm.trans mark) (by decide)
  · exact ((becomeHeld_asksCell).of_rep (dropped.rep.trans y.rep)).then_rep done.rep
  · have own := State.ne_of_slot_free free slot
    have drops : (dropOrders n .wrongState (v.holdPends i j n)).completedWith k jk ⟨.wrongState, 0, 0, []⟩ :=
      dropOrders_completedWith
        ((T.holdPends_orderQueued free kind k).mpr ⟨queued, State.isOrderFor_iff.mpr ⟨jk, slot, order, target⟩⟩)
        (((T.holdPends_slot k).trans (if_neg own)).trans slot) (state ▸ nofun) (state ▸ nofun)
    exact (drops.kept (.of_eq (slots k)) (held.same .tb)).completeJob
  · rw [gone.1]
    simp [State.slotIs, slot, order, target]

/-- Settles O26: a HOLD by its checks and by what it waits for, and a RELEASE by the entry's state. -/
theorem holdAndReleaseTaken : Obligations.HoldAndReleaseTaken := by
  refine ⟨?hold, ?release⟩
  case release =>
    intro f n i a s w hm hp target j
    obtain ⟨v, T, run⟩ := w.taken .release hm hp
    have found : targetEntry j.target = some n := targetEntry_of target
    have checks : JobKind.release.carriedOut i j v =
        if (s.entry n).state ≠ .held then finish i .wrongState v
        else finish i .ok (requestCell n (v.setEntry n { s.entry n with state := .joining, dueTime := s.tb.now })) := by
      simp only [JobKind.carriedOut, jobRelease, found, T.entry, T.tb]
    rw [checks] at run
    refine ⟨fun other => T.ends ?_, fun held => T.setsEntry ?_⟩
    · rwa [if_pos other] at run
    · rwa [if_neg (not_not_intro held)] at run
  case hold =>
    intro f n i a s w hm hp target j e waits
    obtain ⟨v, T, run⟩ := w.taken .hold hm hp
    have found : targetEntry j.target = some n := targetEntry_of target
    have free := w.slot_free
    have order : v.hasOrder n = true ↔ ∃ k, s.orderQueued n k :=
      State.hasOrder_iff.trans (exists_congr fun k => T.orderQueued free nofun)
    have waitsIff : (e.busy = true ∨ v.hasOrder n = true) ↔ waits :=
      or_congr_right (order.trans (State.orderQueued_iff free))
    have checks : JobKind.hold.carriedOut i j v =
        if e.state = .vacant ∨ e.state = .leaving then finish i .notEnlisted v
        else if e.state = .held ∨ e.holdPending = true then finish i .wrongState v
        else if ¬ (e.busy = true ∨ v.hasOrder n = true) then finish i .ok (becomeHeld n v)
        else settleHold n (v.holdPends i j n) := by
      rw [JobKind.carriedOut, jobHold_of_entry T.slot found, T.entry]
    rw [checks] at run
    refine ⟨fun gone => T.ends ?_, fun held => T.ends ?_, fun called unheld =>
      ⟨fun idle => ?_, fun busy unlocked => ?_, fun busy latch idle fetch one => ?_⟩⟩
    · rwa [if_pos gone] at run
    · rwa [if_neg (by grind), if_pos (by grind)] at run
    all_goals rw [if_neg (by grind), if_neg (by grind)] at run
    · rw [if_pos (mt waitsIff.mp idle), becomeHeld, T.entry, Entry.held_of_not_pending unheld] at run
      exact T.setsEntry run
    · have busy := waitsIff.mpr busy
      have entry := (T.holdPends_entry (n := n) n).trans (if_pos rfl)
      have rests : settleHold n (v.holdPends i j n) = v.holdPends i j n := by
        rw [settleHold, orderWrongState_of_free (entry ▸ unlocked), checkHold_of_waiting]
        rwa [entry, T.holdPends_hasOrder free rfl, ← order]
      rw [if_neg (not_not_intro busy), rests] at run
      exact ⟨_, run, T.holdPends_frame, (T.holdPends_slot i).trans (if_pos rfl),
        fun k hk => (T.holdPends_slot k).trans (if_neg hk),
        fun m hm => (T.holdPends_entry m).trans (if_neg hm.symm), entry⟩
    · have busy := waitsIff.mpr busy
      rw [if_neg (not_not_intro busy)] at run
      rw [T.settleHold_locked free rfl found latch idle fetch (order.mp (busy.resolve_left (idle ▸ nofun))) one] at run
      exact ⟨_, run, T.holdLocked free rfl unheld⟩

end Sys2Proof.Machine
end

section
/-! PROOFS. DELIST: what it clears at the entry's line, the completions before its own, and the entry's end. -/

set_option Elab.async false

namespace Sys2Proof.Machine

/-! ### The line that an entry leaves (R20, R35, R84) -/

/-- Entry n's ORDERs, its fetch and its slots are gone from its line, its latch and its hold pending are cleared; a HOLD
that waits for it still waits. -/
def State.leftLine (s : State) (n : Fin 64) : State :=
  let d := dropOrders n .stationGone s
  let e := s.entry n
  let q := d.scheduler e.line
  let g := s.engine e.line
  ((d.setSched e.line { q with fetchQueue := q.fetchQueue.filter (· != n) }).setEngine e.line
    { g with slots := g.slots.map (fun r => if r.entry = n then { r with void := true } else r) }).setEntry n
    { e with latch := false, holdPending := false }

section
variable (s : State) (n : Fin 64)

theorem clearGround_eq : clearGround n s = if (s.entry n).holdPending = true then
    completeWaiting .hold n .stationGone (s.leftLine n) else s.leftLine n := by
  have dropped := dropOrders_frame n .stationGone s
  simp only [clearGround, dropped.entry, dropped.engine]
  rfl

theorem State.leftLine_frame : Frame [.sched, .slots, .eng, .entries] s (s.leftLine n) :=
  (((dropOrders_frame n .stationGone s).then (l := [.sched, .slots, .eng, .entries]) (State.setSched_frame ..)).then
    (l := [.sched, .slots, .eng, .entries]) (State.setEngine_frame ..)).then (State.setEntry_frame ..)

theorem State.leftLine_entry (m : Fin 64) : (s.leftLine n).entry m =
    if n = m then { s.entry n with latch := false, holdPending := false } else s.entry m := by
  rw [State.leftLine, State.entry_setEntry, State.entry_setEngine_eq, State.entry_setSched_eq,
    (dropOrders_frame ..).entry]

theorem State.leftLine_engine : (s.leftLine n).engine (s.entry n).line = { s.engine (s.entry n).line with
      slots := (s.engine (s.entry n).line).slots.map (fun r => if r.entry = n then { r with void := true } else r) } ∧
    s.OtherEnginesKept (s.leftLine n) (s.entry n).line := by
  refine ⟨State.engine_setEngine_self .., fun m hm => ?_⟩
  have other := State.setEngine_others (dropOrders n .stationGone s) (s.entry n).line
  exact Eq.trans (other _ m hm) ((dropOrders_frame ..).engine m)

theorem State.leftLine_scheduler : (s.leftLine n).scheduler (s.entry n).line = { s.scheduler (s.entry n).line with
      orderQueue := (s.scheduler (s.entry n).line).orderQueue.filter (fun k => !s.isOrderFor n k),
      fetchQueue := (s.scheduler (s.entry n).line).fetchQueue.filter (· != n),
      ordersInRow := if (s.scheduler (s.entry n).line).orderQueue.filter (fun k => !s.isOrderFor n k) = [] then 0
        else (s.scheduler (s.entry n).line).ordersInRow } ∧
    s.OtherSchedsKept (s.leftLine n) (s.entry n).line := by
  obtain ⟨own, others⟩ := dropOrders_ordersGone n .stationGone s
  refine ⟨?_, fun m hm => ?_⟩
  · rw [State.leftLine, State.scheduler_setEntry_eq, State.scheduler_setEngine_eq, State.scheduler_setSched_self, own]
    rfl
  · rw [State.leftLine, State.scheduler_setEntry_eq, State.scheduler_setEngine_eq,
      State.setSched_others _ _ _ m hm, others m hm]

theorem clearGround_leftLine : Frame [.slots] (s.leftLine n) (clearGround n s) := by
  rw [clearGround_eq]
  exact Frame.ite (completeWaiting_frame ..) (Frame.refl ..)

end

/-! ### The jobs that a DELIST ends (R20, R126) -/

/-- Beside slot i, the queued ORDERs of entry n and the one HOLD that waits for it are completed STATION_GONE in u, and
every other job of s stands. -/
structure State.GroundCleared (s u : State) (i : Fin 16) (n : Fin 64) : Prop where
  orders : ∀ k jk, s.orderQueued n k → s.slot k = some jk → jk.state = .queued →
    u.completedWith k jk ⟨.stationGone, 0, 0, []⟩
  hold : ∀ k jk, (s.entry n).holdPending = true → s.slot k = some jk → s.waitsFor .hold n k = true →
    (∀ m, s.waitsFor .hold n m = true → m = k) → u.completedWith k jk ⟨.stationGone, 0, 0, []⟩
  others : ∀ k, k ≠ i → ¬ s.orderQueued n k → ¬ ((s.entry n).holdPending = true ∧ s.waitsFor .hold n k = true) →
    s.SlotKept u k

/-- What comes after and keeps the other slots changes nothing of it. -/
theorem State.GroundCleared.later {s u t : State} {i : Fin 16} {n : Fin 64} (h : s.GroundCleared u i n)
    (free : s.slot i = none) (kept : ∀ k, k ≠ i → u.SlotKept t k) (now : u.tb = s.tb) (time : t.tb = s.tb) :
    s.GroundCleared t i n := by
  have inUse {k : Fin 16} {jk : Job} (hj : s.slot k = some jk) : k ≠ i := State.ne_of_slot_free free hj
  exact ⟨fun k jk order hj queued => (h.orders k jk order hj queued).kept (kept k (inUse hj)) (time.trans now.symm),
    fun k jk pending hj waits one => (h.hold k jk pending hj waits one).kept (kept k (inUse hj)) (time.trans now.symm),
    fun k hk order waits => (h.others k hk order waits).then (kept k hk) now time⟩

/-- A job that waits for an entry with a HOLD is no ORDER for it. -/
theorem State.not_orderQueued_of_waits {s : State} {n : Fin 64} {k : Fin 16} (h : s.waitsFor .hold n k = true) :
    ¬ s.orderQueued n k := fun ⟨_, order⟩ => by
  obtain ⟨j, hj, -, hold, -⟩ := State.waitsFor_iff.mp h
  obtain ⟨j', hj', kind, -⟩ := State.isOrderFor_iff.mp order
  cases hj.symm.trans hj'
  cases hold.symm.trans kind

section
variable {s v : State} {i : Fin 16} {j : Job} {n : Fin 64} (T : s.JobTaken v i j) (free : s.slot i = none)

section
include T free

theorem State.JobTaken.waitsFor {K : JobKind} {k : Fin 16} : v.waitsFor K n k = s.waitsFor K n k := by
  by_cases own : k = i
  · simp [State.waitsFor, State.slotIs, own, T.slot, free, T.validating]
  · exact State.waitsFor_congr (T.others k own)

theorem State.JobTaken.leftLine_waitsFor {k : Fin 16} (h : (v.leftLine n).waitsFor .hold n k = true) :
    s.waitsFor .hold n k = true :=
  T.waitsFor free ▸ dropOrders_waitsFor h

variable (kind : j.kindOf ≠ some .order)
include kind

theorem State.JobTaken.leftLine_slotKept {k : Fin 16} (hk : k ≠ i) (h : ¬ s.orderQueued n k) :
    s.SlotKept (v.leftLine n) k := by
  have dropped : v.SlotKept (dropOrders n .stationGone v) k := dropOrders_slotKept (mt (T.orderQueued free kind).mp h)
  have kept := (T.slotKept hk).then dropped T.tb (Eq.trans ((dropOrders_frame ..).same .tb) T.tb)
  exact kept

theorem State.JobTaken.clearGround_cleared : s.GroundCleared (clearGround n v) i n := by
  have time : (v.leftLine n).tb = s.tb := Eq.trans ((v.leftLine_frame n).same .tb) T.tb
  rw [clearGround_eq, T.entry]
  refine ⟨fun k jk order hj queued => ?orders, fun k jk pending hj waits one => ?hold, fun k hk order waits => ?others⟩
  case orders =>
    have own := State.ne_of_slot_free free hj
    have drops : (v.leftLine n).completedWith k jk ⟨.stationGone, 0, 0, []⟩ :=
      dropOrders_completedWith ((T.orderQueued free kind).mpr order) ((T.others k own).trans hj) (queued ▸ nofun)
        (queued ▸ nofun)
    split
    · exact completeWaiting_completedWith drops
    · exact drops
  case hold =>
    have own := State.ne_of_slot_free free hj
    have kept := T.leftLine_slotKept free kind own (State.not_orderQueued_of_waits waits)
    rw [if_pos pending, completeWaiting_of_unique (kept.waitsFor_after (K := .hold) nofun waits)
      fun m hm => one m (T.leftLine_waitsFor free hm)]
    obtain ⟨_, slot, waiting, hold, -⟩ := State.waitsFor_iff.mp waits
    cases hj.symm.trans slot
    rcases kept.2 jk hj with ⟨w, hw⟩ | ⟨-, mark, -⟩
    · have completed := completeJob_completedWith k (.plain .stationGone) _ _ hw (waiting ▸ nofun)
      exact completed
    · cases hold.symm.trans mark
  case others =>
    have kept := T.leftLine_slotKept free kind hk order
    split
    · next pending =>
      have still : (v.leftLine n).waitsFor .hold n k ≠ true := fun h =>
        waits ⟨pending, T.leftLine_waitsFor free h⟩
      exact kept.then (completeWaiting_slotKept still) time (Eq.trans ((completeWaiting_frame ..).same .tb) time)
    · exact kept

/-- The DELIST itself stands while the ground is cleared. -/
theorem State.JobTaken.clearGround_own (hw : j.waitSet = []) : (clearGround n v).slot i = some j := by
  have idle : j.state ≠ .waiting := T.validating ▸ nofun
  have notOrder : ¬ v.orderQueued n i := fun ⟨_, h⟩ => by
    rw [T.isOrderFor free kind, State.isOrderFor, State.slotIs, free] at h
    cases h
  have stands : (v.leftLine n).slot i = some j := dropOrders_slot_of_idle notOrder T.slot hw idle
  rw [clearGround_eq]
  split
  · exact completeWaiting_slot_of_idle stands hw idle
  · exact stands

end
end

/-! ### The entry's end (R20, R21) -/

section
variable (n : Fin 64) (s : State)

theorem becomeVacant_entry (m : Fin 64) : (becomeVacant n s).entry m = if n = m then Entry.vacant else s.entry m := by
  rw [becomeVacant, (requestCell_frame ..).entry, State.entry_setEntry, (requestNotice_frame ..).entry]

theorem becomeVacant_asksCell : s.AsksCell (becomeVacant n s) n :=
  (requestCell_asks n _).of_rep (requestNotice_frame ..).rep

theorem becomeVacant_ntc : (becomeVacant n s).ntc =
    (requestNotice (stationNotice .left n (s.entry n) s.tb.now []) s).ntc :=
  (requestCell_frame ..).same .ntc

end

/-- The entry while its call is on the wire (R20). -/
def Entry.leaving (e : Entry) : Entry :=
  { e with state := .leaving, quietDeadline := none, latch := false, holdPending := false }

/-- With the ground cleared, entry n, which was e, goes LEAVING and the DELIST waits, or it is VACANT at once and the
DELIST completes. -/
def State.delisted (s : State) (i : Fin 16) (j : Job) (n : Fin 64) (e : Entry) : State :=
  if e.busy = true then (s.setEntry n e.leaving).setSlot i (some { j with state := .waiting })
  else finish i .ok (becomeVacant n s)

section
variable (s : State) (i : Fin 16) (j : Job) (n : Fin 64) (e : Entry)

variable {e} in
theorem State.delisted_of_busy (h : e.busy = true) :
    s.delisted i j n e = (s.setEntry n e.leaving).setSlot i (some { j with state := .waiting }) := if_pos h

variable {e} in
theorem State.delisted_of_idle (h : e.busy = false) : s.delisted i j n e = finish i .ok (becomeVacant n s) :=
  if_neg (h ▸ Bool.false_ne_true)

theorem State.delisted_frame : Frame [.slots, .entries, .ntc, .cells] s (s.delisted i j n e) :=
  Frame.ite ((State.setEntry_frame ..).then (State.setSlot_frame ..)) ((becomeVacant_frame ..).then (finish_frame ..))

theorem State.delisted_slotKept {k : Fin 16} (hk : k ≠ i) : s.SlotKept (s.delisted i j n e) k := by
  unfold State.delisted
  split
  · exact .of_eq ((State.slot_setSlot ..).trans (if_neg hk.symm))
  · have vacates := becomeVacant_frame n s
    have kept : s.SlotKept (becomeVacant n s) k := .of_eq (State.slot_congr (vacates.same .slots).1 k)
    exact kept.completeJob (vacates.same .tb) hk

theorem State.delisted_entry (m : Fin 64) : (s.delisted i j n e).entry m =
    if n = m then if e.busy = true then e.leaving else Entry.vacant else s.entry m := by
  unfold State.delisted
  split
  · rw [State.entry_setSlot_eq, State.entry_setEntry]
  · rw [(finish_frame ..).entry, becomeVacant_entry]

end

theorem clearGround_entry (n m : Fin 64) (s : State) : (clearGround n s).entry m =
    if n = m then { s.entry n with latch := false, holdPending := false } else s.entry m := by
  rw [(clearGround_leftLine s n).entry, State.leftLine_entry]

/-- A DELIST of an entry that is enlisted (R126). -/
theorem jobDelist_of_entry {i : Fin 16} {j : Job} {s : State} {n : Fin 64} (ht : targetEntry j.target = some n)
    (own : (clearGround n s).slot i = some j) : jobDelist i j s =
      if (s.entry n).state = .vacant ∨ (s.entry n).state = .leaving then finish i .notEnlisted s
      else (clearGround n s).delisted i j n (s.entry n) := by
  have entry := (clearGround_entry n n s).trans (if_pos rfl)
  simp only [jobDelist, ht, entry, setSlotState, State.modSlot, State.slot_setEntry_eq, own]
  rfl

/-- What a DELIST leaves of the line and of the other jobs, whatever it makes of the entry. -/
theorem State.JobTaken.delists {s v u : State} {i : Fin 16} {j : Job} {n : Fin 64} (T : s.JobTaken v i j)
    (free : s.slot i = none) (kind : j.kindOf ≠ some .order)
    (h : Frame [.slots, .entries, .ntc, .cells] (clearGround n v) u)
    (kept : ∀ k, k ≠ i → (clearGround n v).SlotKept u k) :
    Frame [.chain, .slots, .port, .entries, .sched, .eng, .ntc, .cells] s u ∧ s.GroundCleared u i n ∧
      u.scheduler (s.entry n).line = { s.scheduler (s.entry n).line with
        orderQueue := (s.scheduler (s.entry n).line).orderQueue.filter (fun k => !s.isOrderFor n k),
        fetchQueue := (s.scheduler (s.entry n).line).fetchQueue.filter (· != n),
        ordersInRow := if (s.scheduler (s.entry n).line).orderQueue.filter (fun k => !s.isOrderFor n k) = [] then 0
          else (s.scheduler (s.entry n).line).ordersInRow } ∧
      s.OtherSchedsKept u (s.entry n).line ∧
      u.engine (s.entry n).line = { s.engine (s.entry n).line with
        slots := (s.engine (s.entry n).line).slots.map (fun r => if r.entry = n then { r with void := true } else r) } ∧
      s.OtherEnginesKept u (s.entry n).line := by
  have cleared := clearGround_leftLine v n
  have left : Frame [.sched, .slots, .eng, .entries] v (clearGround n v) := (v.leftLine_frame n).then cleared
  have now : (clearGround n v).tb = s.tb := Eq.trans (left.same .tb) T.tb
  obtain ⟨queues, scheds⟩ := v.leftLine_scheduler n
  obtain ⟨slots, engines⟩ := v.leftLine_engine n
  have orders : v.isOrderFor n = s.isOrderFor n := funext fun k => T.isOrderFor free kind
  rw [T.entry, T.scheduler, orders] at queues
  rw [T.entry, T.engine] at slots
  rw [T.entry] at scheds engines
  refine ⟨(T.frame.then (l := [.chain, .slots, .port, .entries, .sched, .eng, .ntc, .cells]) left).then h,
    (T.clearGround_cleared free kind).later free kept now (Eq.trans (h.same .tb) now), ?_, fun m hm => ?_, ?_,
    fun m hm => ?_⟩
  · rw [h.scheduler, cleared.scheduler, queues]
  · rw [h.scheduler, cleared.scheduler, scheds m hm, T.scheduler]
  · rw [h.engine, cleared.engine, slots]
  · rw [h.engine, cleared.engine, engines m hm, T.engine]

section
variable {s v : State} {i : Fin 16} {j : Job} {n : Fin 64} (T : s.JobTaken v i j)
include T

theorem State.JobTaken.clearGround_frame :
    Frame [.chain, .slots, .port, .entries, .sched, .eng] s (clearGround n v) :=
  T.frame.then ((v.leftLine_frame n).then (l := [.sched, .slots, .eng, .entries]) (clearGround_leftLine v n))

/-- With no call on the wire the entry is VACANT at once, with its notice and its cell (R20, R28). -/
theorem State.JobTaken.delisted_idle (own : (clearGround n v).slot i = some j) (idle : (s.entry n).busy = false) :
    let u := (clearGround n v).delisted i j n (s.entry n)
    u.completedWith i j ⟨.ok, 0, 0, []⟩ ∧ u.entry n = Entry.vacant ∧ s.AsksCell u n ∧
      s.AsksNotice u { kind := .left, entry := some n, line := some (s.entry n).line, address := (s.entry n).address,
                       time := s.tb.now, count := (s.entry n).failures.setWidth 32, payload := [] } := by
  have left := T.clearGround_frame (n := n)
  have vacates := becomeVacant_frame n (clearGround n v)
  have done := finish_frame i .ok (becomeVacant n (clearGround n v))
  rw [State.delisted_of_idle _ i j n idle]
  refine ⟨?_, ?_, ((becomeVacant_asksCell n _).of_rep left.rep).then_rep done.rep, ?_⟩
  · have stands := (State.slot_congr (vacates.same .slots).1 i).trans own
    exact completeJob_completedWith i (.plain .ok) _ j stands (T.validating ▸ nofun)
  · rw [done.entry, becomeVacant_entry, if_pos rfl]
  · rw [State.AsksNotice, show (finish i .ok (becomeVacant n (clearGround n v))).ntc = _ from done.same .ntc,
      becomeVacant_ntc, requestNotice_ntc_congr _ (left.same .ntc), clearGround_entry, if_pos rfl, T.entry,
      show (clearGround n v).tb = s.tb from left.same .tb]
    rfl

/-- With a call on the wire the entry is LEAVING, with no notice and no cell (R20). -/
theorem State.JobTaken.delisted_busy (busy : (s.entry n).busy = true) :
    let u := (clearGround n v).delisted i j n (s.entry n)
    u.entry n = (s.entry n).leaving ∧ u.ntc = s.ntc ∧ u.rep = s.rep := by
  have left := T.clearGround_frame (n := n)
  rw [State.delisted_of_busy _ i j n busy]
  exact ⟨State.entry_setEntry_self .., left.same .ntc, left.rep⟩

end

/-- The queue without the entry's ORDERs, item by item. -/
theorem State.mem_without_orders {s : State} {n : Fin 64} {k : Fin 16} (q : List (Fin 16)) :
    k ∈ q.filter (fun k => !s.isOrderFor n k) ↔
      k ∈ q ∧ ∀ jk, s.slot k = some jk → jk.kindOf = some .order → targetEntry jk.target ≠ some n := by
  rw [List.mem_filter, Bool.not_eq_true', Bool.eq_false_iff, ne_eq, State.isOrderFor_iff]
  simp only [not_exists, not_and, ne_eq]

/-- Settles O25: what is cleared at the line in every case, then the entry by whether a call is on the wire. -/
theorem delistTaken : Obligations.DelistTaken := by
  intro f n i a s w hm hp target j e q voided gone order
  obtain ⟨v, T, run⟩ := w.taken .delist hm hp
  have found : targetEntry j.target = some n := targetEntry_of target
  have free := w.slot_free
  let c := clearGround n v
  have own : c.slot i = some j := T.clearGround_own free nofun rfl
  have checks : JobKind.delist.carriedOut i j v =
      if e.state = .vacant ∨ e.state = .leaving then finish i .notEnlisted v else c.delisted i j n e := by
    rw [JobKind.carriedOut, jobDelist_of_entry found own, T.entry]
  rw [checks] at run
  refine ⟨fun none => T.ends ?_, fun here away => ⟨c.delisted i j n e, ?_⟩⟩
  · rwa [if_pos none] at run
  rw [if_neg (not_or.mpr ⟨here, away⟩)] at run
  have work := c.delisted_frame i j n e
  have vacates := becomeVacant_frame n c
  have slots (k : Fin 16) : (becomeVacant n c).slot k = c.slot k := State.slot_congr (vacates.same .slots).1 k
  obtain ⟨frame, ground, queues, scheds, voids, engines⟩ := T.delists free nofun work
    fun k hk => c.delisted_slotKept i j n e hk
  have entries : s.OtherEntriesKept (c.delisted i j n e) n := fun m hm => by
    rw [c.delisted_entry, if_neg hm.symm, clearGround_entry, if_neg hm.symm, T.entry]
  have isOrder (k : Fin 16) : s.orderQueued n k ↔ order k := and_congr_right fun _ => State.isOrderFor_iff
  have queue : ((c.delisted i j n e).scheduler e.line).orderQueue =
      q.orderQueue.filter (fun k => !s.isOrderFor n k) := by rw [queues]
  refine ⟨run, frame, fun k jk ⟨queued, slot, state, isFor⟩ =>
      ⟨ground.orders k jk ((isOrder k).mpr ⟨queued, jk, slot, isFor⟩) slot state, fun hk => ?_⟩,
    queue ▸ List.filter_sublist, fun k => queue ▸ State.mem_without_orders _, by rw [queue]; exact queues, voids,
    ground.hold, entries, scheds, engines,
    fun k hk notOrder waits => ground.others k hk (mt (isOrder k).mp notOrder) waits, ?_⟩
  · rw [queue, State.mem_without_orders] at hk
    exact hk.2 jk slot isFor.1 isFor.2
  refine ⟨fun idle => ⟨becomeVacant n c, c.delisted_of_idle i j n idle, (slots i).trans own, ?_⟩,
    T.delisted_idle own, fun busy => ⟨⟨j.waitSet, ?_⟩, T.delisted_busy busy⟩⟩
  · obtain ⟨-, before, -⟩ := T.delists free nofun (vacates.mono (by decide)) fun k _ => .of_eq (slots k)
    exact ⟨fun k jk ⟨queued, slot, state, isFor⟩ =>
      before.orders k jk ((isOrder k).mpr ⟨queued, jk, slot, isFor⟩) slot state, before.hold⟩
  · rw [c.delisted_of_busy i j n busy]
    exact State.slot_setSlot_self ..

end Sys2Proof.Machine
end

section
/-! PROOFS. The report table and the requests to the writers: the initialisation of the cells, the writes of a cell
update, what a command can do to the editions, and what a request makes of the pending cells and of the hold buffer. -/

set_option Elab.async false

namespace Sys2Proof.Machine

/-! ### The completions of STARTING (R171, R172) -/

/-- Without a STOP the end of the request in service goes on with STARTING (R171). -/
theorem whenStarting_of_serving {s : State} {p : Phase} {k : RequestKind} (hr : s.pins.rstn = false)
    (hp : s.ctl.part = .starting) (hn : s.ctl.startStop = false) (hph : s.ctl.phase = p) (hs : s.serving k = true)
    (f : State → State) : whenStarting p k f s = f s.served := by
  have starting : s.startingIn p = true := by simp [State.startingIn, hr, hp, hph]
  simp [whenStarting, starting, hs, hn]

/-! ### A request that waits alone (R182) -/

theorem Waiting.get_put (w : Waiting) (a b : Requester) (r : Option Request) :
    (w.put a r).get b = if a = b then r else w.get b := by
  cases a <;> cases b <;> rfl

/-- The only request that waits is the first, wherever its requester stands in the order. -/
theorem Waiting.first_alone {who : Requester} (r : Request) {order : List Requester} (h : who ∈ order) :
    (Waiting.empty.put who (some r)).first order = some (who, r) := by
  induction order with
  | nil => cases h
  | cons x order ih =>
    by_cases hx : who = x
    · simp [Waiting.first, Waiting.get_put, hx]
    · have none : Waiting.empty.get x = none := by cases x <;> rfl
      have later : who ∈ order := (List.mem_cons.mp h).resolve_left hx
      simp [Waiting.first, Waiting.get_put, hx, none, ih later]

theorem Requester.mem_after (pointer who : Requester) : who ∈ pointer.after := by
  cases pointer <;> cases who <;> decide

/-- With nothing in service and nothing waiting a request that is issued goes into service at once. -/
theorem State.issue_arbitrate_inService {s : State} (r : Request) (hi : s.port.inService = none)
    (hw : s.port.waiting = Waiting.empty) : (s.issue r).arbitrate.port.inService = some r := by
  have alone := Waiting.first_alone r (Requester.mem_after s.port.pointer r.who)
  simp only [State.arbitrate, State.issue, Port.arbitrate, hi, hw, alone]

/-! ### The initialisation of the cells (R147, R171) -/

/-- The initialisation has come to this cell, or to none. -/
def State.atInitCell (s : State) (c : Option (Fin 64)) : State := { s with rep := { s.rep with initCell := c } }

theorem State.atInitCell_frame (s : State) (c : Option (Fin 64)) : Frame [.editions] s (s.atInitCell c) where
  keeps p hp := by
    cases p
    case editions => exact absurd (by decide) hp
    all_goals simp [Piece.Same, State.atInitCell]

/-- STARTING goes on to a phase. -/
def State.inPhase (s : State) (p : Phase) : State := { s with ctl := { s.ctl with phase := p } }

theorem State.inPhase_frame (s : State) (p : Phase) : Frame [.control] s (s.inPhase p) where
  keeps p hp := by
    cases p
    case control => exact absurd (by decide) hp
    all_goals simp [Piece.Same, State.inPhase]

theorem issueInit_frame (n : Fin 64) (s : State) : Frame [.port, .editions] s (issueInit n s) :=
  ((s.atInitCell_frame (some n)).then (l := [.port, .editions]) (State.issue_frame ..)).then (State.arbitrate_frame _)

theorem State.cellAddr_of_table {s : State} {r : Addr} (h : s.rep.tableAddr = some r) (n : Fin 64) :
    s.cellAddr n = r + BitVec.ofNat 64 (64 * n.val) := by
  simp only [State.cellAddr, h, Option.getD_some]

/-- The whole-cell write of 64 zeros goes into service. -/
theorem issueInit_inService {s : State} {r : Addr} (h : s.rep.tableAddr = some r) (n : Fin 64)
    (hi : s.port.inService = none) (hw : s.port.waiting = Waiting.empty) : (issueInit n s).port.inService = some
      (writeRequest .report .cellInit .cell (r + BitVec.ofNat 64 (64 * n.val)) (List.replicate 64 0)) := by
  rw [← State.cellAddr_of_table h]
  exact State.issue_arbitrate_inService _ hi hw

/-- The write of a cell other than the last is followed by that of the next. -/
theorem cellInitialised_next {s : State} {n m : Fin 64} (h : s.rep.initCell = some n) (hm : m.val = n.val + 1) :
    cellInitialised s = issueInit m s := by
  have next : n.val + 1 < 64 := hm ▸ m.isLt
  have index : (⟨n.val + 1, next⟩ : Fin 64) = m := Fin.ext hm.symm
  simp only [cellInitialised, h, dif_pos next, index]

/-- The write of cell 63 ends the initialisation. -/
theorem cellInitialised_last {s : State} (h : s.rep.initCell = some 63) :
    cellInitialised s = enterRunning (s.atInitCell none) := by
  have last : ¬ (63 : Fin 64).val + 1 < 64 := by decide
  simp only [cellInitialised, h, dif_neg last, State.atInitCell]

/-! ### RUNNING (R97, R162, R171) -/

theorem State.takenPasses_iff (s : State) (v : Word) :
    s.takenPasses v = true ↔ (s.ntc.written - v).toNat ≤ 2 ^ s.ntc.sizeExp := decide_eq_true_iff

/-- The part as it goes RUNNING: the re-read timer starts, unless the interval is 0 (R171). -/
def State.goneRunning (s : State) : State :=
  { s with
    ctl := { s.ctl with part := .running },
    job := { s.job with timer := if s.job.interval = 0 then none else some (s.tb.now + s.job.interval) } }

theorem State.goneRunning_frame (s : State) : Frame [.control, .chain] s s.goneRunning where
  keeps p hp := by
    cases p
    case control => exact absurd (by decide) hp
    case chain => exact absurd (by decide) hp
    all_goals simp [Piece.Same, State.goneRunning]

theorem enterRunning_halts {s : State} (h : 2 ^ s.ntc.sizeExp < (s.ntc.written - s.ntc.taken).toNat) :
    enterRunning s = haltCount s := by
  have fails : s.takenPasses s.ntc.taken = false := by
    rw [Bool.eq_false_iff, ne_eq, State.takenPasses_iff]
    exact Nat.not_le.mpr h
  simp only [enterRunning, fails, Bool.not_false, if_true]

theorem enterRunning_runs {s : State} (h : (s.ntc.written - s.ntc.taken).toNat ≤ 2 ^ s.ntc.sizeExp) :
    enterRunning s = drain (readLink s.goneRunning) := by
  have passes : s.takenPasses s.ntc.taken = true := (State.takenPasses_iff ..).mpr h
  simp only [enterRunning, passes, Bool.not_true, Bool.false_eq_true, if_false, State.goneRunning]

/-- Settles O14: each cell's write by the one before, and after cell 63 what `enterRunning` makes of the notices-taken
view. -/
theorem cellsInitialised : Obligations.CellsInitialised := by
  intro r s hr hp hn ht hw whole
  refine ⟨fun hph hs => ?first, fun hph hs => ?cells⟩
  case first =>
    have taken : exec .statusBlockWriteDone s = .next (issueInit 0 (s.served.inPhase .cellInit)) :=
      congrArg _ (whenStarting_of_serving hr hp hn hph hs _)
    have begun := s.served_frame.then (l := [.control, .port]) (s.served.inPhase_frame .cellInit)
    exact ⟨_, taken, rfl, rfl, issueInit_inService (s := s.served.inPhase .cellInit) ht 0 rfl hw,
      begun.then (issueInit_frame 0 _)⟩
  case cells =>
    have taken : exec .cellInitialisationWriteDone s = .next (cellInitialised s.served) :=
      congrArg _ (whenStarting_of_serving hr hp hn hph hs _)
    refine ⟨fun n m hc hm => ?next, fun hc full => ?halts, fun p hc passes hpark => ?runs⟩
    case next =>
      rw [taken, cellInitialised_next (s := s.served) hc hm]
      exact ⟨_, rfl, rfl, issueInit_inService (s := s.served) ht m rfl hw,
        s.served_frame.then (issueInit_frame m _)⟩
    case halts =>
      rw [taken, cellInitialised_last (s := s.served) hc, enterRunning_halts (s := s.served.atInitCell none) full]
      rfl
    case runs =>
      have ended := s.served_frame.then (l := [.port, .editions]) (s.served.atInitCell_frame none)
      have started := ended.then (l := [.control, .port, .editions, .chain]) (State.goneRunning_frame _)
      have read := readLink_eq (s.served.atInitCell none).goneRunning p hpark
      rw [taken, cellInitialised_last (s := s.served) hc, enterRunning_runs (s := s.served.atInitCell none) passes]
      refine ⟨_, rfl, ?_, ?_, ?_, ?_, started.then (readLink_frame _)⟩
      all_goals rw [read]; rfl

/-! ### The writes of a cell update (R142, R145) -/

theorem cellBody_of_length_le {e : Entry} (h : e.lastPayload.length ≤ 32) : cellBody e =
    [e.state.code, BitVec.ofNat 8 e.line.val, e.address, e.lastStatus] ++ leBytes 2 e.failures.toNat ++
      [BitVec.ofNat 8 e.lastPayload.length, 0] ++ leBytes 4 e.lastHeard.toNat ++ leBytes 4 e.answers.toNat ++
      List.replicate 12 0 ++ e.lastPayload ++ List.replicate (32 - e.lastPayload.length) 0 := by
  rw [cellBody, padTo_of_length_le h, List.append_assoc _ e.lastPayload]

section
variable {s : State} {c : CellUpdate} {r : Addr}

theorem State.cellRequest_opening (ht : s.rep.tableAddr = some r) (h : c.stage = .opening) : s.cellRequest c =
    writeRequest .report .cellOpening .cell (r + BitVec.ofNat 64 (64 * c.cell.val))
      (leBytes 4 (s.rep.editions[c.cell.val] + 1).toNat) := by
  simp only [State.cellRequest, h, State.cellAddr_of_table ht]

theorem State.cellRequest_body (ht : s.rep.tableAddr = some r) (h : c.stage = .body) : s.cellRequest c =
    writeRequest .report .cellBody .cell (r + BitVec.ofNat 64 (64 * c.cell.val) + 0x04) c.body := by
  simp only [State.cellRequest, h, State.cellAddr_of_table ht]

theorem State.cellRequest_closing (ht : s.rep.tableAddr = some r) (h : c.stage = .closing) : s.cellRequest c =
    writeRequest .report .cellClosing .cell (r + BitVec.ofNat 64 (64 * c.cell.val))
      (leBytes 4 (s.rep.editions[c.cell.val] + 2).toNat) := by
  simp only [State.cellRequest, h, State.cellAddr_of_table ht]

/-- The head of the pending-cell set begins its update with the opening write. -/
theorem beginUpdate_of_pending {n : Fin 64} {rest : List (Fin 64)} (ha : s.active = true) (hu : s.rep.update = none)
    (hp : s.rep.pendingCells = n :: rest) (hc : c = { cell := n, body := cellBody (s.entry n), stage := .opening }) :
    beginUpdate s =
      { s with rep := { s.rep with pendingCells := rest, update := some c } }.issue (s.cellRequest c) := by
  simp only [beginUpdate, ha, hu, hp, hc]
  rfl

/-- An update in progress goes on to its next write. -/
theorem advanceUpdate_of_update (hu : s.rep.update = some c) (st : CellStage) :
    advanceUpdate st s = { s with rep := { s.rep with update := some { c with stage := st } } }.issue
      (s.cellRequest { c with stage := st }) := by
  simp only [advanceUpdate, hu]
  rfl

/-- The closing write ends the update and raises the edition by 2. -/
theorem endUpdate_of_update (hu : s.rep.update = some c) : endUpdate s =
    { s with rep := { s.rep with
      update := none, editions := s.rep.editions.set c.cell.val (s.rep.editions[c.cell.val] + 2) } } := by
  simp only [endUpdate, hu]

end

/-- Settles O16: the bytes of the body, and each write of an update as the one before is carried out. -/
theorem cellUpdateWrites : Obligations.CellUpdateWrites := by
  refine ⟨fun e => cellBody_of_length_le, rfl, ?begins, ?goes⟩
  case begins =>
    intro n rest r s ha hu hp ht u
    have begun : u = _ := beginUpdate_of_pending ha hu hp rfl
    refine ⟨beginUpdate_frame s, ?_, ?_, ?_⟩
    · rw [begun, State.issue_rep]
    · rw [begun, State.issue_rep]
    · rw [begun, State.cellRequest_opening ht rfl]
      rfl
  case goes =>
    intro c r s ha hu ht cell
    have advanced (st : CellStage) := advanceUpdate_of_update (s := s.served) hu st
    have frame (st : CellStage) : Frame [.cells, .port] s (advanceUpdate st s.served) :=
      s.served_frame.then (advanceUpdate_frame st _)
    refine ⟨fun hs => ⟨_, congrArg _ (whenServed_of_serving ha hs _), frame .body, ?body⟩,
      fun hs => ⟨_, congrArg _ (whenServed_of_serving ha hs _), frame .closing, ?closing⟩, fun hs => ?closed⟩
    case body =>
      rw [advanced, State.cellRequest_body (s := s.served) ht rfl]
      exact ⟨rfl, rfl, rfl⟩
    case closing =>
      rw [advanced, State.cellRequest_closing (s := s.served) ht rfl]
      exact ⟨rfl, rfl, rfl⟩
    case closed =>
      have ended := endUpdate_of_update (s := s.served) hu
      exact congrArg Host.Outcome.next ((whenServed_of_serving ha hs _).trans (congrArg drain ended))

/-! ### What leaves the editions as they are (R143, R146) -/

/-- Every edition stands as it stood. -/
def State.EditionsKept (s t : State) : Prop := t.rep.editions = s.rep.editions

namespace State.EditionsKept
variable {s t u : State}

theorem refl (s : State) : s.EditionsKept s := rfl

theorem trans (h : s.EditionsKept t) (k : t.EditionsKept u) : s.EditionsKept u := Eq.trans k h

theorem of_frame {l : List Piece} (f : Frame l s t) (hl : l.contains .editions = false := by decide) :
    s.EditionsKept t := by
  have same : t.rep = { s.rep with pendingCells := t.rep.pendingCells, update := t.rep.update } := f.same .editions hl
  rw [EditionsKept, same]

theorem ite {c : Prop} [Decidable c] (h : s.EditionsKept t) (k : s.EditionsKept u) :
    s.EditionsKept (if c then t else u) := by
  split
  · exact h
  · exact k

/-- An event that is taken only where its guard holds. -/
theorem guarded {c : Prop} [Decidable c] (h : s.EditionsKept t) : s.EditionsKept (if c then t else s) := h.ite (refl s)

/-- The end of a stop keeps the editions (R143). -/
theorem endStop (s : State) : s.EditionsKept (endStop s) := guarded rfl

/-- What every event ends with changes no edition. -/
theorem drain (h : s.EditionsKept t) : s.EditionsKept (drain t) := by
  rw [drain_eq]
  exact ((h.trans (of_frame (beforeEnd_frame t))).trans (endStop _)).trans (of_frame (State.arbitrate_frame _))

theorem settle (h : s.EditionsKept t) : s.EditionsKept (settle t) := (h.trans (of_frame (chooseAll_frame t))).drain

/-- An event whose work does not touch the editions, and its end. -/
theorem frame_drain {l : List Piece} (f : Frame l s t) (hl : l.contains .editions = false := by decide) :
    s.EditionsKept (Machine.drain t) := (of_frame f hl).drain

theorem frame_settle {l : List Piece} (f : Frame l s t) (hl : l.contains .editions = false := by decide) :
    s.EditionsKept (Machine.settle t) := (of_frame f hl).settle

/-! #### Completions -/

theorem whenServed {k : RequestKind} {f : State → State} (h : s.served.EditionsKept (f s.served)) :
    s.EditionsKept (whenServed k f s) := guarded h

theorem enterRunning (s : State) : s.EditionsKept (enterRunning s) := by
  have started : s.EditionsKept s.goneRunning := rfl
  exact ite (of_frame (haltCount_frame s)) (started.trans (of_frame (readLink_frame _))).drain

theorem cellInitialised (s : State) : s.EditionsKept (cellInitialised s) := by
  unfold Machine.cellInitialised
  split
  · split
    · rfl
    · exact enterRunning _
  · rfl

theorem linkReturned (v : Addr) (s : State) : s.EditionsKept (linkReturned v s) := by
  unfold Machine.linkReturned
  split
  · exact frame_drain (followLink_frame ..)
  · exact (refl s).drain

theorem tallyWritten (s : State) : s.EditionsKept (tallyWritten s) := by
  unfold Machine.tallyWritten
  split
  · exact frame_drain ((popWrite_frame s).then (l := [.causes, .slots, .chain, .port]) (freeTheSlot_frame ..))
  · exact frame_drain (popWrite_frame s)

theorem takenReturned (v : Word) (s : State) : s.EditionsKept (takenReturned v s) :=
  ite (frame_drain (adoptTaken_frame v s)) (of_frame (haltCount_frame s))

theorem busError (s : State) : s.EditionsKept (busError s) := by
  unfold Machine.busError
  split
  · exact guarded (of_frame (enterHalted_frame ..))
  · rfl

/-! #### Jobs -/

theorem judgeRecord (a : Addr) (r : JobRecord) (s : State) : s.EditionsKept (judgeRecord a r s) := by
  have parked : s.EditionsKept (park .record s) := of_frame (park_frame ..)
  refine ite (ite (of_frame (haltAlign_frame ..)) (ite parked ?_)) parked
  unfold takeRecord
  split
  · next i _ =>
    have claimed := of_frame (claimSlot_frame i a r s)
    exact (claimed.trans (of_frame (followLink_frame ..))).trans (of_frame (dispatchJob_frame i _))
  · exact of_frame (State.setFollower_frame ..)

theorem recordReturned (r : JobRecord) (s : State) : s.EditionsKept (recordReturned r s) := by
  refine guarded ?_
  simp only
  split
  · next a _ _ _ => exact (judgeRecord a r s.served).settle
  · exact (refl s.served).settle

theorem lineStatusTaken (f : JobFields) (s : State) : s.EditionsKept (lineStatusTaken f s) := by
  rcases lineStatusTaken_cases f s with e | ⟨-, i, e⟩ <;> rw [e]
  · exact recordReturned _ s
  · exact frame_settle (dispatchJob_frame i s)

/-! #### Commands of the host -/

theorem beginStop (s : State) : s.EditionsKept (beginStop s) := by
  have aborted {is : List (Fin 16)} {t : State} (h : s.EditionsKept t) : s.EditionsKept (abortJobs is t) :=
    h.trans (of_frame (abortJobs_frame is t))
  refine trans ?_ (of_frame (State.mapEntries_frame _ _))
  exact aborted (aborted (aborted rfl))

theorem takeStop (s : State) : s.EditionsKept (takeStop s) := by
  unfold Machine.takeStop
  split
  · rfl
  · rfl
  · rfl
  · exact (beginStop s).drain
  · rfl

theorem takeNudge (s : State) : s.EditionsKept (takeNudge s) :=
  frame_drain ((nudgeFollower_frame s).then (l := [.chain, .port, .ntc]) (nudgeRead_frame _))

/-! #### Timers and lines -/

theorem timerEnded (s : State) : s.EditionsKept (timerEnded s) := by
  unfold Machine.timerEnded
  split
  · next t _ _ =>
    have reread := (s.timerRestarted_frame t).then (l := [.chain, .port]) (rereadIfParked_frame _)
    exact guarded (frame_drain (reread.then (l := [.chain, .port, .ntc]) (wantRead_frame _)))
  · rfl

theorem refreshOverdue (x : RefreshTarget) (s : State) : s.EditionsKept (refreshOverdue x s) := by
  cases x with
  | entry n => exact guarded rfl
  | window l =>
    unfold Machine.refreshOverdue
    simp only
    split
    · exact guarded rfl
    · rfl

theorem restOver (l : Fin 4) (s : State) : s.EditionsKept (restOver l s) := by
  unfold Machine.restOver
  simp only
  split
  · rfl
  · exact (of_frame (State.setEngine_frame ..)).trans (of_frame (broadcastEnded_frame ..))
  · rfl
  · rfl

theorem deliver (l : Fin 4) (c : LineChar) (s : State) : s.EditionsKept (deliver l c s) := by
  unfold Machine.deliver
  simp only
  split
  · exact guarded (frame_settle ((State.setEngine_frame ..).then (l := worked) (takeCharacter_frame ..)))
  · rfl

theorem startBitConfirmation (l : Fin 4) (s : State) : s.EditionsKept (startBitConfirmation l s) := by
  unfold Machine.startBitConfirmation
  simp only
  split
  · exact guarded (frame_settle (confirmStart_frame ..))
  · rfl

end State.EditionsKept

/-! ### What a command can do to the editions (R143, R145) -/

/-- A command leaves the editions, clears them in a reset (R143), or raises one by 2 (R145). -/
inductive State.EditionChange (s t : State) : Prop where
  | kept (h : s.EditionsKept t)
  | cleared (h : t.rep.editions = Vector.replicate 64 0)
  | raised (n : Fin 64) (h : t.rep.editions = s.rep.editions.set n.val (s.rep.editions[n.val] + 2))

namespace State.EditionChange
variable {s t u : State}

theorem after_kept (h : s.EditionsKept t) (k : t.EditionChange u) : s.EditionChange u := by
  cases k with
  | kept k => exact .kept (h.trans k)
  | cleared k => exact .cleared k
  | raised n k => exact .raised n (by rw [k, h])

theorem then_kept (h : s.EditionChange t) (k : t.EditionsKept u) : s.EditionChange u := by
  cases h with
  | kept h => exact .kept (h.trans k)
  | cleared h => exact .cleared (Eq.trans k h)
  | raised n h => exact .raised n (Eq.trans k h)

/-- A write to HZCMD with RESET clears the editions, another leaves them (R167, R175). -/
theorem takeCommand (v : Word) (s : State) : s.EditionChange (takeCommand v s) := by
  unfold Machine.takeCommand
  split
  · exact .kept rfl
  split
  · exact .cleared rfl
  have nudged : s.EditionsKept (if v.getLsbD 3 && s.running then takeNudge s else s) :=
    EditionsKept.guarded (EditionsKept.takeNudge s)
  simp only
  split
  · exact .kept nudged
  · exact .kept (nudged.trans (EditionsKept.ite rfl rfl))
  · exact .kept (nudged.trans (EditionsKept.takeStop _))
  · exact .kept nudged

theorem writeRegister (o : BitVec 6) (v : Word) (b : BitVec 4) (s : State) :
    s.EditionChange (writeRegister o v b s) := by
  unfold Machine.writeRegister
  split
  · exact .kept rfl
  split
  · exact takeCommand v s
  · exact .kept (EditionsKept.ite rfl rfl)
  · exact .kept (EditionsKept.ite rfl rfl)
  · exact .kept (EditionsKept.ite rfl rfl)
  · exact .kept (EditionsKept.ite rfl rfl)
  · exact .kept rfl

theorem whenStarting {p : Phase} {k : RequestKind} {f : State → State} (h : s.served.EditionChange (f s.served)) :
    s.EditionChange (whenStarting p k f s) := by
  unfold Machine.whenStarting
  split
  · split
    · exact .kept rfl
    · exact after_kept (t := s.served) rfl h
  · exact .kept rfl

/-- An accepted anchor clears the editions in the session reset (R143, R171). -/
theorem anchorRead (a : Anchor) (s : State) : s.EditionChange (anchorRead a s) := by
  unfold Machine.anchorRead
  split
  · exact .kept rfl
  · exact .cleared rfl

/-- The closing write raises the edition of its cell by 2 (R145). -/
theorem endUpdate (s : State) : s.EditionChange (endUpdate s) := by
  unfold Machine.endUpdate
  split
  · next c _ => exact .raised c.cell rfl
  · exact .kept rfl

theorem cellClosed (s : State) :
    s.EditionChange (Machine.whenServed .cellClosing (fun s => drain (Machine.endUpdate s)) s) := by
  unfold Machine.whenServed
  split
  · exact after_kept (t := s.served) rfl ((endUpdate s.served).then_kept (EditionsKept.refl _).drain)
  · exact .kept rfl

/-- Every command changes the editions in one of these ways: all but the resets, an accepted anchor and a closing write
leave them. -/
theorem exec {c : Instr} (e : exec c s = .next t) : s.EditionChange t := by
  have event {l : List Piece} {b : Bool} {u : State} (f : Frame l s u) (hl : l.contains .editions = false) :
      s.EditionChange (if b then settle u else s) := .kept (.guarded (.frame_settle f hl))
  have record (k : JobKind) (f : JobFields) : s.EditionChange (Machine.jobTaken k f s) := .kept (.recordReturned _ s)
  have listed (k : RequestKind) : s.EditionChange (Machine.whenServed k (fun s => drain (popWrite s)) s) :=
    .kept (.whenServed (.frame_drain (popWrite_frame _)))
  cases c <;> simp only [Machine.exec] at e
  case start v => cases e; exact takeCommand _ s
  case stop v => cases e; exact takeCommand _ s
  case reset v => cases e; exact takeCommand _ s
  case nudge v => cases e; exact takeCommand _ s
  case pinReset => cases e; exact .cleared rfl
  case rstnRelease => cases e; exact .kept rfl
  case hzintWrite v => cases e; exact .kept (.ite rfl rfl)
  case hzmaskWrite v => cases e; exact .kept (.ite rfl rfl)
  case registerWrite o v b => cases e; exact writeRegister o v b s
  case anchorReadDone d => cases e; exact whenStarting (anchorRead _ _)
  case statusBlockWriteDone => cases e; exact whenStarting (.kept rfl)
  case cellInitialisationWriteDone => cases e; exact whenStarting (.kept (.cellInitialised _))
  case linkReadDone v => cases e; exact .kept (.whenServed (.linkReturned v _))
  case recordReadDone d => cases e; exact .kept (.recordReturned _ s)
  case setupLine f => cases e; exact record _ f
  case lineStatus f => cases e; exact .kept (.lineStatusTaken f s)
  case enlist f => cases e; exact record _ f
  case delist f => cases e; exact record _ f
  case hold f => cases e; exact record _ f
  case release f => cases e; exact record _ f
  case retune f => cases e; exact record _ f
  case order f => cases e; exact record _ f
  case broadcast f => cases e; exact record _ f
  case cancel f => cases e; exact record _ f
  case mark f => cases e; exact record _ f
  case takenWriteDone => cases e; exact listed _
  case resultWriteDone => cases e; exact listed _
  case stateWriteDone => cases e; exact listed _
  case parkingWriteDone => cases e; exact listed _
  case tallyWriteDone => cases e; exact .kept (.whenServed (.tallyWritten _))
  case cellOpeningWriteDone => cases e; exact .kept (.whenServed (.frame_drain (advanceUpdate_frame ..)))
  case cellBodyWriteDone => cases e; exact .kept (.whenServed (.frame_drain (advanceUpdate_frame ..)))
  case cellClosingWriteDone => cases e; exact cellClosed s
  case noticeRecordWriteDone => cases e; exact .kept (.whenServed (.frame_drain (noticeWritten_frame _)))
  case noticeCountWriteDone => cases e; exact .kept (.whenServed (.frame_settle (noticeCounted_frame _)))
  case lostTotalWriteDone => cases e; exact .kept (.whenServed (.drain rfl))
  case droppedAtStopWriteDone => cases e; exact .kept (.whenServed (.drain rfl))
  case noticesTakenReadDone v => cases e; exact .kept (.whenServed (.takenReturned v _))
  case memoryErrorResponse => cases e; exact .kept (.busError s)
  case reReadTimerEnd => cases e; exact .kept (.timerEnded s)
  case quietTimerExpiry n => cases e; exact .kept (.guarded (.frame_drain (expireQuiet_frame n s)))
  case dueTimeReached n => cases e; exact event (Frame.refl [] s) rfl
  case windowDueTimeReached l => cases e; exact event (Frame.refl [] s) rfl
  case overdueRefresh x => cases e; exact .kept (.refreshOverdue x s)
  case callSent l => cases e; exact .kept (.guarded rfl)
  case characterDelivered l v m => cases e; exact .kept (.deliver l _ s)
  case turnaroundLimit l => cases e; exact event (turnaroundOut_frame l s) rfl
  case answerGapLimit l => cases e; exact event (gapOut_frame l s) rfl
  case restEnd l => cases e; exact .kept (.guarded (.settle (.restOver l s)))
  case windowEnd l =>
    cases e
    exact event ((State.setEngine_frame ..).then (l := [.eng, .sched]) (windowEnded_frame ..)) rfl
  case settlingEnd l => cases e; exact event (State.setEngine_frame ..) rfl
  case lineFoundStuck l => cases e; exact event (foundStuck_frame l s) rfl
  case lineRecovered l =>
    cases e
    exact event ((State.setEngine_frame ..).then (l := [.eng, .ntc]) (requestNotice_frame ..)) rfl
  case rxdLevelChange l => cases e; exact .kept (.ite rfl rfl)
  case startBitConfirmation l => cases e; exact .kept (.startBitConfirmation l s)

theorem step (e : step s = .next t) : s.EditionChange t := by
  unfold Machine.step at e
  split at e
  · cases e
    exact .kept (EditionsKept.of_frame (passRefclk_frame s))
  · next c rest _ => exact after_kept (t := { s with pending := rest }) rfl (exec e)

/-- Zero is even, and so is an even edition raised by 2, which wraps at an even number. -/
theorem editionsEven (h : s.EditionChange t) (even : s.EditionsEven) : t.EditionsEven := by
  intro m
  cases h with
  | kept h =>
    rw [h]
    exact even m
  | cleared h => simp [h]
  | raised n h =>
    rw [h, Vector.getElem_set]
    split
    · have before := even n
      bv_omega
    · exact even m

end State.EditionChange

/-! ### The low bits of ANCL (R180) -/

/-- Bits 0 to 7 of ANCL are 0. -/
def Control.AnclAligned (c : Control) : Prop := c.ancl &&& 0xFF = 0

/-- ANCL is changed by its own write alone, which ignores bits 0 to 7. -/
theorem Control.anclAligned_law : ControlLaw Control.AnclAligned where
  cause _ _ h := h
  refuse _ _ _ h := h
  stopped _ _ h _ := h
  startStopped _ _ h _ := h
  refused _ h _ := h
  phase _ _ h := h
  count _ _ h := h
  run _ h _ := h
  start _ _ h _ := h
  stop _ h _ := h
  startStop _ h := h
  mask _ _ h := h
  ancl _ v _ := by simp [Control.AnclAligned, BitVec.and_assoc]
  anch _ _ h := h

/-- A pin reset sets ANCL to 0, and a command reset, a write to HZINT and a halt keep it (R175, R176, R178). -/
theorem State.AnchorAligned.exec {c : Instr} {s t : State} (h : s.AnchorAligned) (e : exec c s = .next t) :
    t.AnchorAligned := by
  refine Control.anclAligned_law.exec h e (fun reset => ?_) (fun clear => ?_) (fun why a st d u aligned halted => ?_)
  · rcases exec_of_isReset e reset with rfl | rfl | rfl
    · exact (by decide : Control.reset.ancl &&& 0xFF = 0)
    · exact h
    · exact h
  · rcases exec_of_isClear e clear with rfl | ⟨m, rfl⟩
    · exact h
    · exact h
  · rw [halted]
    exact aligned

theorem State.AnchorAligned.step {s t : State} (h : s.AnchorAligned) (e : step s = .next t) : t.AnchorAligned := by
  unfold Machine.step at e
  split at e
  · cases e
    exact (passRefclk_frame s).ctlOk (Q := Control.AnclAligned) h
  · next c rest _ =>
    have queued : { s with pending := rest }.AnchorAligned := h
    exact queued.exec e

/-- Settles O55: what a step can do to the editions keeps them even, and every write of ANCL ignores its low bits. -/
theorem editionsEvenAndAnchorAlignedKept : Obligations.EditionsEvenAndAnchorAlignedKept :=
  ⟨fun _ _ even e => (State.EditionChange.step e).editionsEven even, fun _ _ aligned e => aligned.step e⟩

/-! ### Requests to the writers (R144, R155, R156, R164) -/

section
variable {t : Notice} {s : State}

theorem requestNotice_of_closing (hc : s.ntc.closing = true) : requestNotice t s = dropNotice s := by
  simp only [requestNotice, hc, if_true]

theorem State.freePlaces_pos_iff (s : State) : 0 < s.freePlaces ↔ s.ntc.held.length + s.reservations < 8 :=
  Nat.sub_pos_iff_lt

theorem requestNotice_of_room (hc : s.ntc.closing = false) (room : s.ntc.held.length + s.reservations < 8) :
    requestNotice t s = holdNotice t s := by
  rw [requestNotice, hc, if_neg Bool.false_ne_true, if_pos (s.freePlaces_pos_iff.mpr room)]

theorem requestNotice_of_full (hc : s.ntc.closing = false) (full : 8 ≤ s.ntc.held.length + s.reservations) :
    requestNotice t s = loseNotice s := by
  rw [requestNotice, hc, if_neg Bool.false_ne_true, if_neg (mt s.freePlaces_pos_iff.mp (Nat.not_lt.mpr full))]

end

/-- The lost count stays at FFFFFFFFh once it is there (R155). -/
theorem saturate32_eq (x : Word) : saturate32 x = if x = 0xFFFFFFFF then 0xFFFFFFFF else x + 1 := by
  unfold saturate32
  split
  · next h => exact h
  · rfl

/-- Settles O49: a cell is merged or joins the tail, and a notice is dropped, held or lost by the room in the buffer. -/
theorem writerRequestsTaken : Obligations.WriterRequestsTaken := by
  refine ⟨fun s => ⟨rfl, fun _ => rfl⟩, fun n s => ⟨requestCell_asks n s, requestCell_frame n s⟩,
    fun t s => ⟨requestNotice_of_closing, requestNotice_of_room, fun hc full => ?lost⟩⟩
  rw [requestNotice_of_full hc full, loseNotice, saturate32_eq]

end Sys2Proof.Machine
end

section
/-! PROOFS. The Notice Writer: the bound of the hold buffer, the end of each of its writes, a notices-taken value and
the choice of its next request. -/

set_option Elab.async false

namespace Sys2Proof.Machine

/-! ### How many lines hold a reservation (R156, R157) -/

theorem State.reservations_congr {s t : State} (h : t.ntc.reserved = s.ntc.reserved) :
    t.reservations = s.reservations := by
  have hr : t.reserved = s.reserved := funext fun l => by simp only [State.reserved, h]
  simp only [State.reservations, hr]

/-- Each line that holds a reservation counts for one place. -/
theorem State.reservations_eq_sum (s : State) : s.reservations =
    (s.reserved 0).toNat + (s.reserved 1).toNat + (s.reserved 2).toNat + (s.reserved 3).toNat := by
  have first (l : Fin 4) (ls : List (Fin 4)) :
      ((l :: ls).filter s.reserved).length = (s.reserved l).toNat + (ls.filter s.reserved).length := by
    cases h : s.reserved l with
    | true => rw [List.filter_cons_of_pos h, List.length_cons, Bool.toNat_true, Nat.add_comm]
    | false => rw [List.filter_cons_of_neg (Bool.eq_false_iff.mp h), Bool.toNat_false, Nat.zero_add]
  simp only [State.reservations, lines, first, List.filter_nil, List.length_nil]
  omega

/-- Writing one line's reservation exchanges what that line counts for, and nothing else. -/
theorem State.reservations_setReserved (s : State) (l : Fin 4) (b : Bool) :
    (s.setReserved l b).reservations + (s.reserved l).toNat = s.reservations + b.toNat := by
  have own : (s.setReserved l b).reserved l = b := by rw [State.reserved_setReserved, if_pos rfl]
  have other {m : Fin 4} (h : l ≠ m) : (s.setReserved l b).reserved m = s.reserved m := by
    rw [State.reserved_setReserved, if_neg h]
  rw [State.reservations_eq_sum, State.reservations_eq_sum]
  match l with
  | 0 =>
    rw [own, other (m := 1) (by decide), other (m := 2) (by decide), other (m := 3) (by decide)]
    omega
  | 1 =>
    rw [own, other (m := 0) (by decide), other (m := 2) (by decide), other (m := 3) (by decide)]
    omega
  | 2 =>
    rw [own, other (m := 0) (by decide), other (m := 1) (by decide), other (m := 3) (by decide)]
    omega
  | 3 =>
    rw [own, other (m := 0) (by decide), other (m := 1) (by decide), other (m := 2) (by decide)]
    omega

/-! ### The places of the hold buffer (R155, R156) -/

namespace State.BufferBounded

theorem of_le {s t : State} (h : s.BufferBounded) (hh : t.ntc.held.length ≤ s.ntc.held.length)
    (hr : t.reservations ≤ s.reservations) : t.BufferBounded :=
  Nat.le_trans (Nat.add_le_add hh hr) h

/-- A notice takes a place only where one is free; dropped or lost it takes none. -/
theorem requestNotice {s : State} (h : s.BufferBounded) (t : Notice) : (requestNotice t s).BufferBounded := by
  cases hc : s.ntc.closing with
  | true =>
    rw [requestNotice_of_closing hc]
    exact h
  | false =>
    by_cases room : s.ntc.held.length + s.reservations < 8
    · rw [requestNotice_of_room hc room]
      have joined : (holdNotice t s).ntc.held.length = s.ntc.held.length + 1 := List.length_append
      have kept : (holdNotice t s).reservations = s.reservations := rfl
      simp only [State.BufferBounded, joined, kept]
      omega
    · rw [requestNotice_of_full hc (Nat.not_lt.mp room)]
      exact h

/-- A release frees a place or changes nothing. -/
theorem releaseReservation {s : State} (h : s.BufferBounded) (l : Fin 4) : (releaseReservation l s).BufferBounded :=
  h.of_le (Nat.le_refl _) (Nat.le_trans (Nat.le_add_right ..) (Nat.le_of_eq (s.reservations_setReserved l false)))

/-- The notice of a reservation takes the place that the reservation held. -/
theorem fillReservation {s : State} (h : s.BufferBounded) (l : Fin 4) (t : Notice) :
    (fillReservation l t s).BufferBounded := by
  unfold Machine.fillReservation
  split
  · next reserved =>
    have exchange := s.reservations_setReserved l false
    have joined : (holdNotice t (s.setReserved l false)).ntc.held.length = s.ntc.held.length + 1 := List.length_append
    have kept : (holdNotice t (s.setReserved l false)).reservations = (s.setReserved l false).reservations := rfl
    rw [reserved, Bool.toNat_true, Bool.toNat_false] at exchange
    simp only [State.BufferBounded] at h
    simp only [State.BufferBounded, joined, kept]
    omega
  · exact h

/-- A reservation is granted only where a place is free. -/
theorem reserve {s : State} (l : Fin 4) (granted : s.canReserve = true) : (s.setReserved l true).BufferBounded := by
  have room : s.ntc.held.length + s.reservations < 8 := by
    simp only [State.canReserve, Bool.and_eq_true, decide_eq_true_eq] at granted
    exact s.freePlaces_pos_iff.mp granted.2
  have exchange := s.reservations_setReserved l true
  have kept : (s.setReserved l true).ntc.held = s.ntc.held := rfl
  rw [Bool.toNat_true] at exchange
  simp only [State.BufferBounded, kept]
  omega

/-- Nothing but a notice request and a grant takes a place, so the work of an event keeps the bound. -/
theorem workLaw : WorkLaw State.BufferBounded where
  shrink _ _ hh hr h := h.of_le hh (Nat.le_of_eq (State.reservations_congr hr))
  empty _ hh hr := by
    have free : State.reservations _ = 0 := (State.reservations_congr (s := State.reset) hr).trans reset_reservations
    simp only [State.BufferBounded, hh, free, List.length_nil, Nat.zero_add, Nat.zero_le]
  notice h := h.requestNotice _
  fill h := h.fillReservation _ _
  release h := h.releaseReservation _
  reserve _ granted := reserve _ granted
  vacant h := h
  enlist _ _ _ h := h
  good _ _ _ _ _ h _ := h
  failed _ h _ := h
  mark _ h _ := h
  latch h _ := h
  held h _ := h
  mute h _ := h
  off _ _ h := h
  unhold h := h
  clear h _ := h
  leaving h _ := h
  pend h _ := h
  releaseHeld _ h _ := h
  retune _ _ h _ _ := h
  due _ h _ := h
  busy _ h _ := h

end State.BufferBounded

/-- Settles O56: the bound is kept by the work of an event, so by every step. -/
theorem bufferBoundedKept : Obligations.BufferBoundedKept :=
  fun _ _ h e => State.BufferBounded.workLaw.step h e

/-! ### The writes of the Notice Writer (R155, R159, R164) -/

section
variable {s : State} {w : NoticeWrite}

/-- The count write of a LOST notice leaves the hold buffer as it is. -/
theorem noticeCounted_of_lost (hw : s.ntc.writing = some w) (lost : w.isLost = true) :
    noticeCounted s = { s with ntc := { s.ntc with writing := none } }.setCause .notice := by
  simp only [noticeCounted, hw, lost, if_true]

/-- The count write of a held notice removes it, and one notice less stands ahead of an owed LOST notice. -/
theorem noticeCounted_of_held (hw : s.ntc.writing = some w) (held : w.isLost = false) :
    noticeCounted s = { s with ntc := { s.ntc with
      writing := none, held := s.ntc.held.tail, lostAfter := s.ntc.lostAfter.map (· - 1) } }.setCause .notice := by
  simp only [noticeCounted, hw, held, Bool.false_eq_true, if_false]

/-- With a notice in progress its count write sets NOTICE and nothing is issued. -/
theorem noticeCounted_causes_port (hw : s.ntc.writing = some w) :
    (noticeCounted s).ctl.hzint = s.ctl.hzint ||| 0b00010 ∧ (noticeCounted s).port = s.port := by
  cases hl : w.isLost with
  | true =>
    rw [noticeCounted_of_lost hw hl]
    exact ⟨rfl, rfl⟩
  | false =>
    rw [noticeCounted_of_held hw hl]
    exact ⟨rfl, rfl⟩

end

/-- Settles O17: each completion takes its request out of service and goes on with `noticeWritten`, `noticeCounted` or
the end of the event. -/
theorem noticeWritesDone : Obligations.NoticeWritesDone := by
  intro s ha
  refine ⟨fun w hw => ⟨fun hs => ?record, fun hs => ?count⟩, fun _ hs => ?lostTotal, fun _ _ hs => ?dropped⟩
  case record =>
    exact ⟨noticeWritten s.served, congrArg _ (whenServed_of_serving ha hs _),
      s.served_frame.then (noticeWritten_frame _), rfl, rfl⟩
  case count =>
    have writes : s.served.ntc.writing = some w := hw
    obtain ⟨causes, port⟩ := noticeCounted_causes_port writes
    refine ⟨noticeCounted s.served, congrArg _ (whenServed_of_serving ha hs _),
      s.served_frame.then (noticeCounted_frame _), causes, port, fun lost => ?_, fun held => ?_⟩
    · rw [noticeCounted_of_lost writes lost]
      rfl
    · rw [noticeCounted_of_held writes held]
      rfl
  case lostTotal => exact congrArg _ (whenServed_of_serving ha hs _)
  case dropped => exact congrArg _ (whenServed_of_serving ha hs _)

/-! ### A notices-taken value (R161, R162, R163) -/

/-- The Notice Writer with the value v as its notices taken: the wait for room ends where v makes room. -/
def NoticeWriter.adopted (n : NoticeWriter) (v : Word) : NoticeWriter :=
  { n with
    taken := v, readInFlight := false,
    waitingRoom := n.waitingRoom && !decide ((n.written - v).toNat < 2 ^ n.sizeExp) }

/-- A NUDGE that came while the read was in flight brings one further read (R161). -/
theorem adoptTaken_eq (v : Word) (s : State) : adoptTaken v s = { s with
    ntc := if s.ntc.readAgain then
        { s.ntc.adopted v with readAgain := false, readWanted := !s.ntc.closing }
      else s.ntc.adopted v } := by
  simp only [adoptTaken, State.hasRoom, State.noticeSize, NoticeWriter.adopted]
  by_cases room : (s.ntc.written - v).toNat < 2 ^ s.ntc.sizeExp
  · simp only [room, decide_true, if_true, Bool.not_true, Bool.and_false]
    split <;> rfl
  · simp only [room, decide_false, Bool.false_eq_true, if_false, Bool.not_false, Bool.and_true]
    split <;> rfl

theorem takenReturned_halts {v : Word} {s : State} (h : 2 ^ s.ntc.sizeExp < (s.ntc.written - v).toNat) :
    takenReturned v s = haltCount s := by
  rw [takenReturned, if_neg (mt (s.takenPasses_iff v).mp (Nat.not_le.mpr h))]

theorem takenReturned_adopts {v : Word} {s : State} (h : (s.ntc.written - v).toNat ≤ 2 ^ s.ntc.sizeExp) :
    takenReturned v s = drain (adoptTaken v s) := by
  rw [takenReturned, if_pos ((s.takenPasses_iff v).mpr h)]

/-- Settles O18: the lag check of `takenReturned`, and what adopting the value makes of the Notice Writer. -/
theorem noticesTakenRead : Obligations.NoticesTakenRead := by
  intro v s ha hs lag n
  have taken : exec (.noticesTakenReadDone v) s = .next (takenReturned v s.served) :=
    congrArg _ (whenServed_of_serving ha hs _)
  refine ⟨fun above => ?halts, fun within => ?adopts⟩
  case halts =>
    rw [taken, takenReturned_halts (s := s.served) above]
    rfl
  case adopts =>
    rw [taken, takenReturned_adopts (s := s.served) within, adoptTaken_eq]
    rfl

/-! ### The bytes of a notice record (section 10.5) -/

theorem indexByte_eq {n : Nat} (i : Option (Fin n)) :
    indexByte i = (i.map fun k => BitVec.ofNat 8 k.val).getD 0xFF := by
  cases i <;> rfl

theorem noticeBytes_of_length_le (number : Word) {t : Notice} (h : t.payload.length ≤ 32) : noticeBytes number t =
    leBytes 4 number.toNat ++
      [t.kind.code, (t.entry.map (fun n => BitVec.ofNat 8 n.val)).getD 0xFF,
        (t.line.map (fun l => BitVec.ofNat 8 l.val)).getD 0xFF, t.address] ++
      leBytes 4 t.time.toNat ++ leBytes 4 t.count.toNat ++ [BitVec.ofNat 8 t.payload.length] ++
      List.replicate 15 0 ++ t.payload ++ List.replicate (32 - t.payload.length) 0 := by
  rw [noticeBytes, padTo_of_length_le h, indexByte_eq, indexByte_eq, List.append_assoc _ t.payload]

/-! ### The Notice Writer's next request (R155, R159, R160, R161) -/

section
variable {s : State}

theorem State.lostIsDue_iff : s.lostIsDue = true ↔ s.ntc.lostAfter = some 0 := beq_iff_eq

theorem State.hasNotice_iff : s.hasNotice = true ↔ s.ntc.lostAfter = some 0 ∨ s.ntc.held ≠ [] := by
  rw [State.hasNotice, Bool.or_eq_true, State.lostIsDue_iff, Bool.not_eq_true', List.isEmpty_eq_false_iff]

theorem State.hasRoom_iff : s.hasRoom = true ↔ (s.ntc.written - s.ntc.taken).toNat < 2 ^ s.ntc.sizeExp :=
  decide_eq_true_iff

/-- A LOST notice that is due goes before the hold buffer (R160). -/
theorem beginNotice_of_lost (h : s.ntc.lostAfter = some 0) : beginNotice s =
    { s with ntc := { s.ntc with
      writing := some ⟨s.lostNotice, s.ntc.written + 1, true⟩, lostCount := 0, lostAfter := none } }.issue
      (s.noticeRequest ⟨s.lostNotice, s.ntc.written + 1, true⟩) := by
  rw [beginNotice, if_pos (State.lostIsDue_iff.mpr h)]
  rfl

/-- With no LOST notice due the head of the hold buffer goes (R159). -/
theorem beginNotice_of_held {t : Notice} {rest : List Notice} (h : s.ntc.lostAfter ≠ some 0)
    (held : s.ntc.held = t :: rest) : beginNotice s =
    { s with ntc := { s.ntc with writing := some ⟨t, s.ntc.written + 1, false⟩ } }.issue
      (s.noticeRequest ⟨t, s.ntc.written + 1, false⟩) := by
  rw [beginNotice, if_neg (mt State.lostIsDue_iff.mp h), held]
  rfl

theorem State.noticeRequest_of_area {area : Addr} (h : s.ntc.area = some area) (w : NoticeWrite) : s.noticeRequest w =
    writeRequest .notice .noticeRecord .notice
      (area + BitVec.ofNat 64 (64 * (s.ntc.written.toNat % 2 ^ s.ntc.sizeExp))) (noticeBytes w.number w.notice) := by
  simp only [State.noticeRequest, State.noticeSize, h, Option.getD_some]

end

section
variable {s : State} (ha : s.active = true) (free : s.port.busyFor .notice = false) (between : s.ntc.writing = none)
  (hc : s.ntc.closing = false)
include ha free between hc

/-- Between two notices: a wanted read, then a due lost total write, then a notice that has room (R159). -/
theorem issueNotice_between : issueNotice s =
    if s.ntc.readWanted then issueTakenRead s
    else if s.ntc.lostDue then issueLostTotal s
    else if s.hasNotice && s.hasRoom then beginNotice s
    else s := by
  simp only [issueNotice, ha, free, between, hc, Option.isSome_none, Bool.not_true, Bool.or_self, Bool.false_eq_true,
    if_false]

theorem issueNotice_of_readWanted (hr : s.ntc.readWanted = true) : issueNotice s = issueTakenRead s := by
  rw [issueNotice_between ha free between hc, if_pos hr]

theorem issueNotice_of_lostDue (hr : s.ntc.readWanted = false) (hl : s.ntc.lostDue = true) :
    issueNotice s = issueLostTotal s := by
  rw [issueNotice_between ha free between hc, hr, if_neg Bool.false_ne_true, if_pos hl]

variable (hr : s.ntc.readWanted = false) (hl : s.ntc.lostDue = false)
include hr hl

theorem issueNotice_begins (room : (s.ntc.written - s.ntc.taken).toNat < 2 ^ s.ntc.sizeExp)
    (notice : s.ntc.lostAfter = some 0 ∨ s.ntc.held ≠ []) : issueNotice s = beginNotice s := by
  rw [issueNotice_between ha free between hc, hr, hl, if_neg Bool.false_ne_true, if_neg Bool.false_ne_true,
    State.hasNotice_iff.mpr notice, State.hasRoom_iff.mpr room]
  rfl

theorem issueNotice_rests (h : ¬ ((s.ntc.written - s.ntc.taken).toNat < 2 ^ s.ntc.sizeExp) ∨
    s.ntc.held = [] ∧ s.ntc.lostAfter ≠ some 0) : issueNotice s = s := by
  have nothing : ¬ (s.hasNotice && s.hasRoom) = true := by
    rw [Bool.and_eq_true, State.hasNotice_iff, State.hasRoom_iff]
    rintro ⟨notice, room⟩
    rcases h with full | ⟨empty, undue⟩
    · exact full room
    · exact notice.elim undue (· empty)
  rw [issueNotice_between ha free between hc, hr, hl, if_neg Bool.false_ne_true, if_neg Bool.false_ne_true,
    if_neg nothing]

end

/-- Settles O50: the record's bytes and the codes, and each branch of the choice between two notices. -/
theorem noticesIssuedInOrder : Obligations.NoticesIssuedInOrder := by
  refine ⟨fun number t => noticeBytes_of_length_le number, rfl, ?_⟩
  intro area s ha free between hc harea u room place record lost
  refine ⟨issueNotice_frame s, fun hr => ?read, fun hr hl => ?lostTotal,
    fun hr hl => ⟨fun hroom due => ?lost, fun t rest hroom due held => ?held, fun h => ?rests⟩⟩
  case read =>
    have issued : u = issueTakenRead s := issueNotice_of_readWanted ha free between hc hr
    rw [issued]
    exact ⟨rfl, rfl⟩
  case lostTotal =>
    have issued : u = issueLostTotal s := issueNotice_of_lostDue ha free between hc hr hl
    rw [issued]
    exact ⟨rfl, rfl⟩
  case lost =>
    have issued : u = beginNotice s := issueNotice_begins ha free between hc hr hl hroom (.inl due)
    rw [issued, beginNotice_of_lost due, State.noticeRequest_of_area harea]
    exact ⟨rfl, rfl⟩
  case held =>
    have held_ne : s.ntc.held ≠ [] := held ▸ List.cons_ne_nil t rest
    have issued : u = beginNotice s := issueNotice_begins ha free between hc hr hl hroom (.inr held_ne)
    rw [issued, beginNotice_of_held due held, State.noticeRequest_of_area harea]
    exact ⟨rfl, rfl⟩
  case rests => exact issueNotice_rests ha free between hc hr hl h

end Sys2Proof.Machine
end

section
/-! PROOFS. The host's accesses: a write to HZCMD by its bits, START and NUDGE, the registers as they are written and
read, the interrupt output, and the count of REFCLK periods. -/

set_option Elab.async false

namespace Sys2Proof.Machine

/-! ### A write to HZCMD (R167) -/

/-- What a write to HZCMD without RESET leaves of the state before its START or STOP: in RUNNING its NUDGE is taken
first (R168, log 11). -/
def State.nudgedBy (s : State) (v : Word) : State :=
  if v.getLsbD 3 = true ∧ s.ctl.part = .running then takeNudge s else s

theorem takeNudge_frame {s : State} (h : s.ctl.part ≠ .stopping) :
    Frame [.chain, .port, .ntc, .cells] s (takeNudge s) := by
  have nudged := (nudgeFollower_frame s).then (l := [.chain, .port, .ntc]) (nudgeRead_frame _)
  refine nudged.then (drain_frame _ ?_)
  rw [nudged.partState]
  exact h

section
variable {v : Word} {s : State}

theorem State.nudgedBy_of_bit_clear (h : v.getLsbD 3 = false) : s.nudgedBy v = s :=
  if_neg (fun c => Bool.false_ne_true (h.symm.trans c.1))

theorem State.nudgedBy_of_not_running (h : s.ctl.part ≠ .running) : s.nudgedBy v = s := if_neg (fun c => h c.2)

/-- A NUDGE leaves the part state. -/
theorem State.nudgedBy_part : (s.nudgedBy v).ctl.part = s.ctl.part := by
  unfold State.nudgedBy
  split
  · next c => exact (takeNudge_frame (by rw [c.2]; decide)).partState
  · rfl

theorem State.running_iff (hr : s.pins.rstn = false) : s.running = true ↔ s.ctl.part = .running := by
  simp [State.running, hr]

variable (hr : s.pins.rstn = false) (h2 : v.getLsbD 2 = false)
include hr h2

/-- Without RESET the NUDGE of the write is taken, and then its START and STOP bits count. -/
theorem takeCommand_of_no_reset : takeCommand v s =
    if v.getLsbD 0 then (if v.getLsbD 1 then refuse .conflict (s.nudgedBy v) else takeStart (s.nudgedBy v))
    else if v.getLsbD 1 then takeStop (s.nudgedBy v) else s.nudgedBy v := by
  have nudged : (if v.getLsbD 3 && s.running then takeNudge s else s) = s.nudgedBy v := by
    simp only [State.nudgedBy, Bool.and_eq_true, State.running_iff hr]
  simp only [takeCommand, hr, h2, nudged, Bool.false_eq_true, if_false]
  cases v.getLsbD 0 <;> cases v.getLsbD 1 <;> rfl

theorem takeCommand_conflict (h0 : v.getLsbD 0 = true) (h1 : v.getLsbD 1 = true) :
    takeCommand v s = refuse .conflict (s.nudgedBy v) := by
  rw [takeCommand_of_no_reset hr h2, if_pos h0, if_pos h1]

theorem takeCommand_start (h0 : v.getLsbD 0 = true) (h1 : v.getLsbD 1 = false) :
    takeCommand v s = takeStart (s.nudgedBy v) := by
  rw [takeCommand_of_no_reset hr h2, if_pos h0, h1, if_neg Bool.false_ne_true]

theorem takeCommand_stop (h0 : v.getLsbD 0 = false) (h1 : v.getLsbD 1 = true) :
    takeCommand v s = takeStop (s.nudgedBy v) := by
  rw [takeCommand_of_no_reset hr h2, h0, if_neg Bool.false_ne_true, if_pos h1]

theorem takeCommand_neither (h0 : v.getLsbD 0 = false) (h1 : v.getLsbD 1 = false) :
    takeCommand v s = s.nudgedBy v := by
  rw [takeCommand_of_no_reset hr h2, h0, h1, if_neg Bool.false_ne_true, if_neg Bool.false_ne_true]

end

/-- A whole register write at HZCMD's offset is a write to HZCMD (R180, log 18). -/
theorem exec_registerWrite_command (v : Word) (s : State) :
    exec (.registerWrite 0x04 v 0xF) s = .next (takeCommand v s) := rfl

section
variable {s : State}

theorem takeStart_of_not_idle (h : s.ctl.part ≠ .idle) : takeStart s = refuse .notIdle s := if_neg h

theorem takeStop_of_no_session (h : s.ctl.part = .idle ∨ s.ctl.part = .halted) :
    takeStop s = refuse .notRunning s := by
  rcases h with h | h <;> simp only [takeStop, h]

/-- In STARTING a STOP is remembered (R172). -/
theorem takeStop_of_starting (h : s.ctl.part = .starting) :
    takeStop s = { s with ctl := { s.ctl with startStop := true } } := by
  simp only [takeStop, h]

theorem takeStop_of_running (h : s.ctl.part = .running) : takeStop s = drain (beginStop s) := by
  simp only [takeStop, h]

theorem takeStop_of_stopping (h : s.ctl.part = .stopping) : takeStop s = s := by
  simp only [takeStop, h]

end

/-- Settles O5: what the write's bits select is judged by the part state, which a NUDGE of the same write leaves. -/
theorem commandTable : Obligations.CommandTable := by
  intro v s hr u refused
  have other {p : PartState} (h : s.ctl.part = p) (hp : p ≠ .running) : s.nudgedBy v = s :=
    State.nudgedBy_of_not_running (h ▸ hp)
  refine ⟨rfl, rfl, rfl, rfl, fun h2 => ?reset, fun h2 => ⟨fun h0 h1 => ?conflict, fun h0 h1 hp => ?notIdle,
    fun h0 h1 hp => ?notRunning, fun h0 h1 hp => ?starting, fun h0 h1 hp => ?running, fun h0 h1 hp => ?stopping,
    fun h0 h1 => ?neither⟩⟩
  all_goals rw [exec_registerWrite_command]
  case reset => rw [takeCommand_reset v s h2, hr, if_neg Bool.false_ne_true]
  case conflict => rw [takeCommand_conflict hr h2 h0 h1]; rfl
  case notIdle =>
    have part : (s.nudgedBy v).ctl.part ≠ .idle := by rw [State.nudgedBy_part]; exact hp
    rw [takeCommand_start hr h2 h0 h1, takeStart_of_not_idle part]
    rfl
  case notRunning =>
    have unnudged : s.nudgedBy v = s := hp.elim (other · (by decide)) (other · (by decide))
    have found : u = s := unnudged
    rw [takeCommand_stop hr h2 h0 h1, unnudged, takeStop_of_no_session hp]
    simp only [refused, found]
    rfl
  case starting => rw [takeCommand_stop hr h2 h0 h1, other hp (by decide), takeStop_of_starting hp]
  case running =>
    have part : (s.nudgedBy v).ctl.part = .running := by rw [State.nudgedBy_part, hp]
    rw [takeCommand_stop hr h2 h0 h1, takeStop_of_running part]
    rfl
  case stopping => rw [takeCommand_stop hr h2 h0 h1, other hp (by decide), takeStop_of_stopping hp]
  case neither => rw [takeCommand_neither hr h2 h0 h1]; rfl

/-! ### START (R169) -/

/-- A command row sets its own bit in the word written, and leaves the others (log 18). -/
theorem or_bit_set (v : Word) {m : Word} {i : Nat} (hm : m.getLsbD i = true) : (v ||| m).getLsbD i = true := by
  rw [BitVec.getLsbD_or, hm, Bool.or_true]

theorem or_bit_clear {v m : Word} {i : Nat} (h : v.getLsbD i = false) (hm : m.getLsbD i = false) :
    (v ||| m).getLsbD i = false := by
  rw [BitVec.getLsbD_or, h, hm, Bool.or_false]

/-- The part as an accepted START makes it, before the anchor is asked for. -/
def State.started (s : State) : State :=
  { s with ctl := { s.ctl with
      part := .starting, phase := .anchorRead, startStop := false, anchor := s.anchorRegisters } }

theorem State.started_frame (s : State) : Frame [.control] s s.started where
  keeps p hp := by
    cases p
    case control => exact absurd (by decide) hp
    all_goals simp [Piece.Same, State.started]

/-- A request that is issued and the port's arbitration. -/
theorem State.asked_frame (s : State) (r : Request) : Frame [.port] s (s.issue r).arbitrate :=
  (State.issue_frame s r).trans (State.arbitrate_frame _)

theorem takeStart_of_idle {s : State} (h : s.ctl.part = .idle) : takeStart s =
    (s.started.issue (readRequest .control .anchorRead .anchor s.anchorRegisters 256)).arbitrate := if_pos h

/-- Settles O6: in IDLE a NUDGE of the write is ignored and `takeStart` asks for the anchor. -/
theorem startAccepted : Obligations.StartAccepted := by
  intro v s hr hi h1 h2
  have unnudged : s.nudgedBy (v ||| 1) = s := State.nudgedBy_of_not_running (by rw [hi]; decide)
  have taken : exec (.start v) s =
      .next (s.started.issue (readRequest .control .anchorRead .anchor s.anchorRegisters 256)).arbitrate := by
    rw [← takeStart_of_idle hi, ← unnudged,
      ← takeCommand_start hr (or_bit_clear h2 rfl) (or_bit_set v rfl) (or_bit_clear h1 rfl), unnudged]
    rfl
  exact ⟨_, taken, s.started_frame.then (State.asked_frame ..), rfl,
    fun served waiting => State.issue_arbitrate_inService (s := s.started) _ served waiting⟩

/-! ### NUDGE (R104, R161, R168) -/

section
variable {s : State}

/-- While its reads are under way or it is PAUSED the follower keeps a NUDGE for later (R104). -/
theorem nudgeFollower_of_reading
    (h : s.job.follower = .linkRead ∨ s.job.follower = .recordRead ∨ s.job.follower = .paused) :
    nudgeFollower s = { s with job := { s.job with nudgePending := true } } := by
  rcases h with h | h | h <;> simp only [nudgeFollower, h]

theorem nudgeFollower_of_off (h : s.job.follower = .off) : nudgeFollower s = s := by
  simp only [nudgeFollower, h]

/-- A parked follower re-reads at once (R104). -/
theorem nudgeFollower_of_parked (h : s.job.follower = .parkedLink ∨ s.job.follower = .parkedRecord) :
    nudgeFollower s = reread s := by
  rcases h with h | h <;> simp only [nudgeFollower, h]

/-- What a NUDGE makes of the Notice Writer: a wanted read, or another read after the one in flight (R161). -/
theorem nudgeRead_ntc (s : State) : (nudgeRead s).ntc =
    if s.ntc.closing then s.ntc
    else if s.ntc.readInFlight then { s.ntc with readAgain := true }
    else { s.ntc with readWanted := true } := by
  unfold nudgeRead
  split
  · rfl
  · split <;> rfl

end

/-- Settles O9: the follower's own step of R104 and then the Notice Writer's of R161, each of which leaves the other's
items alone. -/
theorem nudgeTaken : Obligations.NudgeTaken := by
  intro v s hr h0 h1 h2
  have taken : exec (.nudge v) s = .next (s.nudgedBy (v ||| 8)) := by
    rw [← takeCommand_neither hr (or_bit_clear h2 rfl) (or_bit_clear h0 rfl) (or_bit_clear h1 rfl)]
    rfl
  refine ⟨fun hp => by rw [taken, State.nudgedBy_of_not_running hp], fun hp => ?running⟩
  have nudged : exec (.nudge v) s = .next (drain (nudgeRead (nudgeFollower s))) := by
    rw [taken, State.nudgedBy, if_pos ⟨or_bit_set v rfl, hp⟩]
    rfl
  have follower := nudgeFollower_frame s
  have reader := nudgeRead_frame (nudgeFollower s)
  have job : (nudgeRead (nudgeFollower s)).job = (nudgeFollower s).job := reader.job
  have port : (nudgeRead (nudgeFollower s)).port = (nudgeFollower s).port := reader.same .port
  have ntc : (nudgeFollower s).ntc = s.ntc := follower.same .ntc
  refine ⟨_, nudged, follower.then reader, ?_⟩
  rw [job, port, nudgeRead_ntc, ntc]
  refine ⟨fun p parked hpark => ?link, fun a i parked hn hf => ?record, fun parked full => ?pauses,
    fun reading => ?later, fun off => ?off, fun closing => if_pos closing, fun opened flies => ?again,
    fun opened quiet => ?wanted⟩
  case link =>
    rw [nudgeFollower_of_parked (.inl parked), reread_link_reads parked hpark]
    exact ⟨rfl, rfl, rfl⟩
  case record =>
    rw [nudgeFollower_of_parked (.inr parked), reread_record_reads parked hf hn]
    exact ⟨rfl, rfl, rfl⟩
  case pauses => rw [nudgeFollower_of_parked (.inr parked), reread_record_pauses parked full]
  case later =>
    rw [nudgeFollower_of_reading reading]
    exact ⟨rfl, rfl⟩
  case off =>
    rw [nudgeFollower_of_off off]
    exact ⟨rfl, rfl⟩
  case again => rw [opened, flies, if_neg Bool.false_ne_true, if_pos rfl]
  case wanted => rw [opened, quiet, if_neg Bool.false_ne_true, if_neg Bool.false_ne_true]

/-! ### The registers (R178 to R180, section 10.7) -/

section
variable {v : Word} {s : State} (hr : s.pins.rstn = false)
include hr

theorem exec_hzintWrite : exec (.hzintWrite v) s =
    .next { s with ctl := { s.ctl with hzint := s.ctl.hzint &&& ~~~(v.setWidth 5) } } := by
  simp only [exec, execHzintWrite, writeHzint, hr, Bool.false_eq_true, if_false]

theorem exec_hzmaskWrite : exec (.hzmaskWrite v) s = .next { s with ctl := { s.ctl with hzmask := v.setWidth 5 } } := by
  simp only [exec, execHzmaskWrite, writeHzmask, hr, Bool.false_eq_true, if_false]

theorem writeAncl_of_released : writeAncl v s = { s with ctl := { s.ctl with ancl := v &&& 0xFFFFFF00 } } := by
  rw [writeAncl, hr, if_neg Bool.false_ne_true]

theorem writeAnch_of_released : writeAnch v s = { s with ctl := { s.ctl with anch := v } } := by
  rw [writeAnch, hr, if_neg Bool.false_ne_true]

end

/-- A register write with a byte enable clear is ignored (R180). -/
theorem writeRegister_of_partial (o : BitVec 6) (v : Word) (s : State) {en : BitVec 4} (h : en ≠ 0xF) :
    writeRegister o v en s = s := if_pos h

/-- Offsets other than the five of writable registers ignore a write (R180). -/
theorem writeRegister_of_read_only {o : BitVec 6} (v : Word) (s : State)
    (h : o = 0x00 ∨ o = 0x08 ∨ o = 0x1C ∨ o = 0x20 ∨ 0x24 ≤ o.toNat) : writeRegister o v 0xF s = s := by
  have offset : o.toNat = 0x00 ∨ o.toNat = 0x08 ∨ o.toNat = 0x1C ∨ o.toNat = 0x20 ∨ 0x24 ≤ o.toNat := by
    rcases h with rfl | rfl | rfl | rfl | h
    · exact .inl rfl
    · exact .inr (.inl rfl)
    · exact .inr (.inr (.inl rfl))
    · exact .inr (.inr (.inr (.inl rfl)))
    · exact .inr (.inr (.inr (.inr h)))
  rw [writeRegister, if_neg (not_not_intro rfl)]
  split
  case h_6 => rfl
  all_goals omega

/-- The offsets above the last register read as 0 (section 10.7). -/
theorem readRegister_of_none {o : BitVec 6} (s : State) (h : 0x24 ≤ o.toNat) : s.readRegister o = 0 := by
  unfold State.readRegister
  split
  case h_9 => rfl
  all_goals omega

/-! #### The fields of HZSTAT -/

section
variable {x : Word} {place width : Nat}

/-- A code in its field of a register shows in that field. -/
theorem extractLsb'_own_field (x : Word) (h : place + width ≤ 32) :
    (x <<< place).extractLsb' place width = x.setWidth width := by
  apply BitVec.eq_of_getLsbD_eq
  intro i hi
  have below : place + i < 32 := by omega
  rw [BitVec.getLsbD_extractLsb', BitVec.getLsbD_shiftLeft, BitVec.getLsbD_setWidth]
  simp only [hi, below, Nat.not_lt_of_le (Nat.le_add_right place i), Nat.add_sub_cancel_left, decide_true,
    decide_false, Bool.not_false, Bool.true_and]

variable (fits : x.toNat < 2 ^ width)
include fits

theorem getLsbD_above_field {i : Nat} (h : width ≤ i) : x.getLsbD i = false :=
  Nat.testBit_lt_two_pow (Nat.lt_of_lt_of_le fits (Nat.pow_le_pow_right (by decide) h))

/-- It shows in no field beside its own. -/
theorem extractLsb'_other_field {p n : Nat} (h : p + n ≤ place ∨ place + width ≤ p) :
    (x <<< place).extractLsb' p n = 0 := by
  ext i hi
  rw [BitVec.getElem_extractLsb', BitVec.getLsbD_shiftLeft]
  by_cases below : p + i < place
  · simp [below]
  · simp [getLsbD_above_field fits (i := p + i - place) (by omega)]

/-- It has no bit of a mask that leaves its field out. -/
theorem shifted_and_eq_zero {m : Word} (h : ∀ i, i < width → m.getLsbD (place + i) = false) :
    (x <<< place) &&& m = 0 := by
  apply BitVec.eq_of_getLsbD_eq
  intro k hk
  rw [BitVec.getLsbD_and, BitVec.getLsbD_shiftLeft]
  by_cases below : k < place
  · simp [below]
  · by_cases inside : k - place < width
    · have clear := h _ inside
      rw [show place + (k - place) = k by omega] at clear
      simp [clear]
    · simp [getLsbD_above_field fits (i := k - place) (by omega)]

end

theorem PartState.code_fits (p : PartState) : p.code.toNat < 2 ^ 3 := by cases p <;> decide
theorem RefusalReason.code_fits (r : RefusalReason) : r.code.toNat < 2 ^ 4 := by cases r <;> decide
theorem HaltReason.code_fits (h : HaltReason) : h.code.toNat < 2 ^ 4 := by cases h <;> decide
theorem Structure.code_fits (x : Structure) : x.code.toNat < 2 ^ 3 := by cases x <;> decide
theorem Direction.code_fits (d : Direction) : d.code.toNat < 2 ^ 2 := by cases d <;> decide

/-- HZSTAT by its fields: a read at 08h shows each code in its own bits, and 0 in the bits that belong to none. -/
theorem State.hzstat_fields (s : State) :
    s.hzstat.extractLsb' 0 3 = s.ctl.part.code.setWidth 3 ∧
    s.hzstat.extractLsb' 4 4 = s.ctl.refusal.code.setWidth 4 ∧
    s.hzstat.extractLsb' 8 4 = s.ctl.haltReason.code.setWidth 4 ∧
    s.hzstat.extractLsb' 12 3 = s.ctl.faultStruct.code.setWidth 3 ∧
    s.hzstat.extractLsb' 16 2 = s.ctl.faultDir.code.setWidth 2 ∧
    s.hzstat &&& 0xFFFC8008 = 0 := by
  have part := PartState.code_fits s.ctl.part
  have refusal := RefusalReason.code_fits s.ctl.refusal
  have halt := HaltReason.code_fits s.ctl.haltReason
  have struct := Structure.code_fits s.ctl.faultStruct
  have dir := Direction.code_fits s.ctl.faultDir
  have placed : s.hzstat = (s.ctl.part.code <<< 0) ||| (s.ctl.refusal.code <<< 4) ||| (s.ctl.haltReason.code <<< 8) |||
      (s.ctl.faultStruct.code <<< 12) ||| (s.ctl.faultDir.code <<< 16) := by
    rw [BitVec.shiftLeft_zero]
    rfl
  rw [placed]
  refine ⟨?_, ?_, ?_, ?_, ?_, ?unused⟩
  case unused =>
    simp only [BitVec.and_or_distrib_right]
    rw [shifted_and_eq_zero part (by decide), shifted_and_eq_zero refusal (by decide),
      shifted_and_eq_zero halt (by decide), shifted_and_eq_zero struct (by decide),
      shifted_and_eq_zero dir (by decide)]
    rfl
  all_goals simp (disch := decide) only [BitVec.extractLsb'_or, extractLsb'_own_field,
    extractLsb'_other_field part, extractLsb'_other_field refusal, extractLsb'_other_field halt,
    extractLsb'_other_field struct, extractLsb'_other_field dir, BitVec.ofNat_eq_ofNat, BitVec.or_zero, BitVec.zero_or]

/-- The two halves of an address make the address. -/
theorem halves_append (a : Addr) : ((a >>> 32).setWidth 32 : Word) ++ (a.setWidth 32 : Word) = a := by
  apply BitVec.eq_of_getLsbD_eq
  intro i hi
  rw [BitVec.getLsbD_append]
  split
  · next low => simp [low]
  · next low => 
    have high : i - 32 < 32 := by omega
    simp [high, show 32 + (i - 32) = i by omega]

/-- Settles O10: the codes, the writes by their offset, and each register as it reads. -/
theorem registerAccesses : Obligations.RegisterAccesses := by
  refine ⟨⟨rfl, rfl, rfl, rfl, rfl⟩, fun v s hr => ?writes, fun s => ?reads⟩
  case writes =>
    exact ⟨exec_hzintWrite hr, exec_hzmaskWrite hr, rfl, rfl,
      congrArg _ (writeAncl_of_released hr), congrArg _ (writeAnch_of_released hr),
      fun o ho => congrArg _ (writeRegister_of_read_only v s ho),
      fun o en hen => congrArg _ (writeRegister_of_partial o v s hen)⟩
  case reads =>
    obtain ⟨part, refusal, halt, struct, dir, unused⟩ := s.hzstat_fields
    refine ⟨rfl, rfl, part, refusal, halt, struct, dir, unused, rfl, rfl, rfl, rfl, halves_append _,
      fun o ho => readRegister_of_none s ho, fun hp hn hb hc hw => ?_⟩
    have codes : s.readRegister 0x08 = s.hzstat := rfl
    rw [codes, State.hzstat, hp, hn, hb, hc, hw]
    rfl

/-! ### The interrupt output (R179) -/

/-- Two words have a set bit in common. -/
theorem and_ne_zero_iff {w : Nat} (a b : BitVec w) :
    a &&& b ≠ 0 ↔ ∃ k, k < w ∧ a.getLsbD k = true ∧ b.getLsbD k = true := by
  constructor
  · intro h
    refine Classical.byContradiction fun none => h (BitVec.eq_of_getLsbD_eq fun k hk => ?_)
    show (a &&& b).getLsbD k = (0#w).getLsbD k
    rw [BitVec.getLsbD_and, BitVec.getLsbD_zero]
    exact Bool.eq_false_iff.mpr fun both => none ⟨k, hk, Bool.and_eq_true_iff.mp both⟩
  · rintro ⟨k, -, ha, hb⟩ h
    have bit : (a &&& b).getLsbD k = true := by rw [BitVec.getLsbD_and, ha, hb]; rfl
    rw [h] at bit
    simp at bit

theorem State.irq_iff {s : State} (hr : s.pins.rstn = false) : s.irq = true ↔ s.ctl.hzint &&& s.ctl.hzmask ≠ 0 := by
  simp [State.irq, hr]

/-- A set cause that HZMASK enables is a bit in common. -/
theorem or_and_ne_zero {w : Nat} {x b m : BitVec w} (h : m &&& b ≠ 0) : (x ||| b) &&& m ≠ 0 := by
  obtain ⟨k, hk, hm, hb⟩ := (and_ne_zero_iff m b).mp h
  exact (and_ne_zero_iff _ _).mpr ⟨k, hk, by rw [BitVec.getLsbD_or, hb, Bool.or_true], hm⟩

/-- HZMASK reads back in its five positions, with 0 above them. -/
theorem setWidth_five_setWidth (v : Word) : (v.setWidth 5).setWidth 32 = v &&& 0x1F := by
  apply BitVec.eq_of_toNat_eq
  have low : v.toNat &&& 0x1F = v.toNat % 32 := Nat.and_two_pow_sub_one_eq_mod v.toNat 5
  have mask : (0x1F : Word).toNat = 0x1F := rfl
  rw [BitVec.toNat_setWidth, BitVec.toNat_setWidth, BitVec.toNat_and, mask, low]
  omega

/-- Settles O11: a bit in common of HZINT and HZMASK, which a write and a reset set and a cause leaves. -/
theorem interruptOutput : Obligations.InterruptOutput := by
  refine ⟨fun s hr => (State.irq_iff hr).trans (and_ne_zero_iff ..),
    fun v s hr => ⟨_, exec_hzmaskWrite hr, setWidth_five_setWidth v⟩,
    fun c s hr => ⟨rfl, fun enabled => (State.irq_iff (s := s.setCause c) hr).mpr (or_and_ne_zero enabled)⟩,
    fun _ => rfl, fun _ => rfl⟩

/-! ### Time (R181) -/

/-- Settles O2: with nothing queued a step is `passRefclk`, by its three cases. -/
theorem emptyQueueCountsTime : Obligations.EmptyQueueCountsTime := by
  intro s none
  have passes : step s = .next (passRefclk s) := by rw [step, none]
  refine ⟨fun held => ?held, fun free within => ?counts, fun free full => ?wraps⟩
  all_goals rw [passes, passRefclk]
  case held => rw [if_pos held]
  case counts => rw [free, if_neg Bool.false_ne_true, if_pos (show s.tb.divider + 1 < Config.refclkPerMs from within)]
  case wraps =>
    rw [free, if_neg Bool.false_ne_true,
      if_neg (show ¬ s.tb.divider + 1 < Config.refclkPerMs from Nat.not_lt.mpr full)]

end Sys2Proof.Machine
end

section
/-! PROOFS. The part at rest: events that it ignores, the resets, and HALTED: how a part gets there, what stands there and
what a command can still change, and the causes. -/

set_option Elab.async false

namespace Sys2Proof.Machine

/-! ### Events of a part that does not work (log 1) -/

/-- The part is in none of the states that carry out requests and events: IDLE, HALTED, or RSTN asserted. -/
structure State.AtRest (s : State) : Prop where
  inactive : s.active = false
  notStarting : ∀ p, s.startingIn p = false

theorem State.atRest_of_held {s : State} (hr : s.pins.rstn = true) : s.AtRest :=
  ⟨by simp [State.active, hr], fun _ => by simp [State.startingIn, hr]⟩

theorem State.atRest_of_halted {s : State} (hp : s.ctl.part = .halted) : s.AtRest :=
  ⟨by simp [State.active, hp], fun _ => by simp [State.startingIn, hp]⟩

/-- The command is an access of the host or moves RSTN. -/
def isAccess : Instr → Prop
  | .start _ => True
  | .stop _ => True
  | .reset _ => True
  | .nudge _ => True
  | .pinReset => True
  | .rstnRelease => True
  | .hzintWrite _ => True
  | .hzmaskWrite _ => True
  | .registerWrite _ _ _ => True
  | _ => False

namespace State.AtRest
variable {s : State} (h : s.AtRest)
include h

theorem not_running : s.running = false := by
  cases hr : s.running with
  | false => rfl
  | true => exact absurd (State.active_of_running hr) (by simp [h.inactive])

theorem not_working : s.working = false := by
  have starting := h.notStarting s.ctl.phase
  simp only [State.startingIn, beq_self_eq_true, Bool.and_true] at starting
  simp [State.working, h.inactive, starting]

/-- An event that only an active part takes. -/
theorem ignores {c : Bool} {t : State} (hc : c = true → s.active = true := by simp +contextual) :
    (if c then t else s) = s :=
  if_neg fun e => Bool.false_ne_true (h.inactive.symm.trans (hc e))

theorem whenServed (k : RequestKind) (f : State → State) : whenServed k f s = s := h.ignores

theorem whenStarting (p : Phase) (k : RequestKind) (f : State → State) : whenStarting p k f s = s := by
  simp [Machine.whenStarting, h.notStarting p]

theorem recordReturned (r : JobRecord) : recordReturned r s = s := h.ignores

theorem lineStatusTaken (f : JobFields) : lineStatusTaken f s = s := by
  simp only [Machine.lineStatusTaken, h.inactive, Bool.false_and]
  exact h.recordReturned _

theorem busError : busError s = s := by
  unfold Machine.busError
  split
  · simp [h.not_working]
  · rfl

theorem timerEnded : timerEnded s = s := by simp only [Machine.timerEnded, h.inactive]

theorem refreshOverdue (x : RefreshTarget) : refreshOverdue x s = s := by
  cases x with
  | entry n => exact h.ignores
  | window l =>
    simp only [Machine.refreshOverdue]
    split
    · exact h.ignores
    · rfl

theorem deliver (l : Fin 4) (x : LineChar) : deliver l x s = s := by simp only [Machine.deliver, h.inactive]

theorem startBitConfirmation (l : Fin 4) : startBitConfirmation l s = s := by
  simp only [Machine.startBitConfirmation, h.inactive]

/-- A part that does not work takes no event but the level of RXD: it stays as it is (log 1). -/
theorem exec_event {c : Instr} (event : ¬ isAccess c) (hx : ∀ l, c ≠ .rxdLevelChange l) : exec c s = .next s := by
  cases c
  case anchorReadDone | statusBlockWriteDone | cellInitialisationWriteDone => exact congrArg _ (h.whenStarting ..)
  case linkReadDone | takenWriteDone | resultWriteDone | stateWriteDone | tallyWriteDone | parkingWriteDone
      | cellOpeningWriteDone | cellBodyWriteDone | cellClosingWriteDone | noticeRecordWriteDone | noticeCountWriteDone
      | lostTotalWriteDone | droppedAtStopWriteDone | noticesTakenReadDone => exact congrArg _ (h.whenServed ..)
  case recordReadDone | setupLine | enlist | delist | hold | release | retune | order | broadcast | cancel | mark =>
    exact congrArg _ (h.recordReturned _)
  case lineStatus => exact congrArg _ (h.lineStatusTaken _)
  case memoryErrorResponse => exact congrArg _ h.busError
  case reReadTimerEnd => exact congrArg _ h.timerEnded
  case overdueRefresh => exact congrArg _ (h.refreshOverdue _)
  case dueTimeReached | windowDueTimeReached => exact congrArg _ (if_neg (by simp [h.not_running]))
  case quietTimerExpiry | callSent | turnaroundLimit | answerGapLimit | restEnd | windowEnd | settlingEnd
      | lineFoundStuck | lineRecovered => exact congrArg _ h.ignores
  case characterDelivered => exact congrArg _ (h.deliver ..)
  case startBitConfirmation => exact congrArg _ (h.startBitConfirmation _)
  case rxdLevelChange l => exact absurd rfl (hx l)
  all_goals exact absurd trivial event

/-- The pin follows RXD all the same, and the engine does not look at it (R52). -/
theorem exec_rxdLevelChange (l : Fin 4) : exec (.rxdLevelChange l) s = .next (s.rxdTurned l) := by
  rw [Machine.exec_rxdLevelChange, h.inactive, if_neg Bool.false_ne_true]

end State.AtRest

/-! ### The resets (R175) -/

section
variable {s : State} (hr : s.pins.rstn = true)
include hr

/-- While RSTN is asserted no access to HZCMD is taken. -/
theorem takeCommand_of_held (v : Word) : takeCommand v s = s := if_pos hr

theorem writeRegister_of_held (o : BitVec 6) (v : Word) (en : BitVec 4) : writeRegister o v en s = s := by
  unfold writeRegister
  split
  · rfl
  · split
    · exact takeCommand_of_held hr v
    · exact if_pos hr
    · exact if_pos hr
    · exact if_pos hr
    · exact if_pos hr
    · rfl

/-- While RSTN is asserted nothing but RSTN and RXD changes anything. -/
theorem exec_of_held {c : Instr} (hp : c ≠ .pinReset) (hl : c ≠ .rstnRelease)
    (hx : ∀ l, c ≠ .rxdLevelChange l) :
    exec c s = .next s := by
  have atRest := State.atRest_of_held hr
  cases c
  case start | stop | reset | nudge => exact congrArg Host.Outcome.next (takeCommand_of_held hr _)
  case pinReset => exact absurd rfl hp
  case rstnRelease => exact absurd rfl hl
  case hzintWrite | hzmaskWrite => exact congrArg Host.Outcome.next (if_pos hr)
  case registerWrite => exact congrArg Host.Outcome.next (writeRegister_of_held hr ..)
  all_goals exact atRest.exec_event id hx

end

/-- Settles O8: the reset values by definition, and a part that RSTN holds. -/
theorem resetsTaken : Obligations.ResetsTaken := by
  refine ⟨⟨fun v s hr => ?command, fun _ => rfl, fun _ => rfl⟩,
    fun s hr => ⟨?irq, (State.atRest_of_held hr).exec_rxdLevelChange, fun c => exec_of_held hr⟩⟩
  case command =>
    have reset : exec (.reset v) s = .next (takeCommand (v ||| 4) s) := rfl
    rw [reset, takeCommand_reset _ s (or_bit_set v rfl), hr]
    rfl
  case irq => simp [State.irq, hr]

/-! ### HALTED (R166, R176, R177, R180) -/

/-- The pins and the registers of t, everything else of s: what an access to a HALTED part can change. -/
def State.withRegisters (s t : State) : State :=
  { s with
    pins := t.pins
    ctl := { s.ctl with
      refusal := t.ctl.refusal, hzint := t.ctl.hzint, hzmask := t.ctl.hzmask, ancl := t.ctl.ancl, anch := t.ctl.anch } }

theorem State.withRegisters_frame (s t : State) : Frame [.pins, .causes, .control] s (s.withRegisters t) where
  keeps p hp := by
    cases p
    case pins | causes | control => exact absurd (by decide) hp
    all_goals simp [Piece.Same, State.withRegisters]

section
variable {s t : State} (hp : s.ctl.part = .halted)
include hp

/-- In HALTED a write to HZCMD without RESET is refused or ignored (R167, R177). -/
theorem takeCommand_of_halted {v : Word} (h2 : v.getLsbD 2 = false) :
    takeCommand v s = s ∨ ∃ r, takeCommand v s = refuse r s := by
  cases hr : s.pins.rstn with
  | true => exact .inl (takeCommand_of_held hr v)
  | false =>
    have unnudged : s.nudgedBy v = s := State.nudgedBy_of_not_running (by rw [hp]; decide)
    rw [takeCommand_of_no_reset hr h2, unnudged]
    split
    · split
      · exact .inr ⟨_, rfl⟩
      · exact .inr ⟨_, takeStart_of_not_idle (by rw [hp]; decide)⟩
    · split
      · exact .inr ⟨_, takeStop_of_no_session (.inr hp)⟩
      · exact .inl rfl

theorem takeCommand_halted_registers {v : Word} (h2 : v.getLsbD 2 = false) :
    takeCommand v s = s.withRegisters (takeCommand v s) := by
  rcases takeCommand_of_halted hp h2 with h | ⟨r, h⟩ <;> rw [h] <;> rfl

theorem writeRegister_halted_registers {o : BitVec 6} {v : Word} {en : BitVec 4}
    (h : ¬ isReset (.registerWrite o v en)) : writeRegister o v en s = s.withRegisters (writeRegister o v en s) := by
  unfold writeRegister
  split
  · rfl
  · next enabled =>
    split
    · next offset =>
      have command : o = 0x04 := BitVec.eq_of_toNat_eq offset
      refine takeCommand_halted_registers hp (Bool.eq_false_iff.mpr fun h2 => h ⟨command, ?_, h2⟩)
      exact Classical.not_not.mp enabled
    · unfold writeHzint
      split <;> rfl
    · unfold writeHzmask
      split <;> rfl
    · unfold writeAncl
      split <;> rfl
    · unfold writeAnch
      split <;> rfl
    · rfl

/-- In HALTED a command other than a reset changes the pins and the registers at most. -/
theorem exec_of_halted {c : Instr} (hc : ¬ isReset c) (e : exec c s = .next t) : t = s.withRegisters t := by
  have clear {v m : Word} (h : ¬ v.getLsbD 2 = true) (hm : m.getLsbD 2 = false) : (v ||| m).getLsbD 2 = false :=
    or_bit_clear (Bool.eq_false_iff.mpr h) hm
  have atRest := State.atRest_of_halted hp
  by_cases hx : ∃ l, c = .rxdLevelChange l
  · obtain ⟨l, rfl⟩ := hx
    rw [atRest.exec_rxdLevelChange] at e
    cases e
    rfl
  cases c
  case start => cases e; exact takeCommand_halted_registers hp (clear hc rfl)
  case stop => cases e; exact takeCommand_halted_registers hp (clear hc rfl)
  case nudge => cases e; exact takeCommand_halted_registers hp (clear hc rfl)
  case reset | pinReset => exact absurd trivial hc
  case rstnRelease => cases e; rfl
  case hzintWrite => cases e; unfold writeHzint; split <;> rfl
  case hzmaskWrite => cases e; unfold writeHzmask; split <;> rfl
  case registerWrite => cases e; exact writeRegister_halted_registers hp hc
  all_goals
    cases (atRest.exec_event id (fun l h => hx ⟨l, h⟩)).symm.trans e
    rfl

end

theorem exec_goesOn (c : Instr) (s : State) : goesOn (exec c s) := by
  cases c <;> exact ⟨_, rfl⟩

/-- The commands that the statements on HALTED and on the causes leave out are the resets. -/
theorem not_isReset {c : Instr} (hp : c ≠ .pinReset) (hr : ∀ v, c ≠ .reset v)
    (hv : ∀ v, v.getLsbD 2 = true → c ≠ .start v ∧ c ≠ .stop v ∧ c ≠ .nudge v)
    (hw : ∀ v, v.getLsbD 2 = true → c ≠ .registerWrite 0x04 v 0xF) : ¬ isReset c := by
  intro reset
  cases c <;> simp only [isReset] at reset
  case pinReset => exact hp rfl
  case reset v => exact hr v rfl
  case start v => exact (hv v reset).1 rfl
  case stop v => exact (hv v reset).2.1 rfl
  case nudge v => exact (hv v reset).2.2 rfl
  case registerWrite o v en =>
    obtain ⟨rfl, rfl, h2⟩ := reset
    exact hw v h2 rfl

/-- Settles O59: what is neither a pin nor a register is that of the state before. -/
theorem haltedKeeps : Obligations.HaltedKeeps := by
  intro c s hp _ hpin hreset hcmd hreg
  obtain ⟨t, e⟩ := exec_goesOn c s
  have kept := exec_of_halted hp (not_isReset hpin hreset hcmd hreg) e
  refine ⟨t, e, ?_⟩
  rw [kept]
  exact ⟨s.withRegisters_frame t, hp, rfl, rfl, rfl, rfl, rfl, rfl, rfl, rfl⟩

/-! ### Entering HALTED (R166, R176) -/

/-- Nothing but entering HALTED makes a part HALTED. -/
theorem Control.notHalted_law : ControlLaw (fun c => c.part ≠ .halted) where
  cause _ _ h := h
  refuse _ _ _ h := h
  stopped _ _ _ _ := by simp
  startStopped _ _ _ _ := by simp
  refused _ _ _ := by simp
  phase _ _ h := h
  count _ _ h := h
  run _ _ _ := by simp
  start _ _ _ _ := by simp
  stop _ _ _ := by simp
  startStop _ h := h
  mask _ _ h := h
  ancl _ _ h := h
  anch _ _ h := h

theorem exec_enters_halted {c : Instr} {s t : State} (hp : s.ctl.part ≠ .halted) (e : exec c s = .next t)
    (ht : t.ctl.part = .halted) : ∃ why a st d u, t = enterHalted why a st d u := by
  refine Classical.byContradiction fun none => ?_
  refine Control.notHalted_law.exec hp e (fun reset => ?_) (fun clear => ?_) (fun why a st d u _ halted => ?_) ht
  · rcases exec_of_isReset e reset with rfl | rfl | rfl
    · exact (by decide : Control.reset.part ≠ .halted)
    · exact (by decide : Control.reset.part ≠ .halted)
    · exact hp
  · rcases exec_of_isClear e clear with rfl | ⟨m, rfl⟩
    · exact hp
    · exact hp
  · exact absurd ⟨why, a, st, d, u, halted⟩ none

theorem enterHalted_haltedIsQuiet (why : HaltReason) (a : Addr) (st : Structure) (d : Direction) (s : State) :
    (enterHalted why a st d s).HaltedIsQuiet := by
  refine fun _ => ⟨rfl, rfl, rfl, fun l => ?_⟩
  rw [State.engine_enterHalted]
  exact ⟨rfl, rfl, rfl⟩

/-- Entering HALTED quiets the part, and in HALTED a command that is no reset reaches neither port, lines nor timer. -/
theorem State.HaltedIsQuiet.exec {c : Instr} {s t : State} (h : s.HaltedIsQuiet) (e : exec c s = .next t) :
    t.HaltedIsQuiet := by
  intro ht
  by_cases hp : s.ctl.part = .halted
  · by_cases reset : isReset c
    · rcases exec_of_isReset e reset with rfl | rfl | rfl
      · cases ht
      · cases ht
      · exact h hp
    · rw [exec_of_halted hp reset e]
      exact h hp
  · obtain ⟨why, a, st, d, u, rfl⟩ := exec_enters_halted hp e ht
    exact enterHalted_haltedIsQuiet why a st d u ht

/-- Settles O57: the passing of time reaches the Time Base alone, and a command keeps the quiet. -/
theorem haltedIsQuietKept : Obligations.HaltedIsQuietKept := by
  intro s t h e
  unfold step at e
  split at e
  · cases e
    have passed := passRefclk_frame s
    have port : (passRefclk s).port = s.port := passed.same .port
    intro ht
    rw [passed.partState] at ht
    obtain ⟨served, waiting, timer, lines⟩ := h ht
    rw [port, passed.job]
    refine ⟨served, waiting, timer, fun l => ?_⟩
    rw [passed.engine l]
    exact lines l
  · next c rest _ =>
    have queued : { s with pending := rest }.HaltedIsQuiet := h
    exact queued.exec e

/-! ### The capture (R166) -/

/-- Outside HALTED no halt reason and no capture stand. -/
def Control.NoCapture (c : Control) : Prop :=
  c.part ≠ .halted → c.haltReason = .none ∧ c.faultStruct = .none ∧ c.faultDir = .none

/-- No change but entering HALTED writes a capture, and none but a reset leaves HALTED. -/
theorem Control.noCapture_law : ControlLaw Control.NoCapture where
  cause _ _ h := h
  refuse _ _ _ h := h
  stopped _ _ h hp := fun _ => h (by simp [hp])
  startStopped _ _ h hp := fun _ => h (by simp [hp])
  refused _ h hp := fun _ => h (by simp [hp])
  phase _ _ h := h
  count _ _ h := h
  run _ h hp := fun _ => h (by simp [hp])
  start _ _ h hp := fun _ => h (by simp [hp])
  stop _ h hp := fun _ => h (by simp [hp])
  startStop _ h := h
  mask _ _ h := h
  ancl _ _ h := h
  anch _ _ h := h

theorem State.CaptureOnlyInHalted.exec {c : Instr} {s t : State} (h : s.CaptureOnlyInHalted)
    (e : exec c s = .next t) : t.CaptureOnlyInHalted := by
  refine Control.noCapture_law.exec h e (fun reset => ?_) (fun clear => ?_) (fun why a st d u _ halted => ?_)
  · rcases exec_of_isReset e reset with rfl | rfl | rfl
    · exact fun _ => ⟨rfl, rfl, rfl⟩
    · exact fun _ => ⟨rfl, rfl, rfl⟩
    · exact h
  · rcases exec_of_isClear e clear with rfl | ⟨m, rfl⟩
    · exact h
    · exact h
  · rw [halted]
    exact fun running => absurd rfl running

/-- Settles O52: of all a command can do only entering HALTED writes a capture, and time leaves the Control Block. -/
theorem captureOnlyInHaltedKept : Obligations.CaptureOnlyInHaltedKept := by
  intro s t h e
  unfold step at e
  split at e
  · cases e
    exact (passRefclk_frame s).ctlOk (Q := Control.NoCapture) h
  · next c rest _ =>
    have queued : { s with pending := rest }.CaptureOnlyInHalted := h
    exact queued.exec e

/-! ### The causes (R178) -/

/-- Each of these causes is set in HZINT. -/
def Control.HoldsCauses (causes : BitVec 5) (c : Control) : Prop := causes &&& ~~~ c.hzint = 0

theorem Control.HoldsCauses.set {causes : BitVec 5} {c : Control} (h : c.HoldsCauses causes) (m : BitVec 5) :
    causes &&& ~~~ (c.hzint ||| m) = 0 := by
  rw [BitVec.not_or, ← BitVec.and_assoc, show causes &&& ~~~ c.hzint = 0 from h]
  exact BitVec.zero_and

/-- The work of the part sets causes and clears none. -/
theorem Control.holdsCauses_law (causes : BitVec 5) : ControlLaw (Control.HoldsCauses causes) where
  cause _ b h := h.set b.bit
  refuse _ _ b h := h.set b.bit
  stopped _ b h _ := h.set b.bit
  startStopped _ b h _ := h.set b.bit
  refused _ h _ := h
  phase _ _ h := h
  count _ _ h := h
  run _ h _ := h
  start _ _ h _ := h
  stop _ h _ := h
  startStop _ h := h
  mask _ _ h := h
  ancl _ _ h := h
  anch _ _ h := h

/-- Bits written into a word stand there. -/
theorem or_and_cancel (x b : BitVec 5) : (x ||| b) &&& b = b := by
  apply BitVec.eq_of_getLsbD_eq
  intro i _
  rw [BitVec.getLsbD_and, BitVec.getLsbD_or]
  cases x.getLsbD i <;> cases b.getLsbD i <;> rfl

/-- Settles O60: what a command other than a reset or a write to HZINT does holds every cause. -/
theorem causesKept : Obligations.CausesKept := by
  refine ⟨fun c s => or_and_cancel .., fun v s hr => ⟨_, exec_hzintWrite hr, rfl⟩, fun _ => ⟨rfl, rfl⟩, ?_⟩
  intro c s t e hpin hclear hclearAt hreset hcmd hreg
  have begun : s.ctl.HoldsCauses s.ctl.hzint := BitVec.and_not_self ..
  refine (Control.holdsCauses_law s.ctl.hzint).exec begun e (fun reset => ?_) (fun clear => ?_)
    (fun why a st d u held halted => ?_)
  · exact absurd reset (not_isReset hpin hreset hcmd hreg)
  · cases c <;> simp only [isClear] at clear
    case hzintWrite v => exact absurd rfl (hclear v)
    case registerWrite o v en =>
      obtain ⟨rfl, rfl⟩ := clear
      exact absurd rfl (hclearAt v)
  · rw [halted]
    exact held.set Cause.halted.bit

/-! ### An error response (R176, R182) -/

theorem State.working_of_session {s : State} (hr : s.pins.rstn = false)
    (hp : s.ctl.part = .starting ∨ s.ctl.part = .running ∨ s.ctl.part = .stopping) : s.working = true := by
  rcases hp with hp | hp | hp <;> simp [State.working, State.active, hr, hp]

theorem exec_memoryErrorResponse {s : State} {r : Request} (hw : s.working = true) (hi : s.port.inService = some r) :
    exec .memoryErrorResponse s = .next (enterHalted .bus r.addr r.struct r.dir s) := by
  simp only [exec, execMemoryErrorResponse, busError, hi, hw, if_true]

/-- Settles O19: a working part with a request in service enters HALTED with BUS, the capture from the request. -/
theorem errorResponseHalts : Obligations.ErrorResponseHalts := by
  intro r s hr hp hi
  refine ⟨_, exec_memoryErrorResponse (State.working_of_session hr hp) hi, rfl, rfl, rfl, fun l => ?_,
    enterHalted_frame ..⟩
  rw [State.engine_enterHalted]
  exact ⟨rfl, rfl, rfl, rfl, rfl, rfl, rfl, rfl, rfl, rfl, rfl, rfl, rfl⟩

end Sys2Proof.Machine
end

section
/-! PROOFS. The session's begin and end: the anchor of a START, a STOP taken in STARTING, and the jobs that a STOP in
RUNNING aborts. -/

set_option Elab.async false

namespace Sys2Proof.Machine

/-! ### The anchor (R170, R171, R183, section 10.2) -/

/-- A little-endian field is its lowest byte and the field of the bytes above it. -/
theorem leField_succ (b : List Byte) (o k : Nat) :
    leField b o (k + 1) = (byteAt b o).toNat + 256 * leField b (o + 1) k := by
  have above : b.drop (o + 1) = (b.drop o).tail := by rw [List.tail_drop]
  simp only [leField, byteAt, above]
  cases b.drop o with
  | nil => simp [leNat]
  | cons x rest => rfl

theorem byteAt_eq_getD (b : List Byte) (o : Nat) : byteAt b o = b[o]?.getD 0 := by
  simp [byteAt, List.headD_eq_head?_getD]

section
variable {a : Anchor}

theorem Anchor.check_of_bad_format (h : a.format ≠ 0x0001) : a.check = some .badFormat := if_pos h

/-- An anchor of the right format is refused by the first of k, report table and notice area that is out of range. -/
theorem Anchor.check_of_bad_layout (hf : a.format = 0x0001)
    (h : a.k.toNat < 4 ∨ 12 < a.k.toNat ∨ a.report.toNat % 4096 ≠ 0 ∨ a.notices.toNat % 64 ≠ 0) :
    a.check = some .badLayout := by
  simp only [Anchor.check, aligned_iff, hf, ne_eq, not_true_eq_false, if_false]
  split
  · rfl
  · next hk =>
    split
    · rfl
    · next hr =>
      refine if_pos fun hn => ?_
      omega

theorem Anchor.check_of_good (hf : a.format = 0x0001)
    (h : ¬ (a.k.toNat < 4 ∨ 12 < a.k.toNat ∨ a.report.toNat % 4096 ≠ 0 ∨ a.notices.toNat % 64 ≠ 0)) :
    a.check = none := by
  simp only [Anchor.check, aligned_iff, hf, ne_eq, not_true_eq_false, if_false]
  rw [if_neg (by omega), if_neg (by omega), if_neg (by omega)]

variable {s : State}

theorem anchorRead_of_check_some {r : RefusalReason} (h : a.check = some r) : anchorRead a s =
    { s with ctl := { s.ctl with part := .idle, refusal := r, hzint := s.ctl.hzint ||| 0b10000 } } := by
  simp only [anchorRead, h]
  rfl

/-- The session begun by an accepted anchor, before the status block write is asked for (R171). -/
def State.sessionBegun (s : State) (a : Anchor) : State := (sessionReset a s).inPhase .statusWrite

theorem anchorRead_of_good (h : a.check = none) : anchorRead a s =
    ((s.sessionBegun a).issue (s.sessionBegun a).startStatusRequest).arbitrate := by
  simp only [anchorRead, h]
  rfl

end

/-- Settles O12: `Anchor.check` decides, and an accepted anchor begins the session by `sessionReset`. -/
theorem anchorReadTaken : Obligations.AnchorReadTaken := by
  refine ⟨fun b o k => ⟨byteAt_eq_getD b o, rfl, leField_succ b o k⟩, fun _ => rfl, ?_⟩
  intro data s hr hp hph hn hs a badLayout refused
  have taken : exec (.anchorReadDone data) s = .next (anchorRead a s.served) :=
    congrArg _ (whenStarting_of_serving hr hp hn hph hs _)
  refine ⟨fun hf => ?badFormat, fun hf bad => ?badLayout, fun hf good => ?accepted⟩
  case badFormat =>
    rw [taken, anchorRead_of_check_some (Anchor.check_of_bad_format hf)]
    rfl
  case badLayout =>
    rw [taken, anchorRead_of_check_some (Anchor.check_of_bad_layout hf bad)]
    rfl
  case accepted =>
    have begun := anchorRead_of_good (s := s.served) (Anchor.check_of_good hf good)
    rw [taken, begun]
    refine ⟨_, rfl, rfl, fun n => State.entry_of_vacant rfl n, fun l => reset_scheduler l, fun l => reset_engine l,
      rfl, rfl, rfl, rfl, rfl, rfl, rfl,
      fun waiting => State.issue_arbitrate_inService (s := s.served.sessionBegun a) _ rfl waiting⟩

/-! ### A STOP taken in STARTING (R172) -/

/-- After a STOP the end of the request in service ends STARTING, whatever the request brought. -/
theorem whenStarting_of_stopped {s : State} {p : Phase} {k : RequestKind} (hr : s.pins.rstn = false)
    (hp : s.ctl.part = .starting) (hn : s.ctl.startStop = true) (hph : s.ctl.phase = p) (hs : s.serving k = true)
    (f : State → State) : whenStarting p k f s = endStarting s.served := by
  have starting : s.startingIn p = true := by simp [State.startingIn, hr, hp, hph]
  simp [whenStarting, starting, hs, hn]

/-- Settles O13: in each phase the completion is `endStarting`. -/
theorem stoppedInStarting : Obligations.StoppedInStarting := by
  intro data s hr hp hn ended
  exact ⟨fun hph hs => congrArg _ (whenStarting_of_stopped hr hp hn hph hs _),
    fun hph hs => congrArg _ (whenStarting_of_stopped hr hp hn hph hs _),
    fun hph hs => congrArg _ (whenStarting_of_stopped hr hp hn hph hs _)⟩

/-! ### The jobs that a STOP aborts (R37, R173) -/

/-- The items of the order queues, by the lines in order, each in queue order. -/
def State.queuedJobs (s : State) : List (Fin 16) := lines.flatMap (fun l => (s.scheduler l).orderQueue)

/-- The waiting jobs that no order queue holds: the MARKs, or the DELISTs and HOLDs. -/
def State.waitingUnqueued (s : State) (marks : Bool) : List (Fin 16) :=
  slotIndices.filter (fun i => s.slotIs i (fun j => j.state == .waiting && (j.kindOf == some .mark) == marks) &&
    !s.queuedJobs.contains i)

/-- All that a STOP aborts, in the model's order (log 6); a job already decided among them stays as it is. -/
def State.abortList (s : State) : List (Fin 16) := s.queuedJobs ++ s.waitingUnqueued true ++ s.waitingUnqueued false

section
variable {s : State} {i : Fin 16} {marks : Bool}

theorem State.mem_queuedJobs : i ∈ s.queuedJobs ↔ ∃ l, i ∈ (s.scheduler l).orderQueue := by
  have every : ∀ l : Fin 4, l ∈ lines := by decide
  simp [State.queuedJobs, every]

theorem State.mem_waitingUnqueued : i ∈ s.waitingUnqueued marks ↔
    (∃ j, s.slot i = some j ∧ j.state = .waiting ∧ (j.kindOf == some .mark) = marks) ∧ i ∉ s.queuedJobs := by
  simp only [State.waitingUnqueued, List.mem_filter, slotIndices, List.mem_finRange, true_and, Bool.and_eq_true,
    Bool.not_eq_true', List.contains_eq_mem, decide_eq_false_iff_not]
  refine and_congr_left fun _ => ?_
  unfold State.slotIs
  split
  · next j hj => simp [hj]
  · next hn => simp [hn]

theorem State.open_of_waiting (h : i ∈ s.waitingUnqueued marks) : s.open i = true := by
  obtain ⟨⟨j, hj, hw, -⟩, -⟩ := State.mem_waitingUnqueued.mp h
  exact (s.open_iff i).mpr ⟨j, hj, by rw [hw]; decide⟩

/-- The jobs that end ABORTED: those not yet decided that wait or stand in an order queue. -/
theorem State.abortList_open_iff : i ∈ s.abortList ∧ s.open i = true ↔
    ∃ j, s.slot i = some j ∧ j.state ≠ .completing ∧
    (j.state = .waiting ∨ ∃ l, i ∈ (s.scheduler l).orderQueue) := by
  rw [s.open_iff i, ← State.mem_queuedJobs, State.abortList, List.mem_append, List.mem_append,
    State.mem_waitingUnqueued, State.mem_waitingUnqueued]
  constructor
  · rintro ⟨(queued | ⟨⟨k, hk, hw, -⟩, -⟩) | ⟨⟨k, hk, hw, -⟩, -⟩, j, hj, hs⟩
    · exact ⟨j, hj, hs, .inr queued⟩
    · exact ⟨k, hk, by rw [hw]; decide, .inl hw⟩
    · exact ⟨k, hk, by rw [hw]; decide, .inl hw⟩
  · rintro ⟨j, hj, hs, hw⟩
    refine ⟨?_, j, hj, hs⟩
    by_cases queued : i ∈ s.queuedJobs
    · exact .inl (.inl queued)
    · have waits := hw.resolve_right queued
      cases mark : (j.kindOf == some .mark) with
      | true => exact .inl (.inr ⟨⟨j, hj, waits, mark⟩, queued⟩)
      | false => exact .inr ⟨⟨j, hj, waits, mark⟩, queued⟩

/-- No job stands twice in the list when none stands twice in the queues. -/
theorem State.abortList_nodup (h : s.queuedJobs.Nodup) : s.abortList.Nodup := by
  have once (m : Bool) : (s.waitingUnqueued m).Nodup := (List.nodup_finRange 16).filter _
  refine List.nodup_append.mpr ⟨List.nodup_append.mpr ⟨h, once true, ?_⟩, once false, ?_⟩
  · rintro i queued _ waits rfl
    exact (State.mem_waitingUnqueued.mp waits).2 queued
  · rintro i first _ other rfl
    obtain ⟨⟨j, hj, -, other⟩, unqueued⟩ := State.mem_waitingUnqueued.mp other
    rcases List.mem_append.mp first with queued | waits
    · exact unqueued queued
    · obtain ⟨⟨k, hk, -, mark⟩, -⟩ := State.mem_waitingUnqueued.mp waits
      cases hj.symm.trans hk
      exact Bool.false_ne_true (other.symm.trans mark)

/-- Of the list only queued items can be decided already. -/
theorem State.abortList_filter_open : s.abortList.filter s.open =
    s.queuedJobs.filter s.open ++ s.waitingUnqueued true ++ s.waitingUnqueued false := by
  have all (m : Bool) : (s.waitingUnqueued m).filter s.open = s.waitingUnqueued m :=
    List.filter_eq_self.mpr fun _ => State.open_of_waiting
  rw [State.abortList, List.filter_append, List.filter_append, all, all]

end

/-! ### RUNNING to STOPPING (R173) -/

theorem abortJobs_append (is ks : List (Fin 16)) (s : State) :
    abortJobs (is ++ ks) s = abortJobs ks (abortJobs is s) := by
  induction is generalizing s with
  | nil => rfl
  | cons i is ih => exact ih _

/-- The part as a STOP makes it STOPPING, before jobs are aborted: the follower OFF and the order queues empty. -/
def State.stopping (s : State) : State :=
  emptyQueues { s with
    ctl := { s.ctl with part := .stopping }
    job := { s.job with follower := .off, nudgePending := false, rereadOf := none } }

theorem State.stopping_frame (s : State) : Frame [.control, .chain, .sched] s s.stopping where
  keeps p hp := by
    cases p
    case control | chain | sched => exact absurd (by decide) hp
    all_goals simp [Piece.Same, State.stopping, emptyQueues]

/-- Once the queued items are aborted, the waiting jobs left are those that no queue held. -/
theorem waitingJobs_after_queued (s : State) (marks : Bool) :
    (abortJobs s.queuedJobs s.stopping).waitingJobs marks = s.waitingUnqueued marks := by
  obtain ⟨order, -, mem, -, -, kept, done⟩ := abortJobs_law s.queuedJobs s.stopping
  refine List.filter_congr fun i _ => ?_
  by_cases hi : i ∈ order
  · obtain ⟨queued, opened⟩ := (mem i).mp hi
    obtain ⟨j, hj, -⟩ := (s.stopping.open_iff i).mp opened
    simp [State.slotIs, done i j hi hj, queued]
  · have same : (abortJobs s.queuedJobs s.stopping).slot i = s.slot i := kept i hi
    simp only [State.slotIs, same]
    split
    · next j hj =>
      by_cases hw : j.state = .waiting
      · have opened : s.open i = true := (s.open_iff i).mpr ⟨j, hj, by rw [hw]; decide⟩
        have unqueued : i ∉ s.queuedJobs := fun queued => hi ((mem i).mpr ⟨queued, opened⟩)
        simp [unqueued]
      · simp [hw]
    · rfl

/-- A STOP aborts its jobs one after the other and then clears hold pending in every entry. -/
theorem beginStop_eq (s : State) : beginStop s =
    (abortJobs s.abortList s.stopping).mapEntries (fun e => { e with holdPending := false }) := by
  rw [State.abortList, abortJobs_append, abortJobs_append, ← waitingJobs_after_queued, ← waitingJobs_after_queued]
  rfl

theorem beginStop_frame (s : State) : Frame [.control, .chain, .slots, .sched, .entries] s (beginStop s) := by
  rw [beginStop_eq]
  have aborted := s.stopping_frame.then (l := [.control, .chain, .slots, .sched]) (abortJobs_frame s.abortList _)
  exact aborted.then (State.mapEntries_frame ..)

theorem beginStop_ctl (s : State) : (beginStop s).ctl = { s.ctl with part := .stopping } := by
  rw [beginStop_eq]
  exact (abortJobs_frame s.abortList _).ctl

theorem beginStop_scheduler (s : State) (l : Fin 4) :
    (beginStop s).scheduler l = { s.scheduler l with orderQueue := [], ordersInRow := 0 } := by
  rw [beginStop_eq, State.scheduler_mapEntries_eq, (abortJobs_frame s.abortList _).scheduler]
  simp [State.scheduler, State.stopping, emptyQueues]

theorem beginStop_entry (s : State) (n : Fin 64) :
    (beginStop s).entry n = { s.entry n with holdPending := false } := by
  rw [beginStop_eq, State.entry_mapEntries, (abortJobs_frame s.abortList _).entry]
  rfl

theorem beginStop_job (s : State) : (beginStop s).job = (abortJobs s.abortList s.stopping).job := by
  rw [beginStop_eq, State.mapEntries_job]

/-- In RUNNING a write to HZCMD with STOP alone begins the stop. -/
theorem exec_stop_of_running {v : Word} {s : State} (running : s.running = true) (h0 : v.getLsbD 0 = false)
    (h2 : v.getLsbD 2 = false) (h3 : v.getLsbD 3 = false) : exec (.stop v) s = .next (drain (beginStop s)) := by
  simp only [State.running, Bool.and_eq_true, Bool.not_eq_true', beq_iff_eq] at running
  obtain ⟨hr, hp⟩ := running
  have unnudged : s.nudgedBy (v ||| 2) = s := State.nudgedBy_of_bit_clear (or_bit_clear h3 rfl)
  rw [← takeStop_of_running hp, ← congrArg takeStop unnudged,
    ← takeCommand_stop hr (or_bit_clear h2 rfl) (or_bit_clear h0 rfl) (or_bit_set v rfl)]
  rfl

/-- Settles O7: what `abortJobs_law` says of the one list of jobs that the stop aborts; the end of the event changes
neither jobs, entries nor Schedulers, since the Notice Writer is not closing. -/
theorem stopBeginsStopping : Obligations.StopBeginsStopping := by
  intro v s running hc h0 h2 h3 queued undecided waiting aborted
  have stop := beginStop_frame s
  have ntc : (beginStop s).ntc = s.ntc := stop.same .ntc
  have ends := drain_frame_of_open (beginStop s) (by rw [ntc, hc])
  obtain ⟨order, nodup, mem, inOrder, job, kept, done⟩ := abortJobs_law s.abortList s.stopping
  have endedJob : (drain (beginStop s)).job = (abortJobs s.abortList s.stopping).job :=
    ends.job.trans (beginStop_job s)
  have slot (i : Fin 16) : (drain (beginStop s)).slot i = (abortJobs s.abortList s.stopping).slot i :=
    State.slot_congr (congrArg JobUnit.slots endedJob) i
  have inOrder_iff (i : Fin 16) : i ∈ order ↔ aborted i := (mem i).trans State.abortList_open_iff
  have editions := (State.EditionsKept.of_frame stop).drain
  refine ⟨beginStop s, drain (beginStop s), exec_stop_of_running running h0 h2 h3, rfl, stop, ends,
    fun i hi => ?kept, ?job, ⟨order, nodup, inOrder_iff, fun once => ?order, ?tally, ?writes⟩,
    ends.ctl.trans (beginStop_ctl s), ?follower, ?nudge, (stop.same .eng).trans (ends.same .eng),
    (stop.same .tb).trans (ends.same .tb), (stop.same .pins).trans (ends.same .pins), editions,
    fun l => (ends.scheduler l).trans (beginStop_scheduler s l),
    fun n => (ends.entry n).trans (beginStop_entry s n), fun i j hj hs hw => ?done⟩
  case kept => exact (slot i).trans (kept i (mt (inOrder_iff i).mp hi))
  case order => exact (inOrder (State.abortList_nodup once)).trans (State.abortList_filter_open (s := s))
  case done => exact (slot i).trans (done i j ((inOrder_iff i).mpr ⟨j, hj, hs, hw⟩) hj)
  all_goals rw [endedJob, job]; rfl

end Sys2Proof.Machine
end

section
/-! PROOFS. The queue of waiting commands. -/

namespace Sys2Proof.Machine

/-- Settles O1: of the two cases of a step the queue selects the one that takes its front command. -/
theorem stepTakesFrontCommand : Obligations.StepTakesFrontCommand := by
  intro c rest s front
  unfold step
  rw [front]

end Sys2Proof.Machine
end

section
/-! PROOFS. The due times of polls and windows: what a reached one brings, and how an overdue one is kept reached. -/

set_option Elab.async false

namespace Sys2Proof.Machine

/-! ### Reached and overdue times (section 5.2, R33) -/

theorem reached_iff (now t : Word) : reached now t = true ↔ (now - t).toNat < 2 ^ 31 := decide_eq_true_iff

theorem overdue_iff (now t : Word) :
    overdue now t = true ↔ 2 ^ 30 ≤ (now - t).toNat ∧ (now - t).toNat < 2 ^ 31 := by
  rw [overdue, Bool.and_eq_true, decide_eq_true_iff, reached_iff]

theorem not_overdue_of_lt {now t : Word} (h : (now - t).toNat < 2 ^ 30) : overdue now t = false :=
  Bool.eq_false_iff.mpr fun late => Nat.not_le.mpr h ((overdue_iff ..).mp late).1

/-- A time is reached at its own moment. -/
theorem reached_self (now : Word) : reached now now = true := by
  rw [reached_iff, BitVec.sub_self]
  decide

theorem EntryState.enlistedState_iff (x : EntryState) :
    x.enlistedState = true ↔ x = .joining ∨ x = .live ∨ x = .mute ∨ x = .held := by
  cases x <;> decide

/-! ### The events of due times (R31, R33, R47) -/

theorem exec_dueTimeReached {n : Fin 64} {s : State} (running : s.running = true)
    (called : (s.entry n).state.called = true) (due : reached s.tb.now (s.entry n).dueTime = true) :
    exec (.dueTimeReached n) s = .next (settle s) :=
  congrArg Host.Outcome.next (if_pos (by rw [running, called, due]; rfl))

theorem exec_windowDueTimeReached {l : Fin 4} {s : State} {t : Word} (running : s.running = true)
    (window : (s.scheduler l).windowDue = some t) :
    exec (.windowDueTimeReached l) s = .next (if reached s.tb.now t then settle s else s) := by
  have due : s.windowReached l = reached s.tb.now t := by simp only [State.windowReached, window]
  exact congrArg Host.Outcome.next (by rw [windowDueReached, running, due, Bool.true_and])

theorem exec_overdueRefresh_entry {n : Fin 64} {s : State} (active : s.active = true)
    (enlisted : (s.entry n).state.enlistedState = true) : exec (.overdueRefresh (.entry n)) s =
      .next (if overdue s.tb.now (s.entry n).dueTime then
        s.setEntry n { s.entry n with dueTime := s.tb.now } else s) :=
  congrArg Host.Outcome.next (by simp only [refreshOverdue, active, enlisted, Bool.true_and])

theorem exec_overdueRefresh_window {l : Fin 4} {s : State} {w : Word} (active : s.active = true)
    (window : (s.scheduler l).windowDue = some w) : exec (.overdueRefresh (.window l)) s =
      .next (if overdue s.tb.now w then s.setSched l { s.scheduler l with windowDue := some s.tb.now } else s) :=
  congrArg Host.Outcome.next (by simp only [refreshOverdue, window, active, Bool.true_and])

/-- Settles O34: each due time by whether it is reached, and each refresh by whether the time is overdue. -/
theorem dueTimesTaken : Obligations.DueTimesTaken := by
  refine ⟨fun n l s running => ⟨fun called due => ?due, fun t window due => ?window, fun t window early => ?early⟩,
    ?entry, ?windowRefresh, reached_self⟩
  case due =>
    exact exec_dueTimeReached running ((EntryState.called_iff _).mpr called) ((reached_iff ..).mpr due)
  case window => rw [exec_windowDueTimeReached running window, if_pos ((reached_iff ..).mpr due)]
  case early =>
    rw [exec_windowDueTimeReached running window, if_neg (mt (reached_iff ..).mp (Nat.not_lt.mpr early))]
  case entry =>
    intro n s active enlisted d
    rw [exec_overdueRefresh_entry active ((EntryState.enlistedState_iff _).mpr enlisted)]
    refine ⟨fun late due => ⟨_, congrArg _ (if_pos ((overdue_iff ..).mpr ⟨late, due⟩)), State.setEntry_frame ..,
      State.entry_setEntry_self .., fun m hm => ?_⟩, fun early => ?_⟩
    · rw [State.entry_setEntry, if_neg hm.symm]
    · rw [not_overdue_of_lt early]
      rfl
  case windowRefresh =>
    intro l w s active window d
    rw [exec_overdueRefresh_window active window]
    refine ⟨fun late due => ⟨_, congrArg _ (if_pos ((overdue_iff ..).mpr ⟨late, due⟩)), State.setSched_frame ..,
      State.scheduler_setSched_self .., State.setSched_others s l _⟩, fun early => ?_⟩
    rw [not_overdue_of_lt early]
    rfl

end Sys2Proof.Machine
end

section
/-! PROOFS. The end of a call: the hold check by its cases, the entry after a poll, and what is passed on by the kind of the
call. -/

set_option Elab.async false

namespace Sys2Proof.Machine

/-! ### The job that waits completes -/

/-- The one job that waited for the entry completes, also where it stands kept in the state that completes it. -/
theorem completeWaiting_completes_kept {s v : State} {K : JobKind} {n : Fin 64} {i : Fin 16} {j : Job} {r : JobResult}
    (hj : s.slot i = some j) (hK : K ≠ .mark) (waits : s.waitsFor K n i = true)
    (one : ∀ k, s.waitsFor K n k = true → k = i) (kept : s.SlotKept v i)
    (before : ∀ k, v.waitsFor K n k = true → s.waitsFor K n k = true) :
    (completeWaiting K n r v).completedWith i j (.plain r) := by
  obtain ⟨j', hj', waiting, kind, -⟩ := State.waitsFor_iff.mp waits
  cases hj.symm.trans hj'
  rw [completeWaiting_of_unique (kept.waitsFor_after hK waits) fun k hk => one k (before k hk)]
  rcases kept.2 j hj with ⟨w, hw⟩ | ⟨-, mark, -⟩
  · have completed := completeJob_completedWith i (.plain r) v _ hw (by rw [waiting]; nofun)
    exact completed
  · exact absurd (Option.some.inj (kind.symm.trans mark)) hK

theorem completeWaiting_completes {s v : State} {K : JobKind} {n : Fin 64} {i : Fin 16} {j : Job} {r : JobResult}
    (hj : s.slot i = some j) (hK : K ≠ .mark) (waits : s.waitsFor K n i = true)
    (one : ∀ k, s.waitsFor K n k = true → k = i) (slots : v.job.slots = s.job.slots) :
    (completeWaiting K n r v).completedWith i j (.plain r) :=
  completeWaiting_completes_kept hj hK waits one (.of_eq (State.slot_congr slots i)) fun k hk =>
    (State.waitsFor_congr (State.slot_congr slots k)).symm.trans hk

/-! ### The check of hold pending (R23, R39) -/

section
variable {n : Fin 64} {s : State}

theorem orderWrongState_of_no_order (h : s.hasOrder n = false) : orderWrongState n s = s := by
  simp [orderWrongState, h]

theorem orderWrongState_of_no_fetch
    (h : ¬ ((s.entry n).latch = true ∧ n ∈ (s.scheduler (s.entry n).line).fetchQueue)) : orderWrongState n s = s := by
  refine if_neg fun locked => h ?_
  simp only [Bool.and_eq_true, List.contains_iff_mem] at locked
  obtain ⟨⟨⟨⟨-, latch⟩, fetch⟩, -⟩, -⟩ := locked
  exact ⟨latch, fetch⟩

theorem orderWrongState_cases (n : Fin 64) (s : State) :
    orderWrongState n s = s ∨ orderWrongState n s = dropOrders n .wrongState s := by
  unfold orderWrongState
  simp only
  split
  · exact .inr rfl
  · exact .inl rfl

/-- With a call on the wire, or behind ORDERs and no fetch, the hold goes on pending. -/
theorem settleHold_of_waiting (h : (s.entry n).busy = true ∨ s.hasOrder n = true ∧
    ¬ ((s.entry n).latch = true ∧ n ∈ (s.scheduler (s.entry n).line).fetchQueue)) : settleHold n s = s := by
  rcases h with busy | ⟨order, fetch⟩
  · rw [settleHold, orderWrongState_of_free (.inr busy), checkHold_of_waiting (.inl busy)]
  · rw [settleHold, orderWrongState_of_no_fetch fetch, checkHold_of_waiting (.inr order)]

theorem orderWrongState_slotKept {k : Fin 16} (h : ¬ s.orderQueued n k) : s.SlotKept (orderWrongState n s) k := by
  rcases orderWrongState_cases n s with same | drops
  · exact .of_eq (by rw [same])
  · exact drops ▸ dropOrders_slotKept h

theorem orderWrongState_waitsFor {K : JobKind} {m : Fin 64} {k : Fin 16}
    (h : (orderWrongState n s).waitsFor K m k = true) : s.waitsFor K m k = true := by
  rcases orderWrongState_cases n s with same | drops
  · rwa [same] at h
  · exact dropOrders_waitsFor (drops ▸ h)

/-- No ORDER queued, or all of them behind a fetch: none is left when the hold is checked. -/
theorem orderWrongState_hasOrder (pending : (s.entry n).holdPending = true) (idle : (s.entry n).busy = false)
    (h : s.hasOrder n = false ∨ (s.entry n).latch = true ∧ n ∈ (s.scheduler (s.entry n).line).fetchQueue) :
    (orderWrongState n s).hasOrder n = false := by
  cases order : s.hasOrder n
  case false => rwa [orderWrongState_of_no_order order]
  case true =>
    obtain ⟨latch, fetch⟩ := h.resolve_left (by rw [order]; nofun)
    rw [orderWrongState_of_locked pending latch fetch idle order, dropOrders_hasOrder]

/-- The hold that is met: the entry is HELD and its HOLD completes. -/
theorem settleHold_of_met (pending : (s.entry n).holdPending = true) (idle : (s.entry n).busy = false)
    (h : s.hasOrder n = false ∨ (s.entry n).latch = true ∧ n ∈ (s.scheduler (s.entry n).line).fetchQueue) :
    settleHold n s = completeWaiting .hold n .ok (becomeHeld n (orderWrongState n s)) := by
  have entry := (orderWrongState_frame n s).entry n
  exact checkHold_of_clear (by rw [entry, pending]) (by rw [entry, idle]) (orderWrongState_hasOrder pending idle h)

/-- The check writes another entry in no case. -/
theorem settleHold_entry_other {m : Fin 64} (h : m ≠ n) : (settleHold n s).entry m = s.entry m := by
  rw [settleHold, checkHold]
  split
  · rw [(completeWaiting_frame ..).entry, becomeHeld_entry, if_neg h.symm, (orderWrongState_frame n s).entry]
  · exact (orderWrongState_frame n s).entry m

/-- A decided result stands in the check. -/
theorem State.completedWith.settleHold {i : Fin 16} {j : Job} {r : JobEnd} (h : s.completedWith i j r) :
    (settleHold n s).completedWith i j r := by
  have dropped : (orderWrongState n s).completedWith i j r := by
    rcases orderWrongState_cases n s with same | drops
    · rwa [same]
    · exact drops ▸ completeAll_keeps_completed (s := s.setSched ..) _ h
  rw [Machine.settleHold, checkHold]
  split
  · have held := becomeHeld_frame n (orderWrongState n s)
    exact completeWaiting_completedWith
      (dropped.kept (.of_eq (State.slot_congr (held.same .slots).1 i)) (held.same .tb))
  · exact dropped

/-- Of a Scheduler the check writes the order queue and orders-in-a-row alone. -/
theorem settleHold_scheduler (n : Fin 64) (s : State) (l : Fin 4) : ∃ queue count,
    (settleHold n s).scheduler l = { s.scheduler l with orderQueue := queue, ordersInRow := count } := by
  rw [settleHold, (checkHold_frame ..).scheduler]
  rcases orderWrongState_cases n s with same | drops
  · exact ⟨_, _, by rw [same]⟩
  · obtain ⟨own, others⟩ := dropOrders_ordersGone n .wrongState s
    rw [drops]
    by_cases line : l = (s.entry n).line
    · exact ⟨_, _, by rw [line, own]⟩
    · exact ⟨_, _, by rw [others l line]⟩

end

/-- What the met hold leaves (R23, R39). -/
theorem settleHold_met_leaves {n : Fin 64} {s : State} (pending : (s.entry n).holdPending = true)
    (idle : (s.entry n).busy = false)
    (h : s.hasOrder n = false ∨ (s.entry n).latch = true ∧ n ∈ (s.scheduler (s.entry n).line).fetchQueue) :
    (∀ m, (settleHold n s).entry m = if n = m then
      { s.entry n with state := .held, holdPending := false, quietDeadline := none } else s.entry m) ∧
    s.AsksCell (settleHold n s) n ∧ (settleHold n s).sched = (orderWrongState n s).sched ∧
    ∀ i j, s.slot i = some j → s.waitsFor .hold n i = true → (∀ k, s.waitsFor .hold n k = true → k = i) →
      (settleHold n s).completedWith i j ⟨.ok, 0, 0, []⟩ := by
  have dropped := orderWrongState_frame n s
  have held := becomeHeld_frame n (orderWrongState n s)
  have done := completeWaiting_frame .hold n .ok (becomeHeld n (orderWrongState n s))
  rw [settleHold_of_met pending idle h]
  refine ⟨fun m => ?_, (becomeHeld_asksCell.of_rep dropped.rep).then_rep done.rep,
    Eq.trans (done.same .sched) (held.same .sched), fun i j hj waits one => ?_⟩
  · rw [done.entry, becomeHeld_entry, dropped.entry, dropped.entry]
  · have slots := (held.same .slots).1
    refine completeWaiting_completes_kept hj nofun waits one ?_
      fun k hk => orderWrongState_waitsFor ((State.waitsFor_congr (State.slot_congr slots k)).symm.trans hk)
    have kept := orderWrongState_slotKept (State.not_orderQueued_of_waits waits)
    exact kept.then (.of_eq (State.slot_congr slots i)) (dropped.same .tb)
      (Eq.trans (held.same .tb) (dropped.same .tb))

/-! ### The entry and the Schedulers after an outcome -/

section
variable {n : Fin 64} {s : State}

theorem takeFlag_entry (n : Fin 64) (v : Byte) (s : State) :
    ∃ b, (takeFlag n v s).entry n = { s.entry n with latch := b } := by
  unfold takeFlag
  split
  · exact ⟨true, by rw [setLatch_entry, if_pos rfl]⟩
  · exact ⟨_, rfl⟩

/-- Of a Scheduler a set latch writes the fetch queue alone. -/
theorem setLatch_sched (n : Fin 64) (s : State) (l : Fin 4) :
    ∃ queue, (setLatch n s).scheduler l = { s.scheduler l with fetchQueue := queue } := by
  by_cases line : l = (s.entry n).line
  · exact ⟨_, by rw [line, setLatch_scheduler]⟩
  · exact ⟨_, by rw [setLatch_otherScheds n s l line]⟩

/-- A good outcome is taken with the answer kept, a missing one counting as empty. -/
theorem applyOutcome_answered {k : CallKind} {o : CallOutcome} (a : Option (Byte × List Byte))
    (good : o.isGood = true) (hv : (s.entry n).state ≠ .vacant) :
    applyOutcome n k o a s = takeGood n k o (a.getD (0, [])).1 (a.getD (0, [])).2 s := by
  simp only [applyOutcome, if_neg hv, good, if_true]

/-- Of a Scheduler an outcome writes the fetch queue alone. -/
theorem applyOutcome_scheduler (n : Fin 64) (k : CallKind) (o : CallOutcome) (a : Option (Byte × List Byte)) (s : State)
    (l : Fin 4) : ∃ queue, (applyOutcome n k o a s).scheduler l = { s.scheduler l with fetchQueue := queue } := by
  unfold applyOutcome
  split
  · exact ⟨_, rfl⟩
  · split
    · have stored : ∀ v, Frame [.entries, .ntc, .cells] s v → ∀ status, ∃ queue,
          (takeFlag n status v).scheduler l = { s.scheduler l with fetchQueue := queue } := by
        intro v f status
        rw [← f.scheduler l]
        unfold takeFlag
        split
        · exact setLatch_sched n v l
        · exact ⟨_, rfl⟩
      by_cases fetch : k = .fetch
      · subst fetch
        exact stored _ ((answerStored_frame ..).then (endFetch_frame ..)) _
      · simp only [takeGood_of_not_fetch _ _ _ _ _ _ fetch]
        exact stored _ (answerStored_frame ..) _
    · exact ⟨_, by rw [(takeFailed_frame ..).scheduler]⟩

/-- What a poll's end reads of an entry after its outcome: no call on the wire, LIVE after a good answer, and the fields
that no outcome writes. -/
structure Entry.PollEnded (e f : Entry) (good : Bool) : Prop where
  busy : f.busy = false
  holdPending : f.holdPending = e.holdPending
  line : f.line = e.line
  dueTime : f.dueTime = e.dueTime
  pollPeriod : f.pollPeriod = e.pollPeriod
  state : f.state = if good then .live else e.state

theorem goodEntry_pollEnded (now : Word) (k : CallKind) (o : CallOutcome) (v : Byte) (p : List Byte) {e : Entry}
    (called : e.state.called = true) : e.PollEnded (goodEntry now k o v p e) true := by
  have live : (goodEntry now k o v p e).state = .live := by
    rcases (EntryState.called_iff _).mp called with h | h | h
    · rw [goodEntry_of_revived _ _ _ _ _ _ (.inl h), loadQuiet_eq]
    · rw [goodEntry_of_live _ _ _ _ _ _ h, loadQuiet_eq]
      split <;> exact h
    · rw [goodEntry_of_revived _ _ _ _ _ _ (.inr h), loadQuiet_eq]
  obtain ⟨st, d, stored⟩ := goodEntry_answered now k o v p e
  rw [stored] at live ⊢
  exact ⟨rfl, rfl, rfl, rfl, rfl, live⟩

theorem applyOutcome_pollEnded (o : CallOutcome) (a : Option (Byte × List Byte))
    (called : (s.entry n).state.called = true) :
    (s.entry n).PollEnded ((applyOutcome n .poll o a s).entry n) o.isGood := by
  have hv := EntryState.called_ne_vacant called
  cases good : o.isGood
  case false =>
    rw [applyOutcome_failed a (mt (CallOutcome.isGood_iff o).mpr (by rw [good]; nofun)) hv, takeFailed_entry, if_pos rfl,
      failedEntry_of_not_fetch .poll _ (by decide)]
    exact ⟨rfl, rfl, rfl, rfl, rfl, rfl⟩
  case true =>
    rw [applyOutcome_answered a good hv, takeGood_of_not_fetch _ .poll _ _ _ _ (by decide)]
    obtain ⟨b, flagged⟩ := takeFlag_entry n (a.getD (0, [])).1
      (answerStored n .poll o (a.getD (0, [])).1 (a.getD (0, [])).2 s)
    rw [flagged, answerStored_entry, if_pos rfl]
    obtain ⟨busy, pending, line, due, period, state⟩ :=
      goodEntry_pollEnded s.tb.now .poll o (a.getD (0, [])).1 (a.getD (0, [])).2 called
    exact ⟨busy, pending, line, due, period, state⟩

end

/-! ### The due time goes on (R32) -/

section
variable {n : Fin 64} {s : State}

theorem advanceDue_of_set : advanceDue n true s = s := rfl

theorem advanceDue_of_unpolled (h : (s.entry n).state = .held ∨ (s.entry n).state = .vacant) (b : Bool) :
    advanceDue n b s = s := by
  cases b
  · rcases h with h | h <;> simp [advanceDue, State.pollingPeriod, h]
  · rfl

theorem advanceDue_of_live (h : (s.entry n).state = .live) : advanceDue n false s = s.setEntry n { s.entry n with
    dueTime := advanced s.tb.now (s.entry n).dueTime (s.entry n).pollPeriod } := by
  simp [advanceDue, State.pollingPeriod, h]

theorem advanceDue_of_searched (h : (s.entry n).state = .joining ∨ (s.entry n).state = .mute) :
    advanceDue n false s = s.setEntry n { s.entry n with
      dueTime := advanced s.tb.now (s.entry n).dueTime (s.scheduler (s.entry n).line).searchPeriod } := by
  rcases h with h | h <;> simp [advanceDue, State.pollingPeriod, h]

/-- The due time after a poll of a called entry goes on by the period of its state. -/
theorem advanceDue_entry (called : (s.entry n).state.called = true) :
    (advanceDue n false s).entry n = { s.entry n with
      dueTime := advanced s.tb.now (s.entry n).dueTime (if (s.entry n).state = .live then (s.entry n).pollPeriod
        else (s.scheduler (s.entry n).line).searchPeriod) } := by
  rcases (EntryState.called_iff _).mp called with h | h | h
  · rw [advanceDue_of_searched (.inl h), State.entry_setEntry_self, if_neg (by rw [h]; nofun)]
  · rw [advanceDue_of_live h, State.entry_setEntry_self, if_pos h]
  · rw [advanceDue_of_searched (.inr h), State.entry_setEntry_self, if_neg (by rw [h]; nofun)]

end

/-! ### The call by its kind (R21, R45, R80) -/

section
variable {l : Fin 4} {n : Fin 64} {s : State} (o : CallOutcome) (k : Nat) (a : Option (Byte × List Byte))

theorem callEnded_poll {b : Bool} (h : (s.scheduler l).inFlight = some (.poll n b)) : callEnded l o k a s =
    if (s.entry n).state = .leaving then leave n (s.clearFlight l)
    else advanceDue n b (settleHold n (applyOutcome n .poll o a (s.clearFlight l))) := by
  simp only [callEnded, h]
  rfl

theorem callEnded_fetch (h : (s.scheduler l).inFlight = some (.fetch n)) : callEnded l o k a s =
    if (s.entry n).state = .leaving then leave n (releaseReservation l (s.clearFlight l))
    else settleHold n (applyOutcome n .fetch o a (s.clearFlight l)) := by
  simp only [callEnded, h]
  rfl

theorem callEnded_order {i : Fin 16} (h : (s.scheduler l).inFlight = some (.order n i)) : callEnded l o k a s =
    if (s.entry n).state = .leaving then leave n (completeJob i (orderEnd o k a) (s.clearFlight l))
    else settleHold n (completeJob i (orderEnd o k a) (applyOutcome n .order o a (s.clearFlight l))) := by
  simp only [callEnded, h]
  rfl

theorem clearFlight_inFlight (s : State) (l : Fin 4) : ((s.clearFlight l).scheduler l).inFlight = none := by
  rw [State.clearFlight, State.scheduler_setSched_self]

theorem applyOutcome_inFlight (n : Fin 64) (K : CallKind) : ((applyOutcome n K o a s).scheduler l).inFlight =
    (s.scheduler l).inFlight := by
  obtain ⟨queue, sched⟩ := applyOutcome_scheduler n K o a s l
  rw [sched]

theorem settleHold_inFlight (n : Fin 64) (s : State) :
    ((settleHold n s).scheduler l).inFlight = (s.scheduler l).inFlight := by
  obtain ⟨queue, count, sched⟩ := settleHold_scheduler n s l
  rw [sched]

/-- The end of an ORDER completes its job, whatever its entry's state, and leaves nothing in flight. -/
theorem callEnded_order_completes {i : Fin 16} {j : Job} (h : (s.scheduler l).inFlight = some (.order n i))
    (hj : s.slot i = some j) (onWire : j.state = .onWire) :
    ((callEnded l o k a s).scheduler l).inFlight = none ∧
      (callEnded l o k a s).completedWith i j (orderEnd o k a) := by
  have undecided : j.state ≠ .completing := by rw [onWire]; nofun
  rw [callEnded_order o k a h]
  split
  · have completed := completeJob_completedWith i (orderEnd o k a) (s.clearFlight l) j hj undecided
    have done := completeJob_frame i (orderEnd o k a) (s.clearFlight l)
    have vacant := becomeVacant_frame n (completeJob i (orderEnd o k a) (s.clearFlight l))
    refine ⟨?_, completeWaiting_completedWith
      (completed.kept (.of_eq (State.slot_congr (vacant.same .slots).1 i)) (vacant.same .tb))⟩
    rw [(leave_frame ..).scheduler, done.scheduler, clearFlight_inFlight]
  · have taken := applyOutcome_frame n .order o a (s.clearFlight l)
    have completed := completeJob_completedWith i (orderEnd o k a) (applyOutcome n .order o a (s.clearFlight l)) j
      ((State.slot_congr (taken.same .slots).1 i).trans hj) undecided
    refine ⟨?_, completed.settleHold⟩
    rw [settleHold_inFlight, (completeJob_frame ..).scheduler, applyOutcome_inFlight, clearFlight_inFlight]

/-- The end of a poll of a called entry without a pending hold: its due time goes on by the period of the state after the
outcome. -/
theorem callEnded_poll_advances (h : (s.scheduler l).inFlight = some (.poll n false))
    (called : (s.entry n).state.called = true) (free : (s.entry n).holdPending = false) :
    ((callEnded l o k a s).scheduler l).inFlight = none ∧ ((callEnded l o k a s).entry n).busy = false ∧
      ((callEnded l o k a s).entry n).dueTime = advanced s.tb.now (s.entry n).dueTime
        (if (s.entry n).state = .live ∨ o.isGood = true then (s.entry n).pollPeriod
          else (s.scheduler (s.entry n).line).searchPeriod) := by
  have staying : (s.entry n).state ≠ .leaving := fun leaving => by rw [leaving] at called; cases called
  have taken := applyOutcome_frame n .poll o a (s.clearFlight l)
  have search (m : Fin 4) : ((applyOutcome n .poll o a (s.clearFlight l)).scheduler m).searchPeriod =
      (s.scheduler m).searchPeriod := by
    obtain ⟨queue, sched⟩ := applyOutcome_scheduler n .poll o a (s.clearFlight l) m
    rw [sched, State.clearFlight, State.scheduler_setSched]
    split
    · next e => rw [e]
    · rfl
  have now : (applyOutcome n .poll o a (s.clearFlight l)).tb = s.tb := taken.same .tb
  obtain ⟨busy, pending, line, due, period, state⟩ := applyOutcome_pollEnded (s := s.clearFlight l) o a called
  rw [callEnded_poll o k a h, if_neg staying, settleHold_of_not_pending _ _ (pending.trans free)]
  have calledAfter : ((applyOutcome n .poll o a (s.clearFlight l)).entry n).state.called = true := by
    rw [state]
    split
    · rfl
    · exact called
  have live : ((applyOutcome n .poll o a (s.clearFlight l)).entry n).state = .live ↔
      (s.entry n).state = .live ∨ o.isGood = true := by
    rw [state]
    split
    · next good => exact iff_of_true rfl (.inr good)
    · next bad => exact ⟨.inl, fun h => h.resolve_right bad⟩
  refine ⟨?_, ?_, ?_⟩
  · rw [(advanceDue_frame ..).scheduler, applyOutcome_inFlight, clearFlight_inFlight]
  · rw [advanceDue_entry calledAfter]
    exact busy
  · rw [advanceDue_entry calledAfter, now, due, period, search, line]
    simp only [live]
    rfl

end

theorem leave_entry (n m : Fin 64) (s : State) : (leave n s).entry m = if n = m then Entry.vacant else s.entry m := by
  rw [leave, (completeWaiting_frame ..).entry, becomeVacant_entry]

/-- Settles O43: the end of a call by its kind and by whether its entry leaves, then the leaving and the hold check. -/
theorem callEndPassedOn : Obligations.CallEndPassedOn := by
  refine ⟨?ends, ?leaves, ?holds, fun k n i s => State.waitsFor_iff⟩
  case ends =>
    intro l n o attempts answer s e u w result ended
    have ended_eq : orderEnd o attempts answer = ended := by cases o <;> cases answer <;> rfl
    refine ⟨fun i j flying hj _ onWire => ended_eq ▸ callEnded_order_completes o attempts answer flying hj onWire,
      fun flying called free => ?poll, fun staying => ⟨fun i flying => ?order, fun flying => ?fetch, ?polled⟩,
      fun leaving => ⟨fun b flying => ?leavingPoll, fun i flying => ?leavingOrder, fun flying => ?leavingFetch⟩⟩
    case poll =>
      have called' : e.state.called = true := (EntryState.called_iff _).mpr (by tauto)
      have advances := callEnded_poll_advances o attempts answer flying called' free
      simp only [CallOutcome.isGood_iff, advanced_eq] at advances
      exact advances
    case order => exact ended_eq ▸ (callEnded_order o attempts answer flying).trans (if_neg staying)
    case fetch => exact (callEnded_fetch o attempts answer flying).trans (if_neg staying)
    case polled =>
      intro b flying v f next
      have now : v.tb = s.tb := Eq.trans ((settleHold_frame ..).same .tb) ((applyOutcome_frame ..).same .tb)
      have ends : u = advanceDue n b v := (callEnded_poll o attempts answer flying).trans (if_neg staying)
      refine ⟨fun h => ?_, fun unset live => ?_, fun unset searched => ?_⟩
      · rcases h with set | unpolled
        · rw [ends, set, advanceDue_of_set]
        · rw [ends, advanceDue_of_unpolled unpolled]
      · rw [ends, unset, advanceDue_of_live live, advanced_eq, now]
      · rw [ends, unset, advanceDue_of_searched searched, advanced_eq, now]
    case leavingPoll =>
      have ends : u = leave n w := (callEnded_poll o attempts answer flying).trans (if_pos leaving)
      exact ⟨ends, by rw [ends, leave_entry, if_pos rfl]⟩
    case leavingOrder => exact ended_eq ▸ (callEnded_order o attempts answer flying).trans (if_pos leaving)
    case leavingFetch => exact (callEnded_fetch o attempts answer flying).trans (if_pos leaving)
  case leaves =>
    intro n s e u
    have vacant := becomeVacant_frame n s
    have done := completeWaiting_frame .delist n .ok (becomeVacant n s)
    exact ⟨leave_frame n s, (leave_entry n n s).trans (if_pos rfl), fun m hm => (leave_entry n m s).trans (if_neg hm.symm),
      (becomeVacant_asksCell n s).then_rep done.rep, Eq.trans (done.same .ntc) (becomeVacant_ntc n s),
      fun i j hj waits one => completeWaiting_completes hj nofun waits one (vacant.same .slots).1⟩
  case holds =>
    intro n s e u orders fetch
    have orders_iff : s.hasOrder n = true ↔ orders := by
      rw [State.hasOrder_iff]
      exact exists_congr fun k => by
        rw [State.orderQueued, State.isOrderFor_iff]
        exact ⟨fun ⟨queued, jk, order⟩ => ⟨jk, queued, order⟩, fun ⟨jk, queued, order⟩ => ⟨queued, jk, order⟩⟩
    refine ⟨fun h => ?waiting, fun pending idle h => ?met⟩
    case waiting =>
      rcases h with free | busy | ⟨order, noFetch⟩
      · exact settleHold_of_not_pending n s free
      · exact settleHold_of_waiting (.inl busy)
      · exact settleHold_of_waiting (.inr ⟨orders_iff.mpr order, noFetch⟩)
    case met =>
      have clear : s.hasOrder n = false ∨ fetch :=
        h.imp_left fun none => Bool.eq_false_iff.mpr (mt orders_iff.mp none)
      obtain ⟨entry, cell, sched, completes⟩ := settleHold_met_leaves pending idle clear
      have drops (order : orders) : orderWrongState n s = dropOrders n .wrongState s := by
        obtain ⟨latch, queued⟩ := h.resolve_left (not_not_intro order)
        exact orderWrongState_of_locked pending latch queued idle (orders_iff.mpr order)
      have gone (order : orders) : s.OrdersGone u e.line n :=
        (dropOrders_ordersGone n .wrongState s).congr rfl (fun _ => rfl) (sched.trans (by rw [drops order]))
      refine ⟨settleHold_frame n s, fun m hm => (entry m).trans (if_neg hm.symm), cell, (entry n).trans (if_pos rfl),
        fun none => ?_, gone, completes, fun k jk queued hj hs kind target => ⟨?_, ?_⟩⟩
      · exact sched.trans (by rw [orderWrongState_of_no_order (Bool.eq_false_iff.mpr (mt orders_iff.mp none))])
      · have order : orders := ⟨k, jk, queued, hj, kind, target⟩
        have completed : (dropOrders n .wrongState s).completedWith k jk ⟨.wrongState, 0, 0, []⟩ :=
          dropOrders_completedWith ⟨queued, State.isOrderFor_iff.mpr ⟨jk, hj, kind, target⟩⟩ hj (hs ▸ nofun)
            (hs ▸ nofun)
        have held := becomeHeld_frame n (dropOrders n .wrongState s)
        rw [show u = _ from settleHold_of_met pending idle clear, drops order]
        exact completeWaiting_completedWith
          (completed.kept (.of_eq (State.slot_congr (held.same .slots).1 k)) (held.same .tb))
      · rw [(gone ⟨k, jk, queued, hj, kind, target⟩).1]
        simp [State.slotIs, hj, kind, target]

end Sys2Proof.Machine
end

section
/-! PROOFS. The arbiter: the candidates of a line, the slot list of a window, and what each pick hands to the engine. -/

set_option Elab.async false

namespace Sys2Proof.Machine

/-! ### The oldest item that satisfies a test -/

/-- The item found is the first that satisfies p: those before it do not. -/
theorem find_eq_some_iff_split {α : Type} {l : List α} {p : α → Bool} {x : α} :
    l.find? p = some x ↔ ∃ q rest, l = q ++ x :: rest ∧ p x = true ∧ ∀ y, y ∈ q → ¬ p y = true := by
  rw [List.find?_eq_some_iff_append]
  constructor
  · rintro ⟨px, q, rest, rfl, before⟩
    exact ⟨q, rest, rfl, px, fun y hy py => by simpa [py] using before y hy⟩
  · rintro ⟨q, rest, rfl, px, before⟩
    exact ⟨px, q, rest, rfl, fun y hy => by simpa using before y hy⟩

/-! ### When a line may choose (R40, R89) -/

section
variable {s : State} {l : Fin 4}

theorem State.mayChoose_iff : s.mayChoose l = true ↔ s.running = true ∧ (s.scheduler l).inFlight = none ∧
    (s.engine l).lineState = .idle ∧
    ∀ r, (s.engine l).spaceRun = some r → s.moment < r + 20 * charTime (s.engine l).rateCode := by
  have quiet : s.stuckDue l = false ↔
      ∀ r, (s.engine l).spaceRun = some r → s.moment < r + 20 * charTime (s.engine l).rateCode := by
    unfold State.stuckDue Engine.runReaches
    cases (s.engine l).spaceRun <;> simp
  simp only [State.mayChoose, Bool.and_eq_true, Option.isNone_iff_eq_none, beq_iff_eq, Bool.not_eq_true', quiet,
    and_assoc]

theorem State.maySetup_iff : s.maySetup l = true ↔
    s.running = true ∧ (s.scheduler l).inFlight = none ∧ (s.engine l).lineState = .off := by
  simp only [State.maySetup, Bool.and_eq_true, Option.isNone_iff_eq_none, beq_iff_eq, and_assoc]

theorem State.mayChoose_of_maySetup (h : s.maySetup l = true) : s.mayChoose l = false := by
  obtain ⟨-, -, off⟩ := State.maySetup_iff.mp h
  refine Bool.eq_false_iff.mpr fun may => ?_
  obtain ⟨-, -, idle, -⟩ := State.mayChoose_iff.mp may
  rw [off] at idle
  cases idle

theorem State.isSetup_iff {i : Fin 16} : s.isSetup i = true ↔ ∃ j, s.slot i = some j ∧ j.kindOf = some .setupLine := by
  unfold State.isSetup State.slotIs
  split <;> simp_all

/-! ### The order of the candidates (R41) -/

theorem chooseOnce_of_mayChoose (h : s.mayChoose l = true) : chooseOnce l s = chooseIdle l s := if_pos h

theorem chooseOnce_of_maySetup (h : s.maySetup l = true) :
    chooseOnce l s = ((s.scheduler l).orderQueue.find? s.isSetup).map (fun i => pickItem l i s) := by
  rw [chooseOnce, State.mayChoose_of_maySetup h, h]
  rfl

theorem chooseOnce_of_neither (hc : s.mayChoose l = false) (hs : s.maySetup l = false) : chooseOnce l s = none := by
  rw [chooseOnce, hc, hs]
  rfl

theorem chooseIdle_window (h : s.windowApplies l = true) : chooseIdle l s = some (startWindow l s) := if_pos h

theorem State.canReserve_iff (running : s.running = true) :
    s.canReserve = true ↔ s.ntc.held.length + s.reservations < 8 := by
  rw [State.canReserve, running, Bool.true_and, decide_eq_true_iff, State.freePlaces_pos_iff]

section
variable (window : s.windowApplies l = false)
include window

theorem chooseIdle_fetch {n : Fin 64} (fetch : s.fetchCandidate l = some n) (place : s.canReserve = true) :
    chooseIdle l s = some (startFetch l n s) := by
  simp only [chooseIdle, window, Bool.false_eq_true, if_false, fetch, place]

variable (fetch : s.fetchCandidate l = none ∨ ¬ s.canReserve = true)
include fetch

/-- Without a window and a fetch the choice is between an order and a due poll. -/
theorem chooseIdle_rest : chooseIdle l s = match s.orderMayGo l, s.orderCandidate l with
    | true, some i => some (pickItem l i s)
    | _, _ => (s.duePoll l).map (fun n => startPoll l n s) := by
  unfold chooseIdle
  rw [window, if_neg (by decide)]
  split
  · next place found =>
    rcases fetch with none | full
    · cases found.symm.trans none
    · exact absurd place full
  · rfl

theorem chooseIdle_order {i : Fin 16} (order : s.orderCandidate l = some i) (mayGo : s.orderMayGo l = true) :
    chooseIdle l s = some (pickItem l i s) := by
  rw [chooseIdle_rest window fetch, order, mayGo]

theorem chooseIdle_poll {n : Fin 64} (order : s.orderCandidate l = none ∨ s.orderMayGo l = false)
    (poll : s.duePoll l = some n) : chooseIdle l s = some (startPoll l n s) := by
  rw [chooseIdle_rest window fetch, poll]
  rcases order with none | waits
  · rw [none]
    split <;> simp_all
  · rw [waits]
    rfl

theorem chooseIdle_none (order : s.orderCandidate l = none) (poll : s.duePoll l = none) : chooseIdle l s = none := by
  rw [chooseIdle_rest window fetch, order, poll]
  split <;> simp_all

end

theorem State.orderMayGo_iff : s.orderMayGo l = true ↔
    (s.scheduler l).ordersInRow < (s.scheduler l).orderBurst ∨ s.duePoll l = none := by
  rw [State.orderMayGo, Bool.or_eq_true, decide_eq_true_iff, Option.isNone_iff_eq_none]

end

/-! ### The candidates (R2, R31, R38, R41, R42, R44) -/

section
variable {s : State} {l : Fin 4} {n : Fin 64}

theorem State.windowReached_iff : s.windowReached l = true ↔
    ∃ t, (s.scheduler l).windowDue = some t ∧ (s.tb.now - t).toNat < 2 ^ 31 := by
  unfold State.windowReached
  split <;> simp_all [reached_iff]

theorem State.slotEligible_iff : s.slotEligible l n = true ↔ (s.entry n).line = l ∧ (s.entry n).state = .live ∧
    (s.entry n).options.slot = true ∧ (s.entry n).holdPending = false := by
  simp [State.slotEligible, and_assoc]

theorem State.anyEligible_iff : s.anyEligible l = true ↔ ∃ n, s.slotEligible l n = true := by
  simp [State.anyEligible, entryIndices]

theorem State.windowApplies_iff :
    s.windowApplies l = true ↔ s.windowReached l = true ∧ ∃ n, s.slotEligible l n = true := by
  rw [State.windowApplies, Bool.and_eq_true, State.anyEligible_iff]

theorem State.fetchEligible_iff : s.fetchEligible n = true ↔
    ((s.entry n).state = .joining ∨ (s.entry n).state = .live ∨ (s.entry n).state = .mute) ∧
      (s.entry n).holdPending = false ∧ (s.entry n).busy = false := by
  simp [State.fetchEligible, EntryState.called_iff, and_assoc]

theorem State.blocked_iff {i : Fin 16} : s.blocked i = true ↔ ∃ j n, s.slot i = some j ∧ j.kindOf = some .order ∧
    targetEntry j.target = some n ∧ (s.entry n).latch = true := by
  unfold State.blocked State.slotIs
  cases s.slot i with
  | none => simp
  | some j => cases h : targetEntry j.target <;> simp [h]

theorem State.offered_iff : s.offered l n = true ↔ (s.entry n).line = l ∧ s.fetchEligible n = true ∧
    (s.tb.now - (s.entry n).dueTime).toNat < 2 ^ 31 := by
  simp [State.offered, State.fetchEligible, reached_iff, and_assoc]

/-- For how long the due time of entry n has been reached. -/
def State.dueFor (s : State) (n : Fin 64) : Nat := (s.tb.now - (s.entry n).dueTime).toNat

theorem State.earliestDue_eq_none {ns : List (Fin 64)} :
    s.earliestDue l ns = none ↔ ∀ n, n ∈ ns → ¬ s.offered l n = true := by
  induction ns with
  | nil => simp [State.earliestDue]
  | cons n rest ih =>
    rw [State.earliestDue, List.forall_mem_cons, ← ih]
    cases s.offered l n
    · simp
    · cases s.earliestDue l rest with
      | none => simp
      | some m => simp only; split <;> simp

/-- Of entries in ascending order the one due longest is found, the lowest index where that is equal. -/
theorem State.earliestDue_eq_some {ns : List (Fin 64)} (ascending : ns.Pairwise (· < ·)) {x : Fin 64}
    (h : s.earliestDue l ns = some x) : x ∈ ns ∧ s.offered l x = true ∧ ∀ m, m ∈ ns → s.offered l m = true →
      s.dueFor m < s.dueFor x ∨ s.dueFor m = s.dueFor x ∧ x.val ≤ m.val := by
  induction ns generalizing x with
  | nil => cases h
  | cons n rest ih =>
    obtain ⟨first, ascending⟩ := List.pairwise_cons.mp ascending
    rw [State.earliestDue] at h
    split at h
    · next idle =>
      obtain ⟨mem, offered, longest⟩ := ih ascending h
      refine ⟨List.mem_cons_of_mem _ mem, offered, List.forall_mem_cons.mpr ⟨fun due => ?_, longest⟩⟩
      rw [idle] at due
      cases due
    · next due none =>
      cases h
      refine ⟨List.mem_cons_self, due, List.forall_mem_cons.mpr ⟨fun _ => .inr ⟨rfl, Nat.le_refl _⟩,
        fun m hm also => ?_⟩⟩
      exact absurd also (State.earliestDue_eq_none.mp none m hm)
    · next m due found =>
      obtain ⟨mem, offered, longest⟩ := ih ascending found
      split at h <;> rename_i younger <;> cases h
      · exact ⟨List.mem_cons_of_mem _ mem, offered, List.forall_mem_cons.mpr ⟨fun _ => .inl younger, longest⟩⟩
      · have older : s.dueFor m ≤ s.dueFor n := Nat.le_of_not_lt younger
        refine ⟨List.mem_cons_self, due, List.forall_mem_cons.mpr ⟨fun _ => .inr ⟨rfl, Nat.le_refl _⟩,
          fun k hk also => ?_⟩⟩
        have later : n.val ≤ k.val := Nat.le_of_lt (first k hk)
        rcases longest k hk also with less | ⟨same, -⟩
        · exact .inl (Nat.lt_of_lt_of_le less older)
        · exact (Nat.lt_or_eq_of_le older).imp (same ▸ ·) fun equal => ⟨same.trans equal, later⟩

theorem State.duePoll_eq_none : s.duePoll l = none ↔ ∀ n, ¬ s.offered l n = true := by
  rw [State.duePoll, State.earliestDue_eq_none]
  exact forall_congr' fun n => imp_iff_right (List.mem_finRange n)

theorem State.duePoll_eq_some (h : s.duePoll l = some n) : s.offered l n = true ∧ ∀ m, s.offered l m = true →
    s.dueFor m < s.dueFor n ∨ s.dueFor m = s.dueFor n ∧ n.val ≤ m.val := by
  obtain ⟨-, offered, longest⟩ := State.earliestDue_eq_some (List.pairwise_lt_finRange 64) h
  exact ⟨offered, fun m => longest m (List.mem_finRange m)⟩

/-! ### A window that is passed (R47) -/

theorem passWindow_of_passed {t : Word} (due : (s.scheduler l).windowDue = some t) (reached : s.windowReached l = true)
    (none : ∀ n, ¬ s.slotEligible l n = true) : passWindow l s = s.setSched l { s.scheduler l with
      windowDue := some (advanced s.tb.now t (s.scheduler l).windowInterval) } := by
  have empty : s.anyEligible l = false :=
    Bool.eq_false_iff.mpr fun any => (State.anyEligible_iff.mp any).elim none
  simp [passWindow, reached, empty, Sched.windowAdvanced, due]

theorem passWindow_of_kept (h : ¬ s.windowReached l = true ∨ ∃ n, s.slotEligible l n = true) :
    passWindow l s = s := by
  refine if_neg fun passed => ?_
  simp only [Bool.and_eq_true, Bool.not_eq_true'] at passed
  rcases h with early | any
  · exact early passed.1
  · rw [State.anyEligible_iff.mpr any] at passed
    cases passed.2

end

/-! ### The slot list (R48) -/

/-- The slot record of entry n in a window's list. -/
def State.slotRec (s : State) (n : Fin 64) : SlotRec :=
  { address := (s.entry n).address, entry := n, void := false, seen := false }

/-- The order of the eligible slots: ascending addresses. -/
def SlotRec.notAbove (r r' : SlotRec) : Bool := r.address.toNat ≤ r'.address.toNat

/-- The place of an address in the cyclic order that starts at the rotation pointer. -/
def slotPlace (pointer address : Byte) : Nat :=
  if pointer.toNat ≤ address.toNat then address.toNat else address.toNat + 256

/-- The eligible slots of line l from the rotation pointer upward and around, before the cut at 32. -/
def State.slotRing (s : State) (l : Fin 4) : List SlotRec :=
  let all := s.eligibleSlots l
  all.filter (fun r => (s.scheduler l).rotation.toNat ≤ r.address.toNat) ++
    all.filter (fun r => r.address.toNat < (s.scheduler l).rotation.toNat)

section
variable (s : State) (l : Fin 4)

theorem insertSlot_eq (r : SlotRec) (rs : List SlotRec) :
    insertSlot r rs = rs.orderedInsert (fun a b => a.notAbove b = true) r := by
  induction rs with
  | nil => rfl
  | cons x xs ih => simp only [insertSlot, ih, List.orderedInsert_cons, SlotRec.notAbove, decide_eq_true_iff]

theorem State.eligibleSlots_eq : s.eligibleSlots l =
    ((entryIndices.filter (s.slotEligible l)).map s.slotRec).insertionSort (fun a b => a.notAbove b = true) := by
  simp only [State.eligibleSlots, insertSlot_eq, List.insertionSort, List.foldr_map]
  rfl

theorem State.eligibleSlots_perm :
    (s.eligibleSlots l).Perm ((entryIndices.filter (s.slotEligible l)).map s.slotRec) :=
  s.eligibleSlots_eq l ▸ List.perm_insertionSort _ _

theorem State.eligibleSlots_ascending : (s.eligibleSlots l).Pairwise (fun a b => a.notAbove b = true) := by
  have total : Std.Total (fun a b : SlotRec => a.notAbove b = true) :=
    ⟨fun a b => by simpa [SlotRec.notAbove] using Nat.le_total ..⟩
  have trans : IsTrans SlotRec (fun a b => a.notAbove b = true) :=
    ⟨fun a b c => by simpa [SlotRec.notAbove] using Nat.le_trans⟩
  rw [s.eligibleSlots_eq l]
  exact List.pairwise_insertionSort _ _

theorem State.slotRing_perm : (s.slotRing l).Perm (s.eligibleSlots l) := by
  have below : (s.eligibleSlots l).filter (fun r => r.address.toNat < (s.scheduler l).rotation.toNat) =
      (s.eligibleSlots l).filter (fun r => !decide ((s.scheduler l).rotation.toNat ≤ r.address.toNat)) :=
    List.filter_congr fun r _ => by rw [← decide_not, decide_eq_decide, Nat.not_le]
  simp only [State.slotRing, below]
  exact List.filter_append_perm _ _

theorem State.mem_slotRing {r : SlotRec} :
    r ∈ s.slotRing l ↔ s.slotEligible l r.entry = true ∧ r = s.slotRec r.entry := by
  rw [((s.slotRing_perm l).trans (s.eligibleSlots_perm l)).mem_iff, List.mem_map]
  constructor
  · rintro ⟨n, eligible, rfl⟩
    exact ⟨(List.mem_filter.mp eligible).2, rfl⟩
  · rintro ⟨eligible, own⟩
    exact ⟨r.entry, List.mem_filter.mpr ⟨List.mem_finRange _, eligible⟩, own.symm⟩

theorem State.slotRing_nodup : ((s.slotRing l).map (·.entry)).Nodup := by
  rw [(((s.slotRing_perm l).trans (s.eligibleSlots_perm l)).map _).nodup_iff, List.map_map]
  simpa [Function.comp_def, State.slotRec, entryIndices] using (List.nodup_finRange 64).filter _

/-- The ring goes upward from the rotation pointer and around. -/
theorem State.slotRing_ordered : (s.slotRing l).Pairwise
    (fun a b => slotPlace (s.scheduler l).rotation a.address ≤ slotPlace (s.scheduler l).rotation b.address) := by
  have ascending := s.eligibleSlots_ascending l
  simp only [State.slotRing, List.pairwise_append, List.pairwise_filter, List.mem_filter]
  refine ⟨ascending.imp ?_, ascending.imp ?_, fun a ha b hb => ?_⟩
  · intro a b le above above'
    simp_all [SlotRec.notAbove, slotPlace]
  · intro a b le below below'
    simp_all [SlotRec.notAbove, slotPlace, Nat.not_le.mpr]
  · have bound := a.address.isLt
    simp_all [slotPlace, Nat.not_le.mpr]
    omega

theorem State.slotList_eq : s.slotList l = (s.slotRing l).take 32 := rfl

/-- An eligible entry outside the list stands behind its 32 slots. -/
theorem State.slotList_full {n : Fin 64} (eligible : s.slotEligible l n = true)
    (left : n ∉ (s.slotList l).map (·.entry)) : (s.slotList l).length = 32 ∧ ∀ r, r ∈ s.slotList l →
      slotPlace (s.scheduler l).rotation r.address ≤ slotPlace (s.scheduler l).rotation (s.entry n).address := by
  have inRing : s.slotRec n ∈ s.slotRing l := (s.mem_slotRing l).mpr ⟨eligible, rfl⟩
  have ordered := s.slotRing_ordered l
  rw [← List.take_append_drop 32 (s.slotRing l)] at inRing ordered
  have behind : s.slotRec n ∈ (s.slotRing l).drop 32 :=
    (List.mem_append.mp inRing).resolve_left fun listed => left (List.mem_map.mpr ⟨_, listed, rfl⟩)
  have long : 0 < ((s.slotRing l).drop 32).length := List.length_pos_of_mem behind
  rw [List.length_drop] at long
  refine ⟨?_, fun r hr => (List.pairwise_append.mp ordered).2.2 r hr _ behind⟩
  rw [State.slotList_eq, List.length_take]
  omega

end

/-! ### What a hand-over leaves (R40, R71) -/

/-- Line l's engine accepted operation o with slot list r, and its Scheduler has f in flight. -/
structure State.Handed (s u : State) (l : Fin 4) (o : Operation) (r : List SlotRec) (f : InFlight) : Prop where
  inFlight : (u.scheduler l).inFlight = some f
  accepted : u.engine l = (s.engine l).accept s.moment o r
  engines : s.OtherEnginesKept u l
  scheds : s.OtherSchedsKept u l

section
variable {s t u : State} {l : Fin 4} {o : Operation} {r : List SlotRec} {f : InFlight} {n : Fin 64}

theorem Engine.accept_sends (e : Engine) (m : Nat) (o : Operation) (r : List SlotRec) :
    (e.accept m o r).op = some o ∧ (e.accept m o r).lineState = .sending ∧ (e.accept m o r).since = m ∧
      (e.accept m o r).receiver = .disabled := by
  cases o <;> exact ⟨rfl, rfl, rfl, rfl⟩

theorem Engine.accept_slots (e : Engine) (m : Nat) (o : Operation) (r : List SlotRec) :
    (e.accept m o r).slots = r := by
  cases o <;> rfl

/-- The hand-over as the obligation lists it. -/
theorem State.Handed.listed (h : s.Handed u l o r f) : (u.scheduler l).inFlight = some f ∧ (u.engine l).op = some o ∧
    (u.engine l).lineState = .sending ∧ (u.engine l).since = s.moment ∧ (u.engine l).receiver = .disabled ∧
    s.OtherEnginesKept u l ∧ s.OtherSchedsKept u l := by
  obtain ⟨op, sending, since, receiver⟩ := (s.engine l).accept_sends s.moment o r
  rw [← h.accepted] at op sending since receiver
  exact ⟨h.inFlight, op, sending, since, receiver, h.engines, h.scheds⟩

/-- A call begins with its first attempt, no outcome and no kept answer, and is counted. -/
theorem State.Handed.called {k : CallKind} {a : Byte} {b : Bool} {p : List Byte}
    (h : s.Handed u l (.call k n a b p) r f) : (u.engine l).attempt = 1 ∧ (u.engine l).lastOutcome = none ∧
      (u.engine l).kept = none ∧ (u.engine l).counters = { (s.engine l).counters with
        callsStarted := (s.engine l).counters.callsStarted + 1 } := by
  rw [h.accepted]
  exact ⟨rfl, rfl, rfl, rfl⟩

/-- An operation handed over after steps that keep the moment, the engines and the other Schedulers. -/
theorem handOver_handed (moment : t.moment = s.moment) (engines : ∀ m, t.engine m = s.engine m)
    (scheds : s.OtherSchedsKept t l) : s.Handed (handOver l o r f t) l o r f where
  inFlight := handOver_inFlight ..
  accepted := by rw [handOver, State.engine_setSched_eq, State.engine_setEngine_self, moment, engines]
  engines m other := by
    rw [handOver, State.engine_setSched_eq, State.engine_setEngine, if_neg other.symm, engines]
  scheds m other := by
    rw [handOver, State.scheduler_setSched, if_neg other.symm, State.scheduler_setEngine_eq, scheds m other]

theorem handOver_scheduler_self : (handOver l o r f t).scheduler l = { t.scheduler l with inFlight := some f } := by
  simp [handOver]

/-- Marking an entry busy keeps the hand-over. -/
theorem State.Handed.markBusy (h : s.Handed t l o r f) (k : CallKind) : s.Handed (markBusy n k t) l o r f := by
  have frame := markBusy_frame n k t
  have scheds (m : Fin 4) : (Machine.markBusy n k t).scheduler m = t.scheduler m := frame.scheduler m
  have engines (m : Fin 4) : (Machine.markBusy n k t).engine m = t.engine m := frame.engine m
  exact ⟨(scheds l).symm ▸ h.inFlight, (engines l).trans h.accepted,
    fun m other => (engines m).trans (h.engines m other), fun m other => (scheds m).trans (h.scheds m other)⟩

theorem markBusy_entry_self {k : CallKind} (known : (t.entry n).state ≠ .vacant) : (markBusy n k t).entry n =
    { t.entry n with busy := true, lastPollStart := if k = .poll then t.tb.now else (t.entry n).lastPollStart } := by
  simp [markBusy, known]

theorem markBusy_entry_other {k : CallKind} {m : Fin 64} (other : m ≠ n) : (markBusy n k t).entry m = t.entry m := by
  unfold markBusy
  simp only
  split
  · rfl
  · rw [State.entry_setEntry, if_neg other.symm]

end

/-! ### The picks (R42, R43, R44, R45, R48) -/

section
variable {s : State} {l : Fin 4} {n : Fin 64} {i : Fin 16} {j : Job}

theorem startWindow_handed : s.Handed (startWindow l s) l .window (s.slotList l)
    (.window ((s.slotList l).map (·.address))) :=
  handOver_handed rfl (fun _ => rfl) fun _ _ => rfl

theorem otherSchedsKept_setSched (s : State) (l : Fin 4) (q : Sched) : s.OtherSchedsKept (s.setSched l q) l :=
  fun m other => by rw [State.scheduler_setSched, if_neg other.symm]

theorem startFetch_handed :
    s.Handed (startFetch l n s) l (.call .fetch n (s.entry n).address false []) [] (.fetch n) := by
  refine State.Handed.markBusy (handOver_handed ?_ ?_ ?_) _
  · rfl
  · exact fun _ => rfl
  · exact otherSchedsKept_setSched (s.setReserved l true) l _

theorem startPoll_handed :
    s.Handed (startPoll l n s) l (.call .poll n (s.entry n).address false []) [] (.poll n false) := by
  refine State.Handed.markBusy (handOver_handed ?_ ?_ ?_) _
  · rfl
  · exact fun _ => rfl
  · exact otherSchedsKept_setSched s l _

/-- The item is taken out of the queue and its slot is ON_WIRE. -/
def State.takenOut (s : State) (l : Fin 4) (i : Fin 16) : State :=
  (s.setSched l ((s.scheduler l).picked i)).modSlot i (fun j => { j with state := .onWire })

theorem pickItem_order (slot : s.slot i = some j) (kind : j.kindOf = some .order)
    (target : targetEntry j.target = some n) : pickItem l i s = markBusy n .order
      (handOver l (.call .order n (s.entry n).address (s.entry n).seqBit j.sent) [] (.order n i) (s.takenOut l i)) := by
  simp only [pickItem, slot, kind, target]
  rfl

theorem pickItem_broadcast (slot : s.slot i = some j) (kind : j.kindOf = some .broadcast) :
    pickItem l i s = handOver l (.broadcast j.sent) [] (.broadcast i) (s.takenOut l i) := by
  simp only [pickItem, slot, kind]
  rfl

theorem takenOut_frame (s : State) (l : Fin 4) (i : Fin 16) : Frame [.sched, .slots] s (s.takenOut l i) :=
  Frame.then (State.setSched_frame ..) (State.modSlot_frame ..)

theorem takenOut_scheduler (m : Fin 4) :
    (s.takenOut l i).scheduler m = (s.setSched l ((s.scheduler l).picked i)).scheduler m :=
  (State.modSlot_frame ..).scheduler m

theorem takenOut_handed {o : Operation} {r : List SlotRec} {f : InFlight} :
    s.Handed (handOver l o r f (s.takenOut l i)) l o r f := by
  have frame := takenOut_frame s l i
  refine handOver_handed ?_ (fun m => frame.engine m) fun m other => ?_
  · have tb : (s.takenOut l i).tb = s.tb := frame.same .tb
    rw [State.moment, tb, State.moment]
  · rw [takenOut_scheduler, otherSchedsKept_setSched s l _ m other]

theorem takenOut_slot_other {k : Fin 16} (other : k ≠ i) : (s.takenOut l i).slot k = s.slot k := by
  unfold State.takenOut State.modSlot
  split
  · rw [State.slot_setSlot, if_neg other.symm]
    rfl
  · rfl

/-- Orders-in-a-row counts the pick, and an empty queue sets it to 0. -/
theorem Sched.picked_queue (q : Sched) (i : Fin 16) : (q.picked i).orderQueue = q.orderQueue.filter (· != i) ∧
    (q.picked i).ordersInRow = if (q.picked i).orderQueue = [] then 0 else min 8 (q.ordersInRow + 1) := by
  simp [Sched.picked, Sched.keepOrders]

theorem takenOut_slot_self (slot : s.slot i = some j) :
    (s.takenOut l i).slot i = some { j with state := .onWire } := by
  simp [State.takenOut, State.modSlot, slot]

end

/-! ### What each pick leaves (R4, R35, R42, R43, R44, R45, R48, R71) -/

section
variable {s : State} {l : Fin 4} {n : Fin 64} {i : Fin 16} {j : Job}

/-- A call that is no poll leaves the last poll start. -/
theorem markBusy_call_entry {t : State} {k : CallKind} (call : k ≠ .poll) (same : t.entry n = s.entry n)
    (known : (s.entry n).state ≠ .vacant) : (markBusy n k t).entry n = { s.entry n with busy := true } := by
  rw [markBusy_entry_self (same.symm ▸ known), same, if_neg call]

/-- A poll sets the last poll start. -/
theorem markBusy_poll_entry {t : State} (frame : Frame [.eng, .sched] s t) (known : (s.entry n).state ≠ .vacant) :
    (markBusy n .poll t).entry n = { s.entry n with busy := true, lastPollStart := s.tb.now } := by
  have tb : t.tb = s.tb := frame.same .tb
  rw [markBusy_entry_self (frame.entry n ▸ known), frame.entry, tb, if_pos rfl]

theorem startWindow_scheduler : (startWindow l s).scheduler l =
    { s.scheduler l with inFlight := some (.window ((s.slotList l).map (·.address))) } :=
  handOver_scheduler_self

theorem startWindow_slots : ((startWindow l s).engine l).slots = s.slotList l := by
  rw [startWindow_handed.accepted, Engine.accept_slots]

theorem startWindow_counters : ((startWindow l s).engine l).counters = { (s.engine l).counters with
    windowsOpened := (s.engine l).counters.windowsOpened + 1 } := by
  rw [startWindow_handed.accepted]
  rfl

theorem startFetch_scheduler : (startFetch l n s).scheduler l = { s.scheduler l with
    inFlight := some (.fetch n), fetchQueue := (s.scheduler l).fetchQueue.erase n } := by
  rw [startFetch, markBusy_scheduler, handOver_scheduler_self, State.scheduler_setSched_self]

theorem startFetch_ntc : (startFetch l n s).ntc = (s.setReserved l true).ntc := by
  have frame : Frame [.entries, .eng, .sched] (s.setReserved l true) (startFetch l n s) :=
    (Frame.then (l := [.eng, .sched]) (State.setSched_frame ..) (handOver_frame ..)).then (markBusy_frame ..)
  exact frame.same .ntc

theorem startFetch_reserved (m : Fin 4) :
    (startFetch l n s).reserved m = if l = m then true else s.reserved m := by
  rw [← State.reserved_setReserved]
  exact congrArg (·.reserved[m.val]) startFetch_ntc

theorem startFetch_entry (known : (s.entry n).state ≠ .vacant) :
    (startFetch l n s).entry n = { s.entry n with busy := true } := by
  rw [startFetch]
  refine markBusy_call_entry (by decide) (Frame.entry (l := [.eng, .sched, .ntc]) ?_ n) known
  exact ((State.setReserved_frame s l true).then (l := [.eng, .sched, .ntc]) (State.setSched_frame ..)).then
    (handOver_frame ..)

theorem startPoll_scheduler : (startPoll l n s).scheduler l = { s.scheduler l with
    inFlight := some (.poll n false), ordersInRow := 0 } := by
  rw [startPoll, markBusy_scheduler, handOver_scheduler_self, State.scheduler_setSched_self]

theorem startPoll_entry (known : (s.entry n).state ≠ .vacant) :
    (startPoll l n s).entry n = { s.entry n with busy := true, lastPollStart := s.tb.now } := by
  rw [startPoll]
  exact markBusy_poll_entry (.then (l := [.eng, .sched]) (State.setSched_frame ..) (handOver_frame ..)) known

/-- An item handed over leaves the queue of its line. -/
theorem takenOut_scheduler_handed {o : Operation} {r : List SlotRec} {f : InFlight} :
    (handOver l o r f (s.takenOut l i)).scheduler l = { (s.scheduler l).picked i with inFlight := some f } := by
  rw [handOver_scheduler_self, takenOut_scheduler, State.scheduler_setSched_self]

theorem takenOut_handed_entry {o : Operation} {r : List SlotRec} {f : InFlight} (m : Fin 64) :
    (handOver l o r f (s.takenOut l i)).entry m = s.entry m :=
  (Frame.then (l := [.eng, .sched, .slots]) (takenOut_frame s l i) (handOver_frame ..)).entry m

end

theorem fetchCandidate_known {s : State} {l : Fin 4} {n : Fin 64} (h : s.fetchCandidate l = some n) :
    (s.entry n).state ≠ .vacant := by
  obtain ⟨called, -, -⟩ := State.fetchEligible_iff.mp (List.find?_some h)
  rcases called with is | is | is <;> simp [is]

theorem duePoll_known {s : State} {l : Fin 4} {n : Fin 64} (h : s.duePoll l = some n) :
    (s.entry n).state ≠ .vacant := by
  obtain ⟨-, eligible, -⟩ := State.offered_iff.mp (State.duePoll_eq_some h).1
  obtain ⟨called, -, -⟩ := State.fetchEligible_iff.mp eligible
  rcases called with is | is | is <;> simp [is]

section
variable {s : State} {l : Fin 4} {n : Fin 64} {i : Fin 16} {j : Job} (slot : s.slot i = some j)
include slot

section
variable (kind : j.kindOf = some .order) (target : targetEntry j.target = some n)
include kind target

theorem pickItem_order_frame : Frame [.eng, .sched, .entries, .slots] s (pickItem l i s) := by
  rw [pickItem_order slot kind target]
  exact ((takenOut_frame s l i).then (l := [.eng, .sched, .slots]) (handOver_frame ..)).then (markBusy_frame ..)

theorem pickItem_order_handed : s.Handed (pickItem l i s) l
    (.call .order n (s.entry n).address (s.entry n).seqBit j.sent) [] (.order n i) := by
  rw [pickItem_order slot kind target]
  exact takenOut_handed.markBusy _

theorem pickItem_order_scheduler :
    (pickItem l i s).scheduler l = { (s.scheduler l).picked i with inFlight := some (.order n i) } := by
  rw [pickItem_order slot kind target, markBusy_scheduler, takenOut_scheduler_handed]

theorem pickItem_order_slot (k : Fin 16) : (pickItem l i s).slot k = (s.takenOut l i).slot k := by
  rw [pickItem_order slot kind target]
  exact State.slot_congr
    ((Frame.then (l := [.eng, .sched, .entries]) (handOver_frame ..) (markBusy_frame ..)).same .slots).1 k

theorem pickItem_order_entry (known : (s.entry n).state ≠ .vacant) :
    (pickItem l i s).entry n = { s.entry n with busy := true } := by
  rw [pickItem_order slot kind target]
  exact markBusy_call_entry (by decide) (takenOut_handed_entry n) known

theorem pickItem_order_entries : s.OtherEntriesKept (pickItem l i s) n := by
  intro m other
  rw [pickItem_order slot kind target, markBusy_entry_other other, takenOut_handed_entry]

end

section
variable (kind : j.kindOf = some .broadcast)
include kind

theorem pickItem_broadcast_frame : Frame [.eng, .sched, .slots] s (pickItem l i s) := by
  rw [pickItem_broadcast slot kind]
  exact (takenOut_frame s l i).then (handOver_frame ..)

theorem pickItem_broadcast_handed :
    s.Handed (pickItem l i s) l (.broadcast j.sent) [] (.broadcast i) := by
  rw [pickItem_broadcast slot kind]
  exact takenOut_handed

theorem pickItem_broadcast_scheduler :
    (pickItem l i s).scheduler l = { (s.scheduler l).picked i with inFlight := some (.broadcast i) } := by
  rw [pickItem_broadcast slot kind, takenOut_scheduler_handed]

theorem pickItem_broadcast_slot (k : Fin 16) : (pickItem l i s).slot k = (s.takenOut l i).slot k := by
  rw [pickItem_broadcast slot kind]
  exact State.slot_congr ((handOver_frame ..).same .slots).1 k

end

end

section
variable {s : State} {l : Fin 4}

/-- An item of the order queue is found by its place: none of those before it passes the test. -/
theorem orderCandidate_iff {i : Fin 16} : s.orderCandidate l = some i ↔ ∃ q rest,
    (s.scheduler l).orderQueue = q ++ i :: rest ∧ ¬ s.blocked i = true ∧ ∀ k, k ∈ q → s.blocked k = true := by
  simp only [State.orderCandidate, find_eq_some_iff_split, Bool.not_eq_true', Bool.not_eq_true, Bool.not_eq_false]

theorem orderCandidate_eq_none : s.orderCandidate l = none ↔
    ∀ i, i ∈ (s.scheduler l).orderQueue → s.blocked i = true := by
  simp [State.orderCandidate]

theorem fetchCandidate_eq_none : s.fetchCandidate l = none ↔
    ∀ n, n ∈ (s.scheduler l).fetchQueue → ¬ s.fetchEligible n = true := by
  simp [State.fetchCandidate]

theorem slotList_sound {r : SlotRec} (h : r ∈ s.slotList l) :
    s.slotEligible l r.entry = true ∧ r = s.slotRec r.entry :=
  (s.mem_slotRing l).mp (List.mem_of_mem_take h)

end

/-- Settles O35: the order of the candidates, each candidate and each pick are described by lemmas of their own. -/
theorem arbiterChooses : Obligations.ArbiterChooses := by
  refine ⟨?picks, ?choices, ?candidates⟩
  case picks =>
    intro l s may handed called leaves sent place mayGo
    rw [chooseOnce_of_mayChoose may]
    have running := (State.mayChoose_iff.mp may).1
    refine ⟨?window, fun window => ⟨?fetch, fun fetch => ?rest⟩⟩
    case window =>
      intro window
      refine ⟨_, chooseIdle_window window, (startWindow_frame l s).mono (by decide), startWindow_handed.listed,
        startWindow_slots, startWindow_counters, ?_⟩
      rw [startWindow_scheduler]
    case fetch =>
      intro n fetch free
      have known := fetchCandidate_known fetch
      refine ⟨_, chooseIdle_fetch window fetch ((State.canReserve_iff running).mpr free),
        (startFetch_frame l n s).mono (by decide), startFetch_handed.called, startFetch_handed.listed, ?_, ?_, ?_, ?_,
        startFetch_entry known, fun m other => ?_⟩
      · rw [startFetch_reserved, if_pos rfl]
      · intro m other
        rw [startFetch_reserved, if_neg other.symm]
      · rw [startFetch_ntc]
        rfl
      · rw [startFetch_scheduler]
      · rw [startFetch, markBusy_entry_other other]
        rfl
    case rest =>
      have fetch' : s.fetchCandidate l = none ∨ ¬ s.canReserve = true := by
        rwa [State.canReserve_iff running]
      refine ⟨fun i j order slot go => ?orders, fun n spent poll => ?poll, chooseIdle_none window fetch'⟩
      case orders =>
        rw [chooseIdle_order window fetch' order (State.orderMayGo_iff.mpr go)]
        refine ⟨fun n kind target known => ⟨_, rfl, ?order⟩, fun kind => ⟨_, rfl, ?broadcast⟩, fun _ => rfl⟩
        case order =>
          have handed := pickItem_order_handed (l := l) slot kind target
          refine ⟨pickItem_order_frame slot kind target, handed.called, handed.listed, ?_, ?_, fun k other => ?_,
            pickItem_order_entry slot kind target known, pickItem_order_entries slot kind target⟩
          · simp only [leaves, pickItem_order_scheduler slot kind target]
            exact (s.scheduler l).picked_queue i
          · rw [pickItem_order_slot slot kind target, takenOut_slot_self slot]
          · rw [pickItem_order_slot slot kind target, takenOut_slot_other other]
        case broadcast =>
          have handed := pickItem_broadcast_handed (l := l) slot kind
          refine ⟨pickItem_broadcast_frame slot kind, handed.listed, ?_, ?_, ?_, fun k other => ?_⟩
          · simp only [leaves, pickItem_broadcast_scheduler slot kind]
            exact (s.scheduler l).picked_queue i
          · rw [handed.accepted]
            rfl
          · rw [pickItem_broadcast_slot slot kind, takenOut_slot_self slot]
          · rw [pickItem_broadcast_slot slot kind, takenOut_slot_other other]
      case poll =>
        have waits : s.orderCandidate l = none ∨ s.orderMayGo l = false := spent.imp_right fun full => by
          rw [Bool.eq_false_iff, Ne, State.orderMayGo_iff, poll]
          simp [full]
        refine ⟨_, chooseIdle_poll window fetch' waits poll, (startPoll_frame l n s).mono (by decide),
          startPoll_handed.called, startPoll_handed.listed, ?_, startPoll_entry (duePoll_known poll), fun m other => ?_⟩
        · rw [startPoll_scheduler]
        · rw [startPoll, markBusy_entry_other other]
          rfl
  case choices =>
    intro l s isSetup
    refine ⟨State.mayChoose_iff, State.maySetup_iff, fun may => ?_, chooseOnce_of_neither⟩
    rw [chooseOnce_of_maySetup may]
    refine ⟨fun q i rest queue is before => ?_, fun none => ?_⟩
    · have found : (s.scheduler l).orderQueue.find? s.isSetup = some i :=
        find_eq_some_iff_split.mpr ⟨q, rest, queue, State.isSetup_iff.mpr is,
          fun k hk setup => before k hk (State.isSetup_iff.mp setup)⟩
      rw [found]
      rfl
    · rw [List.find?_eq_none.mpr fun k hk setup => none k hk (State.isSetup_iff.mp setup)]
      rfl
  case candidates =>
    intro l s
    simp only [← State.windowReached_iff, ← State.slotEligible_iff, ← State.blocked_iff, ← State.fetchEligible_iff,
      ← State.offered_iff]
    refine ⟨State.windowApplies_iff, fetchCandidate_eq_none, fun n => find_eq_some_iff_split, orderCandidate_eq_none,
      fun i => orderCandidate_iff, State.duePoll_eq_none, fun n => State.duePoll_eq_some, ?slots, ?passed,
      passWindow_of_kept⟩
    case slots =>
      refine ⟨fun r hr => ?_, (s.slotRing_nodup l).sublist ((List.take_sublist ..).map _),
        (s.slotRing_ordered l).sublist (List.take_sublist ..), List.length_take_le .., fun n => s.slotList_full l⟩
      obtain ⟨eligible, own⟩ := slotList_sound hr
      exact ⟨eligible, own ▸ rfl, own ▸ rfl, own ▸ rfl⟩
    case passed =>
      intro t due reached none
      rw [passWindow_of_passed due reached none, advanced_eq]

end Sys2Proof.Machine
end

section
/-! PROOFS. What every event ends with: the choices of the lines, the requests that the blocks issue, the steps of a stop's
end, and the arbitration of the Memory Port. -/

set_option Elab.async false

namespace Sys2Proof.Machine

/-! ### A choice lets no order queue grow -/

section
variable (m l : Fin 4)

theorem handOver_shrinks (o : Operation) (r : List SlotRec) (f : InFlight) (s : State) :
    State.QueueShrinks m s (handOver l o r f s) :=
  setSched_shrinks m l (s.setEngine l ((s.engine l).accept s.moment o r)) { s.scheduler l with inFlight := some f }
    (Nat.le_refl _)

theorem markBusy_shrinks (n : Fin 64) (k : CallKind) (s : State) : State.QueueShrinks m s (markBusy n k s) :=
  .of_sched ((markBusy_frame n k s).same .sched)

theorem startPoll_shrinks (n : Fin 64) (s : State) : State.QueueShrinks m s (startPoll l n s) :=
  ((setSched_shrinks m l s { s.scheduler l with ordersInRow := 0 } (Nat.le_refl _)).trans
    (handOver_shrinks m l ..)).trans (markBusy_shrinks ..)

theorem startFetch_shrinks (n : Fin 64) (s : State) : State.QueueShrinks m s (startFetch l n s) :=
  ((setSched_shrinks m l (s.setReserved l true)
    { s.scheduler l with fetchQueue := (s.scheduler l).fetchQueue.erase n } (Nat.le_refl _)).trans
    (handOver_shrinks m l ..)).trans (markBusy_shrinks ..)

theorem pickItem_shrinks (i : Fin 16) (s : State) : State.QueueShrinks m s (pickItem l i s) := by
  have picked := setSched_shrinks m l s ((s.scheduler l).picked i) (List.length_filter_le ..)
  have taken : State.QueueShrinks m s (s.takenOut l i) :=
    picked.trans (.of_sched ((State.modSlot_frame ..).same .sched))
  unfold pickItem
  simp only
  split
  · exact picked
  · split
    · exact (taken.trans (handOver_shrinks ..)).trans (markBusy_shrinks ..)
    · exact taken.trans (handOver_shrinks ..)
    · exact picked.trans (applySetup_shrinks ..)
    · exact picked

theorem chooseOnce_shrinks {s t : State} (h : chooseOnce l s = some t) : State.QueueShrinks m s t := by
  unfold chooseOnce chooseIdle at h
  repeat' split at h
  · cases h
    exact handOver_shrinks ..
  · cases h
    exact startFetch_shrinks ..
  · cases h
    exact pickItem_shrinks ..
  · obtain ⟨n, -, rfl⟩ := Option.map_eq_some_iff.mp h
    exact startPoll_shrinks ..
  · obtain ⟨i, -, rfl⟩ := Option.map_eq_some_iff.mp h
    exact pickItem_shrinks ..
  · cases h

theorem windowPassed_shrinks (s : State) : State.QueueShrinks m s (s.windowPassed l) := by
  unfold State.windowPassed passWindow
  split
  · split
    · exact setSched_shrinks m l s ((s.scheduler l).windowAdvanced s.tb.now) (Nat.le_refl _)
    · exact Nat.le_refl _
  · exact Nat.le_refl _

end

theorem LineChooses.shrinks {l : Fin 4} {s t : State} (h : LineChooses l s t) (m : Fin 4) :
    State.QueueShrinks m s t := by
  induction h with
  | done s _ => exact windowPassed_shrinks m l s
  | next s t u choice _ ih => exact ((windowPassed_shrinks m l s).trans (chooseOnce_shrinks m l choice)).trans ih

/-! ### Every line chooses (R40, R156) -/

/-- No order queue holds more than 16 items. -/
def State.QueuesBounded (s : State) : Prop := ∀ l, (s.scheduler l).orderQueue.length ≤ 16

section
variable {s : State}

theorem State.QueuesBounded.chooseLine (bounded : s.QueuesBounded) (l : Fin 4) :
    LineChooses l s (chooseLine 18 l s) ∧ (Machine.chooseLine 18 l s).QueuesBounded := by
  have few : s.choicesLeft l < 18 := by
    have := bounded l
    unfold State.choicesLeft
    split <;> omega
  have chooses := chooseLine_chooses 18 l s few
  exact ⟨chooses, fun m => Nat.le_trans (chooses.shrinks m) (bounded m)⟩

theorem chooseLines_chooses (bounded : s.QueuesBounded) (l : Fin 4) : ∃ a b c,
    LineChooses l s a ∧ LineChooses (l + 1) a b ∧ LineChooses (l + 2) b c ∧
      LineChooses (l + 3) c (chooseLines (linesFrom l) s) := by
  obtain ⟨first, boundedA⟩ := bounded.chooseLine l
  obtain ⟨second, boundedB⟩ := boundedA.chooseLine (l + 1)
  obtain ⟨third, boundedC⟩ := boundedB.chooseLine (l + 2)
  exact ⟨_, _, _, first, second, third, (boundedC.chooseLine (l + 3)).1⟩

theorem State.contended_iff : s.contended = true ↔
    2 ≤ (lines.filter s.wantsFetch).length ∧
      8 < s.ntc.held.length + s.reservations + (lines.filter s.wantsFetch).length := by
  simp only [State.contended, Bool.and_eq_true, decide_eq_true_eq]
  unfold State.freePlaces
  omega

theorem chooseLine_of_none {l : Fin 4} {f : Nat} (may : s.mayChoose l = false) (setup : s.maySetup l = false) :
    chooseLine f l s = s := by
  cases f with
  | zero => rfl
  | succ f => simp [chooseLine, may, chooseOnce_of_neither may setup]

theorem chooseAll_of_none (h : ∀ l, s.mayChoose l = false ∧ s.maySetup l = false) : chooseAll s = s := by
  have noFetch : s.wantsFetch = fun _ => false := funext fun l => by simp [State.wantsFetch, (h l).1]
  have uncontended : s.contended = false := by simp [State.contended, noFetch]
  have line (l : Fin 4) : chooseLine 18 l s = s := chooseLine_of_none (h l).1 (h l).2
  simp [chooseAll, uncontended, lines, chooseLines, line]

end

/-! ### The arbitration (R182) -/

theorem Port.arbitrate_of_inService {p : Port} {r : Request} (h : p.inService = some r) : p.arbitrate = p := by
  simp [Port.arbitrate, h]

theorem Port.arbitrate_of_empty {p : Port} (h : p.waiting = Waiting.empty) : p.arbitrate = p := by
  unfold Port.arbitrate
  rw [h, Waiting.first_empty]
  cases p.inService <;> rfl

theorem Port.arbitrate_of_first {p : Port} {who : Requester} {r : Request} (free : p.inService = none)
    (first : p.waiting.first p.pointer.after = some (who, r)) :
    p.arbitrate = { inService := some r, waiting := p.waiting.put who none, pointer := who } := by
  simp only [Port.arbitrate, free, first]

/-- The first requester with a request is found where nobody before it has one. -/
theorem Waiting.first_at {w : Waiting} {order : List Requester} {d : Nat} {who : Requester} {r : Request}
    (place : order[d]? = some who) (request : w.get who = some r)
    (before : ∀ c x, c < d → order[c]? = some x → w.get x = none) : w.first order = some (who, r) := by
  induction order generalizing d with
  | nil => cases place
  | cons x rest ih =>
    cases d with
    | zero =>
      cases place
      simp [Waiting.first, request]
    | succ d =>
      have idle : w.get x = none := before 0 x (Nat.succ_pos d) rfl
      simp only [Waiting.first, idle]
      exact ih (d := d) place fun c y less at' => before (c + 1) y (Nat.succ_lt_succ less) at'

theorem Waiting.get_of_first {w : Waiting} {order : List Requester} {who : Requester} {r : Request}
    (h : w.first order = some (who, r)) : w.get who = some r := by
  induction order with
  | nil => cases h
  | cons x rest ih =>
    rw [Waiting.first] at h
    split at h
    · next found =>
      cases h
      exact found
    · exact ih h

/-- The requesters in the order of the table. -/
def Requester.all : List Requester := [.follower, .jobUnit, .report, .notice, .control]

/-- The order after a pointer goes around the table from the place behind it. -/
theorem Requester.after_at {pointer : Requester} {k d : Nat} (place : Requester.all[k]? = some pointer) (h : d < 5) :
    pointer.after[d]? = Requester.all[(k + 1 + d) % 5]? := by
  have inTable : k < 5 := (List.getElem?_eq_some_iff.mp place).1
  have table : ∀ k d : Fin 5, ∀ pointer, Requester.all[k.val]? = some pointer →
      pointer.after[d.val]? = Requester.all[(k.val + 1 + d.val) % 5]? := by
    intro k d pointer place
    revert k d
    cases pointer <;> decide
  exact table ⟨k, inTable⟩ ⟨d, h⟩ pointer place

/-- A request that waits goes into service or goes on waiting. -/
theorem Port.arbitrate_issued {p : Port} {who : Requester} {r : Request} (h : p.waiting.get who = some r) :
    p.arbitrate.inService = some r ∨ p.arbitrate.waiting.get who = some r := by
  cases busy : p.inService with
  | some served => exact .inr ((congrArg (·.waiting.get who) (Port.arbitrate_of_inService busy)).trans h)
  | none =>
    cases first : p.waiting.first p.pointer.after with
    | none =>
      have same : p.arbitrate = p := by simp only [Port.arbitrate, busy, first]
      exact .inr ((congrArg (·.waiting.get who) same).trans h)
    | some found =>
      obtain ⟨x, taken⟩ := found
      rw [Port.arbitrate_of_first busy first]
      by_cases own : x = who
      · subst own
        exact .inl ((Waiting.get_of_first first).symm.trans h)
      · exact .inr ((Waiting.get_put ..).trans ((if_neg own).trans h))

/-! ### What each step of an event's end writes at the port -/

/-- The event's end before the end of a stop is judged. -/
def State.beforeEnd (s : State) : State :=
  issueNotice (waitForRoom (closeWhenQuiet (tellToClose (beginUpdate (issueJobWrite s)))))

theorem drain_eq_beforeEnd (s : State) : drain s = (endStop s.beforeEnd).arbitrate := rfl

/-- What the port has for a requester, and what it serves, is the same in s and t. -/
def State.PortKept (s t : State) (x : Requester) : Prop :=
  t.port.waiting.get x = s.port.waiting.get x ∧ t.port.inService = s.port.inService

section
variable {s t u : State} {x : Requester}

theorem State.PortKept.of_port (h : t.port = s.port) : s.PortKept t x := by simp [State.PortKept, h]

theorem State.PortKept.symm (h : s.PortKept t x) : t.PortKept s x := ⟨h.1.symm, h.2.symm⟩

theorem State.PortKept.trans (h : s.PortKept t x) (k : t.PortKept u x) : s.PortKept u x :=
  ⟨k.1.trans h.1, k.2.trans h.2⟩

theorem State.PortKept.busyFor (h : s.PortKept t x) : t.port.busyFor x = s.port.busyFor x := by
  simp only [Port.busyFor, h.1, h.2]

theorem State.portKept_issue {r : Request} (other : r.who ≠ x) : s.PortKept (s.issue r) x :=
  ⟨(Waiting.get_put ..).trans (if_neg other), rfl⟩

theorem State.issue_waiting (s : State) (r : Request) : (s.issue r).port.waiting.get r.who = some r :=
  (Waiting.get_put ..).trans (if_pos rfl)

theorem jobRequest_who {w : JobWrite} {r : Request} (h : s.jobRequest w = some r) : r.who = .jobUnit := by
  unfold State.jobRequest at h
  repeat' split at h
  all_goals cases h
  all_goals rfl

theorem cellRequest_who (c : CellUpdate) : (s.cellRequest c).who = .report := by
  unfold State.cellRequest
  cases c.stage <;> rfl

/-- The Job Unit issues the head of its list, or nothing. -/
theorem issueJobWrite_cases (s : State) :
    issueJobWrite s = s ∨ ∃ r, r.who = .jobUnit ∧ issueJobWrite s = s.issue r := by
  unfold issueJobWrite
  repeat' split
  · exact .inl rfl
  · next found => exact .inr ⟨_, jobRequest_who found, rfl⟩
  · exact .inl rfl
  · exact .inl rfl

/-- The Report Writer begins an update, or does nothing. -/
theorem beginUpdate_cases (s : State) : beginUpdate s = s ∨ ∃ rep r, rep.update ≠ none ∧ r.who = .report ∧
    beginUpdate s = { s with rep := rep }.issue r := by
  unfold beginUpdate
  split
  · exact .inr ⟨_, _, Option.some_ne_none _, cellRequest_who _, rfl⟩
  · exact .inl rfl

/-- The Notice Writer issues one request of its own, or nothing. -/
theorem issueNotice_cases (s : State) : issueNotice s = s ∨ ∃ ntc r, r.who = .notice ∧
    issueNotice s = { s with ntc := ntc }.issue r := by
  unfold issueNotice beginNotice
  repeat' split
  all_goals first
    | exact .inl rfl
    | exact .inr ⟨_, _, rfl, rfl⟩

theorem issueJobWrite_portKept (other : x ≠ .jobUnit) : s.PortKept (issueJobWrite s) x := by
  rcases issueJobWrite_cases s with same | ⟨r, who, issued⟩
  · exact .of_port (congrArg _ same)
  · rw [issued]
    exact State.portKept_issue (who ▸ other.symm)

theorem beginUpdate_portKept (other : x ≠ .report) : s.PortKept (beginUpdate s) x := by
  rcases beginUpdate_cases s with same | ⟨rep, r, -, who, issued⟩
  · exact .of_port (congrArg _ same)
  · rw [issued]
    exact State.portKept_issue (s := { s with rep := rep }) (who ▸ other.symm)

theorem issueNotice_portKept (other : x ≠ .notice) : s.PortKept (issueNotice s) x := by
  rcases issueNotice_cases s with same | ⟨ntc, r, who, issued⟩
  · exact .of_port (congrArg _ same)
  · rw [issued]
    exact State.portKept_issue (s := { s with ntc := ntc }) (who ▸ other.symm)

theorem issueNotice_after_portKept (other : x ≠ .notice) (t : State) :
    t.PortKept (issueNotice (waitForRoom (closeWhenQuiet (tellToClose t)))) x := by
  have closing : Frame [.ntc] t (waitForRoom (closeWhenQuiet (tellToClose t))) :=
    ((tellToClose_frame t).trans (closeWhenQuiet_frame _)).trans (waitForRoom_frame _)
  exact (State.PortKept.of_port (closing.same .port)).trans (issueNotice_portKept other)

/-- The Job Unit's and the Report Writer's issues, before the Notice Writer. -/
theorem beginUpdate_issueJobWrite (s : State) : ∃ port rep, beginUpdate (issueJobWrite s) =
    { s with port := port, rep := rep } ∧ ∀ x, x ≠ .jobUnit → x ≠ .report →
      s.PortKept { s with port := port, rep := rep } x := by
  have kept (x : Requester) (hj : x ≠ .jobUnit) (hr : x ≠ .report) : s.PortKept (beginUpdate (issueJobWrite s)) x :=
    (issueJobWrite_portKept hj).trans (beginUpdate_portKept hr)
  have form : beginUpdate (issueJobWrite s) = { s with
      port := (beginUpdate (issueJobWrite s)).port, rep := (beginUpdate (issueJobWrite s)).rep } := by
    rcases beginUpdate_cases (issueJobWrite s) with h | ⟨rep, r, -, -, h⟩ <;> rw [h] <;>
      rcases issueJobWrite_cases s with k | ⟨q, -, k⟩ <;> rw [k] <;> rfl
  exact ⟨_, _, form, fun x hj hr => form ▸ kept x hj hr⟩

/-! ### When a stop ends (R174) -/

theorem endStop_port (s : State) : (endStop s).port = s.port := by
  unfold endStop
  split <;> rfl

/-- A request that waits before the end of a stop is judged is in service or waits after the event. -/
theorem drain_issued {r : Request} (h : s.beforeEnd.port.waiting.get x = some r) :
    (drain s).port.inService = some r ∨ (drain s).port.waiting.get x = some r := by
  rw [drain_eq_beforeEnd]
  simp only [State.arbitrate, endStop_port]
  exact Port.arbitrate_issued h

theorem endStop_of_not_closed (h : s.noticeClosed = false) : endStop s = s := by simp [endStop, h]

theorem endStop_of_not_drained (h : s.reportDrained = false) : endStop s = s := by simp [endStop, h]

theorem State.reportDrained_iff : s.reportDrained = true ↔ s.rep.pendingCells = [] ∧ s.rep.update = none := by
  simp [State.reportDrained]

theorem State.noticeClosed_iff : s.noticeClosed = true ↔ s.ntc.closing = true ∧ s.ntc.discarded = true ∧
    s.ntc.lostDue = false ∧ s.ntc.droppedDue = false ∧ s.port.busyFor .notice = false := by
  simp [State.noticeClosed, and_assoc]

/-- What makes a stop end in this event. -/
def State.StopEndsNow (s : State) : Prop :=
  s.active = true ∧ s.ctl.part = .stopping ∧ s.noticeClosed = true ∧ s.reportDrained = true

theorem issueNotice_not_closed_of_lostDue (h : s.ntc.lostDue = true) (hc : s.ntc.closing = true) :
    (issueNotice s).noticeClosed = false := by
  unfold issueNotice
  simp only [hc, h, if_true]
  repeat' split
  · simp [State.noticeClosed, h]
  · simp [State.noticeClosed, h]
  · simp [State.noticeClosed, issueLostTotal_busy]

/-- With nothing of the close due the Notice Writer issues nothing while closing. -/
theorem issueNotice_of_nothing_due (hc : s.ntc.closing = true) (hl : s.ntc.lostDue = false)
    (hd : s.ntc.droppedDue = false) : issueNotice s = s := by
  simp [issueNotice, hc, hl, hd]

theorem tellToClose_of_closing (h : s.ntc.closing = true) : tellToClose s = s := by simp [tellToClose, h]

theorem closeWhenQuiet_of_discarded (h : s.ntc.discarded = true) : closeWhenQuiet s = s := by
  simp [closeWhenQuiet, h]

/-- A Notice Writer found closed after its issues was closed before them. -/
theorem closed_before (hc : s.ntc.closing = true)
    (h : (issueNotice (waitForRoom (closeWhenQuiet s))).noticeClosed = true) :
    s.noticeClosed = true ∧ issueNotice (waitForRoom (closeWhenQuiet s)) = s := by
  have discarded : closeWhenQuiet s = s ∧ s.ntc.discarded = true := by
    unfold closeWhenQuiet at h ⊢
    split at h
    · rw [waitForRoom_closing (discardHeld s) hc, issueNotice_not_closed (discardHeld s) rfl hc] at h
      cases h
    · next quiet =>
      rw [waitForRoom_closing _ hc, State.noticeClosed_iff, (issueNotice_closing s).2] at h
      exact ⟨if_neg quiet, h.2.1⟩
  rw [discarded.1, waitForRoom_closing _ hc] at h ⊢
  have nothing (due : s.ntc.lostDue = false) (due' : s.ntc.droppedDue = false) : issueNotice s = s :=
    issueNotice_of_nothing_due hc due due'
  cases lost : s.ntc.lostDue with
  | true =>
    rw [issueNotice_not_closed_of_lostDue lost hc] at h
    cases h
  | false =>
    cases dropped : s.ntc.droppedDue with
    | true =>
      rw [issueNotice_not_closed _ dropped hc] at h
      cases h
    | false =>
      rw [nothing lost dropped] at h ⊢
      exact ⟨h, rfl⟩

/-- Nothing pending and nothing in progress after the update was due means there was nothing before. -/
theorem reportDrained_before (h : (beginUpdate (issueJobWrite s)).reportDrained = true) : s.reportDrained = true := by
  rw [State.reportDrained_iff] at h ⊢
  rcases beginUpdate_cases (issueJobWrite s) with rests | ⟨rep, r, begun, -, issued⟩
  · obtain ⟨pending, update⟩ := (issueJobWrite_frame s).same .cells
    rwa [rests, pending, update] at h
  · rw [issued] at h
    exact absurd h.2 begun

theorem endStop_beforeEnd (h : ¬ s.StopEndsNow) : endStop s.beforeEnd = s.beforeEnd := by
  refine if_neg fun ends => h ?_
  simp only [Bool.and_eq_true, beq_iff_eq, Bool.not_eq_true', and_assoc] at ends
  obtain ⟨rstn, part, closed, drained⟩ := ends
  have frame := beforeEnd_frame s
  have pins : s.beforeEnd.pins = s.pins := frame.same .pins
  rw [pins] at rstn
  rw [State.beforeEnd, frame.partState] at part
  have closing : s.ntc.closing = true := by
    by_contra opened
    rw [State.beforeEnd, drain_not_ended s (by simpa using opened)] at closed
    cases closed
  obtain ⟨port, rep, form, kept⟩ := beginUpdate_issueJobWrite s
  have closingNow : (beginUpdate (issueJobWrite s)).ntc.closing = true := by rw [form]; exact closing
  rw [State.beforeEnd, tellToClose_of_closing closingNow] at closed drained
  obtain ⟨closedNow, same⟩ := closed_before closingNow closed
  rw [same] at drained
  refine ⟨by simp [State.active, rstn, part], part, ?_, reportDrained_before drained⟩
  rw [form, State.noticeClosed_iff, (kept .notice (by decide) (by decide)).busyFor] at closedNow
  exact State.noticeClosed_iff.mpr closedNow

/-- Unless the stop ends the event ends with issues and the port's arbitration. -/
theorem drain_of_not_ends (h : ¬ s.StopEndsNow) : drain s = s.beforeEnd.arbitrate := by
  rw [drain_eq_beforeEnd, endStop_beforeEnd h]

theorem drain_frame_of_not_ends (h : ¬ s.StopEndsNow) : Frame [.port, .cells, .ntc] s (drain s) := by
  rw [drain_of_not_ends h]
  exact (beforeEnd_frame s).then (State.arbitrate_frame _)

theorem State.not_ends_of_not_closed (h : s.noticeClosed = false) : ¬ s.StopEndsNow := fun ⟨_, _, closed, _⟩ => by
  rw [h] at closed
  cases closed

theorem State.not_ends_of_not_drained (h : s.reportDrained = false) : ¬ s.StopEndsNow := fun ⟨_, _, _, drained⟩ => by
  rw [h] at drained
  cases drained

end

/-! ### The first step of a stop's end (R174) -/

section
variable {s : State}

theorem State.sessionDrained_iff : s.sessionDrained = true ↔ (∀ l, (s.scheduler l).inFlight = none) ∧
    s.port.busyFor .follower = false ∧ (∀ i, s.slot i = none) ∧ s.job.writes = [] ∧ s.rep.pendingCells = [] ∧
    s.rep.update = none := by
  have lines (l : Fin 4) : l ∈ lines := by revert l; decide
  simp [State.sessionDrained, State.jobsDone, State.reportDrained, slotIndices, and_assoc, lines]

theorem sessionDrained_before (h : (beginUpdate (issueJobWrite s)).sessionDrained = true) :
    s.sessionDrained = true := by
  obtain ⟨port, rep, form, kept⟩ := beginUpdate_issueJobWrite s
  have drained : s.reportDrained = true := by
    refine reportDrained_before (State.reportDrained_iff.mpr ?_)
    obtain ⟨-, -, -, -, pending, update⟩ := State.sessionDrained_iff.mp h
    exact ⟨pending, update⟩
  rw [form, State.sessionDrained_iff, (kept .follower (by decide) (by decide)).busyFor] at h
  obtain ⟨flights, follower, slots, writes, -⟩ := h
  exact State.sessionDrained_iff.mpr ⟨flights, follower, slots, writes, State.reportDrained_iff.mp drained⟩

theorem tellToClose_of_not (h : s.ctl.part ≠ .stopping ∨ s.sessionDrained = false) : tellToClose s = s := by
  rcases h with other | opened <;> simp [tellToClose, *]

theorem tellToClose_of_drained (rstn : s.pins.rstn = false) (part : s.ctl.part = .stopping)
    (opened : s.ntc.closing = false) (drained : s.sessionDrained = true) : tellToClose s = beginClose s := by
  simp [tellToClose, rstn, part, opened, drained]

theorem closeWhenQuiet_of_open (h : s.ntc.closing = false) : closeWhenQuiet s = s := by simp [closeWhenQuiet, h]

theorem closeWhenQuiet_of_quiet (active : s.active = true) (closing : s.ntc.closing = true)
    (kept : s.ntc.discarded = false) (between : s.ntc.writing = none) (unread : s.ntc.readInFlight = false) :
    closeWhenQuiet s = discardHeld s := by
  simp [closeWhenQuiet, active, closing, kept, between, unread]

theorem closeWhenQuiet_closing (s : State) : (closeWhenQuiet s).ntc.closing = s.ntc.closing := by
  unfold closeWhenQuiet
  split <;> rfl

theorem issueJobWrite_of_empty (h : s.job.writes = []) : issueJobWrite s = s := by simp [issueJobWrite, h]

theorem issueJobWrite_of_head {w : JobWrite} {rest : List JobWrite} {r : Request} (active : s.active = true)
    (free : s.port.busyFor .jobUnit = false) (writes : s.job.writes = w :: rest) (request : s.jobRequest w = some r) :
    issueJobWrite s = s.issue r := by
  simp [issueJobWrite, active, free, writes, request]

theorem beginUpdate_of_empty (h : s.rep.pendingCells = []) : beginUpdate s = s := by simp [beginUpdate, h]

/-! ### The Notice Writer's part (R159, R163, R164) -/

theorem waitForRoom_of_full (active : s.active = true) (opened : s.ntc.closing = false) (between : s.ntc.writing = none)
    (notice : s.hasNotice = true) (full : s.hasRoom = false) (first : s.ntc.waitingRoom = false) :
    waitForRoom s = { s with ntc := { s.ntc with
      waitingRoom := true, readWanted := s.ntc.readWanted || !s.ntc.readInFlight } } := by
  have waits : waitForRoom s = wantRead { s with ntc := { s.ntc with waitingRoom := true } } := by
    simp [waitForRoom, active, opened, between, notice, full, first]
  rw [waits, wantRead, opened]
  cases read : s.ntc.readInFlight <;> simp [read]

theorem waitForRoom_rests (h : s.hasNotice = false ∨ s.hasRoom = true ∨ s.ntc.waitingRoom = true) :
    waitForRoom s = s := by
  rcases h with none | room | waits <;> simp [waitForRoom, *]

/-- Waiting for room is no matter of the port and the Report Writer. -/
theorem waitForRoom_elsewhere (port : Port) (rep : ReportWriter) :
    waitForRoom { s with port := port, rep := rep } = { waitForRoom s with port := port, rep := rep } := by
  have condition : (waitForRoom { s with port := port, rep := rep }) = if s.active && !s.ntc.closing &&
      s.ntc.writing.isNone && s.hasNotice && !s.hasRoom && !s.ntc.waitingRoom then
      wantRead { s with port := port, rep := rep, ntc := { s.ntc with waitingRoom := true } }
      else { s with port := port, rep := rep } := rfl
  rw [condition, waitForRoom, wantRead, wantRead]
  repeat' split
  all_goals rfl

/-- Of the port the Notice Writer's issue depends on what the port has for it alone. -/
theorem issueNotice_elsewhere {port : Port} {rep : ReportWriter}
    (kept : s.PortKept { s with port := port, rep := rep } .notice) :
    (issueNotice { s with port := port, rep := rep }).ntc = (issueNotice s).ntc ∧
      (issueNotice { s with port := port, rep := rep }).port.waiting.get .notice =
        (issueNotice s).port.waiting.get .notice := by
  have busy : port.busyFor .notice = s.port.busyFor .notice := kept.busyFor
  have waiting : port.waiting.get .notice = s.port.waiting.get .notice := kept.1
  have active : State.active { s with port := port, rep := rep } = s.active := rfl
  have notice : State.hasNotice { s with port := port, rep := rep } = s.hasNotice := rfl
  have room : State.hasRoom { s with port := port, rep := rep } = s.hasRoom := rfl
  have lost : State.lostIsDue { s with port := port, rep := rep } = s.lostIsDue := rfl
  unfold issueNotice beginNotice
  simp only [active, notice, room, lost, busy]
  repeat' split
  all_goals first
    | exact ⟨rfl, waiting⟩
    | exact ⟨rfl, rfl⟩

/-- While closing, after the discard: a due lost total write, then the dropped at stop write (R164). -/
theorem issueNotice_of_closing (active : s.active = true) (free : s.port.busyFor .notice = false)
    (between : s.ntc.writing = none) (closing : s.ntc.closing = true) (discarded : s.ntc.discarded = true) :
    issueNotice s = if s.ntc.lostDue then issueLostTotal s else if s.ntc.droppedDue then issueDropped s else s := by
  simp only [issueNotice, active, free, between, closing, discarded, Bool.not_true, Bool.or_self, Option.isSome_none,
    Bool.false_eq_true, if_false, if_true]

end

/-! ### What an event's end does in each case -/

section
variable {s : State}

/-- The issues after the update leave the Job Unit's and the Report Writer's requests waiting. -/
theorem beforeEnd_portKept {x : Requester} (other : x ≠ .notice) :
    (beginUpdate (issueJobWrite s)).PortKept s.beforeEnd x :=
  issueNotice_after_portKept other _

/-- The Job Unit's write is issued (R114). -/
theorem drain_issues_jobWrite {w : JobWrite} {rest : List JobWrite} {r : Request} (active : s.active = true)
    (free : s.port.busyFor .jobUnit = false) (writes : s.job.writes = w :: rest) (request : s.jobRequest w = some r) :
    (drain s).port.inService = some r ∨ (drain s).port.waiting.get r.who = some r := by
  have who : r.who = .jobUnit := jobRequest_who request
  refine drain_issued ?_
  rw [who, ((beginUpdate_portKept (by decide)).trans (beforeEnd_portKept (by decide))).1,
    issueJobWrite_of_head active free writes request, ← who]
  exact State.issue_waiting ..

/-- The update of the head of the pending-cell set begins (R145). -/
theorem drain_begins_update {n : Fin 64} {rest : List (Fin 64)} {a : Addr} (active : s.active = true)
    (idle : s.rep.update = none) (pending : s.rep.pendingCells = n :: rest) (table : s.rep.tableAddr = some a) :
    (drain s).rep.pendingCells = rest ∧
      (drain s).rep.update = some { cell := n, body := cellBody (s.entry n), stage := .opening } ∧
      ((drain s).port.inService = some (writeRequest .report .cellOpening .cell (a + BitVec.ofNat 64 (64 * n.val))
        (leBytes 4 (s.rep.editions[n.val] + 1).toNat)) ∨
      (drain s).port.waiting.get .report = some (writeRequest .report .cellOpening .cell
        (a + BitVec.ofNat 64 (64 * n.val)) (leBytes 4 (s.rep.editions[n.val] + 1).toNat))) := by
  have goesOn : ¬ s.StopEndsNow := State.not_ends_of_not_drained (by simp [State.reportDrained, pending])
  have later : Frame [.ntc, .port] (beginUpdate (issueJobWrite s)) s.beforeEnd :=
    (((tellToClose_frame _).trans (closeWhenQuiet_frame _)).trans (waitForRoom_frame _)).then (issueNotice_frame _)
  have before := issueJobWrite_frame s
  have rep : (issueJobWrite s).rep = s.rep := before.rep
  have begun := beginUpdate_of_pending (s := issueJobWrite s) (before.active.trans active) (rep ▸ idle) (rep ▸ pending)
    rfl
  have request : (beginUpdate (issueJobWrite s)).port.waiting.get .report = some (writeRequest .report .cellOpening
      .cell (a + BitVec.ofNat 64 (64 * n.val)) (leBytes 4 (s.rep.editions[n.val] + 1).toNat)) := by
    rw [begun, ← rep, State.cellRequest_opening (rep ▸ table) rfl]
    exact State.issue_waiting ..
  obtain ⟨cells, update⟩ := later.same .cells
  refine ⟨?_, ?_, drain_issued (((beforeEnd_portKept (by decide)).1).trans request)⟩
  · rw [drain_of_not_ends goesOn]
    exact cells.trans (by rw [begun]; rfl)
  · rw [drain_of_not_ends goesOn]
    exact update.trans (by rw [begun, before.entry]; rfl)

/-- Where the Notice Writer is not told to close its part is that of an event's end alone. -/
theorem beforeEnd_of_open (opened : s.ntc.closing = false)
    (untold : s.ctl.part ≠ .stopping ∨ s.sessionDrained = false) :
    s.beforeEnd.ntc = (issueNotice (waitForRoom s)).ntc ∧
      s.beforeEnd.port.waiting.get .notice = (issueNotice (waitForRoom s)).port.waiting.get .notice := by
  obtain ⟨port, rep, form, kept⟩ := beginUpdate_issueJobWrite s
  have told : tellToClose (beginUpdate (issueJobWrite s)) = beginUpdate (issueJobWrite s) := by
    refine tellToClose_of_not (untold.imp (fun other => ?_) fun undrained => ?_)
    · rw [form]
      exact other
    · exact Bool.eq_false_iff.mpr fun drained => Bool.eq_false_iff.mp undrained (sessionDrained_before drained)
  have still : closeWhenQuiet { s with port := port, rep := rep } = { s with port := port, rep := rep } :=
    closeWhenQuiet_of_open opened
  have waitKept : (waitForRoom s).PortKept { waitForRoom s with port := port, rep := rep } .notice :=
    (State.PortKept.of_port ((waitForRoom_frame s).same .port)).symm.trans (kept .notice (by decide) (by decide))
  rw [State.beforeEnd, told, form, still, waitForRoom_elsewhere]
  exact issueNotice_elsewhere waitKept

/-- Where the first step's conditions hold the Notice Writer is told to close (R174). -/
theorem drain_tells_to_close (active : s.active = true) (part : s.ctl.part = .stopping) (opened : s.ntc.closing = false)
    (drained : s.sessionDrained = true) : (drain s).ntc.closing = true := by
  have rstn : s.pins.rstn = false := by
    simp only [State.active, Bool.and_eq_true, Bool.not_eq_true'] at active
    exact active.1
  obtain ⟨-, -, -, writes, pending, -⟩ := State.sessionDrained_iff.mp drained
  have told : tellToClose (beginUpdate (issueJobWrite s)) = beginClose s := by
    rw [issueJobWrite_of_empty writes, beginUpdate_of_empty pending, tellToClose_of_drained rstn part opened drained]
  rw [drain_of_not_ends (State.not_ends_of_not_closed (noticeClosed_of_open s opened)), State.beforeEnd, told]
  calc (issueNotice (waitForRoom (closeWhenQuiet (beginClose s)))).ntc.closing
      = (closeWhenQuiet (beginClose s)).ntc.closing := (issueNotice_closing _).1.trans (waitForRoom_open _).1
    _ = true := closeWhenQuiet_closing _

/-- While closing, the event's end is the discard and the Notice Writer's issue. -/
theorem beforeEnd_of_closing (closing : s.ntc.closing = true) : ∃ port rep,
    s.PortKept { s with port := port, rep := rep } .notice ∧
      s.beforeEnd = issueNotice (closeWhenQuiet { s with port := port, rep := rep }) := by
  obtain ⟨port, rep, form, kept⟩ := beginUpdate_issueJobWrite s
  refine ⟨port, rep, kept .notice (by decide) (by decide), ?_⟩
  have told := tellToClose_of_closing (s := { s with port := port, rep := rep }) closing
  rw [State.beforeEnd, form, told]
  exact congrArg issueNotice (waitForRoom_closing _ ((closeWhenQuiet_closing _).trans closing))

/-- The lost total write as the Notice Writer issues it. -/
def State.lostTotalRequest (s : State) : Request :=
  s.statusRequest .notice .lostTotalWrite 0x8C (leBytes 4 s.ntc.lostTotal.toNat)

/-- The dropped at stop write with a count. -/
def State.droppedRequest (s : State) (count : Word) : Request :=
  s.statusRequest .notice .droppedWrite 0x90 (leBytes 4 count.toNat)

section
variable (active : s.active = true) (closing : s.ntc.closing = true) (between : s.ntc.writing = none)
  (free : s.port.busyFor .notice = false)
include active closing between free

/-- Once nothing is on its way the hold buffer is discarded, and a write of the close is issued (R164). -/
theorem drain_discards (kept : s.ntc.discarded = false) (unread : s.ntc.readInFlight = false) :
    (drain s).ntc = { s.ntc with
      held := [], lostAfter := none, lostCount := 0, discarded := true, lostDue := false,
      dropped := s.ntc.dropped + BitVec.ofNat 32 s.ntc.held.length, droppedDue := s.ntc.lostDue } ∧
    (drain s).ctl = s.ctl ∧
    ((drain s).port.inService = some (if s.ntc.lostDue then s.lostTotalRequest
        else s.droppedRequest (s.ntc.dropped + BitVec.ofNat 32 s.ntc.held.length)) ∨
      (drain s).port.waiting.get .notice = some (if s.ntc.lostDue then s.lostTotalRequest
        else s.droppedRequest (s.ntc.dropped + BitVec.ofNat 32 s.ntc.held.length))) := by
  have goesOn : ¬ s.StopEndsNow := State.not_ends_of_not_closed (by simp [State.noticeClosed, kept])
  obtain ⟨port, rep, portKept, form⟩ := beforeEnd_of_closing closing
  have quiet := closeWhenQuiet_of_quiet (s := { s with port := port, rep := rep }) active closing kept between unread
  have issue := issueNotice_of_closing (s := discardHeld { s with port := port, rep := rep }) active
    (portKept.busyFor.trans free) between closing rfl
  rw [quiet, issue] at form
  refine ⟨?_, (drain_frame_of_not_ends goesOn).ctl, drain_issued ?_⟩
  · rw [drain_of_not_ends goesOn, State.arbitrate, form]
    cases lost : s.ntc.lostDue <;> simp [discardHeld, lost, issueLostTotal, issueDropped, State.issue]
  · rw [form]
    cases lost : s.ntc.lostDue <;> simp only [discardHeld, lost] <;> exact State.issue_waiting ..

variable (discarded : s.ntc.discarded = true)
include discarded

/-- After the discard a due lost total write is issued (R164). -/
theorem drain_issues_lostTotal (due : s.ntc.lostDue = true) :
    (drain s).ctl = s.ctl ∧ (drain s).ntc = { s.ntc with lostDue := false } ∧
    ((drain s).port.inService = some s.lostTotalRequest ∨
      (drain s).port.waiting.get .notice = some s.lostTotalRequest) := by
  have goesOn : ¬ s.StopEndsNow := State.not_ends_of_not_closed (by simp [State.noticeClosed, due])
  obtain ⟨port, rep, portKept, form⟩ := beforeEnd_of_closing closing
  have issue := issueNotice_of_closing (s := { s with port := port, rep := rep }) active
    (portKept.busyFor.trans free) between closing discarded
  have still := closeWhenQuiet_of_discarded (s := { s with port := port, rep := rep }) discarded
  rw [still, issue, if_pos due] at form
  refine ⟨(drain_frame_of_not_ends goesOn).ctl, ?_, drain_issued ?_⟩
  · rw [drain_of_not_ends goesOn, State.arbitrate, form]
    rfl
  · rw [form]
    exact State.issue_waiting ..

/-- After it the dropped at stop write is issued (R164). -/
theorem drain_issues_dropped (none : s.ntc.lostDue = false) (due : s.ntc.droppedDue = true) :
    (drain s).ctl = s.ctl ∧ (drain s).ntc = { s.ntc with droppedDue := false } ∧
    ((drain s).port.inService = some (s.droppedRequest s.ntc.dropped) ∨
      (drain s).port.waiting.get .notice = some (s.droppedRequest s.ntc.dropped)) := by
  have goesOn : ¬ s.StopEndsNow := State.not_ends_of_not_closed (by simp [State.noticeClosed, due])
  obtain ⟨port, rep, portKept, form⟩ := beforeEnd_of_closing closing
  have issue := issueNotice_of_closing (s := { s with port := port, rep := rep }) active
    (portKept.busyFor.trans free) between closing discarded
  have still := closeWhenQuiet_of_discarded (s := { s with port := port, rep := rep }) discarded
  rw [still, issue, none, due] at form
  refine ⟨(drain_frame_of_not_ends goesOn).ctl, ?_, drain_issued ?_⟩
  · rw [drain_of_not_ends goesOn, State.arbitrate, form]
    rfl
  · rw [form]
    exact State.issue_waiting ..

end

/-- Where a stop ends the Job Unit's issue is all that comes before. -/
theorem beforeEnd_of_ends (h : s.StopEndsNow) : ∃ port, s.beforeEnd = { s with port := port } ∧
    s.PortKept { s with port := port } .notice := by
  obtain ⟨-, -, closed, drained⟩ := h
  obtain ⟨closing, discarded, lost, dropped, -⟩ := State.noticeClosed_iff.mp closed
  obtain ⟨port, form, kept⟩ : ∃ port, issueJobWrite s = { s with port := port } ∧
      s.PortKept { s with port := port } .notice := by
    have kept : s.PortKept (issueJobWrite s) .notice := issueJobWrite_portKept (by decide)
    rcases issueJobWrite_cases s with same | ⟨r, -, issued⟩
    · exact ⟨s.port, same, .of_port rfl⟩
    · rw [issued] at kept
      exact ⟨_, issued, kept⟩
  have update := beginUpdate_of_empty (s := { s with port := port }) (State.reportDrained_iff.mp drained).1
  have told := tellToClose_of_closing (s := { s with port := port }) closing
  have quiet := closeWhenQuiet_of_discarded (s := { s with port := port }) discarded
  have waits := waitForRoom_closing { s with port := port } closing
  have issues := issueNotice_of_nothing_due (s := { s with port := port }) closing lost dropped
  refine ⟨port, ?_, kept⟩
  rw [State.beforeEnd, form, update, told, quiet, waits, issues]

/-- The blocks take their values at the end of a stop (R174); only the Job Unit may have issued a write. -/
theorem drain_of_ends (h : s.StopEndsNow) : ∃ port, drain s = { stopEnds s with port := port } := by
  obtain ⟨port, form, kept⟩ := beforeEnd_of_ends h
  obtain ⟨active, part, closed, drained⟩ := h
  have rstn : s.pins.rstn = false := by
    simp only [State.active, Bool.and_eq_true, Bool.not_eq_true'] at active
    exact active.1
  have closedNow : State.noticeClosed { s with port := port } = true := by
    rw [State.noticeClosed_iff] at closed ⊢
    exact kept.busyFor ▸ closed
  have drainedNow : State.reportDrained { s with port := port } = true := drained
  have ends : endStop { s with port := port } = stopEnds { s with port := port } := by
    refine if_pos ?_
    simp [rstn, part, closedNow, drainedNow]
  exact ⟨port.arbitrate, by rw [drain_eq_beforeEnd, form, ends]; rfl⟩

theorem State.stopEndsNow_iff : s.StopEndsNow ↔ s.active = true ∧ s.ctl.part = .stopping ∧ s.ntc.closing = true ∧
    s.ntc.discarded = true ∧ s.ntc.lostDue = false ∧ s.ntc.droppedDue = false ∧ s.port.busyFor .notice = false ∧
    s.rep.pendingCells = [] ∧ s.rep.update = none := by
  rw [State.StopEndsNow, State.noticeClosed_iff, State.reportDrained_iff]
  simp only [and_assoc]

end

/-- Settles O48: the choices of the four lines, the cases of an event's end, and the arbitration. -/
theorem eventEnds : Obligations.EventEnds := by
  refine ⟨?choices, ?ends, ?arbitration⟩
  case choices =>
    intro s wants contended bounded
    have asks : contended ↔ s.contended = true := State.contended_iff.symm
    by_cases h : s.contended = true
    · obtain ⟨a, b, c, first, second, third, fourth⟩ :=
        chooseLines_chooses (s := { s with freeCount := s.freeCount + 1 }) bounded (Config.firstLine s.freeCount)
      have all : chooseAll s = _ := if_pos h
      exact ⟨_, _, a, b, c, _, first, second, third, fourth, congrArg drain all, fun _ => rfl,
        fun free => absurd (asks.mpr h) free⟩
    · obtain ⟨a, b, c, first, second, third, fourth⟩ := chooseLines_chooses bounded 0
      have all : chooseAll s = _ := if_neg h
      exact ⟨0, s.freeCount, a, b, c, _, first, second, third, fourth, congrArg drain all,
        fun contest => absurd (asks.mp contest) h, fun _ => ⟨rfl, rfl⟩⟩
  case ends =>
    intro s issued clock lostTotal droppedAtStop room toWrite quiet ended
    have ends : ended ↔ s.StopEndsNow := State.stopEndsNow_iff.symm
    have notice : s.hasNotice = true ↔ toWrite := State.hasNotice_iff.trans or_comm
    have hasRoom : s.hasRoom = true ↔ room := State.hasRoom_iff
    refine ⟨fun goesOn => drain_frame_of_not_ends (goesOn ∘ ends.mpr),
      fun other => (settle_frame s other).mono (by decide), fun none => congrArg drain (chooseAll_of_none none),
      fun stopped => congrArg drain (chooseAll_of_not_running s stopped),
      drain_of_inactive s, fun w rest r active free writes request => drain_issues_jobWrite active free writes request,
      fun n rest a active idle pending table => drain_begins_update active idle pending table,
      fun active opened untold => ?opened, fun active opened between notices full first => ?full, fun rests => ?rests,
      fun active part opened flights follower slots writes pending update => ?told,
      fun active closing kept unread ⟨between, free⟩ => ?discards,
      fun active closing discarded ⟨between, free⟩ => ⟨drain_issues_lostTotal active closing between free discarded,
        drain_issues_dropped active closing between free discarded⟩, fun now => ?ended⟩
    case opened =>
      have goesOn := State.not_ends_of_not_closed (noticeClosed_of_open s opened)
      have untold' : s.ctl.part ≠ .stopping ∨ s.sessionDrained = false := by
        refine untold.imp (fun running => by simp [running]) fun left => Bool.eq_false_iff.mpr fun drained => ?_
        obtain ⟨flights, follower, slots, writes, pending, update⟩ := State.sessionDrained_iff.mp drained
        rcases left with ⟨l, flight⟩ | busy | ⟨i, slot⟩ | write | cell | current
        · exact flight (flights l)
        · exact Bool.false_ne_true (follower.symm.trans busy)
        · exact slot (slots i)
        · exact write writes
        · exact cell pending
        · exact current update
      obtain ⟨ntc, waiting⟩ := beforeEnd_of_open opened untold'
      refine ⟨?_, (drain_frame_of_not_ends goesOn).ctl, fun r request who => ?_⟩
      · rw [drain_of_not_ends goesOn]
        exact ntc
      · refine drain_issued ?_
        rw [who]
        exact waiting.trans request
    case full =>
      have noRoom : s.hasRoom = false := Bool.eq_false_iff.mpr (full ∘ hasRoom.mp)
      exact waitForRoom_of_full active opened between (notice.mpr notices) noRoom first
    case rests =>
      refine waitForRoom_rests (rests.imp (fun none => ?_) (Or.imp hasRoom.mpr id))
      exact Bool.eq_false_iff.mpr (none ∘ notice.mp)
    case told =>
      have drained := State.sessionDrained_iff.mpr ⟨flights, follower, slots, writes, pending, update⟩
      exact ⟨drain_tells_to_close active part opened drained, (drain_frame_of_open s opened).ctl⟩
    case discards =>
      obtain ⟨ntc, ctl, requested⟩ := drain_discards active closing between free kept unread
      refine ⟨ctl, ntc, ?_⟩
      cases lost : s.ntc.lostDue <;> rw [lost] at requested <;> exact requested
    case ended =>
      obtain ⟨port, form⟩ := drain_of_ends (ends.mp now)
      obtain ⟨-, -, -, -, lost, dropped, -, pending, update⟩ := now
      rw [form]
      refine ⟨rfl, fun n => ?_, fun i => ?_, rfl, ?_, fun l => ?_, ?_, fun l => ⟨?_, ?_⟩⟩
      · simp [State.entry, stopEnds]
      · simp [State.slot, stopEnds, JobUnit.stopped]
      · simp [stopEnds, ReportWriter.stopped, pending, update]
      · simp [State.reserved, stopEnds, NoticeWriter.stopped]
      · simp [stopEnds, NoticeWriter.stopped, lost, dropped]
      · simp [State.scheduler, stopEnds, Sched.stopped, Sched.disabled]
      · simp [State.engine, stopEnds, Engine.turnedOff, Engine.reset]
  case arbitration =>
    intro order
    refine ⟨fun r p => Port.arbitrate_of_inService, fun p => Port.arbitrate_of_empty,
      fun p k d who r free pointer less place request before => ?_⟩
    have first : p.waiting.first p.pointer.after = some (who, r) := by
      refine Waiting.first_at (d := d) ((Requester.after_at pointer less).trans place) request fun c x earlier at' => ?_
      exact before c x earlier ((Requester.after_at pointer (Nat.lt_trans earlier less)).symm.trans at')
    rw [Port.arbitrate_of_first free first]
    exact ⟨rfl, rfl, (Waiting.get_put ..).trans (if_pos rfl), fun x other =>
      (Waiting.get_put ..).trans (if_neg other.symm)⟩

end Sys2Proof.Machine
end

section
/-! PROOFS. A picked SETUP LINE: the settings, the line left enabled, and the line turned off with the ORDERs and
BROADCASTs of its queue. -/

set_option Elab.async false

namespace Sys2Proof.Machine

/-! ### What the hold check keeps (R23, R39) -/

section
variable {s : State} {n m : Fin 64} {k : Fin 16} {l : Fin 4}

theorem becomeHeld_slot (k : Fin 16) : (becomeHeld n s).slot k = s.slot k :=
  State.slot_congr ((becomeHeld_frame n s).same .slots).1 k

theorem orderWrongState_isOrderFor : (orderWrongState n s).isOrderFor m k = s.isOrderFor m k := by
  rcases orderWrongState_cases n s with same | drops
  · rw [same]
  · rw [drops]
    exact completeAll_isOrderFor (s := s.setSched ..) _

theorem checkHold_isOrderFor : (checkHold n s).isOrderFor m k = s.isOrderFor m k := by
  have held : (becomeHeld n s).isOrderFor m k = s.isOrderFor m k := State.isOrderFor_congr (becomeHeld_slot k)
  rw [checkHold]
  split
  · rcases completeWaiting_cases .hold n .ok (becomeHeld n s) with same | ⟨i, -, completes⟩
    · rw [same, held]
    · rw [completes, completeJob_isOrderFor, held]
  · rfl

/-- The check leaves it what a slot holds an ORDER for. -/
theorem settleHold_isOrderFor : (settleHold n s).isOrderFor m k = s.isOrderFor m k :=
  checkHold_isOrderFor.trans orderWrongState_isOrderFor

theorem checkHold_slotKept (h : s.waitsFor .hold n k ≠ true) : s.SlotKept (checkHold n s) k := by
  rw [checkHold]
  split
  · have held : s.SlotKept (becomeHeld n s) k := .of_eq (becomeHeld_slot k)
    exact held.then (completeWaiting_slotKept ((State.waitsFor_congr (becomeHeld_slot k)).symm ▸ h))
      ((becomeHeld_frame n s).same .tb)
      (Eq.trans ((completeWaiting_frame ..).same .tb) ((becomeHeld_frame n s).same .tb))
  · exact .of_eq rfl

/-- The check keeps every slot but those of the ORDERs behind a latch and of the entry's HOLD. -/
theorem settleHold_slotKept (order : s.isOrderFor n k = false ∨ (s.entry n).latch = false)
    (hold : s.waitsFor .hold n k ≠ true) : s.SlotKept (settleHold n s) k := by
  have first : s.SlotKept (orderWrongState n s) k := by
    rcases order with none | clear
    · exact orderWrongState_slotKept fun queued => Bool.eq_false_iff.mp none queued.2
    · exact .of_eq (by rw [orderWrongState_of_free (.inl clear)])
  exact first.then (checkHold_slotKept fun waits => hold (orderWrongState_waitsFor waits))
    ((orderWrongState_frame n s).same .tb) ((settleHold_frame n s).same .tb)

theorem settleHold_waitsFor {K : JobKind} (h : (settleHold n s).waitsFor K m k = true) : s.waitsFor K m k = true := by
  rw [settleHold, checkHold] at h
  refine orderWrongState_waitsFor (n := n) ?_
  split at h
  · rw [← State.waitsFor_congr (becomeHeld_slot k)]
    rcases completeWaiting_cases .hold n .ok (becomeHeld n (orderWrongState n s)) with same | ⟨i, -, completes⟩
    · exact same ▸ h
    · exact completeJob_waitsFor (completes ▸ h)
  · exact h

theorem State.AsksCell.mem {u : State} (h : s.AsksCell u n) : n ∈ u.rep.pendingCells := by
  rw [h.2]
  split
  · assumption
  · exact List.mem_append_right _ (List.mem_singleton_self n)

theorem State.AsksCell.mem_of_mem {u : State} (h : s.AsksCell u n) (pending : m ∈ s.rep.pendingCells) :
    m ∈ u.rep.pendingCells := by
  rw [h.2]
  split
  · exact pending
  · exact List.mem_append_left _ pending

/-- A cell that is pending stays pending in the check. -/
theorem settleHold_pending (h : m ∈ s.rep.pendingCells) : m ∈ (settleHold n s).rep.pendingCells := by
  have same : (orderWrongState n s).rep = s.rep := (orderWrongState_frame n s).rep
  rw [settleHold, checkHold]
  split
  · rw [(completeWaiting_frame ..).rep]
    exact becomeHeld_asksCell.mem_of_mem (same ▸ h)
  · exact same ▸ h

/-- Without a latch the check writes no Scheduler. -/
theorem settleHold_sched_of_unlatched (h : (s.entry n).latch = false) : (settleHold n s).sched = s.sched := by
  rw [settleHold, orderWrongState_of_free (.inl h)]
  exact (checkHold_frame n s).same .sched

theorem settleHold_latch : ((settleHold n s).entry m).latch = (s.entry m).latch := by
  by_cases other : m = n
  · subst other
    have same := (orderWrongState_frame m s).entry m
    rw [settleHold, checkHold]
    split
    · rw [(completeWaiting_frame ..).entry, becomeHeld_entry, if_pos rfl, same]
    · rw [same]
  · rw [settleHold_entry_other other]

/-- The check takes ORDERs for its entry alone out of a queue; where orders-in-a-row is 0 it stays 0. -/
theorem settleHold_queue (n : Fin 64) (none : (s.scheduler l).ordersInRow = 0) : ∃ keep : Fin 16 → Bool,
    (settleHold n s).scheduler l = { s.scheduler l with orderQueue := (s.scheduler l).orderQueue.filter keep } ∧
      ∀ k, s.isOrderFor n k = false → keep k = true := by
  rw [settleHold, (checkHold_frame ..).scheduler]
  rcases orderWrongState_cases n s with same | drops
  · exact ⟨fun _ => true, by rw [same, List.filter_true], fun _ _ => rfl⟩
  · obtain ⟨own, others⟩ := dropOrders_ordersGone n .wrongState s
    rw [drops]
    by_cases line : l = (s.entry n).line
    · refine ⟨fun k => !s.isOrderFor n k, ?_, fun k h => by simp [h]⟩
      subst line
      rw [own, none]
      simp only [ite_self]
      rw [← none]
      rfl
    · exact ⟨fun _ => true, by rw [others l line, List.filter_true], fun _ _ => rfl⟩

end

/-! ### One item completes LINE_OFF (R46) -/

/-- Item i leaves line l's queue and completes LINE_OFF. -/
def State.itemOff (s : State) (l : Fin 4) (i : Fin 16) : State :=
  completeJob i (.plain .lineOff) (s.setSched l ((s.scheduler l).keepOrders (· != i)))

/-- An item completes LINE_OFF, an ORDER with the hold check of its entry. -/
def State.lineOffItem (s : State) (l : Fin 4) (i : Fin 16) : State :=
  match s.slot i with
  | some j => match (if j.kindOf = some .order then targetEntry j.target else none) with
    | some n => settleHold n (s.itemOff l i)
    | none => s.itemOff l i
  | none => s.itemOff l i

section
variable {s : State} {l : Fin 4} {i k : Fin 16} {n m : Fin 64}

theorem completeLineOff_cons (rest : List (Fin 16)) :
    completeLineOff l (i :: rest) s = completeLineOff l rest (s.lineOffItem l i) := by
  rw [completeLineOff, State.lineOffItem]
  cases s.slot i <;> rfl

/-- The hold check is made of the entry that the item is an ORDER for. -/
theorem lineOffItem_cases (s : State) (l : Fin 4) (i : Fin 16) :
    (s.lineOffItem l i = s.itemOff l i ∧ ∀ n, s.isOrderFor n i = false) ∨
      ∃ n, s.isOrderFor n i = true ∧ s.lineOffItem l i = settleHold n (s.itemOff l i) := by
  have notOrder (h : ∀ j, s.slot i = some j → j.kindOf = some .order → targetEntry j.target = none) (n : Fin 64) :
      s.isOrderFor n i = false := by
    refine Bool.eq_false_iff.mpr fun order => ?_
    obtain ⟨j, slot, kind, target⟩ := State.isOrderFor_iff.mp order
    cases (h j slot kind).symm.trans target
  unfold State.lineOffItem
  cases slot : s.slot i with
  | none => exact .inl ⟨rfl, notOrder fun j h => by rw [slot] at h; cases h⟩
  | some j =>
    by_cases kind : j.kindOf = some .order
    · cases target : targetEntry j.target with
      | none =>
        refine .inl ⟨by simp only [kind, target, if_true], notOrder fun j' h _ => ?_⟩
        rw [slot] at h
        cases h
        exact target
      | some n =>
        exact .inr ⟨n, State.isOrderFor_iff.mpr ⟨j, slot, kind, target⟩, by simp only [kind, target, if_true]⟩
    · refine .inl ⟨by simp only [kind, if_false], notOrder fun j' h order => ?_⟩
      rw [slot] at h
      cases h
      exact absurd order kind

theorem isOrderFor_unique (h : s.isOrderFor n i = true) (h' : s.isOrderFor m i = true) : n = m := by
  obtain ⟨j, slot, -, target⟩ := State.isOrderFor_iff.mp h
  obtain ⟨j', slot', -, target'⟩ := State.isOrderFor_iff.mp h'
  cases slot.symm.trans slot'
  exact Option.some.inj (target.symm.trans target')

theorem itemOff_frame (s : State) (l : Fin 4) (i : Fin 16) : Frame [.sched, .slots] s (s.itemOff l i) :=
  Frame.then (State.setSched_frame ..) (completeJob_frame ..)

theorem itemOff_isOrderFor : (s.itemOff l i).isOrderFor n k = s.isOrderFor n k :=
  completeJob_isOrderFor (s := s.setSched ..)

theorem itemOff_slotKept (h : k ≠ i) : s.SlotKept (s.itemOff l i) k :=
  completeJob_slotKept i k _ (s.setSched ..) h

theorem itemOff_waitsFor {K : JobKind} (h : (s.itemOff l i).waitsFor K n k = true) : s.waitsFor K n k = true :=
  completeJob_waitsFor (s := s.setSched ..) h

theorem itemOff_scheduler (m : Fin 4) :
    (s.itemOff l i).scheduler m = if l = m then (s.scheduler l).keepOrders (· != i) else s.scheduler m := by
  rw [State.itemOff, (completeJob_frame ..).scheduler, State.scheduler_setSched]

theorem State.completedWith.itemOff {j : Job} {r : JobEnd} (h : s.completedWith k j r) :
    (s.itemOff l i).completedWith k j r :=
  State.completedWith.completeJob (s := s.setSched ..) h

/-- The item's own result is decided. -/
theorem itemOff_completedWith {j : Job} (slot : s.slot i = some j) (undecided : j.state ≠ .completing) :
    (s.itemOff l i).completedWith i j (.plain .lineOff) :=
  completeJob_completedWith i _ (s.setSched ..) j slot undecided

/-! ### What one item keeps -/

theorem lineOffItem_frame (s : State) (l : Fin 4) (i : Fin 16) :
    Frame [.entries, .sched, .slots, .cells] s (s.lineOffItem l i) := by
  rcases lineOffItem_cases s l i with ⟨same, -⟩ | ⟨n, -, checked⟩
  · exact same ▸ (itemOff_frame s l i).mono (by decide)
  · exact checked ▸ (itemOff_frame s l i).then (settleHold_frame ..)

theorem lineOffItem_isOrderFor : (s.lineOffItem l i).isOrderFor n k = s.isOrderFor n k := by
  rcases lineOffItem_cases s l i with ⟨same, -⟩ | ⟨m, -, checked⟩
  · rw [same, itemOff_isOrderFor]
  · rw [checked, settleHold_isOrderFor, itemOff_isOrderFor]

theorem lineOffItem_waitsFor {K : JobKind} (h : (s.lineOffItem l i).waitsFor K n k = true) :
    s.waitsFor K n k = true := by
  rcases lineOffItem_cases s l i with ⟨same, -⟩ | ⟨m, -, checked⟩
  · exact itemOff_waitsFor (same ▸ h)
  · exact itemOff_waitsFor (settleHold_waitsFor (checked ▸ h))

theorem State.completedWith.lineOffItem {j : Job} {r : JobEnd} (h : s.completedWith k j r) :
    (s.lineOffItem l i).completedWith k j r := by
  rcases lineOffItem_cases s l i with ⟨same, -⟩ | ⟨m, -, checked⟩
  · exact same ▸ h.itemOff
  · exact checked ▸ h.itemOff.settleHold

/-- The item keeps the slots of other items that its hold check does not reach. -/
theorem lineOffItem_slotKept (other : k ≠ i) (h : ∀ n, s.isOrderFor n i = true →
    (s.isOrderFor n k = false ∨ (s.entry n).latch = false) ∧ s.waitsFor .hold n k ≠ true) :
    s.SlotKept (s.lineOffItem l i) k := by
  have off : s.SlotKept (s.itemOff l i) k := itemOff_slotKept other
  rcases lineOffItem_cases s l i with ⟨same, -⟩ | ⟨m, order, checked⟩
  · exact same ▸ off
  · obtain ⟨unlocked, noHold⟩ := h m order
    have frame := itemOff_frame s l i
    have time : (s.itemOff l i).tb = s.tb := frame.same .tb
    have kept : (s.itemOff l i).SlotKept (settleHold m (s.itemOff l i)) k := by
      refine settleHold_slotKept ?_ fun waits => noHold (itemOff_waitsFor waits)
      rwa [itemOff_isOrderFor, frame.entry]
    exact checked ▸ off.then kept time (Eq.trans ((settleHold_frame ..).same .tb) time)

theorem lineOffItem_pending (h : m ∈ s.rep.pendingCells) : m ∈ (s.lineOffItem l i).rep.pendingCells := by
  have off : (s.itemOff l i).rep = s.rep := (itemOff_frame s l i).rep
  rcases lineOffItem_cases s l i with ⟨same, -⟩ | ⟨n, -, checked⟩
  · rwa [same, off]
  · rw [checked]
    exact settleHold_pending (off ▸ h)

/-- An entry that has no hold to settle, or no item that is its ORDER, stands as it is. -/
theorem lineOffItem_entry (h : (s.entry m).holdPending = false ∨ (s.entry m).busy = true ∨ s.isOrderFor m i = false) :
    (s.lineOffItem l i).entry m = s.entry m := by
  have off := (itemOff_frame s l i).entry m
  rcases lineOffItem_cases s l i with ⟨same, -⟩ | ⟨n, order, checked⟩
  · rw [same, off]
  · rw [checked]
    by_cases own : m = n
    · subst own
      rcases h with free | busy | none
      · rw [settleHold_of_not_pending _ _ (off ▸ free), off]
      · rw [settleHold_of_waiting (.inl (off ▸ busy)), off]
      · rw [order] at none
        cases none
    · rw [settleHold_entry_other own, off]

theorem lineOffItem_latch : ((s.lineOffItem l i).entry m).latch = (s.entry m).latch := by
  rcases lineOffItem_cases s l i with ⟨same, -⟩ | ⟨n, -, checked⟩
  · rw [same, (itemOff_frame s l i).entry]
  · rw [checked, settleHold_latch, (itemOff_frame s l i).entry]

/-- The item, and with it perhaps ORDERs, leaves the queue; what is no ORDER and not the item stays. -/
theorem lineOffItem_queue (none : (s.scheduler l).ordersInRow = 0) : ∃ keep : Fin 16 → Bool,
    (s.lineOffItem l i).scheduler l =
      { s.scheduler l with orderQueue := (s.scheduler l).orderQueue.filter keep } ∧ keep i = false ∧
      ∀ k, k ≠ i → (∀ n, s.isOrderFor n k = false) → keep k = true := by
  have off : (s.itemOff l i).scheduler l =
      { s.scheduler l with orderQueue := (s.scheduler l).orderQueue.filter (· != i) } := by
    rw [itemOff_scheduler, if_pos rfl, Sched.keepOrders, none]
    simp only [ite_self]
    rw [← none]
  rcases lineOffItem_cases s l i with ⟨same, -⟩ | ⟨n, order, checked⟩
  · exact ⟨_, same ▸ off, by simp, fun k other _ => by simpa using other⟩
  · obtain ⟨keep, queue, kept⟩ := settleHold_queue n (s := s.itemOff l i) (l := l) (by rw [off]; exact none)
    refine ⟨fun k => keep k && (k != i), ?_, by simp, fun k other no => ?_⟩
    · rw [checked, queue, off]
      simp only [List.filter_filter]
    · simp [kept k (itemOff_isOrderFor.trans (no n)), other]

/-- Where its entry has no latch the item writes its own line's Scheduler alone. -/
theorem lineOffItem_sched (clear : ∀ n, s.isOrderFor n i = true → (s.entry n).latch = false) :
    (s.lineOffItem l i).sched = (s.itemOff l i).sched := by
  rcases lineOffItem_cases s l i with ⟨same, -⟩ | ⟨n, order, checked⟩
  · rw [same]
  · rw [checked, settleHold_sched_of_unlatched]
    rw [(itemOff_frame s l i).entry, clear n order]

end

/-! ### All items of the list (R46) -/

/-- No ORDER of the list is for an entry with its latch set. -/
def State.OrdersUnlatched (s : State) (is : List (Fin 16)) : Prop :=
  ∀ n i, i ∈ is → s.isOrderFor n i = true → (s.entry n).latch = false

section
variable {s : State} {l : Fin 4} {k : Fin 16} {n m : Fin 64} {is : List (Fin 16)}

/-- What every item of the list keeps holds at the end. -/
theorem completeLineOff_induct {P : State → Prop} (step : ∀ v i, i ∈ is → P v → P (v.lineOffItem l i)) (h : P s) :
    P (completeLineOff l is s) := by
  induction is generalizing s with
  | nil => exact h
  | cons i rest ih =>
    rw [completeLineOff_cons]
    exact ih (fun v j hj => step v j (List.mem_cons_of_mem i hj)) (step s i List.mem_cons_self h)

theorem completeLineOff_pending (h : m ∈ s.rep.pendingCells) : m ∈ (completeLineOff l is s).rep.pendingCells :=
  completeLineOff_induct (P := fun v => m ∈ v.rep.pendingCells) (fun _ _ _ => lineOffItem_pending) h

theorem State.completedWith.completeLineOff {j : Job} {r : JobEnd} (h : s.completedWith k j r) :
    (completeLineOff l is s).completedWith k j r :=
  completeLineOff_induct (P := fun v => v.completedWith k j r) (fun _ _ _ => State.completedWith.lineOffItem) h

theorem completeLineOff_isOrderFor : (completeLineOff l is s).isOrderFor n k = s.isOrderFor n k :=
  completeLineOff_induct (P := fun v => v.isOrderFor n k = s.isOrderFor n k)
    (fun _ _ _ same => lineOffItem_isOrderFor.trans same) rfl

/-- An entry without a hold to settle, or without an ORDER in the list, stands as it is. -/
theorem completeLineOff_entry (h : (s.entry m).holdPending = false ∨ (s.entry m).busy = true ∨
    ∀ i, i ∈ is → s.isOrderFor m i = false) : (completeLineOff l is s).entry m = s.entry m := by
  refine (completeLineOff_induct (P := fun v => v.entry m = s.entry m ∧ ∀ i, v.isOrderFor m i = s.isOrderFor m i)
    (fun v i hi ⟨same, orders⟩ => ⟨?_, fun k => lineOffItem_isOrderFor.trans (orders k)⟩) ⟨rfl, fun _ => rfl⟩).1
  rw [lineOffItem_entry, same]
  rw [same, orders]
  exact h.imp_right (Or.imp_right (· i hi))

/-- The slot of an item that is no ORDER and does not wait, and that is not listed, is kept. -/
theorem completeLineOff_slotKept (left : k ∉ is) (noOrder : ∀ n, s.isOrderFor n k = false)
    (noHold : ∀ n, s.waitsFor .hold n k ≠ true) : s.SlotKept (completeLineOff l is s) k := by
  have kept := completeLineOff_induct (s := s) (l := l) (is := is)
    (P := fun v => v.tb = s.tb ∧ s.SlotKept v k) (fun v i hi ⟨time, kept⟩ => ?_) ⟨rfl, .of_eq rfl⟩
  · exact kept.2
  · have later : (v.lineOffItem l i).tb = s.tb := Eq.trans ((lineOffItem_frame v l i).same .tb) time
    refine ⟨later, kept.then (lineOffItem_slotKept (fun own => left (own ▸ hi)) fun n _ => ?_) time later⟩
    exact ⟨.inl (kept.isOrderFor.trans (noOrder n)), fun waits => noHold n (kept.waitsFor_before waits)⟩

theorem State.OrdersUnlatched.lineOffItem {i : Fin 16} (clear : s.OrdersUnlatched (i :: is)) :
    (s.lineOffItem l i).OrdersUnlatched is := fun n k hk order =>
  lineOffItem_latch.trans (clear n k (List.mem_cons_of_mem i hk) (lineOffItem_isOrderFor ▸ order))

/-- Without latches the other Schedulers stand as they are. -/
theorem completeLineOff_otherScheds (clear : s.OrdersUnlatched is) : s.OtherSchedsKept (completeLineOff l is s) l := by
  intro m other
  induction is generalizing s with
  | nil => rfl
  | cons i rest ih =>
    have sched : (s.lineOffItem l i).sched = (s.itemOff l i).sched :=
      lineOffItem_sched fun n => clear n i List.mem_cons_self
    have same : (s.lineOffItem l i).scheduler m = (s.itemOff l i).scheduler m := by
      simp only [State.scheduler, sched]
    rw [completeLineOff_cons, ih clear.lineOffItem, same, itemOff_scheduler, if_neg other.symm]

/-- Every item outside `setup` leaves the queue where all of them are listed; no other item does. -/
theorem completeLineOff_queue {setup : Fin 16 → Bool} (zero : (s.scheduler l).ordersInRow = 0)
    (noOrder : ∀ k, setup k = true → ∀ n, s.isOrderFor n k = false) (off : ∀ i, i ∈ is → setup i = false)
    (listed : ∀ k, k ∈ (s.scheduler l).orderQueue → setup k = true ∨ k ∈ is) :
    (completeLineOff l is s).scheduler l =
      { s.scheduler l with orderQueue := (s.scheduler l).orderQueue.filter setup } := by
  induction is generalizing s with
  | nil =>
    have all : (s.scheduler l).orderQueue.filter setup = (s.scheduler l).orderQueue :=
      List.filter_eq_self.mpr fun k hk => (listed k hk).resolve_right List.not_mem_nil
    rw [all, completeLineOff]
  | cons i rest ih =>
    obtain ⟨keep, queue, gone, kept⟩ := lineOffItem_queue (i := i) zero
    have setupKept : ((s.scheduler l).orderQueue.filter keep).filter setup =
        (s.scheduler l).orderQueue.filter setup := by
      rw [List.filter_filter]
      refine List.filter_congr fun k _ => ?_
      cases is : setup k
      · rfl
      · have other : k ≠ i := fun own => by rw [own, off i List.mem_cons_self] at is; cases is
        rw [kept k other (noOrder k is), Bool.and_self]
    rw [completeLineOff_cons, ih, queue]
    · simp only [setupKept]
    · rw [queue]
      exact zero
    · exact fun k is n => lineOffItem_isOrderFor.trans (noOrder k is n)
    · exact fun k hk => off k (List.mem_cons_of_mem i hk)
    · rw [queue]
      intro k hk
      obtain ⟨mem, keeps⟩ := List.mem_filter.mp hk
      have other : k ≠ i := fun own => by rw [own, gone] at keeps; cases keeps
      exact (listed k mem).imp_right (List.mem_of_ne_of_mem other)

/-- Without latches every listed item that is QUEUED completes LINE_OFF. -/
theorem completeLineOff_completes {j : Job} (clear : s.OrdersUnlatched is) (listed : k ∈ is) (slot : s.slot k = some j)
    (queued : j.state = .queued) : (completeLineOff l is s).completedWith k j (.plain .lineOff) := by
  induction is generalizing s j with
  | nil => cases listed
  | cons i rest ih =>
    rw [completeLineOff_cons]
    by_cases own : k = i
    · subst own
      have done : (s.itemOff l k).completedWith k j (.plain .lineOff) :=
        itemOff_completedWith slot (by rw [queued]; nofun)
      refine State.completedWith.completeLineOff ?_
      rcases lineOffItem_cases s l k with ⟨same, -⟩ | ⟨n, -, checked⟩
      · exact same ▸ done
      · exact checked ▸ done.settleHold
    · have noHold (n : Fin 64) : s.waitsFor .hold n k ≠ true := fun waits => by
        obtain ⟨j', slot', waiting, -⟩ := State.waitsFor_iff.mp waits
        cases slot.symm.trans slot'
        cases queued.symm.trans waiting
      have kept : s.SlotKept (s.lineOffItem l i) k :=
        lineOffItem_slotKept own fun n order => ⟨.inr (clear n i List.mem_cons_self order), noHold n⟩
      rcases kept.2 j slot with ⟨w, slot'⟩ | ⟨waiting, -⟩
      · have later := ih clear.lineOffItem (List.mem_of_ne_of_mem own listed) slot' queued
        exact later
      · cases queued.symm.trans waiting

/-- Between s and u entry n has become HELD, its cell is pending, and its one HOLD that is not listed has completed. -/
structure State.HoldMet (s u : State) (n : Fin 64) (is : List (Fin 16)) : Prop where
  entry : u.entry n = { s.entry n with state := .held, holdPending := false, quietDeadline := none }
  pending : n ∈ u.rep.pendingCells
  completes : ∀ k j, s.slot k = some j → s.waitsFor .hold n k = true → (∀ m, s.waitsFor .hold n m = true → m = k) →
    k ∉ is → u.completedWith k j ⟨.ok, 0, 0, []⟩

/-- An item that leaves the entry and its HOLD alone goes before. -/
theorem State.HoldMet.lineOffItem {u : State} {i : Fin 16} (h : (s.lineOffItem l i).HoldMet u n is)
    (entry : (s.lineOffItem l i).entry n = s.entry n)
    (kept : ∀ k, k ≠ i → s.waitsFor .hold n k = true → s.SlotKept (s.lineOffItem l i) k) : s.HoldMet u n (i :: is) where
  entry := entry ▸ h.entry
  pending := h.pending
  completes k j slot waits one left := by
    obtain ⟨other, left⟩ := not_or.mp (mt List.mem_cons.mpr left)
    have slotKept := kept k other waits
    obtain ⟨j', slot', -, kind, -⟩ := State.waitsFor_iff.mp waits
    cases slot.symm.trans slot'
    rcases slotKept.2 j slot with ⟨w, later⟩ | ⟨-, mark, -⟩
    · have done := h.completes k _ later (slotKept.waitsFor_after nofun waits)
        (fun m hm => one m (lineOffItem_waitsFor hm)) left
      exact done
    · cases kind.symm.trans mark

/-- The item that is the entry's last ORDER brings the hold. -/
theorem lineOffItem_meets {i : Fin 16} (ofItem : s.isOrderFor n i = true) (pending : (s.entry n).holdPending = true)
    (idle : (s.entry n).busy = false) (last : (s.itemOff l i).hasOrder n = false) :
    s.HoldMet (s.lineOffItem l i) n [i] := by
  have offEntry := (itemOff_frame s l i).entry n
  have checked : s.lineOffItem l i = settleHold n (s.itemOff l i) := by
    rcases lineOffItem_cases s l i with ⟨-, noOrder⟩ | ⟨m, ofM, checked⟩
    · rw [noOrder n] at ofItem
      cases ofItem
    · rw [checked, isOrderFor_unique ofM ofItem]
  obtain ⟨entry, asks, -, completes⟩ := settleHold_met_leaves (offEntry ▸ pending) (offEntry ▸ idle) (.inl last)
  rw [checked]
  refine ⟨by rw [entry, if_pos rfl, offEntry], asks.mem, fun k j slot waits one left => ?_⟩
  have kept : s.SlotKept (s.itemOff l i) k := itemOff_slotKept (mt List.mem_singleton.mpr left)
  obtain ⟨j', slot', -, kind, -⟩ := State.waitsFor_iff.mp waits
  cases slot.symm.trans slot'
  rcases kept.2 j slot with ⟨w, later⟩ | ⟨-, mark, -⟩
  · have done := completes k _ later (kept.waitsFor_after nofun waits) fun m hm => one m (itemOff_waitsFor hm)
    exact done
  · cases kind.symm.trans mark

/-- A hold that is met stays so, whatever else of the line completes. -/
theorem State.HoldMet.completeLineOff {v : State} {i : Fin 16} (h : s.HoldMet v n [i]) :
    s.HoldMet (completeLineOff l is v) n (i :: is) where
  entry := by rw [completeLineOff_entry (.inl (by rw [h.entry])), h.entry]
  pending := completeLineOff_pending h.pending
  completes k j slot waits one left := by
    refine (h.completes k j slot waits one ?_).completeLineOff
    exact fun mem => left (List.mem_cons.mpr (.inl (List.mem_singleton.mp mem)))

theorem State.waitsFor_unique {K : JobKind} (h : s.waitsFor K n k = true) (h' : s.waitsFor K m k = true) : n = m := by
  obtain ⟨j, slot, -, -, target⟩ := State.waitsFor_iff.mp h
  obtain ⟨j', slot', -, -, target'⟩ := State.waitsFor_iff.mp h'
  cases slot.symm.trans slot'
  exact Option.some.inj (target.symm.trans target')

/-- The hold is met when the entry's last ORDER leaves the queue (R23). -/
theorem completeLineOff_holds (pending : (s.entry n).holdPending = true) (idle : (s.entry n).busy = false)
    (line : (s.entry n).line = l) (clear : s.OrdersUnlatched is) (order : ∃ k, k ∈ is ∧ s.isOrderFor n k = true)
    (listed : ∀ k, s.orderQueued n k → k ∈ is) : s.HoldMet (completeLineOff l is s) n is := by
  induction is generalizing s with
  | nil =>
    obtain ⟨k, none, -⟩ := order
    cases none
  | cons i rest ih =>
    have sched : (s.lineOffItem l i).sched = (s.itemOff l i).sched :=
      lineOffItem_sched fun m => clear m i List.mem_cons_self
    have offEntry := (itemOff_frame s l i).entry n
    have queue : ((s.itemOff l i).scheduler l).orderQueue = (s.scheduler l).orderQueue.filter (· != i) := by
      rw [itemOff_scheduler, if_pos rfl]
      rfl
    have listedRest (k : Fin 16) (h : (s.itemOff l i).orderQueued n k) : k ∈ rest := by
      obtain ⟨mem, order⟩ := h
      rw [offEntry, line, queue, List.mem_filter] at mem
      refine List.mem_of_ne_of_mem (by simpa using mem.2) (listed k ⟨line ▸ mem.1, itemOff_isOrderFor ▸ order⟩)
    have goesOn (entry : (s.lineOffItem l i).entry n = s.entry n) (order : ∃ k, k ∈ rest ∧ s.isOrderFor n k = true)
        (kept : ∀ k, k ≠ i → s.waitsFor .hold n k = true → s.SlotKept (s.lineOffItem l i) k) :
        s.HoldMet (completeLineOff l (i :: rest) s) n (i :: rest) := by
      rw [completeLineOff_cons]
      refine (ih (entry ▸ pending) (entry ▸ idle) (entry ▸ line) clear.lineOffItem ?_ fun k queued => ?_).lineOffItem
        entry kept
      · exact order.imp fun k h => ⟨h.1, lineOffItem_isOrderFor.trans h.2⟩
      · obtain ⟨mem, order⟩ := queued
        refine listedRest k ⟨?_, itemOff_isOrderFor.trans (lineOffItem_isOrderFor ▸ order)⟩
        simpa only [State.scheduler, sched, entry, offEntry] using mem
    rcases lineOffItem_cases s l i with ⟨same, noOrder⟩ | ⟨m, ofItem, checked⟩
    · obtain ⟨k, mem, ofN⟩ := order
      have other : k ≠ i := fun own => by rw [own, noOrder n] at ofN; cases ofN
      exact goesOn (same ▸ offEntry) ⟨k, List.mem_of_ne_of_mem other mem, ofN⟩ fun k other _ =>
        same ▸ itemOff_slotKept other
    · by_cases own : m = n
      · subst own
        cases more : (s.itemOff l i).hasOrder m with
        | true =>
          have clearNow : ((s.itemOff l i).entry m).latch = false := offEntry ▸ clear m i List.mem_cons_self ofItem
          have same : s.lineOffItem l i = s.itemOff l i := by
            rw [checked, settleHold_of_waiting (.inr ⟨more, fun locked => by rw [clearNow] at locked; cases locked.1⟩)]
          obtain ⟨k, queued⟩ := State.hasOrder_iff.mp more
          exact goesOn (same ▸ offEntry) ⟨k, listedRest k queued, itemOff_isOrderFor ▸ queued.2⟩ fun k other _ =>
            same ▸ itemOff_slotKept other
        | false =>
          rw [completeLineOff_cons]
          exact (lineOffItem_meets ofItem pending idle more).completeLineOff
      · have noOrder : s.isOrderFor n i = false :=
          Bool.eq_false_iff.mpr fun ofN => own (isOrderFor_unique ofItem ofN)
        obtain ⟨k, mem, ofN⟩ := order
        have other : k ≠ i := fun same => by rw [same, noOrder] at ofN; cases ofN
        refine goesOn (lineOffItem_entry (.inr (.inr noOrder))) ⟨k, List.mem_of_ne_of_mem other mem, ofN⟩
          fun k other waits => lineOffItem_slotKept other fun m' order' => ?_
        refine ⟨.inr (clear m' i List.mem_cons_self order'), fun waits' => own ?_⟩
        exact (isOrderFor_unique ofItem order').trans (State.waitsFor_unique waits' waits)

end

/-! ### The Station Table's part (R26) -/

section
variable {s : State} {l : Fin 4} {n : Fin 64}

theorem requestCells_mem {ns : List (Fin 64)} (h : n ∈ ns ∨ n ∈ s.rep.pendingCells) :
    n ∈ (requestCells ns s).rep.pendingCells := by
  induction ns generalizing s with
  | nil => exact h.resolve_left List.not_mem_nil
  | cons m rest ih =>
    refine ih ?_
    rcases h with listed | pending
    · rcases List.mem_cons.mp listed with own | later
      · exact .inr (own ▸ (requestCell_asks m s).mem)
      · exact .inl later
    · exact .inr ((requestCell_asks m s).mem_of_mem pending)

theorem lineOffStations_entry (n : Fin 64) :
    (lineOffStations l s).entry n = lineOffEntry s.tb.now l (s.entry n) := by
  rw [lineOffStations, (requestCells_frame ..).entry, State.entry_mapEntries]

theorem lineOffStations_pending (line : (s.entry n).line = l)
    (state : (s.entry n).state = .live ∨ (s.entry n).state = .mute) :
    n ∈ (lineOffStations l s).rep.pendingCells := by
  refine requestCells_mem (.inl (List.mem_filter.mpr ⟨List.mem_finRange n, ?_⟩))
  simp only [lineOffAsksCell, line, beq_self_eq_true, Bool.true_and, Bool.or_eq_true, beq_iff_eq]
  exact state

variable {e : Entry} {now : Word}

theorem lineOffEntry_of_called (line : e.line = l) (state : e.state = .live ∨ e.state = .mute) :
    lineOffEntry now l e = { e with state := .joining, quietDeadline := none, dueTime := now, latch := false } := by
  rcases state with state | state <;> simp [lineOffEntry, line, state]

theorem lineOffEntry_of_joining (line : e.line = l) (state : e.state = .joining) :
    lineOffEntry now l e = { e with dueTime := now, latch := false } := by simp [lineOffEntry, line, state]

theorem lineOffEntry_of_held (line : e.line = l) (state : e.state = .held) :
    lineOffEntry now l e = { e with latch := false } := by simp [lineOffEntry, line, state]

theorem lineOffEntry_latch (line : e.line = l) (known : e.state ≠ .vacant) :
    (lineOffEntry now l e).latch = false := by
  unfold lineOffEntry
  rw [if_neg (not_not_intro line)]
  cases state : e.state
  case vacant => exact absurd state known
  all_goals rfl

/-- Turning a line off leaves an entry's line, its call and its pending hold. -/
theorem lineOffEntry_keeps (now : Word) (l : Fin 4) (e : Entry) : (lineOffEntry now l e).line = e.line ∧
    (lineOffEntry now l e).busy = e.busy ∧ (lineOffEntry now l e).holdPending = e.holdPending := by
  unfold lineOffEntry
  split
  · exact ⟨rfl, rfl, rfl⟩
  · split <;> exact ⟨rfl, rfl, rfl⟩

end

/-! ### The settings (R69, R121) -/

/-- The state after the pick of item i and the settings of its change set. -/
def State.settingsApplied (s : State) (l : Fin 4) (i : Fin 16) (p : SetupParams) : State :=
  let picked := s.setSched l ((s.scheduler l).picked i)
  (picked.setEngine l ((picked.engine l).applySettings p)).setSched l ((picked.scheduler l).applySettings p)

/-- The line's engine OFF and its stations as a line disable leaves them. -/
def State.stationsOff (s : State) (l : Fin 4) : State := lineOffStations l (s.setEngine l (s.engine l).turnedOff)

/-- The line turned off, before its items complete. -/
def State.lineOffBase (s : State) (l : Fin 4) (i : Fin 16) (p : SetupParams) : State :=
  let off := (s.settingsApplied l i p).stationsOff l
  off.setSched l (off.scheduler l).disabled

/-- The items of line l's queue that complete LINE_OFF once item i is picked. -/
def State.itemsOff (s : State) (l : Fin 4) (i : Fin 16) : List (Fin 16) :=
  ((s.scheduler l).orderQueue.filter (· != i)).filter (fun k => !s.isSetup k)

section
variable {s : State} {l : Fin 4} {i k : Fin 16} {p : SetupParams} {n : Fin 64}

theorem settingsApplied_frame : Frame [.eng, .sched] s (s.settingsApplied l i p) :=
  (Frame.then (l := [.eng, .sched]) (State.setSched_frame ..) (State.setEngine_frame ..)).then (State.setSched_frame ..)

theorem settingsApplied_scheduler (m : Fin 4) : (s.settingsApplied l i p).scheduler m =
    if l = m then ((s.scheduler l).picked i).applySettings p else s.scheduler m := by
  rw [State.settingsApplied, State.scheduler_setSched, State.scheduler_setSched_self, State.scheduler_setEngine_eq,
    State.scheduler_setSched]
  split <;> rfl

theorem settingsApplied_engine (m : Fin 4) : (s.settingsApplied l i p).engine m =
    if l = m then (s.engine l).applySettings p else s.engine m := by
  rw [State.settingsApplied, State.engine_setSched_eq, State.engine_setEngine]
  rfl

theorem stationsOff_frame (s : State) (l : Fin 4) : Frame [.eng, .entries, .cells] s (s.stationsOff l) :=
  Frame.then (State.setEngine_frame ..) (lineOffStations_frame ..)

theorem lineOffBase_frame : Frame [.eng, .sched, .entries, .cells] s (s.lineOffBase l i p) :=
  (settingsApplied_frame.then (l := [.eng, .sched, .entries, .cells]) (stationsOff_frame ..)).then
    (State.setSched_frame ..)

theorem lineOffBase_scheduler (m : Fin 4) : (s.lineOffBase l i p).scheduler m =
    if l = m then (((s.scheduler l).picked i).applySettings p).disabled else s.scheduler m := by
  rw [State.lineOffBase, State.scheduler_setSched, (stationsOff_frame ..).scheduler, (stationsOff_frame ..).scheduler,
    settingsApplied_scheduler, settingsApplied_scheduler, if_pos rfl]
  split <;> rfl

theorem lineOffBase_engine (m : Fin 4) : (s.lineOffBase l i p).engine m =
    if l = m then ((s.engine l).applySettings p).turnedOff else s.engine m := by
  rw [State.lineOffBase, State.engine_setSched_eq, State.stationsOff, (lineOffStations_frame ..).engine,
    State.engine_setEngine, settingsApplied_engine, settingsApplied_engine, if_pos rfl]
  split <;> rfl

theorem lineOffBase_slot (k : Fin 16) : (s.lineOffBase l i p).slot k = s.slot k :=
  State.slot_congr (lineOffBase_frame.same .slots).1 k

theorem lineOffBase_entry (n : Fin 64) : (s.lineOffBase l i p).entry n = lineOffEntry s.tb.now l (s.entry n) := by
  have applied : Frame [.eng, .sched] s (s.settingsApplied l i p) := settingsApplied_frame
  have entry := lineOffStations_entry (l := l)
    (s := (s.settingsApplied l i p).setEngine l ((s.settingsApplied l i p).engine l).turnedOff) n
  rw [State.entry_setEngine_eq, applied.entry, State.setEngine_tb, applied.same .tb] at entry
  exact entry

theorem lineOffBase_pending (line : (s.entry n).line = l)
    (state : (s.entry n).state = .live ∨ (s.entry n).state = .mute) : n ∈ (s.lineOffBase l i p).rep.pendingCells := by
  have same : (s.settingsApplied l i p).entry n = s.entry n := settingsApplied_frame.entry n
  exact lineOffStations_pending (l := l)
    (s := (s.settingsApplied l i p).setEngine l ((s.settingsApplied l i p).engine l).turnedOff) (same ▸ line)
    (same ▸ state)

/-- The line turned off, after its items completed. -/
def State.lineOffDone (s : State) (l : Fin 4) (i : Fin 16) (p : SetupParams) : State :=
  completeLineOff l (s.itemsOff l i) (s.lineOffBase l i p)

theorem applySetup_enables (h : p.enable = true) : applySetup l i p (s.setSched l ((s.scheduler l).picked i)) =
    completeJob i (.plain .ok) (enableLine l (s.settingsApplied l i p)) := by
  rw [applySetup, h]
  rfl

theorem applySetup_disables (h : p.enable = false) : applySetup l i p (s.setSched l ((s.scheduler l).picked i)) =
    completeJob i (.plain .ok) (s.lineOffDone l i p) := by
  have frame : Frame [.eng, .sched, .entries, .cells] s ((s.settingsApplied l i p).stationsOff l) :=
    settingsApplied_frame.then (stationsOff_frame ..)
  have setup (k : Fin 16) : ((s.settingsApplied l i p).stationsOff l).isSetup k = s.isSetup k := by
    simp only [State.isSetup, State.slotIs, State.slot_congr (frame.same .slots).1]
  have queue : (((s.settingsApplied l i p).stationsOff l).scheduler l).orderQueue =
      (s.scheduler l).orderQueue.filter (· != i) := by
    rw [(stationsOff_frame ..).scheduler, settingsApplied_scheduler, if_pos rfl]
    rfl
  have items : (((s.settingsApplied l i p).stationsOff l).scheduler l).orderQueue.filter
      (fun k => !((s.settingsApplied l i p).stationsOff l).isSetup k) = s.itemsOff l i := by
    rw [queue, State.itemsOff]
    exact List.filter_congr fun k _ => by rw [setup]
  rw [applySetup, h, State.lineOffDone, ← items]
  rfl

end

/-! ### The items that complete -/

theorem State.isSetup_notOrder {s : State} {k : Fin 16} (h : s.isSetup k = true) (n : Fin 64) :
    s.isOrderFor n k = false := by
  obtain ⟨j, slot, kind⟩ := State.isSetup_iff.mp h
  refine Bool.eq_false_iff.mpr fun order => ?_
  obtain ⟨j', slot', kind', -⟩ := State.isOrderFor_iff.mp order
  cases slot.symm.trans slot'
  cases kind.symm.trans kind'

theorem State.isSetup_notHold {s : State} {k : Fin 16} (h : s.isSetup k = true) (n : Fin 64) :
    s.waitsFor .hold n k ≠ true := by
  obtain ⟨j, slot, kind⟩ := State.isSetup_iff.mp h
  intro waits
  obtain ⟨j', slot', -, kind', -⟩ := State.waitsFor_iff.mp waits
  cases slot.symm.trans slot'
  cases kind.symm.trans kind'

theorem mem_itemsOff {s : State} {l : Fin 4} {i k : Fin 16} :
    k ∈ s.itemsOff l i ↔ k ∈ (s.scheduler l).orderQueue ∧ k ≠ i ∧ s.isSetup k = false := by
  simp only [State.itemsOff, List.mem_filter, bne_iff_ne, Bool.not_eq_true', and_assoc]

section
variable {s : State} {l : Fin 4} {i k : Fin 16} {j : Job} {p : SetupParams} {n : Fin 64}

theorem lineOffDone_frame : Frame [.eng, .sched, .slots, .entries, .cells] s (s.lineOffDone l i p) :=
  lineOffBase_frame.then (completeLineOff_frame ..)

theorem lineOffDone_tb : (s.lineOffDone l i p).tb = s.tb := lineOffDone_frame.same .tb

/-- A SETUP LINE keeps its slot while the other items complete. -/
theorem lineOffDone_slotKept (setup : s.isSetup k = true) : s.SlotKept (s.lineOffDone l i p) k := by
  have slot : (s.lineOffBase l i p).slot k = s.slot k := lineOffBase_slot k
  have time : (s.lineOffBase l i p).tb = s.tb := lineOffBase_frame.same .tb
  refine (State.SlotKept.of_eq slot).then (completeLineOff_slotKept ?_ (fun n => ?_) fun n => ?_) time lineOffDone_tb
  · exact fun listed => by rw [(mem_itemsOff.mp listed).2.2] at setup; cases setup
  · exact (State.isOrderFor_congr slot).trans (State.isSetup_notOrder setup n)
  · exact fun waits => State.isSetup_notHold setup n ((State.waitsFor_congr slot).symm.trans waits)

/-- In a slot that is kept a SETUP LINE loses members of its waiting set alone. -/
theorem State.SlotKept.setup {u : State} (kept : s.SlotKept u k) (slot : s.slot k = some j)
    (kind : j.kindOf = some .setupLine) : ∃ w, u.slot k = some { j with waitSet := w } := by
  refine (kept.2 j slot).resolve_right fun ⟨_, mark, _⟩ => ?_
  cases kind.symm.trans mark

theorem lineOffDone_scheduler : (s.lineOffDone l i p).scheduler l =
    { (((s.scheduler l).picked i).applySettings p).disabled with
      orderQueue := ((s.scheduler l).orderQueue.filter (· != i)).filter s.isSetup } := by
  have base : (s.lineOffBase l i p).scheduler l = (((s.scheduler l).picked i).applySettings p).disabled := by
    rw [lineOffBase_scheduler, if_pos rfl]
  have queue := completeLineOff_queue (l := l) (is := s.itemsOff l i) (s := s.lineOffBase l i p) (setup := s.isSetup)
    (by rw [base]; rfl)
    (fun k setup n => (State.isOrderFor_congr (lineOffBase_slot k)).trans (State.isSetup_notOrder setup n))
    (fun k listed => (mem_itemsOff.mp listed).2.2) fun k mem => ?_
  · rw [State.lineOffDone, queue, base]
    rfl
  · rw [base] at mem
    cases setup : s.isSetup k
    · exact .inr (List.mem_filter.mpr ⟨mem, by rw [setup]; rfl⟩)
    · exact .inl rfl

/-- Every ORDER of line l's queue is for an entry of the line. -/
def State.OrdersOnLine (s : State) (l : Fin 4) : Prop :=
  ∀ k n, k ∈ (s.scheduler l).orderQueue → s.isOrderFor n k = true → (s.entry n).line = l ∧ (s.entry n).state ≠ .vacant

theorem State.OrdersOnLine.unlatched (h : s.OrdersOnLine l) :
    (s.lineOffBase l i p).OrdersUnlatched (s.itemsOff l i) := by
  intro n k listed order
  rw [State.isOrderFor_congr (lineOffBase_slot k)] at order
  obtain ⟨line, known⟩ := h k n (mem_itemsOff.mp listed).1 order
  rw [lineOffBase_entry]
  exact lineOffEntry_latch line known

theorem lineOffDone_otherScheds (h : s.OrdersOnLine l) : s.OtherSchedsKept (s.lineOffDone l i p) l := by
  intro m other
  rw [State.lineOffDone, completeLineOff_otherScheds h.unlatched m other, lineOffBase_scheduler, if_neg other.symm]

/-- Every ORDER and BROADCAST of the queue completes LINE_OFF (R46). -/
theorem lineOffDone_completes (h : s.OrdersOnLine l) (mem : k ∈ (s.scheduler l).orderQueue) (other : k ≠ i)
    (slot : s.slot k = some j) (queued : j.state = .queued)
    (kind : j.kindOf = some .order ∨ j.kindOf = some .broadcast) :
    (s.lineOffDone l i p).completedWith k j ⟨.lineOff, 0, 0, []⟩ := by
  have noSetup : s.isSetup k = false := by
    refine Bool.eq_false_iff.mpr fun setup => ?_
    obtain ⟨j', slot', setupLine⟩ := State.isSetup_iff.mp setup
    cases slot.symm.trans slot'
    rcases kind with kind | kind <;> cases kind.symm.trans setupLine
  exact completeLineOff_completes h.unlatched (mem_itemsOff.mpr ⟨mem, other, noSetup⟩)
    ((lineOffBase_slot k).trans slot) queued

theorem lineOffDone_pending (line : (s.entry n).line = l)
    (state : (s.entry n).state = .live ∨ (s.entry n).state = .mute) : n ∈ (s.lineOffDone l i p).rep.pendingCells :=
  completeLineOff_pending (lineOffBase_pending line state)

/-- An ORDER for the entry is queued on line l. -/
def State.orderWaits (s : State) (l : Fin 4) (n : Fin 64) : Prop :=
  ∃ k, k ∈ (s.scheduler l).orderQueue ∧ s.isOrderFor n k = true

/-- Without a hold to settle the entry is left as the Station Table leaves it (R26). -/
theorem lineOffDone_entry (h : (s.entry n).holdPending = false ∨ (s.entry n).busy = true ∨ ¬ s.orderWaits l n) :
    (s.lineOffDone l i p).entry n = lineOffEntry s.tb.now l (s.entry n) := by
  obtain ⟨-, busy, pending⟩ := lineOffEntry_keeps s.tb.now l (s.entry n)
  rw [State.lineOffDone, completeLineOff_entry, lineOffBase_entry]
  rw [lineOffBase_entry, busy, pending]
  refine h.imp_right (Or.imp_right fun none k listed => Bool.eq_false_iff.mpr fun order => none ?_)
  exact ⟨k, (mem_itemsOff.mp listed).1, (State.isOrderFor_congr (lineOffBase_slot k)).symm.trans order⟩

/-- A hold that waited for the ORDERs of the queue alone is met (R23). -/
theorem lineOffDone_holdMet (h : s.OrdersOnLine l) (setup : s.isSetup i = true) (line : (s.entry n).line = l)
    (pending : (s.entry n).holdPending = true) (idle : (s.entry n).busy = false) (waits : s.orderWaits l n) :
    (s.lineOffBase l i p).HoldMet (s.lineOffDone l i p) n (s.itemsOff l i) := by
  obtain ⟨lineKept, busyKept, pendingKept⟩ := lineOffEntry_keeps s.tb.now l (s.entry n)
  have order (k : Fin 16) : (s.lineOffBase l i p).isOrderFor n k = s.isOrderFor n k :=
    State.isOrderFor_congr (lineOffBase_slot k)
  have listed (k : Fin 16) (mem : k ∈ (s.scheduler l).orderQueue) (ofN : s.isOrderFor n k = true) :
      k ∈ s.itemsOff l i := by
    have noSetup : s.isSetup k = false :=
      Bool.eq_false_iff.mpr fun isSetup => by rw [State.isSetup_notOrder isSetup n] at ofN; cases ofN
    have other : k ≠ i := by
      rintro rfl
      cases noSetup.symm.trans setup
    exact mem_itemsOff.mpr ⟨mem, other, noSetup⟩
  refine completeLineOff_holds ?_ ?_ ?_ h.unlatched ?_ fun k queued => ?_
  · rw [lineOffBase_entry, pendingKept, pending]
  · rw [lineOffBase_entry, busyKept, idle]
  · rw [lineOffBase_entry, lineKept, line]
  · exact waits.imp fun k ⟨mem, ofN⟩ => ⟨listed k mem ofN, (order k).trans ofN⟩
  · obtain ⟨mem, ofN⟩ := queued
    rw [lineOffBase_entry, lineKept, line, lineOffBase_scheduler, if_pos rfl] at mem
    exact listed k (List.mem_of_mem_filter mem) ((order k).symm.trans ofN)

end

/-! ### The pick as a whole -/

section
variable {s : State} {l : Fin 4} {i : Fin 16} {j : Job}

theorem pickItem_setupLine (slot : s.slot i = some j) (kind : j.kindOf = some .setupLine) :
    pickItem l i s = applySetup l i (SetupParams.ofBytes j.params) (s.setSched l ((s.scheduler l).picked i)) := by
  simp only [pickItem, slot, kind]

theorem State.orderWaits_iff {n : Fin 64} : s.orderWaits l n ↔ ∃ k, k ∈ (s.scheduler l).orderQueue ∧
    ∃ jk, s.slot k = some jk ∧ jk.kindOf = some .order ∧ targetEntry jk.target = some n :=
  exists_congr fun _ => and_congr_right fun _ => State.isOrderFor_iff

/-- The line left or newly enabled, before the pick's own completion. -/
def State.lineEnabled (s : State) (l : Fin 4) (i : Fin 16) (p : SetupParams) : State :=
  enableLine l (s.settingsApplied l i p)

variable {p : SetupParams}

theorem lineEnabled_frame : Frame [.eng, .sched] s (s.lineEnabled l i p) :=
  settingsApplied_frame.trans (enableLine_frame ..)

theorem lineEnabled_engine (m : Fin 4) : (s.lineEnabled l i p).engine m =
    if l = m then ((s.engine l).applySettings p).enterSettling s.moment (s.rxd l) else s.engine m := by
  have frame : Frame [.eng, .sched] s (s.settingsApplied l i p) := settingsApplied_frame
  have moment : (s.settingsApplied l i p).moment = s.moment := rfl
  have level : (s.settingsApplied l i p).rxd l = s.rxd l := rfl
  rw [State.lineEnabled, enableLine, State.engine_setSched_eq, State.engine_setEngine, settingsApplied_engine,
    settingsApplied_engine, if_pos rfl, moment, level]
  split <;> rfl

theorem lineEnabled_scheduler (m : Fin 4) : (s.lineEnabled l i p).scheduler m = if l = m then
    { ((s.scheduler l).picked i).applySettings p with
      enabled := true
      windowDue := if (((s.scheduler l).picked i).applySettings p).windowInterval = 0 then none
        else some (s.tb.now + (((s.scheduler l).picked i).applySettings p).windowInterval) } else s.scheduler m := by
  have tb : (s.settingsApplied l i p).tb = s.tb := rfl
  rw [State.lineEnabled, enableLine, State.scheduler_setSched, settingsApplied_scheduler, if_pos rfl, tb,
    State.scheduler_setEngine_eq, settingsApplied_scheduler]
  split <;> rfl

theorem lineOffDone_engine (m : Fin 4) : (s.lineOffDone l i p).engine m =
    if l = m then ((s.engine l).applySettings p).turnedOff else s.engine m := by
  rw [State.lineOffDone, (completeLineOff_frame ..).engine, lineOffBase_engine]

end

/-- Settles O36: the settings are written, and the enabled line and the line turned off are described by lemmas of their
own. -/
theorem setupLineApplied : Obligations.SetupLineApplied := by
  refine ⟨fun b => rfl, ?_⟩
  intro l i j s slot kind queued p e u order waits onLine q rest
  have undecided : j.state ≠ .completing := by rw [queued]; nofun
  have setup : s.isSetup i = true := State.isSetup_iff.mpr ⟨j, slot, kind⟩
  have picked : u = applySetup l i p (s.setSched l ((s.scheduler l).picked i)) := pickItem_setupLine slot kind
  cases enable : p.enable with
  | true =>
    have result : u = completeJob i (.plain .ok) (s.lineEnabled l i p) := picked.trans (applySetup_enables enable)
    have done : Frame [.slots] (s.lineEnabled l i p) u := result ▸ completeJob_frame ..
    have engine (m : Fin 4) := (done.engine m).trans (lineEnabled_engine m)
    have sched (m : Fin 4) := (done.scheduler m).trans (lineEnabled_scheduler m)
    have ownSched : u.scheduler l = _ := (sched l).trans (if_pos rfl)
    have ownEngine : u.engine l = _ := (engine l).trans (if_pos rfl)
    have slots (k : Fin 16) : (s.lineEnabled l i p).slot k = s.slot k :=
      State.slot_congr (lineEnabled_frame.same .slots).1 k
    have time : (s.lineEnabled l i p).tb = s.tb := lineEnabled_frame.same .tb
    have completed : u.completedWith i j ⟨.ok, 0, 0, []⟩ :=
      result ▸ completeJob_completedWith i _ _ j ((slots i).trans slot) undecided
    have frame : Frame [.eng, .sched, .slots] s u := lineEnabled_frame.then done
    have otherEngines : s.OtherEnginesKept u l := fun m other => (engine m).trans (if_neg other.symm)
    have otherScheds : s.OtherSchedsKept u l := fun m other => (sched m).trans (if_neg other.symm)
    have othersKept : s.OthersKept u i := fun k other =>
      result ▸ (State.SlotKept.of_eq (slots k)).completeJob time other
    rw [ownEngine, ownSched]
    refine ⟨by simp [Sched.applySettings, Sched.picked, Sched.keepOrders], completed, otherEngines,
      frame.mono (by decide), rfl, rfl, rfl, rfl, rfl, rfl, rfl, rfl, fun _ => ?_, nofun⟩
    refine ⟨rfl, rfl, rfl, rfl, rfl, rfl, frame.same .entries, frame, othersKept, otherScheds, ?_⟩
    simp [Sched.applySettings, Sched.picked, Sched.keepOrders, rest, q]
  | false =>
    have result : u = completeJob i (.plain .ok) (s.lineOffDone l i p) := picked.trans (applySetup_disables enable)
    have done : Frame [.slots] (s.lineOffDone l i p) u := result ▸ completeJob_frame ..
    have engine (m : Fin 4) := (done.engine m).trans (lineOffDone_engine m)
    have ownSched := (done.scheduler l).trans lineOffDone_scheduler
    have ownEngine : u.engine l = _ := (engine l).trans (if_pos rfl)
    have entry (n : Fin 64) : u.entry n = (s.lineOffDone l i p).entry n := done.entry n
    have cells : u.rep = (s.lineOffDone l i p).rep := done.rep
    have frame : Frame [.eng, .sched, .slots, .entries, .cells] s u := lineOffDone_frame.then done
    have onLine' (h : onLine) : s.OrdersOnLine l := fun k n mem ofN => h k n ⟨mem, State.isOrderFor_iff.mp ofN⟩
    have waits' (n : Fin 64) : waits n ↔ s.orderWaits l n := State.orderWaits_iff.symm
    have completed : u.completedWith i j ⟨.ok, 0, 0, []⟩ := by
      obtain ⟨w, stays⟩ := (lineOffDone_slotKept (l := l) (i := i) (p := p) setup).setup slot kind
      have own := completeJob_completedWith i (.plain .ok) _ _ stays undecided
      exact result ▸ own
    have otherEngines : s.OtherEnginesKept u l := fun m other => (engine m).trans (if_neg other.symm)
    rw [ownEngine, ownSched]
    refine ⟨by simp, completed, otherEngines, frame, rfl, rfl, rfl, rfl, rfl, rfl, rfl, rfl, nofun, fun _ => ?_⟩
    refine ⟨rfl, rfl, rfl, rfl, rfl, rfl, fun k jk mem slot => ?stays, rfl, fun h m other => ?scheds, rfl,
      frame.same .ntc, fun h k jk mem other slot queued kind => ?items, fun h n line pending idle called waits => ?held,
      fun n line state => cells ▸ lineOffDone_pending line state, fun n line free => ?entries⟩
    case stays =>
      obtain ⟨mem, isSetup⟩ := List.mem_filter.mp mem
      obtain ⟨jk', slot', setupLine⟩ := State.isSetup_iff.mp isSetup
      cases slot.symm.trans slot'
      have other : k ≠ i := by simpa using (List.mem_filter.mp mem).2
      have kept : s.SlotKept u k := result ▸ (lineOffDone_slotKept isSetup).completeJob lineOffDone_tb other
      exact kept.setup slot setupLine
    case scheds => exact (done.scheduler m).trans (lineOffDone_otherScheds (onLine' h) m other)
    case items => exact result ▸ (lineOffDone_completes (onLine' h) mem other slot queued kind).completeJob
    case held =>
      have met := lineOffDone_holdMet (p := p) (onLine' h) setup line pending idle ((waits' n).mp waits)
      refine ⟨?_, cells ▸ met.pending, fun k jk slot holds one left => ?_⟩
      · rw [entry, met.entry, lineOffBase_entry]
        rcases called with joining | live | mute
        · rw [lineOffEntry_of_joining line joining]
        · rw [lineOffEntry_of_called line (.inl live)]
        · rw [lineOffEntry_of_called line (.inr mute)]
      · have sameWaits (m : Fin 16) : (s.lineOffBase l i p).waitsFor .hold n m = s.waitsFor .hold n m :=
          State.waitsFor_congr (lineOffBase_slot m)
        refine result ▸ (met.completes k jk ((lineOffBase_slot k).trans slot) ((sameWaits k).trans holds)
          (fun m hm => one m ((sameWaits m).symm.trans hm)) fun listed => left (mem_itemsOff.mp listed).1).completeJob
    case entries =>
      have same : u.entry n = lineOffEntry s.tb.now l (s.entry n) :=
        (entry n).trans (lineOffDone_entry (free.imp_right (Or.imp_right (mt (waits' n).mpr))))
      rw [same]
      exact ⟨lineOffEntry_of_called line, lineOffEntry_of_joining line, lineOffEntry_of_held line⟩

end Sys2Proof.Machine
end
